-- ==== Sys2Proof/Word.lean ====
section
/-! DEFINITION. The word types of the machine (rules R7, R11, R20: bytes, 16-bit words, 32-bit dwords, 4-bit register numbers). -/

namespace Sys2Proof

/-- One byte: the content of one address location (rule R60). -/
abbrev Byte := BitVec 8

/-- A 16-bit instruction word or word datum (rules R7, R90). -/
abbrev Half := BitVec 16

/-- A 32-bit register, address or dword datum (rules R7, R60). -/
abbrev Word := BitVec 32

/-- A general register number 0 to 15; 15 is the program counter (rule R20). -/
abbrev Reg := BitVec 4

/-- A special register number P0 to P15 (rule R24). -/
abbrev PNum := BitVec 4

/-- The number of the program counter among the general registers (rule R20). -/
abbrev pcReg : Reg := 15#4

/-- The register that the assembler calls SP (rule R21). -/
abbrev spReg : Reg := 14#4

end Sys2Proof
end

