-- ==== Sys2Proof/Syntax.lean ====
section
/-! DEFINITION. The instructions as data: one constructor of `Instr` for each row of spec/opcode_table.json (rows that repeat a mnemonic for its reserved patterns share one constructor). -/

namespace Sys2Proof

/-- A size modifier `.B`, `.W`, `.D` (rules R11, R94). -/
inductive Size where
  | b
  | w
  | d
  deriving DecidableEq, Repr

/-- The size z of an extending instruction: byte or word (rules R11, R94). -/
inductive ZSize where
  | b
  | w
  deriving DecidableEq, Repr

/-- The size z as an ordinary size. -/
def ZSize.toSize : ZSize → Size
  | .b => .b
  | .w => .w

/-- The width of a size in address units (rule R11). -/
def Size.bytes : Size → Nat
  | .b => 1
  | .w => 2
  | .d => 4

/-- The bytes that immediate data of a size takes in the instruction stream: a byte counts as 2 (rule R97). -/
def Size.immBytes : Size → Nat
  | .b => 2
  | .w => 2
  | .d => 4

/-- The fifteen condition codes of Table 1-2 (rule R35); the sixteenth code is reserved and has no constructor. -/
inductive Cond where
  | cc
  | cs
  | ne
  | eq
  | vc
  | vs
  | pl
  | mi
  | ls
  | hi
  | ge
  | lt
  | gt
  | le
  | a
  deriving DecidableEq, Repr

/-- The mode and operand1 fields of a basic instruction word in mode 10 or 11 (rules R93, R104). Without an
addressing-mode prefix word they read `[Rn]` and `[Rn+]`; after one, `plain` only selects the operand and
`inc` also assigns the address to the register. -/
inductive AddrMode where
  /-- mode 10 with operand1 = r -/
  | plain (r : Reg)
  /-- mode 11 with operand1 = r -/
  | inc (r : Reg)
  deriving DecidableEq, Repr

/-- A memory or immediate source (rules R133 to R135). `imm v` is mode 11 with operand1 = PC, the datum `v`
standing in the instruction stream (zero-extended to 32 bits). -/
inductive SrcMode where
  | mem (a : AddrMode)
  | imm (v : Word)
  deriving DecidableEq, Repr

/-- The instructions. A constructor's name carries `Reg` for a register operand, `Mem` for a memory or
immediate operand. Field order: size, then destination, then source. -/
inductive Instr where
  -- mode 00 (rule R102)
  | reserved (w : Half)
  | ba8 (off : Byte)
  | bcc8 (c : Cond) (off : Byte)
  | bdapQuick (base : Reg) (off : Byte)
  | addq (rd : Reg) (imm : BitVec 6)
  | moveq (rd : Reg) (imm : BitVec 6)
  | subq (rd : Reg) (imm : BitVec 6)
  | cmpq (rd : Reg) (imm : BitVec 6)
  | andq (rd : Reg) (imm : BitVec 6)
  | orq (rd : Reg) (imm : BitVec 6)
  | btstq (rd : Reg) (n : BitVec 5)
  | asrq (rd : Reg) (n : BitVec 5)
  | lslq (rd : Reg) (n : BitVec 5)
  | lsrq (rd : Reg) (n : BitVec 5)
  -- mode 01 (rule R103)
  | adduReg (z : ZSize) (rd rs : Reg)
  | addsReg (z : ZSize) (rd rs : Reg)
  | movuReg (z : ZSize) (rd rs : Reg)
  | movsReg (z : ZSize) (rd rs : Reg)
  | subuReg (z : ZSize) (rd rs : Reg)
  | subsReg (z : ZSize) (rd rs : Reg)
  | btst (rd rs : Reg)
  | lsl (m : Size) (rd rs : Reg)
  | nop
  | scc (c : Cond) (rd : Reg)
  | addi (m : Size) (rd rs : Reg)
  | biap (m : Size) (index base : Reg)
  | ax
  | ei
  | setf (list : Byte)
  | neg (m : Size) (rd rs : Reg)
  | di
  | clearf (list : Byte)
  | boundReg (m : Size) (rd rs : Reg)
  | moveRegToSpecial (pd : PNum) (rs : Reg)
  | addReg (m : Size) (rd rs : Reg)
  | ret
  | reti
  | retb
  | clearByteReg (rd : Reg)
  | clearWordReg (rd : Reg)
  | clearDwordReg (rd : Reg)
  | moveSpecialToReg (ps : PNum) (rd : Reg)
  | moveReg (m : Size) (rd rs : Reg)
  | absReg (rd rs : Reg)
  | subReg (m : Size) (rd rs : Reg)
  | dstep (rd rs : Reg)
  | cmpReg (m : Size) (rd rs : Reg)
  | lz (rd rs : Reg)
  | andReg (m : Size) (rd rs : Reg)
  | notReg (rd : Reg)
  | swap (opts : BitVec 4) (rd : Reg)
  | orReg (m : Size) (rd rs : Reg)
  | xorReg (rd rs : Reg)
  | asr (m : Size) (rd rs : Reg)
  | mstep (rd rs : Reg)
  | lsr (m : Size) (rd rs : Reg)
  -- modes 10 and 11 (rules R104 to R106)
  | adduMem (z : ZSize) (rd : Reg) (src : SrcMode)
  | addsMem (z : ZSize) (rd : Reg) (src : SrcMode)
  | movuMem (z : ZSize) (rd : Reg) (src : SrcMode)
  | movsMem (z : ZSize) (rd : Reg) (src : SrcMode)
  | subuMem (z : ZSize) (rd : Reg) (src : SrcMode)
  | subsMem (z : ZSize) (rd : Reg) (src : SrcMode)
  | cmpuMem (z : ZSize) (rd : Reg) (src : SrcMode)
  | cmpsMem (z : ZSize) (rd : Reg) (src : SrcMode)
  | brk (n : BitVec 4)
  | jumpImm (target : Word)
  | jumpMem (src : AddrMode)
  | jsrMem (src : SrcMode)
  | jirMem (src : SrcMode)
  | jsrcMem (src : SrcMode)
  | jircMem (src : SrcMode)
  | jbrcMem (src : SrcMode)
  | dip (src : SrcMode)
  | bdap (m : Size) (base : Reg) (off : SrcMode)
  | jumpReg (rs : Reg)
  | jsrReg (rs : Reg)
  | jirReg (rs : Reg)
  | jsrcReg (rs : Reg)
  | jircReg (rs : Reg)
  | jbrcReg (rs : Reg)
  | ba16 (off : Half)
  | bcc16 (c : Cond) (off : Half)
  | boundMem (m : Size) (rd : Reg) (src : SrcMode)
  | popSpecial (pd : PNum)
  | moveMemToSpecial (pd : PNum) (src : SrcMode)
  | addMem (m : Size) (rd : Reg) (src : SrcMode)
  | popReg (rd : Reg)
  | clearByteMem (dst : AddrMode)
  | clearWordMem (dst : AddrMode)
  | clearDwordMem (dst : AddrMode)
  | moveSpecialToMem (ps : PNum) (dst : AddrMode)
  | moveMemToReg (m : Size) (rd : Reg) (src : SrcMode)
  | subMem (m : Size) (rd : Reg) (src : SrcMode)
  | cmpMem (m : Size) (rd : Reg) (src : SrcMode)
  | andMem (m : Size) (rd : Reg) (src : SrcMode)
  | orMem (m : Size) (rd : Reg) (src : SrcMode)
  | movemLoad (rd : Reg) (src : AddrMode)
  | testMem (m : Size) (src : SrcMode)
  | movemStore (rs : Reg) (dst : AddrMode)
  | moveRegToMem (m : Size) (rs : Reg) (dst : AddrMode)
  -- assembler names that decoding does not reach (rule R113)
  | testReg (m : Size) (rn : Reg)
  | pushReg (rn : Reg)
  | pushSpecial (pn : PNum)
  deriving DecidableEq, Repr

end Sys2Proof
end

