-- ==== Sys2Proof/WellFormed.lean ====
section
/-! DEFINITION. `Instr.wellFormed`: the term is the instruction that the decode order of rule R113 gives for its own words. `Instr.legal`: the restrictions on operands that no mask of the opcode table expresses (rule R111(c), (h)). -/

namespace Sys2Proof

/-- Immediate data fits its size, and mode 11 with operand1 = PC is written as immediate data, not as
autoincrement (rule R97). -/
def SrcMode.fits (m : Size) : SrcMode → Bool
  | .mem (.plain _) => true
  | .mem (.inc r) => r != pcReg
  | .imm v => v.toNat < 2 ^ (8 * m.bytes)

/-- The data size of a MOVE to or from the special register with this number (rule R109). -/
def PNum.size (p : PNum) : Size :=
  if p.toNat < 4 then .b else if p.toNat < 8 then .w else .d

/-- P2, P3, P6, P7 and P15 are neither implemented nor zero registers (rule R34). -/
def PNum.implemented (p : PNum) : Bool :=
  p != 2#4 && p != 3#4 && p != 6#4 && p != 7#4 && p != 15#4

/-- P0, P4 and P8 are the zero registers (rule R25): CLEAR has rows of its own for them (rule R113). -/
def PNum.zeroRegister (p : PNum) : Bool :=
  p == 0#4 || p == 4#4 || p == 8#4

/-- SRP, IRP and BRP: `MOVE Ps,PC` with one of them is RET, RETI, RETB (rule R198). -/
def PNum.returnPointer (p : PNum) : Bool :=
  p == 11#4 || p == 10#4 || p == 14#4

/-- The patterns of a row that the opcode table names RESERVED (rules R102 to R106, R111). -/
def reservedWord (w : Half) : Bool :=
  let op2 := w.extractLsb' 12 4
  let mode := w.extractLsb' 10 2
  let opc := w.extractLsb' 6 4
  let size := w.extractLsb' 4 2
  let op1 := w.extractLsb' 0 4
  match mode.toNat with
  | 0 => opc.toNat < 4 && w.extractLsb' 8 2 == 0#2 && op2 == 15#4
  | 1 => size == 3#2 && (opc == 5#4 || (opc == 4#4 && op2 == 15#4))
  | k =>
    match opc.toNat with
    | 4 =>
      size != 3#2 ||
        !(op2 == 0#4 || op2 == 11#4 || op2 == 10#4 || op2 == 3#4 || op2 == 2#4 || op2 == 6#4 ||
          (op2 == 14#4 && k == 2))
    | 5 => size == 3#2 && op2 != 0#4
    | 6 =>
      size != 3#2 || k == 3 ||
        !(op2 == 0#4 || op2 == 11#4 || op2 == 10#4 || op2 == 3#4 || op2 == 2#4 || op2 == 6#4)
    | 7 => size == 3#2 && (k == 2 || op1 != 15#4 || op2 == 15#4)
    | 10 => size == 3#2
    | 11 => size == 3#2
    | 12 => size == 3#2
    | 13 => size == 3#2
    | 14 => size != 3#2 && op2 != 0#4
    | _ => false

/-- The three names that decoding does not reach (rule R113): TEST.m Rn is MOVE.m Rn,Rn, and PUSH is a prefix
word and a MOVE. -/
def Instr.assemblerName : Instr → Bool
  | .testReg .. => true
  | .pushReg .. => true
  | .pushSpecial .. => true
  | _ => false

/-- The term's words decode to the term: its immediate data fits, and no earlier row of the opcode table has
its pattern (rule R113). -/
def Instr.wellFormed : Instr → Bool
  | .reserved w => reservedWord w
  | .bcc8 c _ => c != .a
  | .bcc16 c _ => c != .a
  | .addi m rd rs => !(m == .b && rd == pcReg && rs == 0#4)
  | .setf list => list != 0x10#8 && list != 0x20#8
  | .clearf list => list != 0x20#8
  | .moveSpecialToReg p rd => !p.zeroRegister && !(p.returnPointer && rd == pcReg)
  | .swap opts _ => opts != 8#4
  | .adduMem z _ src => src.fits z.toSize
  | .addsMem z _ src => src.fits z.toSize
  | .movuMem z _ src => src.fits z.toSize
  | .movsMem z _ src => src.fits z.toSize
  | .subuMem z _ src => src.fits z.toSize
  | .subsMem z _ src => src.fits z.toSize
  | .cmpuMem z _ src => src.fits z.toSize
  | .cmpsMem z _ src => src.fits z.toSize
  | .jumpMem src => src != .inc pcReg
  | .jsrMem src => src.fits .d
  | .jirMem src => src.fits .d
  | .jsrcMem src => src.fits .d
  | .jircMem src => src.fits .d
  | .jbrcMem src => src.fits .d
  | .dip src => src.fits .d
  | .bdap m _ off => off.fits m
  | .boundMem m _ src => src.fits m
  | .moveMemToSpecial p src => src.fits p.size && src != .mem (.inc spReg)
  | .addMem m _ src => src.fits m
  | .moveSpecialToMem p _ => !p.zeroRegister
  | .moveMemToReg m _ src => src.fits m && !(m == .d && src == .mem (.inc spReg))
  | .subMem m _ src => src.fits m
  | .cmpMem m _ src => src.fits m
  | .andMem m _ src => src.fits m
  | .orMem m _ src => src.fits m
  | .testMem m src => src.fits m
  | i => !i.assemblerName

/-- The restrictions on operands alone, whatever the state: no unimplemented special register (rule R34), no
PC as the destination of an instruction that does not support it (rules R167, R174), no PC in a MOVEM list
(rules R265, R266), no reserved pattern (rule R111). -/
def Instr.legal : Instr → Bool
  | .reserved _ => false
  | .lslq rd _ => rd != pcReg
  | .lsrq rd _ => rd != pcReg
  | .lsl _ rd _ => rd != pcReg
  | .lsr _ rd _ => rd != pcReg
  | .scc _ rd => rd != pcReg
  | .addi _ rd _ => rd != pcReg
  | .neg _ rd _ => rd != pcReg
  | .boundReg _ rd _ => rd != pcReg
  | .boundMem _ rd _ => rd != pcReg
  | .moveRegToSpecial p _ => p.implemented
  | .moveMemToSpecial p _ => p.implemented
  | .moveSpecialToMem p _ => p.implemented
  | .popSpecial p => p.implemented
  | .pushSpecial p => p.implemented
  | .moveSpecialToReg p rd => p.implemented && (rd != pcReg || p.returnPointer)
  | .clearByteReg rd => rd != pcReg
  | .clearWordReg rd => rd != pcReg
  | .clearDwordReg rd => rd != pcReg
  | .dstep rd _ => rd != pcReg
  | .mstep rd _ => rd != pcReg
  | .notReg rd => rd != pcReg
  | .swap _ rd => rd != pcReg
  | .movemLoad rd _ => rd != pcReg
  | .movemStore rs _ => rs != pcReg
  | _ => true

end Sys2Proof
end

