-- ==== Sys2Proof/Decode.lean ====
section
/-! DEFINITION. The decoder (rule R113) and, after it, the encoder, both written from the field layout of rules R92, R99, R102 to R108 and R112. The bit positions are the spec's general knowledge (PRESUMED, log entry 19). -/

namespace Sys2Proof

/-! ## Fields of an instruction word (rule R92) -/

/-- word bits 15:12 -/
def fieldOp2 (w : Half) : BitVec 4 := w.extractLsb' 12 4

/-- word bits 11:10 -/
def fieldMode (w : Half) : BitVec 2 := w.extractLsb' 10 2

/-- word bits 9:6 -/
def fieldOpc (w : Half) : BitVec 4 := w.extractLsb' 6 4

/-- word bits 5:4 -/
def fieldSize (w : Half) : BitVec 2 := w.extractLsb' 4 2

/-- word bits 3:0 -/
def fieldOp1 (w : Half) : BitVec 4 := w.extractLsb' 0 4

/-- The word with these five fields (rule R92). -/
def packWord (op2 : BitVec 4) (mode : BitVec 2) (opc : BitVec 4) (size : BitVec 2) (op1 : BitVec 4) : Half :=
  op2 ++ mode ++ opc ++ size ++ op1

/-- The 6-bit immediate: the size and operand1 fields together (rule R95). -/
def quickImm (z : BitVec 2) (r : BitVec 4) : BitVec 6 := z ++ r

/-- The 5-bit count: word bits 4:0 (rule R95). -/
def quickCount (z : BitVec 2) (r : BitVec 4) : BitVec 5 := z.extractLsb' 0 1 ++ r

/-- The low byte of a word, from its fields: bits 7:6 are the low half of the opcode field (rules R99, R106). -/
def lowByte (o : BitVec 4) (z : BitVec 2) (r : BitVec 4) : Byte := o.extractLsb' 0 2 ++ z ++ r

/-- The size of a size code other than 11 (rule R94). -/
def sizeOfCode (z : BitVec 2) : Size :=
  if z = 0#2 then .b else if z = 1#2 then .w else .d

/-- The size z of an extending instruction: word bit 4 (rules R94, R103). -/
def zsizeOfCode (z : BitVec 2) : ZSize :=
  if z.getLsbD 0 then .w else .b

/-- Table 1-2 (rule R35): the condition of a 4-bit code; 1111 is reserved. -/
def condOfCode (c : BitVec 4) : Option Cond :=
  match c.toNat with
  | 0 => some .cc
  | 1 => some .cs
  | 2 => some .ne
  | 3 => some .eq
  | 4 => some .vc
  | 5 => some .vs
  | 6 => some .pl
  | 7 => some .mi
  | 8 => some .ls
  | 9 => some .hi
  | 10 => some .ge
  | 11 => some .lt
  | 12 => some .gt
  | 13 => some .le
  | 14 => some .a
  | _ => none

/-! ## The decoder -/

/-- Immediate data of a size from the two words behind an instruction word; a byte is the low byte of its
16-bit slot and the other byte is ignored (rule R97, decision D25). -/
def immOfSize (m : Size) (nxt : Word) : Word :=
  match m with
  | .b => nxt &&& 0xFF#32
  | .w => nxt &&& 0xFFFF#32
  | .d => nxt

/-- A memory or immediate source from the mode and operand1 fields (rules R93, R97). -/
def srcOf (m : Size) (auto : Bool) (r : BitVec 4) (nxt : Word) : SrcMode :=
  if auto then (if r = pcReg then .imm (immOfSize m nxt) else .mem (.inc r)) else .mem (.plain r)

/-- A memory destination from the mode and operand1 fields; no immediate data follows (rule R111(g)). -/
def dstOf (auto : Bool) (r : BitVec 4) : AddrMode :=
  if auto then .inc r else .plain r

/-- Mode 00 (rule R102). -/
def decodeQuick (p : BitVec 4) (o : BitVec 4) (z : BitVec 2) (r : BitVec 4) : Instr :=
  match o.toNat with
  | 8 => .addq p (quickImm z r)
  | 9 => .moveq p (quickImm z r)
  | 10 => .subq p (quickImm z r)
  | 11 => .cmpq p (quickImm z r)
  | 12 => .andq p (quickImm z r)
  | 13 => .orq p (quickImm z r)
  | 14 => if z.getLsbD 1 then .asrq p (quickCount z r) else .btstq p (quickCount z r)
  | 15 => if z.getLsbD 1 then .lsrq p (quickCount z r) else .lslq p (quickCount z r)
  | k =>
    if k < 4 then
      match condOfCode p with
      | none => .reserved (packWord p 0#2 o z r)
      | some .a => .ba8 (lowByte o z r)
      | some c => .bcc8 c (lowByte o z r)
    else .bdapQuick p (lowByte o z r)

/-- Mode 01 (rule R103). -/
def decodeReg (p : BitVec 4) (o : BitVec 4) (z : BitVec 2) (r : BitVec 4) : Instr :=
  let special := z = 3#2
  let m := sizeOfCode z
  let e := zsizeOfCode z
  match o.toNat with
  | 0 => if z.getLsbD 1 then .addsReg e p r else .adduReg e p r
  | 1 => if z.getLsbD 1 then .movsReg e p r else .movuReg e p r
  | 2 => if z.getLsbD 1 then .subsReg e p r else .subuReg e p r
  | 3 => if special then .btst p r else .lsl m p r
  | 4 =>
    if special then
      match condOfCode p with
      | none => .reserved (packWord p 1#2 o z r)
      | some c => .scc c r
    else if z = 0#2 ∧ p = 0#4 ∧ r = pcReg then .nop
    else .addi m r p
  | 5 => if special then .reserved (packWord p 1#2 o z r) else .biap m p r
  | 6 =>
    if special then
      if p ++ r = 0x10#8 then .ax
      else if p ++ r = 0x20#8 then .ei
      else .setf (p ++ r)
    else .neg m p r
  | 7 =>
    if special then
      if p ++ r = 0x20#8 then .di else .clearf (p ++ r)
    else .boundReg m p r
  | 8 => if special then .moveRegToSpecial p r else .addReg m p r
  | 9 =>
    if special then
      if r = pcReg ∧ p = 11#4 then .ret
      else if r = pcReg ∧ p = 10#4 then .reti
      else if r = pcReg ∧ p = 14#4 then .retb
      else if p = 0#4 then .clearByteReg r
      else if p = 4#4 then .clearWordReg r
      else if p = 8#4 then .clearDwordReg r
      else .moveSpecialToReg p r
    else .moveReg m p r
  | 10 => if special then .absReg p r else .subReg m p r
  | 11 => if special then .dstep p r else .cmpReg m p r
  | 12 => if special then .lz p r else .andReg m p r
  | 13 => if special then (if p = 8#4 then .notReg r else .swap p r) else .orReg m p r
  | 14 => if special then .xorReg p r else .asr m p r
  | _ => if special then .mstep p r else .lsr m p r

/-- The jump group with a memory or immediate operand, and BREAK (rules R105, R112). -/
def decodeJumpMem (p : BitVec 4) (auto : Bool) (r : BitVec 4) (nxt : Word) : Instr :=
  let src := srcOf .d auto r nxt
  match p.toNat with
  | 0 => if auto ∧ r = pcReg then .jumpImm nxt else .jumpMem (dstOf auto r)
  | 11 => .jsrMem src
  | 10 => .jirMem src
  | 3 => .jsrcMem src
  | 2 => .jircMem src
  | 6 => .jbrcMem src
  | 14 => if auto then .reserved (packWord p 3#2 4#4 3#2 r) else .brk r
  | _ => .reserved (packWord p (if auto then 3#2 else 2#2) 4#4 3#2 r)

/-- The jump group with a register operand (rule R105): word bit 10 must be 0. -/
def decodeJumpReg (p : BitVec 4) (auto : Bool) (r : BitVec 4) : Instr :=
  if auto then .reserved (packWord p 3#2 6#4 3#2 r)
  else
    match p.toNat with
    | 0 => .jumpReg r
    | 11 => .jsrReg r
    | 10 => .jirReg r
    | 3 => .jsrcReg r
    | 2 => .jircReg r
    | 6 => .jbrcReg r
    | _ => .reserved (packWord p 2#2 6#4 3#2 r)

/-- Modes 10 and 11 (rule R104); `auto` is word bit 10. -/
def decodeMem (p : BitVec 4) (auto : Bool) (o : BitVec 4) (z : BitVec 2) (r : BitVec 4) (nxt : Word) : Instr :=
  let special := z = 3#2
  let m := sizeOfCode z
  let e := zsizeOfCode z
  let word := packWord p (if auto then 3#2 else 2#2) o z r
  match o.toNat with
  | 0 => if z.getLsbD 1 then .addsMem e p (srcOf e.toSize auto r nxt) else .adduMem e p (srcOf e.toSize auto r nxt)
  | 1 => if z.getLsbD 1 then .movsMem e p (srcOf e.toSize auto r nxt) else .movuMem e p (srcOf e.toSize auto r nxt)
  | 2 => if z.getLsbD 1 then .subsMem e p (srcOf e.toSize auto r nxt) else .subuMem e p (srcOf e.toSize auto r nxt)
  | 3 => if z.getLsbD 1 then .cmpsMem e p (srcOf e.toSize auto r nxt) else .cmpuMem e p (srcOf e.toSize auto r nxt)
  | 4 => if special then decodeJumpMem p auto r nxt else .reserved word
  | 5 =>
    if special then (if p = 0#4 then .dip (srcOf .d auto r nxt) else .reserved word)
    else .bdap m p (srcOf m auto r nxt)
  | 6 => if special then decodeJumpReg p auto r else .reserved word
  | 7 =>
    if special then
      if auto ∧ r = pcReg then
        match condOfCode p with
        | none => .reserved word
        | some .a => .ba16 (nxt.setWidth 16)
        | some c => .bcc16 c (nxt.setWidth 16)
      else .reserved word
    else .boundMem m p (srcOf m auto r nxt)
  | 8 =>
    if special then
      if auto ∧ r = spReg then .popSpecial p else .moveMemToSpecial p (srcOf (PNum.size p) auto r nxt)
    else .addMem m p (srcOf m auto r nxt)
  | 9 =>
    if special then
      if p = 0#4 then .clearByteMem (dstOf auto r)
      else if p = 4#4 then .clearWordMem (dstOf auto r)
      else if p = 8#4 then .clearDwordMem (dstOf auto r)
      else .moveSpecialToMem p (dstOf auto r)
    else if z = 2#2 ∧ auto ∧ r = spReg then .popReg p
    else .moveMemToReg m p (srcOf m auto r nxt)
  | 10 => if special then .reserved word else .subMem m p (srcOf m auto r nxt)
  | 11 => if special then .reserved word else .cmpMem m p (srcOf m auto r nxt)
  | 12 => if special then .reserved word else .andMem m p (srcOf m auto r nxt)
  | 13 => if special then .reserved word else .orMem m p (srcOf m auto r nxt)
  | 14 =>
    if special then .movemLoad p (dstOf auto r)
    else if p = 0#4 then .testMem m (srcOf m auto r nxt)
    else .reserved word
  | _ => if special then .movemStore p (dstOf auto r) else .moveRegToMem m p (dstOf auto r)

/-- Decoding by the mode bits first, then opcode and size (rule R113). -/
def decodeFields (p : BitVec 4) (mode : BitVec 2) (o : BitVec 4) (z : BitVec 2) (r : BitVec 4) (nxt : Word) : Instr :=
  match mode.toNat with
  | 0 => decodeQuick p o z r
  | 1 => decodeReg p o z r
  | 2 => decodeMem p false o z r nxt
  | _ => decodeMem p true o z r nxt

/-- The instruction of the word `w`; `nxt` is the 32 bits that follow it in memory. Total: a reserved pattern
is the instruction `reserved` (rule R111). -/
def decodeWord (w : Half) (nxt : Word) : Instr :=
  decodeFields (fieldOp2 w) (fieldMode w) (fieldOpc w) (fieldSize w) (fieldOp1 w) nxt

/-! ## Lengths (rule R100) -/

/-- The bytes of immediate data of a source. -/
def SrcMode.immLength (m : Size) : SrcMode → Nat
  | .mem _ => 0
  | .imm _ => m.immBytes

/-- The bytes of immediate data behind the instruction's word (rules R97, R100, R106). -/
def Instr.immLength : Instr → Nat
  | .adduMem z _ src => src.immLength z.toSize
  | .addsMem z _ src => src.immLength z.toSize
  | .movuMem z _ src => src.immLength z.toSize
  | .movsMem z _ src => src.immLength z.toSize
  | .subuMem z _ src => src.immLength z.toSize
  | .subsMem z _ src => src.immLength z.toSize
  | .cmpuMem z _ src => src.immLength z.toSize
  | .cmpsMem z _ src => src.immLength z.toSize
  | .jumpImm _ => 4
  | .jsrMem src => src.immLength .d
  | .jirMem src => src.immLength .d
  | .jsrcMem src => src.immLength .d
  | .jircMem src => src.immLength .d
  | .jbrcMem src => src.immLength .d
  | .dip src => src.immLength .d
  | .bdap m _ off => off.immLength m
  | .ba16 _ => 2
  | .bcc16 _ _ => 2
  | .boundMem m _ src => src.immLength m
  | .moveMemToSpecial p src => src.immLength (PNum.size p)
  | .addMem m _ src => src.immLength m
  | .moveMemToReg m _ src => src.immLength m
  | .subMem m _ src => src.immLength m
  | .cmpMem m _ src => src.immLength m
  | .andMem m _ src => src.immLength m
  | .orMem m _ src => src.immLength m
  | .testMem m src => src.immLength m
  | _ => 0

/-- The length in bytes of the instruction's words: 2 and its immediate data; PUSH is two words (rules R100,
R202). -/
def Instr.length (i : Instr) : Nat :=
  match i with
  | .pushReg _ => 4
  | .pushSpecial _ => 4
  | i => 2 + i.immLength

/-! ## Decoding a list of words -/

/-- Why a list of words holds no instruction. -/
inductive DecodeReject where
  /-- There is no word. -/
  | noWord
  /-- The immediate data is cut off. -/
  | immediateDataMissing
  deriving DecidableEq, Repr

/-- The 32 bits that the next two words of a list hold, low word first (rule R61); 0 past its end. -/
def dwordOfWords : List Half → Word
  | [] => 0
  | [a] => a.setWidth 32
  | a :: b :: _ => b ++ a

/-- The first instruction of a list of words and the words behind it. -/
def decode : List Half → Except DecodeReject (Instr × List Half)
  | [] => .error .noWord
  | w :: rest =>
    let i := decodeWord w (dwordOfWords rest)
    let k := i.immLength / 2
    if rest.length < k then .error .immediateDataMissing else .ok (i, rest.drop k)

/-- The 16-bit words of the low `nbits` bits of `w`, the first word in the low bits, and zero words up to the
longest instruction. -/
def wordsOfNat (nbits w : Nat) : List Half :=
  let v := w % 2 ^ nbits
  [BitVec.ofNat 16 v, BitVec.ofNat 16 (v / 2 ^ 16), BitVec.ofNat 16 (v / 2 ^ 32), BitVec.ofNat 16 (v / 2 ^ 48)]

/-- The instruction that the decoder reads from an instruction whose bits are `w`, numbered as
spec/opcode_table.json numbers them; the bits from `nbits` up are 0. -/
def decodeTableWord (nbits w : Nat) : Option Instr :=
  match decode (wordsOfNat nbits w) with
  | .ok (i, _) => some i
  | .error _ => none

/-! ## The encoder -/

/-- The 4-bit code of a condition (Table 1-2, rule R35). -/
def Cond.code : Cond → BitVec 4
  | .cc => 0#4
  | .cs => 1#4
  | .ne => 2#4
  | .eq => 3#4
  | .vc => 4#4
  | .vs => 5#4
  | .pl => 6#4
  | .mi => 7#4
  | .ls => 8#4
  | .hi => 9#4
  | .ge => 10#4
  | .lt => 11#4
  | .gt => 12#4
  | .le => 13#4
  | .a => 14#4

/-- The size code (Table 1-6, rule R94). -/
def Size.code : Size → BitVec 2
  | .b => 0#2
  | .w => 1#2
  | .d => 2#2

/-- The size field of a zero-extending instruction: 0z (rule R103). -/
def ZSize.codeU : ZSize → BitVec 2
  | .b => 0#2
  | .w => 1#2

/-- The size field of a sign-extending instruction: 1z (rule R103). -/
def ZSize.codeS : ZSize → BitVec 2
  | .b => 2#2
  | .w => 3#2

/-- The mode field of an address mode (rule R93). -/
def AddrMode.mode : AddrMode → BitVec 2
  | .plain _ => 2#2
  | .inc _ => 3#2

/-- The operand1 field of an address mode. -/
def AddrMode.op1 : AddrMode → BitVec 4
  | .plain r => r
  | .inc r => r

/-- The mode field of a source; the immediate mode is mode 11 with operand1 = PC (rule R97). -/
def SrcMode.mode : SrcMode → BitVec 2
  | .mem a => a.mode
  | .imm _ => 3#2

/-- The operand1 field of a source. -/
def SrcMode.op1 : SrcMode → BitVec 4
  | .mem a => a.op1
  | .imm _ => pcReg

/-- The word of a quick instruction with a 6-bit immediate (rule R102). -/
def quickWord (rd opc : BitVec 4) (imm : BitVec 6) : Half :=
  packWord rd 0#2 opc (imm.extractLsb' 4 2) (imm.extractLsb' 0 4)

/-- The word of a quick instruction with a 5-bit count; `b` is word bit 5 (rule R102). -/
def countWord (rd opc : BitVec 4) (b : BitVec 1) (n : BitVec 5) : Half :=
  packWord rd 0#2 opc (b ++ n.extractLsb' 4 1) (n.extractLsb' 0 4)

/-- The word with a byte in bits 7:0 and `hi` in bits 9:8 of a mode-00 word (rules R99, R106). -/
def byteWord (op2 : BitVec 4) (hi : BitVec 2) (v : Byte) : Half :=
  packWord op2 0#2 (hi ++ v.extractLsb' 6 2) (v.extractLsb' 4 2) (v.extractLsb' 0 4)

/-- A register-mode word (rule R103). -/
def regWord (op2 opc : BitVec 4) (size : BitVec 2) (op1 : BitVec 4) : Half :=
  packWord op2 1#2 opc size op1

/-- A memory-mode word of a source (rule R104). -/
def srcWord (op2 opc : BitVec 4) (size : BitVec 2) (s : SrcMode) : Half :=
  packWord op2 s.mode opc size s.op1

/-- A memory-mode word of an address mode (rule R104). -/
def addrWord (op2 opc : BitVec 4) (size : BitVec 2) (a : AddrMode) : Half :=
  packWord op2 a.mode opc size a.op1

/-- The words of immediate data, low word first; the unused byte of a byte datum is 0 (rules R61, R97). -/
def immWords (m : Size) (v : Word) : List Half :=
  match m with
  | .b => [v.setWidth 16]
  | .w => [v.setWidth 16]
  | .d => [v.setWidth 16, v.extractLsb' 16 16]

/-- The immediate words of a source. -/
def SrcMode.words (m : Size) : SrcMode → List Half
  | .mem _ => []
  | .imm v => immWords m v

/-- The first word of an instruction (rules R99, R102 to R108, R110, R112). -/
def Instr.word : Instr → Half
  | .reserved w => w
  | .ba8 off => byteWord Cond.a.code 0#2 off
  | .bcc8 c off => byteWord c.code 0#2 off
  | .bdapQuick base off => byteWord base 1#2 off
  | .addq rd imm => quickWord rd 8#4 imm
  | .moveq rd imm => quickWord rd 9#4 imm
  | .subq rd imm => quickWord rd 10#4 imm
  | .cmpq rd imm => quickWord rd 11#4 imm
  | .andq rd imm => quickWord rd 12#4 imm
  | .orq rd imm => quickWord rd 13#4 imm
  | .btstq rd n => countWord rd 14#4 0#1 n
  | .asrq rd n => countWord rd 14#4 1#1 n
  | .lslq rd n => countWord rd 15#4 0#1 n
  | .lsrq rd n => countWord rd 15#4 1#1 n
  | .adduReg z rd rs => regWord rd 0#4 z.codeU rs
  | .addsReg z rd rs => regWord rd 0#4 z.codeS rs
  | .movuReg z rd rs => regWord rd 1#4 z.codeU rs
  | .movsReg z rd rs => regWord rd 1#4 z.codeS rs
  | .subuReg z rd rs => regWord rd 2#4 z.codeU rs
  | .subsReg z rd rs => regWord rd 2#4 z.codeS rs
  | .btst rd rs => regWord rd 3#4 3#2 rs
  | .lsl m rd rs => regWord rd 3#4 m.code rs
  | .nop => regWord 0#4 4#4 0#2 pcReg
  | .scc c rd => regWord c.code 4#4 3#2 rd
  | .addi m rd rs => regWord rs 4#4 m.code rd
  | .biap m index base => regWord index 5#4 m.code base
  | .ax => regWord 1#4 6#4 3#2 0#4
  | .ei => regWord 2#4 6#4 3#2 0#4
  | .setf list => regWord (list.extractLsb' 4 4) 6#4 3#2 (list.extractLsb' 0 4)
  | .neg m rd rs => regWord rd 6#4 m.code rs
  | .di => regWord 2#4 7#4 3#2 0#4
  | .clearf list => regWord (list.extractLsb' 4 4) 7#4 3#2 (list.extractLsb' 0 4)
  | .boundReg m rd rs => regWord rd 7#4 m.code rs
  | .moveRegToSpecial pd rs => regWord pd 8#4 3#2 rs
  | .addReg m rd rs => regWord rd 8#4 m.code rs
  | .ret => regWord 11#4 9#4 3#2 pcReg
  | .reti => regWord 10#4 9#4 3#2 pcReg
  | .retb => regWord 14#4 9#4 3#2 pcReg
  | .clearByteReg rd => regWord 0#4 9#4 3#2 rd
  | .clearWordReg rd => regWord 4#4 9#4 3#2 rd
  | .clearDwordReg rd => regWord 8#4 9#4 3#2 rd
  | .moveSpecialToReg ps rd => regWord ps 9#4 3#2 rd
  | .moveReg m rd rs => regWord rd 9#4 m.code rs
  | .absReg rd rs => regWord rd 10#4 3#2 rs
  | .subReg m rd rs => regWord rd 10#4 m.code rs
  | .dstep rd rs => regWord rd 11#4 3#2 rs
  | .cmpReg m rd rs => regWord rd 11#4 m.code rs
  | .lz rd rs => regWord rd 12#4 3#2 rs
  | .andReg m rd rs => regWord rd 12#4 m.code rs
  | .notReg rd => regWord 8#4 13#4 3#2 rd
  | .swap opts rd => regWord opts 13#4 3#2 rd
  | .orReg m rd rs => regWord rd 13#4 m.code rs
  | .xorReg rd rs => regWord rd 14#4 3#2 rs
  | .asr m rd rs => regWord rd 14#4 m.code rs
  | .mstep rd rs => regWord rd 15#4 3#2 rs
  | .lsr m rd rs => regWord rd 15#4 m.code rs
  | .adduMem z rd src => srcWord rd 0#4 z.codeU src
  | .addsMem z rd src => srcWord rd 0#4 z.codeS src
  | .movuMem z rd src => srcWord rd 1#4 z.codeU src
  | .movsMem z rd src => srcWord rd 1#4 z.codeS src
  | .subuMem z rd src => srcWord rd 2#4 z.codeU src
  | .subsMem z rd src => srcWord rd 2#4 z.codeS src
  | .cmpuMem z rd src => srcWord rd 3#4 z.codeU src
  | .cmpsMem z rd src => srcWord rd 3#4 z.codeS src
  | .brk n => packWord 14#4 2#2 4#4 3#2 n
  | .jumpImm _ => packWord 0#4 3#2 4#4 3#2 pcReg
  | .jumpMem src => addrWord 0#4 4#4 3#2 src
  | .jsrMem src => srcWord 11#4 4#4 3#2 src
  | .jirMem src => srcWord 10#4 4#4 3#2 src
  | .jsrcMem src => srcWord 3#4 4#4 3#2 src
  | .jircMem src => srcWord 2#4 4#4 3#2 src
  | .jbrcMem src => srcWord 6#4 4#4 3#2 src
  | .dip src => srcWord 0#4 5#4 3#2 src
  | .bdap m base off => srcWord base 5#4 m.code off
  | .jumpReg rs => packWord 0#4 2#2 6#4 3#2 rs
  | .jsrReg rs => packWord 11#4 2#2 6#4 3#2 rs
  | .jirReg rs => packWord 10#4 2#2 6#4 3#2 rs
  | .jsrcReg rs => packWord 3#4 2#2 6#4 3#2 rs
  | .jircReg rs => packWord 2#4 2#2 6#4 3#2 rs
  | .jbrcReg rs => packWord 6#4 2#2 6#4 3#2 rs
  | .ba16 _ => packWord Cond.a.code 3#2 7#4 3#2 pcReg
  | .bcc16 c _ => packWord c.code 3#2 7#4 3#2 pcReg
  | .boundMem m rd src => srcWord rd 7#4 m.code src
  | .popSpecial pd => packWord pd 3#2 8#4 3#2 spReg
  | .moveMemToSpecial pd src => srcWord pd 8#4 3#2 src
  | .addMem m rd src => srcWord rd 8#4 m.code src
  | .popReg rd => packWord rd 3#2 9#4 2#2 spReg
  | .clearByteMem dst => addrWord 0#4 9#4 3#2 dst
  | .clearWordMem dst => addrWord 4#4 9#4 3#2 dst
  | .clearDwordMem dst => addrWord 8#4 9#4 3#2 dst
  | .moveSpecialToMem ps dst => addrWord ps 9#4 3#2 dst
  | .moveMemToReg m rd src => srcWord rd 9#4 m.code src
  | .subMem m rd src => srcWord rd 10#4 m.code src
  | .cmpMem m rd src => srcWord rd 11#4 m.code src
  | .andMem m rd src => srcWord rd 12#4 m.code src
  | .orMem m rd src => srcWord rd 13#4 m.code src
  | .movemLoad rd src => addrWord rd 14#4 3#2 src
  | .testMem m src => srcWord 0#4 14#4 m.code src
  | .movemStore rs dst => addrWord rs 15#4 3#2 dst
  | .moveRegToMem m rs dst => addrWord rs 15#4 m.code dst
  | .testReg m rn => regWord rn 9#4 m.code rn
  | .pushReg _ => byteWord spReg 1#2 0xFC#8
  | .pushSpecial pn => byteWord spReg 1#2 (BitVec.ofNat 8 (256 - (PNum.size pn).bytes))

/-- The words behind the first one: immediate data, or the second word of PUSH. -/
def Instr.tailWords : Instr → List Half
  | .adduMem z _ src => src.words z.toSize
  | .addsMem z _ src => src.words z.toSize
  | .movuMem z _ src => src.words z.toSize
  | .movsMem z _ src => src.words z.toSize
  | .subuMem z _ src => src.words z.toSize
  | .subsMem z _ src => src.words z.toSize
  | .cmpuMem z _ src => src.words z.toSize
  | .cmpsMem z _ src => src.words z.toSize
  | .jumpImm t => immWords .d t
  | .jsrMem src => src.words .d
  | .jirMem src => src.words .d
  | .jsrcMem src => src.words .d
  | .jircMem src => src.words .d
  | .jbrcMem src => src.words .d
  | .dip src => src.words .d
  | .bdap m _ off => off.words m
  | .ba16 off => [off]
  | .bcc16 _ off => [off]
  | .boundMem m _ src => src.words m
  | .moveMemToSpecial p src => src.words (PNum.size p)
  | .addMem m _ src => src.words m
  | .moveMemToReg m _ src => src.words m
  | .subMem m _ src => src.words m
  | .cmpMem m _ src => src.words m
  | .andMem m _ src => src.words m
  | .orMem m _ src => src.words m
  | .testMem m src => src.words m
  | .pushReg rn => [addrWord rn 15#4 Size.d.code (.inc spReg)]
  | .pushSpecial pn => [addrWord pn 9#4 3#2 (.inc spReg)]
  | _ => []

/-- The words of an instruction, in address order. -/
def encode (i : Instr) : List Half := i.word :: i.tailWords

end Sys2Proof
end

