-- ==== Sys2Proof/Config.lean ====
section
/-! DEFINITION. What an implementation or platform fixes (the parameters of rule R8) as plain data, and the one free value of the spec (a constant with no body). -/

namespace Sys2Proof.Config

/-- The flag M after a hardware-breakpoint acknowledge, which rule R310 leaves open (`draw`, decision D13).
The argument is the number of draws made so far; nothing constrains the answer. -/
opaque maskAfterHit : Nat → Bool

/-- The two chips the spec covers (rule R2): they differ only in what VR reads. -/
inductive Version where
  | v1
  | v2
  deriving DecidableEq, Repr

/-- `VR_VALUE`: 8 for ETRAX 100 version 1 and 9 for version 2 (rules R2, R26). -/
def Version.value : Version → Byte
  | .v1 => 8
  | .v2 => 9

/-- The parameter `Alias31` (rule R68, decision D9): what an access to one location through both values of
address bit 31 means. -/
inductive Alias31 where
  /-- Both addresses name one location and always agree. -/
  | sameLocation
  /-- A program that reaches one location through both addresses has no meaning. -/
  | unspecified
  deriving DecidableEq, Repr

/-- A run of `size` addresses from `base` that hold memory. -/
structure Region where
  base : Nat
  size : Nat
  deriving DecidableEq, Repr

/-- The parameters of rule R8 that the model takes as data. No step changes them. -/
structure Params where
  /-- `VR_VALUE` -/
  version : Version
  /-- `MemMap` (decision D23): the addresses that hold memory. -/
  memMap : List Region
  /-- `Alias31` (decision D9) -/
  alias31 : Alias31
  /-- `HWBP_ON_FETCH` (decision D13): are instruction-word fetches compared with BAR? -/
  breakOnFetch : Bool
  /-- `HWBP_ON_VECTOR_READ` (decision D13): is the vector read of an acknowledge sequence compared with BAR? -/
  breakOnVectorRead : Bool
  /-- `ExternalWriters` (decision D8): may another bus master change memory? What it writes is the field `others` of
  the state. -/
  externalWriters : Bool
  /-- `EndOfRun` (decision D28): the address at which a run ends, if one is stated. -/
  endOfRun : Option Word
  deriving DecidableEq, Repr

/-- The values of the parameters that the model takes after reset: the spec's own defaults (92_eei_decisions.md
section 2), except `MemMap` (the whole address space) and `Alias31` (`same_location`), which are DESIGN CHOICES
(log entries 5 and 6). No end of the run is stated (log entry 30). -/
def Params.standard : Params where
  version := .v1
  memMap := [⟨0, 2 ^ 32⟩]
  alias31 := .sameLocation
  breakOnFetch := false
  breakOnVectorRead := false
  externalWriters := false
  endOfRun := none

end Sys2Proof.Config
end

