-- ==== Sys2Proof/Machine/State.lean ====
section
/-! DEFINITION. The state of the machine as plain data, the reasons a step can stop, and the state after reset. -/

namespace Sys2Proof.Machine

open Sys2Proof.Config

/-! ## Why a step stops -/

/-- The machine's faults. The manual has none (rule R315). -/
inductive Fault where
  /-- An access to an address that `MemMap` does not declare as memory (rule R62, decision D23: the spec gives
  it no result). Raised by every memory access and by instruction fetch. Safe: the machine stops. -/
  | notMemory
  deriving DecidableEq, Repr

/-- The situations to which the spec gives no meaning (`refuse`, rule R14). All are safe: the machine stops
where the hardware may go on. -/
inductive Refusal where
  /-- Raised by an arm of `exec` whose instruction has no meaning yet (none in this model). Safe. -/
  | notModelled (mnemonic : String)
  /-- A reserved pattern of the opcode map (rule R111(a), (b), (d)). Raised by `execReserved`. Safe. -/
  | reservedEncoding
  /-- Special register P2, P3, P6, P7 or P15 (rule R34). Raised by the special-register moves. Safe. -/
  | unimplementedSpecialRegister
  /-- PC as the destination of an instruction that does not support it (rule R167). Raised by those. Safe. -/
  | pcDestinationUnsupported
  /-- `MOVE Ps,PC` with Ps other than SRP, IRP, BRP, CLEAR of PC included (rule R174). Safe. -/
  | moveSpecialToPc
  /-- PC in the register list of MOVEM (rules R265, R266). Raised by MOVEM. Safe. -/
  | movemOfPc
  /-- Indirect mode, or a prefix word with i = 0, on PC (rules R111(f), R141, R146). Safe. -/
  | indirectThroughPc
  /-- The immediate mode as a destination, or as MOVEM's source (rule R111(g)). Safe. -/
  | immediateDestination
  /-- A prefix word before a word that cannot take it (rule R147). Safe. -/
  | prefixNotApplicable
  /-- A prefix word before a prefix word (rule R143). Raised by the prefix words. Safe. -/
  | consecutivePrefixes
  /-- A mode-11 word after the double-indirect prefix (rule R145). Safe. -/
  | assignAfterDoubleIndirect
  /-- An assign register Rp that is PC (rule R137). Safe. -/
  | assignToPc
  /-- A prefixed plain-mode word whose operand1 differs from its general destination (rule R136). Safe. -/
  | threeOperandForm
  /-- A register that the addressing mode changes is also the destination, the stored source, in the MOVEM list
  or the base of the same offset prefix (rules R134, R137, R141; decision D17). Safe. -/
  | addressRegisterConflict
  /-- An instruction that may not stand in a delay slot stands in one (rule R164). Safe. -/
  | forbiddenInDelaySlot
  /-- An odd address would reach the program counter (rule R50). Safe. -/
  | oddProgramCounter
  /-- ABS, ADDI, BOUND, DSTEP or MSTEP with X = 1 (rule R247, decision D18). Safe. -/
  | extendUndefined
  /-- A byte that the program has stored to is fetched as part of an instruction (rule R78). Raised by
  instruction fetch. Safe. -/
  | storedCode
  /-- One location is reached through both values of address bit 31 while `Alias31` is `unspecified`
  (rule R68). Raised by every memory access and by instruction fetch. Safe. -/
  | aliasConflict
  deriving DecidableEq, Repr

/-! ## The parts of the state -/

/-- The eight flags (rules R27, R28). There is one copy; CCR and DCCR are views of it. -/
structure Flags where
  m : Bool
  b : Bool
  i : Bool
  x : Bool
  n : Bool
  z : Bool
  v : Bool
  c : Bool
  deriving DecidableEq, Repr

/-- The pending delayed jump (`delay`, rule R45), and whether the next instruction stands in a delay slot
(rule R164: the slot of a branch that is not taken is one too). -/
inductive Slot where
  /-- The next instruction stands in no delay slot. -/
  | none
  /-- The next instruction is the slot of a branch whose condition was false. -/
  | notTaken
  /-- The next instruction is a delay slot; pc then becomes `target`. -/
  | pending (target : Word)
  deriving DecidableEq, Repr

/-- What an addressing-mode prefix word passes to the basic word behind it (rule R136). -/
structure Latch where
  /-- the operand address `EA` -/
  ea : Word
  /-- the register the prefix word incremented, if any (decision D17) -/
  bumped : Option Reg
  /-- the prefix word is the double-indirect one (rule R145) -/
  fromDip : Bool
  deriving DecidableEq, Repr

/-- The prefetch register (rules R46, R71): two bytes and the address they were fetched from. -/
structure Prefetch where
  addr : Word
  half : Half
  deriving DecidableEq, Repr

/-- The order in which the hardware considers the hardware-breakpoint hit (h), the NMI (n) and the interrupt
(i) at one boundary: rule R311 fixes none. -/
inductive TrapOrder where
  | hni
  | hin
  | nhi
  | nih
  | ihn
  | inh
  deriving DecidableEq, Repr

/-- What reset leaves unknown in the processor (rule R48). -/
structure Unknowns where
  regs : Vector Word 15
  irp : Word
  srp : Word
  bar : Word
  brp : Word
  deriving DecidableEq, Repr

/-- What the environment `IntEnv` presents at one step (rule R303, decisions D11, D12, D27). -/
structure Input where
  /-- a reset, with the values the registers it leaves unknown then hold (rules R340, R341) -/
  reset : Option Unknowns
  /-- a maskable interrupt request, with the number answered in its INTA cycle -/
  irq : Option Byte
  /-- an NMI request, with the number answered in its INTA cycle -/
  nmi : Option Byte
  /-- which of several eligible traps is taken -/
  order : TrapOrder
  deriving DecidableEq, Repr

/-- The input at a step at which the environment presents nothing. -/
def Input.quiet : Input := ⟨Option.none, Option.none, Option.none, .hni⟩

/-- The bytes of memory by location (address bits 30 to 0): strictly rising, and no entry that equals what an
unlisted location reads as. -/
abbrev Memory := List Host.Cell

/-- What a location that is not listed reads as (DESIGN CHOICE, unsafe, log entry 4). -/
def Memory.unlisted : Byte := 0

/-- The number of locations: address bits 30 to 0 name one (rule R68). -/
def Memory.size : Nat := 2 ^ 31

/-- The canonical form, above a lower bound. -/
def Memory.wfFrom : Nat → Memory → Bool
  | _, [] => true
  | lo, (l, v) :: rest => decide (lo ≤ l) && decide (l < Memory.size) && (v != Memory.unlisted) && Memory.wfFrom (l + 1) rest

/-- The canonical form of memory. -/
def Memory.wf (m : Memory) : Bool := Memory.wfFrom 0 m

/-- The state of the CPU, its memory and what its environment will present (INVENTORY.md, State). -/
structure State where
  /-- R0 to R14 (rule R20) -/
  regs : Vector Word 15
  /-- the program counter (rule R22) -/
  pc : Word
  /-- the flags (rule R28) -/
  flags : Flags
  /-- bits 31 to 16 of IBR, the implemented ones (rule R29) -/
  ibrHigh : Half
  /-- Interrupt Return Pointer (rule R30) -/
  irp : Word
  /-- Subroutine Return Pointer (rule R31) -/
  srp : Word
  /-- Breakpoint Address Register (rule R32) -/
  bar : Word
  /-- Breakpoint Return Pointer (rule R33) -/
  brp : Word
  /-- the interrupt-disable window (rule R44) -/
  irqWindow : Bool
  /-- the pending delayed jump (rule R45) -/
  slot : Slot
  /-- the prefetch register (rule R46) -/
  prefetch : Option Prefetch
  /-- a hardware-breakpoint hit not yet taken (rules R47, R310) -/
  hit : Bool
  /-- the prefix address, inside a prefixed instruction only (rule R136) -/
  latch : Option Latch
  /-- memory by location (rules R60, R68) -/
  mem : Memory
  /-- the model's own: locations the program has stored to, rising (rule R78) -/
  stored : List Nat
  /-- the model's own: address bit 31 with which a location was reached, by rising location (rule R68) -/
  aliasSeen : List (Nat × Bool)
  /-- what the environment presents at the coming steps; past its end, nothing (rule R303) -/
  env : List Input
  /-- what other bus masters write: one list of (address, byte) before each coming bus access of the CPU; it counts only
  while `ExternalWriters` holds (rules R65, R74, decision D8) -/
  others : List (List (Word × Byte))
  /-- the model's own: how many free values were drawn (rule R310) -/
  draws : Nat
  /-- the parameters of rule R8; no step changes them -/
  params : Params
  deriving DecidableEq, Repr

/-- The values the model gives to what reset leaves unknown (DESIGN CHOICE, unsafe, log entry 1). -/
def Unknowns.zero : Unknowns where
  regs := Vector.replicate 15 0
  irp := 0
  srp := 0
  bar := 0
  brp := 0

/-- All flags clear (rule R48). -/
def Flags.clear : Flags := ⟨false, false, false, false, false, false, false, false⟩

/-- The address at which execution starts (rule R48). -/
def resetVector : Word := 0x80000002#32

/-- The machine right after reset: rule R48's values, nothing in memory, nothing presented by the environment;
what the spec leaves unknown is zero (log entries 1 to 8). -/
def State.reset : State where
  regs := Unknowns.zero.regs
  pc := resetVector
  flags := Flags.clear
  ibrHigh := 0
  irp := Unknowns.zero.irp
  srp := Unknowns.zero.srp
  bar := Unknowns.zero.bar
  brp := Unknowns.zero.brp
  irqWindow := false
  slot := .none
  prefetch := Option.none
  hit := false
  latch := Option.none
  mem := []
  stored := []
  aliasSeen := []
  env := []
  others := []
  draws := 0
  params := Params.standard

end Sys2Proof.Machine
end

