-- ==== Sys2Proof/Machine/Flags.lean ====
section
/-! DEFINITION. The flag byte, the condition codes, and how instructions compute flags (rules R28, R35 to R43, R247). -/

namespace Sys2Proof.Machine

/-! ## The flag byte (rule R28) -/

/-- The flag byte: bit 7 to bit 0 are M B I X N Z V C (rule R28). -/
def Flags.toByte (f : Flags) : Byte :=
  BitVec.ofBool f.m ++ BitVec.ofBool f.b ++ BitVec.ofBool f.i ++ BitVec.ofBool f.x ++
    BitVec.ofBool f.n ++ BitVec.ofBool f.z ++ BitVec.ofBool f.v ++ BitVec.ofBool f.c

/-- A move of data to CCR or DCCR (rule R40): B, I, N, Z, V, C from the data, X cleared, M kept. -/
def Flags.moveTo (f : Flags) (s : Word) : Flags where
  m := f.m
  b := s.getLsbD 6
  i := s.getLsbD 5
  x := false
  n := s.getLsbD 3
  z := s.getLsbD 2
  v := s.getLsbD 1
  c := s.getLsbD 0

/-- SETF (rules R41, R191): the listed flags become 1, the others stay, but X becomes 0 when it is not
listed. -/
def Flags.setList (f : Flags) (list : Byte) : Flags where
  m := f.m || list.getLsbD 7
  b := f.b || list.getLsbD 6
  i := f.i || list.getLsbD 5
  x := list.getLsbD 4
  n := f.n || list.getLsbD 3
  z := f.z || list.getLsbD 2
  v := f.v || list.getLsbD 1
  c := f.c || list.getLsbD 0

/-- CLEARF (rules R41, R192): the listed flags but M become 0, the others stay, X becomes 0. -/
def Flags.clearList (f : Flags) (list : Byte) : Flags where
  m := f.m
  b := f.b && !list.getLsbD 6
  i := f.i && !list.getLsbD 5
  x := false
  n := f.n && !list.getLsbD 3
  z := f.z && !list.getLsbD 2
  v := f.v && !list.getLsbD 1
  c := f.c && !list.getLsbD 0

/-! ## Condition codes (rule R35, Table 1-2) -/

/-- The Boolean function of a condition code. -/
def Flags.holds (f : Flags) : Cond → Bool
  | .cc => !f.c
  | .cs => f.c
  | .ne => !f.z
  | .eq => f.z
  | .vc => !f.v
  | .vs => f.v
  | .pl => !f.n
  | .mi => f.n
  | .ls => f.c || f.z
  | .hi => !f.c && !f.z
  | .ge => (f.n && f.v) || (!f.n && !f.v)
  | .lt => (f.n && !f.v) || (!f.n && f.v)
  | .gt => (f.n && f.v && !f.z) || (!f.n && !f.v && !f.z)
  | .le => f.z || (f.n && !f.v) || (!f.n && f.v)
  | .a => true

/-! ## Values of a size, held in 32 bits with zeros above -/

/-- The number of the most significant bit of a size. -/
def sizeMsb : Size → Nat
  | .b => 7
  | .w => 15
  | .d => 31

/-- The low bits of a size, zeros above (rule R10). -/
def truncTo (m : Size) (v : Word) : Word :=
  match m with
  | .b => (v.setWidth 8).setWidth 32
  | .w => (v.setWidth 16).setWidth 32
  | .d => v

/-- The low bits of a size, sign-extended to 32 bits (rule R10). -/
def signExtendFrom (m : Size) (v : Word) : Word :=
  match m with
  | .b => (v.setWidth 8).signExtend 32
  | .w => (v.setWidth 16).signExtend 32
  | .d => v

/-- Replaces the low bits of a size; the rest is unaffected (rules R12, R20). -/
def mergeLow (m : Size) (old new : Word) : Word :=
  match m with
  | .b => old.extractLsb' 8 24 ++ new.setWidth 8
  | .w => old.extractLsb' 16 16 ++ new.setWidth 16
  | .d => new

/-- The most significant bit of a value of a size. -/
def msbOf (m : Size) (v : Word) : Bool := v.getLsbD (sizeMsb m)

/-! ## Flag computations (rules R36 to R39, R43, R247) -/

/-- Z of a result (rule R36): with X set, a zero result leaves Z at its old value. -/
def zeroFlag (f : Flags) (r : Word) : Bool := decide (r = 0) && (f.z || !f.x)

/-- The carry-in of extended arithmetic: C when X is set (rules R230, R247). -/
def carryIn (f : Flags) : Word := if f.x && f.c then 1 else 0

/-- The general case: N and Z from the result (rule R36), V and C cleared (rule R43). -/
def generalFlags (m : Size) (r : Word) (f : Flags) : Flags :=
  { f with n := msbOf m r, z := zeroFlag f r, v := false, c := false }

/-- Addition of S to D with result R (rule R37). -/
def addFlags (m : Size) (s d r : Word) (f : Flags) : Flags :=
  let sm := msbOf m s
  let dm := msbOf m d
  let rm := msbOf m r
  { f with
    n := rm
    z := zeroFlag f r
    v := (sm && dm && !rm) || (!sm && !dm && rm)
    c := (sm && dm) || (dm && !rm) || (sm && !rm) }

/-- Subtraction of S from D with result R (rule R38). -/
def subFlags (m : Size) (s d r : Word) (f : Flags) : Flags :=
  let sm := msbOf m s
  let dm := msbOf m d
  let rm := msbOf m r
  { f with
    n := rm
    z := zeroFlag f r
    v := (!sm && dm && !rm) || (sm && !dm && rm)
    c := (sm && !dm) || (!dm && rm) || (sm && rm) }

/-- Bit test of bit `n` of D (rules R39, R284): N is the bit, Z says that it and every bit below it are zero. -/
def bitFlags (n : Nat) (d : Word) (f : Flags) : Flags :=
  { f with
    n := d.getLsbD n
    z := decide (d <<< (31 - n) = 0) && (f.z || !f.x)
    v := false
    c := false }

/-! ## Result and flags of a computation from S, D and the old flags -/

/-- A computation: the source S, the destination D and the old flags give the result and the new flags. -/
abbrev Alu := Word → Word → Flags → Word × Flags

/-- D + S + carry-in (rules R231, R247). -/
def addAlu (m : Size) : Alu := fun s d f =>
  let r := truncTo m (d + s + carryIn f)
  (r, addFlags m s d r f)

/-- D - S - carry-in (rules R236, R247). -/
def subAlu (m : Size) : Alu := fun s d f =>
  let r := truncTo m (d - s - carryIn f)
  (r, subFlags m s d r f)

/-- 0 - S - carry-in, the destination operand of the flag formulas being zero (rule R243). -/
def negAlu (m : Size) : Alu := fun s _ f =>
  let r := truncTo m (0 - s - carryIn f)
  (r, subFlags m s 0 r f)

/-- A result `r` of S and D with the general flags (rules R36, R43). -/
def plainAlu (m : Size) (op : Word → Word → Word) : Alu := fun s d f =>
  let r := op s d
  (r, generalFlags m r f)

/-- S itself (rules R260 to R262, R267, R268). -/
def moveAlu (m : Size) : Alu := plainAlu m fun s _ => s

/-- D & S (rules R269, R270). -/
def andAlu (m : Size) : Alu := plainAlu m fun s d => d &&& s

/-- D | S (rules R271, R273). -/
def orAlu (m : Size) : Alu := plainAlu m fun s d => d ||| s

/-- D ^ S (rule R274). -/
def xorAlu : Alu := plainAlu .d fun s d => d ^^^ s

/-- D shifted left by S (rules R275, R276). -/
def lslAlu (m : Size) : Alu := plainAlu m fun s d => truncTo m (d <<< s.toNat)

/-- D shifted right by S, zeros entering (rules R277, R278). -/
def lsrAlu (m : Size) : Alu := plainAlu m fun s d => d >>> s.toNat

/-- D shifted right by S, copies of the sign entering (rules R279, R280). -/
def asrAlu (m : Size) : Alu := plainAlu m fun s d => truncTo m ((signExtendFrom m d).sshiftRight s.toNat)

/-- The unsigned minimum of D and S (rule R246). -/
def boundAlu : Alu := plainAlu .d fun s d => if d < s then d else s

/-- The absolute value of S (rule R245). -/
def absAlu : Alu := plainAlu .d fun s _ => if s.getLsbD 31 then 0 - s else s

/-- The number of zero bits at the top of the low `n` bits of `v`. -/
def leadingZeros (v : Word) : Nat → Nat
  | 0 => 0
  | n + 1 => if v.getLsbD n then 0 else leadingZeros v n + 1

/-- The number of leading zeros of S (rule R281). -/
def lzAlu : Alu := plainAlu .d fun s _ => BitVec.ofNat 32 (leadingZeros s 32)

/-- Reverses the bits within each byte. -/
def reverseInBytes (v : Word) : Word :=
  let a := ((v &&& 0x55555555#32) <<< 1) ||| ((v >>> 1) &&& 0x55555555#32)
  let b := ((a &&& 0x33333333#32) <<< 2) ||| ((a >>> 2) &&& 0x33333333#32)
  ((b &&& 0x0F0F0F0F#32) <<< 4) ||| ((b >>> 4) &&& 0x0F0F0F0F#32)

/-- Swaps the bytes within each 16-bit half. -/
def swapBytes (v : Word) : Word :=
  ((v &&& 0x00FF00FF#32) <<< 8) ||| ((v >>> 8) &&& 0x00FF00FF#32)

/-- Swaps the two 16-bit halves. -/
def swapHalves (v : Word) : Word := v.rotateLeft 16

/-- SWAP with option bits N W B R, applied in that order (rules R108, R282). -/
def swapValue (opts : BitVec 4) (v : Word) : Word :=
  let v := if opts.getLsbD 3 then ~~~v else v
  let v := if opts.getLsbD 2 then swapHalves v else v
  let v := if opts.getLsbD 1 then swapBytes v else v
  if opts.getLsbD 0 then reverseInBytes v else v

/-- SWAP of D (rules R272, R282). -/
def swapAlu (opts : BitVec 4) : Alu := plainAlu .d fun _ d => swapValue opts d

/-- The multiply step (rule R220): N before the instruction decides whether S is added. -/
def mstepAlu : Alu := fun s d f =>
  let r := (d <<< 1) + (if f.n then s else 0)
  (r, generalFlags .d r f)

/-- The divide step (rule R221). -/
def dstepAlu : Alu := plainAlu .d fun s d => if s ≤ d <<< 1 then (d <<< 1) - s else d <<< 1

/-- The bit test of bit S of D (rules R284, R285); nothing is the result. -/
def bitAlu : Alu := fun s d f => (d, bitFlags s.toNat d f)

end Sys2Proof.Machine
end

