-- ==== Sys2Proof/Machine/Ops.lean ====
section
/-! DEFINITION. The named operations over registers, memory and the program counter; taking an exception and returning from one. -/

namespace Sys2Proof.Machine

open Sys2Proof.Config

/-- A value, a fault or a refusal. -/
abbrev Result (α : Type) := Host.Outcome α Fault Refusal

/-- Goes on with the value, or stops with the fault or refusal. -/
def andThen {α β : Type} (x : Result α) (k : α → Result β) : Result β :=
  match x with
  | .next a => k a
  | .fault f => .fault f
  | .refused r => .refused r

/-- Refuses for the reason `r` when `bad` holds, else goes on. -/
def refuseIf {α : Type} (bad : Bool) (r : Refusal) (k : Result α) : Result α :=
  if bad then .refused r else k

/-- Refuses when an odd address would reach the program counter (rule R50). -/
def refuseOdd {α : Type} (t : Word) (k : Result α) : Result α :=
  refuseIf (t.getLsbD 0) .oddProgramCounter k

/-! ## General registers (rules R20, R23) -/

/-- The general register `r`; `pcValue` is what a read of PC yields in this use (rule R23). -/
def State.gpr (s : State) (r : Reg) (pcValue : Word) : Word :=
  if h : r.toNat < 15 then s.regs[r.toNat] else pcValue

/-- Writes one of R0 to R14; register 15 is written by the jump operations only. -/
def State.setGpr (s : State) (r : Reg) (v : Word) : State :=
  if h : r.toNat < 15 then { s with regs := s.regs.set r.toNat v } else s

/-! ## Bytes of memory -/

/-- The location an address names: its bits 30 to 0 (rule R68). -/
def location (a : Word) : Nat := a.toNat % Memory.size

/-- The byte at a location. -/
def Memory.byteAt : Memory → Nat → Byte
  | [], _ => Memory.unlisted
  | (l, v) :: rest, k => if l = k then v else Memory.byteAt rest k

/-- Writes the byte at a location and keeps the canonical form. -/
def Memory.setByte : Memory → Nat → Byte → Memory
  | [], k, v => if v = Memory.unlisted then [] else [(k, v)]
  | (l, w) :: rest, k, v =>
    if l < k then (l, w) :: Memory.setByte rest k v
    else if l = k then (if v = Memory.unlisted then rest else (k, v) :: rest)
    else (if v = Memory.unlisted then (l, w) :: rest else (k, v) :: (l, w) :: rest)

/-- The `n` bytes from address `a`, little-endian, zero-extended (rules R61, R62). -/
def Memory.load (m : Memory) : Nat → Word → Word
  | 0, _ => 0
  | n + 1, a => (Memory.load m n (a + 1) <<< 8) ||| (m.byteAt (location a)).setWidth 32

/-- Stores the low `n` bytes of `v` from address `a`, the least significant first (rules R61, R63). -/
def Memory.store (m : Memory) : Nat → Word → Word → Memory
  | 0, _, _ => m
  | n + 1, a, v => Memory.store (m.setByte (location a) (v.setWidth 8)) n (a + 1) (v >>> 8)

/-- The byte that a read of address `a` yields. -/
def State.peek (s : State) (a : Word) : Byte := s.mem.byteAt (location a)

/-- Is the location of `x` one of the locations of the `n` bytes from address `a`? -/
def inRange (x : Word) : Nat → Word → Bool
  | 0, _ => false
  | n + 1, a => decide (location x = location a) || inRange x n (a + 1)

/-! ## Which addresses may be accessed -/

/-- `MemMap` declares address `a` as memory (decision D23). -/
def mapped (p : Params) (a : Word) : Bool :=
  p.memMap.any fun r => decide (r.base ≤ a.toNat) && decide (a.toNat < r.base + r.size)

/-- The bit-31 value with which a location was reached before. -/
def aliasOf : List (Nat × Bool) → Nat → Option Bool
  | [], _ => none
  | (l, b) :: rest, k => if l = k then some b else aliasOf rest k

/-- Records the bit-31 value with which a location is reached, by rising location. -/
def noteAliasIn : List (Nat × Bool) → Nat → Bool → List (Nat × Bool)
  | [], k, b => [(k, b)]
  | (l, c) :: rest, k, b =>
    if l < k then (l, c) :: noteAliasIn rest k b
    else if l = k then (k, b) :: rest
    else (k, b) :: (l, c) :: rest

/-- The location of `a` was reached before through the other value of bit 31, which has no meaning when
`Alias31` is `unspecified` (rule R68). -/
def State.aliasClash (s : State) (a : Word) : Bool :=
  match s.params.alias31 with
  | .sameLocation => false
  | .unspecified =>
    match aliasOf s.aliasSeen (location a) with
    | none => false
    | some b => b != a.getLsbD 31

/-- Records an access to `a` when `Alias31` is `unspecified`. -/
def State.noteAlias (s : State) (a : Word) : State :=
  match s.params.alias31 with
  | .sameLocation => s
  | .unspecified => { s with aliasSeen := noteAliasIn s.aliasSeen (location a) (a.getLsbD 31) }

/-- The `n` bytes from address `a` may be accessed: all are memory, and no alias clashes. -/
def State.accessible (s : State) : Nat → Word → Bool
  | 0, _ => true
  | n + 1, a => mapped s.params a && !s.aliasClash a && State.accessible s n (a + 1)

/-- Checks and records an access to the `n` bytes from address `a` (rules R62, R63, R68). -/
def touch : Nat → Word → State → Result State
  | 0, _, s => .next s
  | n + 1, a, s =>
    if mapped s.params a then
      if s.aliasClash a then .refused .aliasConflict else touch n (a + 1) (s.noteAlias a)
    else .fault .notMemory

/-! ## The hardware-breakpoint comparison (rules R66, R309) -/

/-- Address bits 30 to 2. -/
def dwordOf (a : Word) : BitVec 29 := a.extractLsb' 2 29

/-- One of the bus accesses to the `n` bytes from `a` matches BAR. A split access presents both of its dwords,
so the comparison is made for every byte (rules R64, R309). -/
def matchesBar (bar : Word) : Nat → Word → Bool
  | 0, _ => false
  | n + 1, a => decide (dwordOf a = dwordOf bar) || matchesBar bar n (a + 1)

/-- Compares an access to the `n` bytes from `a` with BAR when B is set (rule R309). -/
def State.watch (s : State) (n : Nat) (a : Word) : State :=
  { s with hit := s.hit || (s.flags.b && matchesBar s.bar n a) }

/-! ## Memory accesses -/

/-- Stores single bytes, in the order of the list. -/
def Memory.putCells (m : Memory) (cells : List (Word × Byte)) : Memory :=
  cells.foldl (fun m c => m.setByte (location c.1) c.2) m

/-- Memory, and what the other bus masters do with it: `shared` says whether there are any (`ExternalWriters`), `others`
what they write before each coming bus access of the CPU. -/
structure Bus where
  mem : Memory
  others : List (List (Word × Byte))
  shared : Bool

/-- The other bus masters write before a bus access of the CPU, when there are any (rules R65, R74, decision D8,
log entry 10). -/
def Bus.advance (b : Bus) : Bus :=
  if b.shared then
    match b.others with
    | [] => b
    | cells :: rest => { b with mem := b.mem.putCells cells, others := rest }
  else b

/-- A second bus access begins at address `a`, which is behind the first byte of an access with `n` bytes left: a new
dword begins (rule R64). -/
def splitsAt (n : Nat) (a : Word) : Bool := decide (0 < n) && decide (a.extractLsb' 0 2 = 0#2)

/-- Goes on to the byte at `a` of an access with `n` bytes left; the other bus masters may write before it when it begins
a second bus access (rules R64, R65). -/
def Bus.goTo (b : Bus) (n : Nat) (a : Word) : Bus := if splitsAt n a then b.advance else b

/-- Reads the `n` bytes from address `a`, little-endian (rules R61, R62, R64). Of a split access the half below the
boundary is read first; rule R64 leaves the order open (DESIGN CHOICE, log entry 29). -/
def Bus.read (b : Bus) : Nat → Word → Word × Bus
  | 0, _ => (0, b)
  | n + 1, a =>
    let p := (b.goTo n (a + 1)).read n (a + 1)
    ((p.1 <<< 8) ||| (b.mem.byteAt (location a)).setWidth 32, p.2)

/-- Writes the low `n` bytes of `v` from address `a`, the least significant first (rules R61, R63, R64). Of
a split access the half below the boundary is written first (DESIGN CHOICE, log entry 29). -/
def Bus.write (b : Bus) : Nat → Word → Word → Bus
  | 0, _, _ => b
  | n + 1, a, v =>
    (Bus.goTo { b with mem := b.mem.setByte (location a) (v.setWidth 8) } n (a + 1)).write n (a + 1) (v >>> 8)

/-- Memory and the other bus masters of a state. -/
def State.bus (s : State) : Bus := ⟨s.mem, s.others, s.params.externalWriters⟩

/-- The state with memory and the other bus masters as given. -/
def State.withBus (s : State) (b : Bus) : State := { s with mem := b.mem, others := b.others }

/-- The state after the other bus masters wrote before a bus access. -/
def State.yieldBus (s : State) : State := s.withBus s.bus.advance

/-- `MemRead(a, n)` as a data access (rule R62): the value and the state after it. -/
def memRead (n : Nat) (a : Word) (s : State) : Result (Word × State) :=
  andThen (touch n a s) fun t =>
    let p := t.bus.advance.read n a
    .next (p.1, (t.withBus p.2).watch n a)

/-- Adds a location to the rising list of stored ones. -/
def noteStoredIn : List Nat → Nat → List Nat
  | [], k => [k]
  | l :: rest, k => if l < k then l :: noteStoredIn rest k else if l = k then l :: rest else k :: l :: rest

/-- Adds the locations of the `n` bytes from `a` to the stored ones. -/
def noteStored : Nat → Word → List Nat → List Nat
  | 0, _, l => l
  | n + 1, a, l => noteStored n (a + 1) (noteStoredIn l (location a))

/-- Some of the `n` bytes from `a` were stored to by the program (rule R78). -/
def State.storedAny (s : State) : Nat → Word → Bool
  | 0, _ => false
  | n + 1, a => s.stored.contains (location a) || State.storedAny s n (a + 1)

/-- The state with the low `n` bytes of `v` stored from address `a` and the locations noted (rules R63, R78). -/
def State.putBytes (s : State) (n : Nat) (a v : Word) : State :=
  { s.withBus (s.bus.advance.write n a v) with stored := noteStored n a s.stored }

/-- `MemWrite(a, n, v)` as a data access (rule R63). -/
def memWrite (n : Nat) (a v : Word) (s : State) : Result State :=
  andThen (touch n a s) fun t => .next ((t.watch n a).putBytes n a v)

/-! ## The end of an instruction (rule R300 part 3) -/

/-- The end of every instruction: X is cleared, the window takes the value this instruction gives it, and pc
is the pending delayed-jump target if this instruction stood in a taken delay slot, else `next`
(rules R42, R45, R300, R305). -/
def State.retire (s : State) (next : Word) (window : Bool) : State :=
  { s with
    pc := match s.slot with
      | .pending t => t
      | _ => next
    slot := .none
    latch := none
    irqWindow := window
    flags := { s.flags with x := false } }

/-- The instruction stands in a delay slot, taken or not (rule R164). -/
def State.inSlot (s : State) : Bool := s.slot != .none

/-- Goes on unless the instruction is of a kind that may not stand in a delay slot and stands in one
(rule R164). -/
def slotGuard {α : Type} (forbidden : Bool) (s : State) (k : Result α) : Result α :=
  refuseIf (forbidden && s.inSlot) .forbiddenInDelaySlot k

/-- Goes on unless a prefix word precedes an instruction that cannot take one (rule R147). -/
def unprefixed {α : Type} (s : State) (k : Result α) : Result α :=
  refuseIf s.latch.isSome .prefixNotApplicable k

/-! ## Transfers of control -/

/-- An immediate jump (rules R165, R166, R190): the target must be even; no delay slot. -/
def jumpNow (t : Word) (s : State) : Result State :=
  refuseOdd t (.next (s.retire t false))

/-- A delayed branch or return (rules R162, R171 to R173): `target` is none for a branch that is not taken.
The next instruction is the delay slot; the window keeps traps off until it has executed. -/
def jumpDelayed (target : Option Word) (next : Word) (s : State) : Result State :=
  match target with
  | none => .next { s.retire next true with slot := .notTaken }
  | some t => refuseOdd t (.next { s.retire next true with slot := .pending t })

/-- The return pointers (rules R30, R31, R33). -/
inductive Pointer where
  | irp
  | srp
  | brp
  deriving DecidableEq, Repr

/-- Stores a return address. -/
def State.setPointer (s : State) (p : Pointer) (v : Word) : State :=
  match p with
  | .irp => { s with irp := v }
  | .srp => { s with srp := v }
  | .brp => { s with brp := v }

/-- Reads a return pointer. -/
def State.pointer (s : State) : Pointer → Word
  | .irp => s.irp
  | .srp => s.srp
  | .brp => s.brp

/-- IBR as read: its implemented bits above sixteen zero bits (rule R29). -/
def State.ibr (s : State) : Word := s.ibrHigh ++ (0#16 : BitVec 16)

/-- The address of the vector of number `vec` (rule R302). -/
def State.vectorAddress (s : State) (vec : Byte) : Word := s.ibr + (vec.setWidth 32 <<< 2)

/-- The entry point of BREAK n (rules R190, R307). -/
def State.breakEntry (s : State) (n : BitVec 4) : Word := s.ibr + (n.setWidth 32 <<< 3)

/-- TAKING AN EXCEPTION, the one operation behind the interrupt, the NMI and the hardware breakpoint (rules
R301, R306, R310, R316): the return pointer `p` receives pc, pc receives the dword at the vector of number
`vec`, the window opens. The vector read is compared with BAR only when `HWBP_ON_VECTOR_READ` says so. -/
def takeException (p : Pointer) (vec : Byte) (s : State) : Result State :=
  let a := s.vectorAddress vec
  andThen (touch 4 a s) fun t =>
    let r := t.bus.advance.read 4 a
    let target := r.1
    let u := t.withBus r.2
    let w := if u.params.breakOnVectorRead then u.watch 4 a else u
    refuseOdd target (.next { w.setPointer p s.pc with pc := target, irqWindow := true })

/-- RETURNING FROM ONE (rules R171 to R173, R312): a delayed jump through the return pointer; no flag is
restored. It may not stand in a delay slot. -/
def returnThrough (p : Pointer) (s : State) : Result State :=
  unprefixed s <| slotGuard true s <| jumpDelayed (some (s.pointer p)) (s.pc + 2) s

end Sys2Proof.Machine
end

