-- ==== Sys2Proof/Machine/Operands.lean ====
section
/-! DEFINITION. Operand forms: addressing modes with and without a prefix word, immediate data, special registers, and the writing of results. -/

namespace Sys2Proof.Machine

/-! ## Memory operands (rules R133 to R137) -/

/-- The address after the basic instruction word at pc, for an instruction without immediate data; what a read
of PC as a plain source yields (rules R22, R23(h)). -/
def State.nextPc (s : State) : Word := s.pc + 2

/-- The address of a memory operand and the state after the addressing mode's own register change.
`step` is the autoincrement; `busy` says which registers the mode may not change (destination, stored source,
MOVEM list; decision D17); `dest` is the general destination that a prefixed plain word must repeat in its
operand1 field (rule R136). -/
def resolve (a : AddrMode) (step : Word) (busy : Reg → Bool) (dest : Option Reg) (s : State) : Result (Word × State) :=
  match s.latch with
  | none =>
    match a with
    | .plain r =>
      -- indirect mode (rules R133, R111(f))
      refuseIf (r == pcReg) .indirectThroughPc (.next (s.gpr r 0, s))
    | .inc r =>
      -- autoincrement mode (rule R134); with PC it is the immediate mode (rule R111(g))
      refuseIf (r == pcReg) .immediateDestination <|
      refuseIf (busy r) .addressRegisterConflict <|
      .next (s.gpr r 0, s.setGpr r (s.gpr r 0 + step))
  | some l =>
    refuseIf (match l.bumped with | some q => busy q | none => false) .addressRegisterConflict <|
    match a with
    | .plain r =>
      -- the prefix address only selects the operand (rule R136)
      refuseIf (match dest with | some d => d != r | none => false) .threeOperandForm (.next (l.ea, s))
    | .inc r =>
      -- the prefix address is also assigned to r (rules R137, R140, R144, R145)
      refuseIf l.fromDip .assignAfterDoubleIndirect <|
      refuseIf (r == pcReg) .assignToPc <|
      refuseIf (busy r) .addressRegisterConflict <|
      .next (l.ea, s.setGpr r l.ea)

/-- Immediate data `v` of size `m` behind the word at pc (rule R135). It is read as data, so the read is
compared with BAR (rules R60, R62). After a prefix word this pattern is mode 11 with Rp = PC (rule R137), and
in a delay slot it is forbidden (rule R164). -/
def immediate (m : Size) (v : Word) (s : State) : Result (Word × State) :=
  refuseIf s.latch.isSome .assignToPc <|
  slotGuard true s <|
  .next (truncTo m v, s.watch m.bytes (s.pc + 2))

/-- A memory or immediate source of size `m` (rules R133 to R135): its value, zero-extended, and the state
after the access. -/
def loadSource (m : Size) (src : SrcMode) (busy : Reg → Bool) (dest : Option Reg) (s : State) : Result (Word × State) :=
  match src with
  | .mem a =>
    andThen (resolve a (BitVec.ofNat 32 m.bytes) busy dest s) fun (ea, t) => memRead m.bytes ea t
  | .imm v => immediate m v s

/-- The address after an instruction with source `src` of size `m` whose word is at pc (rules R22, R135). -/
def afterSource (m : Size) (src : SrcMode) (s : State) : Word :=
  s.nextPc + BitVec.ofNat 32 (src.immLength m)

/-- Stores the low bytes of `v` to a memory destination (rules R263, R200). -/
def storeTo (m : Size) (dst : AddrMode) (busy : Reg → Bool) (v : Word) (s : State) : Result State :=
  andThen (resolve dst (BitVec.ofNat 32 m.bytes) busy none s) fun (ea, t) => memWrite m.bytes ea v t

/-! ## Writing results (rules R20, R166, R230) -/

/-- Writes a result of size `m` to register `rd`, the rest of the register unaffected, and ends the
instruction; `next` is the address after it. With PC the value becomes the jump target (rule R166). -/
def writeResult (m : Size) (rd : Reg) (r next : Word) (s : State) : Result State :=
  let v := mergeLow m (s.gpr rd next) r
  if rd = pcReg then jumpNow v s else .next ((s.setGpr rd v).retire next false)

/-- The destination operand D: the low bits of Rd; PC reads as the address after the instruction
(rules R23(g), R230). -/
def destOperand (m : Size) (rd : Reg) (next : Word) (s : State) : Word := truncTo m (s.gpr rd next)

/-- Computes from S and Rd, writes the flags and the result, and ends the instruction. -/
def applyAlu (m : Size) (alu : Alu) (rd : Reg) (src next : Word) (s : State) : Result State :=
  let r := alu src (destOperand m rd next s) s.flags
  writeResult m rd r.1 next { s with flags := r.2 }

/-- Computes from S and Rd, writes the flags only, and ends the instruction. -/
def applyTest (m : Size) (alu : Alu) (rd : Reg) (src next : Word) (s : State) : Result State :=
  let r := alu src (destOperand m rd next s) s.flags
  .next ({ s with flags := r.2 }.retire next false)

/-! ## Instruction forms -/

/-- A register-mode instruction: no prefix word, and no PC operand in a delay slot (rules R147, R164). -/
def regForm (usesPc : Bool) (s : State) (k : Result State) : Result State :=
  unprefixed s <| slotGuard usesPc s k

/-- `OP Rs,Rd`: S is a function of Rs (rules R132, R230). -/
def regAlu (m : Size) (source : Word → Word) (alu : Alu) (rd rs : Reg) (s : State) : Result State :=
  regForm (rd == pcReg || rs == pcReg) s <|
  applyAlu m alu rd (source (s.gpr rs s.nextPc)) s.nextPc s

/-- `OP Rs,Rd` that writes flags only. -/
def regTest (m : Size) (source : Word → Word) (alu : Alu) (rd rs : Reg) (s : State) : Result State :=
  regForm (rd == pcReg || rs == pcReg) s <|
  applyTest m alu rd (source (s.gpr rs s.nextPc)) s.nextPc s

/-- `OP <quick immediate>,Rd` (rule R131). -/
def quickAlu (alu : Alu) (rd : Reg) (v : Word) (s : State) : Result State :=
  regForm (rd == pcReg) s <| applyAlu .d alu rd v s.nextPc s

/-- `OP <quick immediate>,Rd` that writes flags only. -/
def quickTest (alu : Alu) (rd : Reg) (v : Word) (s : State) : Result State :=
  regForm (rd == pcReg) s <| applyTest .d alu rd v s.nextPc s

/-- `OP [s],Rd`: the source has size `k`, the operation size `m` (rules R133 to R136, R230). -/
def memAlu (k m : Size) (source : Word → Word) (alu : Alu) (rd : Reg) (src : SrcMode) (s : State) : Result State :=
  slotGuard (rd == pcReg) s <|
  andThen (loadSource k src (fun r => r == rd) (some rd) s) fun (v, t) =>
    applyAlu m alu rd (source v) (afterSource k src s) t

/-- `OP [s],Rd` that writes flags only: a prefixed word's operand1 is ignored (rule R136). -/
def memTest (k m : Size) (source : Word → Word) (alu : Alu) (rd : Reg) (src : SrcMode) (s : State) : Result State :=
  slotGuard (rd == pcReg) s <|
  andThen (loadSource k src (fun r => r == rd) none s) fun (v, t) =>
    applyTest m alu rd (source v) (afterSource k src s) t

/-- The instruction does not support PC as its destination (rule R167). -/
def noPcDest (rd : Reg) (k : Result State) : Result State :=
  refuseIf (rd == pcReg) .pcDestinationUnsupported k

/-- The instruction has no meaning with X set (rule R247, decision D18). -/
def noExtend (s : State) (k : Result State) : Result State :=
  refuseIf s.flags.x .extendUndefined k

/-- A register shift count: Rs[5:0] (rules R275 to R280). -/
def shiftCount (v : Word) : Word := v &&& 0x3F#32

/-- A register bit number: Rs[4:0] (rule R284). -/
def bitNumber (v : Word) : Word := v &&& 0x1F#32

/-- The left shift of an index value by 0, 1 or 2 for byte, word, dword (rules R138, R235). -/
def scaleBy (m : Size) (v : Word) : Word :=
  match m with
  | .b => v
  | .w => v <<< 1
  | .d => v <<< 2

/-! ## Special registers (rules R24 to R34, R197 to R200) -/

/-- The special registers an instruction can name with a meaning (rule R24, Table 1-1). -/
inductive Special where
  | p0
  | vr
  | p4
  | ccr
  | p8
  | ibr
  | irp
  | srp
  | bar
  | dccr
  | brp
  deriving DecidableEq, Repr

/-- The special register of a number; P2, P3, P6, P7 and P15 are not implemented (rules R24, R34). -/
def specialOf (p : PNum) : Option Special :=
  match p.toNat with
  | 0 => some .p0
  | 1 => some .vr
  | 4 => some .p4
  | 5 => some .ccr
  | 8 => some .p8
  | 9 => some .ibr
  | 10 => some .irp
  | 11 => some .srp
  | 12 => some .bar
  | 13 => some .dccr
  | 14 => some .brp
  | _ => none

/-- The width of a special register (Table 1-1, rule R109). -/
def Special.size : Special → Size
  | .p0 => .b
  | .vr => .b
  | .p4 => .w
  | .ccr => .w
  | .p8 => .d
  | .ibr => .d
  | .irp => .d
  | .srp => .d
  | .bar => .d
  | .dccr => .d
  | .brp => .d

/-- Reads a special register, zero-extended to 32 bits (rules R25 to R33). -/
def State.readSpecial (s : State) : Special → Word
  | .p0 => 0
  | .vr => s.params.version.value.setWidth 32
  | .p4 => 0
  | .ccr => s.flags.toByte.setWidth 32
  | .p8 => 0
  | .ibr => s.ibr
  | .irp => s.irp
  | .srp => s.srp
  | .bar => s.bar
  | .dccr => s.flags.toByte.setWidth 32
  | .brp => s.brp

/-- Writes a special register (rules R25 to R33, R40; decision D24): the zero registers and VR discard it, CCR
and DCCR take some flags, IBR takes bits 31 to 16. -/
def State.writeSpecial (s : State) (p : Special) (v : Word) : State :=
  match p with
  | .p0 => s
  | .vr => s
  | .p4 => s
  | .ccr => { s with flags := s.flags.moveTo v }
  | .p8 => s
  | .ibr => { s with ibrHigh := v.extractLsb' 16 16 }
  | .irp => { s with irp := v }
  | .srp => { s with srp := v }
  | .bar => { s with bar := v }
  | .dccr => { s with flags := s.flags.moveTo v }
  | .brp => { s with brp := v }

/-- Goes on with the special register of a number, or refuses an unimplemented one (rule R34). -/
def withSpecial (p : PNum) (k : Special → Result State) : Result State :=
  match specialOf p with
  | none => .refused .unimplementedSpecialRegister
  | some q => k q

/-- `MOVE Rs,Pd` (rule R197). -/
def moveToSpecialFromReg (p : PNum) (rs : Reg) (s : State) : Result State :=
  regForm (rs == pcReg) s <|
  withSpecial p fun q =>
    .next ((s.writeSpecial q (truncTo q.size (s.gpr rs s.nextPc))).retire s.nextPc true)

/-- `MOVE [s],Pd` and POP Pd (rules R199, R203). -/
def moveToSpecialFromMem (p : PNum) (src : SrcMode) (s : State) : Result State :=
  withSpecial p fun q =>
    andThen (loadSource q.size src (fun _ => false) none s) fun (v, t) =>
      .next ((t.writeSpecial q v).retire (afterSource q.size src s) true)

/-- `MOVE Ps,Rd` with Rd not PC, and CLEAR.m Rd (rules R198, R201): the rest of Rd is unaffected. -/
def moveFromSpecialToReg (q : Special) (rd : Reg) (s : State) : Result State :=
  unprefixed s <|
  refuseIf (rd == pcReg) .moveSpecialToPc <|
  .next ((s.setGpr rd (mergeLow q.size (s.gpr rd 0) (s.readSpecial q))).retire s.nextPc true)

/-- `MOVE Ps,[d]` and CLEAR.m [d] (rules R200, R201). -/
def moveFromSpecialToMem (q : Special) (dst : AddrMode) (s : State) : Result State :=
  andThen (storeTo q.size dst (fun _ => false) (s.readSpecial q) s) fun t => .next (t.retire s.nextPc true)

/-! ## Register to memory, and register lists -/

/-- `MOVE.m Rs,[d]` (rule R263): no flag is written. -/
def moveRegTo (m : Size) (rs : Reg) (dst : AddrMode) (s : State) : Result State :=
  slotGuard (rs == pcReg) s <|
  andThen (storeTo m dst (fun r => r == rs) (s.gpr rs s.nextPc) s) fun t => .next (t.retire s.nextPc false)

/-- The register list R0 to Rn (rule R265). -/
def inList (n : Reg) (r : Reg) : Bool := decide (r.toNat ≤ n.toNat)

/-- The autoincrement of MOVEM: 4 for each register (rules R134, R265, R266). -/
def listStep (n : Reg) : Word := BitVec.ofNat 32 (4 * (n.toNat + 1))

/-- Stores registers `k - 1` down to 0 from address `a` upward (rule R265); `regs` holds their values. -/
def storeList (regs : State) : Nat → Word → State → Result State
  | 0, _, s => .next s
  | k + 1, a, s =>
    andThen (memWrite 4 a (regs.gpr (BitVec.ofNat 4 k) 0) s) fun t => storeList regs k (a + 4) t

/-- Loads registers `k - 1` down to 0 from address `a` upward (rule R266). -/
def loadList : Nat → Word → State → Result State
  | 0, _, s => .next s
  | k + 1, a, s =>
    andThen (memRead 4 a s) fun (v, t) => loadList k (a + 4) (t.setGpr (BitVec.ofNat 4 k) v)

end Sys2Proof.Machine
end

