-- ==== Sys2Proof/Machine/Arith.lean ====
section
/-! DEFINITION. The meanings of the add, subtract, compare, negate, absolute-value and bound instructions (44_add_sub_compare.md). -/

namespace Sys2Proof.Machine

/-- ADD.m Rs,Rd (rule R231). -/
def execAddReg (m : Size) (rd rs : Reg) (s : State) : Result State :=
  regAlu m (truncTo m) (addAlu m) rd rs s

/-- ADD.m [s],Rd and ADD.m with an immediate (rule R231). -/
def execAddMem (m : Size) (rd : Reg) (src : SrcMode) (s : State) : Result State :=
  memAlu m m id (addAlu m) rd src s

/-- ADDQ: the immediate is zero-extended (rules R232, R96). -/
def execAddq (rd : Reg) (imm : BitVec 6) (s : State) : Result State :=
  quickAlu (addAlu .d) rd (imm.setWidth 32) s

/-- ADDS.z Rs,Rd (rule R233). -/
def execAddsReg (z : ZSize) (rd rs : Reg) (s : State) : Result State :=
  regAlu .d (signExtendFrom z.toSize) (addAlu .d) rd rs s

/-- ADDS.z [s],Rd (rule R233). -/
def execAddsMem (z : ZSize) (rd : Reg) (src : SrcMode) (s : State) : Result State :=
  memAlu z.toSize .d (signExtendFrom z.toSize) (addAlu .d) rd src s

/-- ADDU.z Rs,Rd (rule R234). -/
def execAdduReg (z : ZSize) (rd rs : Reg) (s : State) : Result State :=
  regAlu .d (truncTo z.toSize) (addAlu .d) rd rs s

/-- ADDU.z [s],Rd (rule R234). -/
def execAdduMem (z : ZSize) (rd : Reg) (src : SrcMode) (s : State) : Result State :=
  memAlu z.toSize .d id (addAlu .d) rd src s

/-- SUB.m Rs,Rd (rule R236). -/
def execSubReg (m : Size) (rd rs : Reg) (s : State) : Result State :=
  regAlu m (truncTo m) (subAlu m) rd rs s

/-- SUB.m [s],Rd and SUB.m with an immediate (rule R236). -/
def execSubMem (m : Size) (rd : Reg) (src : SrcMode) (s : State) : Result State :=
  memAlu m m id (subAlu m) rd src s

/-- SUBQ: the immediate is zero-extended (rules R237, R96). -/
def execSubq (rd : Reg) (imm : BitVec 6) (s : State) : Result State :=
  quickAlu (subAlu .d) rd (imm.setWidth 32) s

/-- SUBS.z Rs,Rd (rule R238). -/
def execSubsReg (z : ZSize) (rd rs : Reg) (s : State) : Result State :=
  regAlu .d (signExtendFrom z.toSize) (subAlu .d) rd rs s

/-- SUBS.z [s],Rd (rule R238). -/
def execSubsMem (z : ZSize) (rd : Reg) (src : SrcMode) (s : State) : Result State :=
  memAlu z.toSize .d (signExtendFrom z.toSize) (subAlu .d) rd src s

/-- SUBU.z Rs,Rd (rule R239). -/
def execSubuReg (z : ZSize) (rd rs : Reg) (s : State) : Result State :=
  regAlu .d (truncTo z.toSize) (subAlu .d) rd rs s

/-- SUBU.z [s],Rd (rule R239). -/
def execSubuMem (z : ZSize) (rd : Reg) (src : SrcMode) (s : State) : Result State :=
  memAlu z.toSize .d id (subAlu .d) rd src s

/-- ADDI Rs.m,Rd: adds the scaled index; no flag is written (rule R235). -/
def execAddi (m : Size) (rd rs : Reg) (s : State) : Result State :=
  unprefixed s <| noPcDest rd <| noExtend s <| slotGuard (rs == pcReg) s <|
  .next ((s.setGpr rd (s.gpr rd 0 + scaleBy m (s.gpr rs s.nextPc))).retire s.nextPc false)

/-- CMP.m Rs,Rd (rule R240). -/
def execCmpReg (m : Size) (rd rs : Reg) (s : State) : Result State :=
  regTest m (truncTo m) (subAlu m) rd rs s

/-- CMP.m [s],Rd (rule R240). -/
def execCmpMem (m : Size) (rd : Reg) (src : SrcMode) (s : State) : Result State :=
  memTest m m id (subAlu m) rd src s

/-- CMPQ: the immediate is sign-extended (rules R241, R96). -/
def execCmpq (rd : Reg) (imm : BitVec 6) (s : State) : Result State :=
  quickTest (subAlu .d) rd (imm.signExtend 32) s

/-- CMPS.z [s],Rd (rule R242). -/
def execCmpsMem (z : ZSize) (rd : Reg) (src : SrcMode) (s : State) : Result State :=
  memTest z.toSize .d (signExtendFrom z.toSize) (subAlu .d) rd src s

/-- CMPU.z [s],Rd (rule R244). -/
def execCmpuMem (z : ZSize) (rd : Reg) (src : SrcMode) (s : State) : Result State :=
  memTest z.toSize .d id (subAlu .d) rd src s

/-- NEG.m Rs,Rd (rules R243, R167). -/
def execNeg (m : Size) (rd rs : Reg) (s : State) : Result State :=
  noPcDest rd <| regAlu m (truncTo m) (negAlu m) rd rs s

/-- ABS Rs,Rd (rules R245, R247). -/
def execAbsReg (rd rs : Reg) (s : State) : Result State :=
  noExtend s <| regAlu .d id absAlu rd rs s

/-- BOUND.m Rs,Rd (rules R246, R167, R247). -/
def execBoundReg (m : Size) (rd rs : Reg) (s : State) : Result State :=
  noPcDest rd <| noExtend s <| regAlu .d (truncTo m) boundAlu rd rs s

/-- BOUND.m [s],Rd (rules R246, R167, R247). -/
def execBoundMem (m : Size) (rd : Reg) (src : SrcMode) (s : State) : Result State :=
  noPcDest rd <| noExtend s <| memAlu m .d id boundAlu rd src s

end Sys2Proof.Machine
end

