-- ==== Sys2Proof/Machine/Control.lean ====
section
/-! DEFINITION. The meanings of the branches, jumps, subroutine calls, returns and BREAK, and of the reserved patterns (41_branch_jump_subroutine.md, 42_break_flags_special_regs.md). -/

namespace Sys2Proof.Machine

/-- The offset of the 8-bit Bcc: its sign is bit 0 of the field (rule R106). -/
def branchOffset (off : Byte) : Word :=
  (off.extractLsb' 0 1 ++ off.extractLsb' 1 7 ++ (0#1 : BitVec 1)).signExtend 32

/-- A Bcc at pc whose delay slot is at `next` (rules R160, R162). -/
def branchIf (taken : Bool) (next off : Word) (s : State) : Result State :=
  unprefixed s <| slotGuard true s <|
  jumpDelayed (if taken then some (next + off) else none) next s

/-- Where a jump of the jump group stores its return address, and what is added to it (rules R105, R168 to
R170). -/
structure Link where
  pointer : Pointer
  skip : Word

/-- Ends a jump of the jump group: stores the return address and jumps (rules R165, R168 to R170). -/
def jumpLink (link : Option Link) (t next : Word) (s : State) : Result State :=
  match link with
  | none => jumpNow t s
  | some l => jumpNow t (s.setPointer l.pointer (next + l.skip))

/-- The jump group with a register operand (rule R105). -/
def jumpByReg (link : Option Link) (rs : Reg) (s : State) : Result State :=
  unprefixed s <| slotGuard true s <| jumpLink link (s.gpr rs s.nextPc) s.nextPc s

/-- The jump group with a memory or immediate operand (rule R105). -/
def jumpByMem (link : Option Link) (src : SrcMode) (s : State) : Result State :=
  slotGuard true s <|
  andThen (loadSource .d src (fun _ => false) none s) fun (v, t) => jumpLink link v (afterSource .d src s) t

/-- A reserved pattern has no meaning (rule R111). -/
def execReserved (_w : Half) (_s : State) : Result State :=
  .refused .reservedEncoding

/-- NOP (rule R196). -/
def execNop (s : State) : Result State :=
  unprefixed s <| .next (s.retire s.nextPc false)

/-- Bcc with the 8-bit offset (rules R160, R106). -/
def execBcc8 (c : Cond) (off : Byte) (s : State) : Result State :=
  branchIf (s.flags.holds c) s.nextPc (branchOffset off) s

/-- BA with the 8-bit offset (rules R160, R106). -/
def execBa8 (off : Byte) (s : State) : Result State :=
  branchIf (s.flags.holds .a) s.nextPc (branchOffset off) s

/-- Bcc with the 16-bit offset, which is read as immediate data (rules R160, R106). -/
def execBcc16 (c : Cond) (off : Half) (s : State) : Result State :=
  slotGuard true s <| branchIf (s.flags.holds c) (s.pc + 4) (off.signExtend 32) (s.watch 2 (s.pc + 2))

/-- BA with the 16-bit offset (rules R160, R106). -/
def execBa16 (off : Half) (s : State) : Result State :=
  slotGuard true s <| branchIf (s.flags.holds .a) (s.pc + 4) (off.signExtend 32) (s.watch 2 (s.pc + 2))

/-- JUMP Rs (rule R165). -/
def execJumpReg (rs : Reg) (s : State) : Result State :=
  jumpByReg none rs s

/-- JUMP [s] (rule R165). -/
def execJumpMem (src : AddrMode) (s : State) : Result State :=
  jumpByMem none (.mem src) s

/-- JUMP with an immediate target (rule R165). -/
def execJumpImm (target : Word) (s : State) : Result State :=
  jumpByMem none (.imm target) s

/-- JSR Rs (rule R168). -/
def execJsrReg (rs : Reg) (s : State) : Result State :=
  jumpByReg (some ⟨.srp, 0⟩) rs s

/-- JSR [s] and JSR with an immediate target (rule R168). -/
def execJsrMem (src : SrcMode) (s : State) : Result State :=
  jumpByMem (some ⟨.srp, 0⟩) src s

/-- JIR Rs (rule R169). -/
def execJirReg (rs : Reg) (s : State) : Result State :=
  jumpByReg (some ⟨.irp, 0⟩) rs s

/-- JIR [s] and JIR with an immediate target (rule R169). -/
def execJirMem (src : SrcMode) (s : State) : Result State :=
  jumpByMem (some ⟨.irp, 0⟩) src s

/-- JSRC Rs (rule R170). -/
def execJsrcReg (rs : Reg) (s : State) : Result State :=
  jumpByReg (some ⟨.srp, 4⟩) rs s

/-- JSRC [s] and JSRC with an immediate target (rule R170). -/
def execJsrcMem (src : SrcMode) (s : State) : Result State :=
  jumpByMem (some ⟨.srp, 4⟩) src s

/-- JIRC Rs (rule R170). -/
def execJircReg (rs : Reg) (s : State) : Result State :=
  jumpByReg (some ⟨.irp, 4⟩) rs s

/-- JIRC [s] and JIRC with an immediate target (rule R170). -/
def execJircMem (src : SrcMode) (s : State) : Result State :=
  jumpByMem (some ⟨.irp, 4⟩) src s

/-- JBRC Rs (rule R170). -/
def execJbrcReg (rs : Reg) (s : State) : Result State :=
  jumpByReg (some ⟨.brp, 4⟩) rs s

/-- JBRC [s] and JBRC with an immediate target (rule R170). -/
def execJbrcMem (src : SrcMode) (s : State) : Result State :=
  jumpByMem (some ⟨.brp, 4⟩) src s

/-- BREAK n: the return address goes to BRP, and pc to IBR + 8 n (rules R190, R307). -/
def execBrk (n : BitVec 4) (s : State) : Result State :=
  unprefixed s <| slotGuard true s <| jumpNow (s.breakEntry n) { s with brp := s.nextPc }

/-- RET (rule R171). -/
def execRet (s : State) : Result State :=
  returnThrough .srp s

/-- RETI (rule R172). -/
def execReti (s : State) : Result State :=
  returnThrough .irp s

/-- RETB (rule R173). -/
def execRetb (s : State) : Result State :=
  returnThrough .brp s

end Sys2Proof.Machine
end

