-- ==== Sys2Proof/Machine/Logic.lean ====
section
/-! DEFINITION. The meanings of the logic, shift, bit and set-on-condition instructions (45_move_logic_shift.md). -/

namespace Sys2Proof.Machine

/-- AND.m Rs,Rd (rule R269). -/
def execAndReg (m : Size) (rd rs : Reg) (s : State) : Result State :=
  regAlu m (truncTo m) (andAlu m) rd rs s

/-- AND.m [s],Rd (rule R269). -/
def execAndMem (m : Size) (rd : Reg) (src : SrcMode) (s : State) : Result State :=
  memAlu m m id (andAlu m) rd src s

/-- ANDQ: the immediate is sign-extended (rules R270, R96). -/
def execAndq (rd : Reg) (imm : BitVec 6) (s : State) : Result State :=
  quickAlu (andAlu .d) rd (imm.signExtend 32) s

/-- OR.m Rs,Rd (rule R271). -/
def execOrReg (m : Size) (rd rs : Reg) (s : State) : Result State :=
  regAlu m (truncTo m) (orAlu m) rd rs s

/-- OR.m [s],Rd (rule R271). -/
def execOrMem (m : Size) (rd : Reg) (src : SrcMode) (s : State) : Result State :=
  memAlu m m id (orAlu m) rd src s

/-- ORQ: the immediate is sign-extended (rules R273, R96). -/
def execOrq (rd : Reg) (imm : BitVec 6) (s : State) : Result State :=
  quickAlu (orAlu .d) rd (imm.signExtend 32) s

/-- XOR Rs,Rd (rule R274). -/
def execXorReg (rd rs : Reg) (s : State) : Result State :=
  regAlu .d id xorAlu rd rs s

/-- NOT Rd, which is SWAP with option N (rules R272, R167). -/
def execNotReg (rd : Reg) (s : State) : Result State :=
  noPcDest rd <| quickAlu (swapAlu 8#4) rd 0 s

/-- SWAP with option bits N W B R (rules R282, R167). -/
def execSwap (opts : BitVec 4) (rd : Reg) (s : State) : Result State :=
  noPcDest rd <| quickAlu (swapAlu opts) rd 0 s

/-- LSL.m Rs,Rd; the count is Rs[5:0] (rules R275, R167). -/
def execLsl (m : Size) (rd rs : Reg) (s : State) : Result State :=
  noPcDest rd <| regAlu m shiftCount (lslAlu m) rd rs s

/-- LSLQ (rules R276, R167). -/
def execLslq (rd : Reg) (n : BitVec 5) (s : State) : Result State :=
  noPcDest rd <| quickAlu (lslAlu .d) rd (n.setWidth 32) s

/-- LSR.m Rs,Rd; the count is Rs[5:0] (rules R277, R167). -/
def execLsr (m : Size) (rd rs : Reg) (s : State) : Result State :=
  noPcDest rd <| regAlu m shiftCount (lsrAlu m) rd rs s

/-- LSRQ (rules R278, R167). -/
def execLsrq (rd : Reg) (n : BitVec 5) (s : State) : Result State :=
  noPcDest rd <| quickAlu (lsrAlu .d) rd (n.setWidth 32) s

/-- ASR.m Rs,Rd; the count is Rs[5:0] (rule R279). -/
def execAsr (m : Size) (rd rs : Reg) (s : State) : Result State :=
  regAlu m shiftCount (asrAlu m) rd rs s

/-- ASRQ (rule R280). -/
def execAsrq (rd : Reg) (n : BitVec 5) (s : State) : Result State :=
  quickAlu (asrAlu .d) rd (n.setWidth 32) s

/-- LZ Rs,Rd (rule R281). -/
def execLz (rd rs : Reg) (s : State) : Result State :=
  regAlu .d id lzAlu rd rs s

/-- BTST Rs,Rd; the bit number is Rs[4:0] (rule R284). -/
def execBtst (rd rs : Reg) (s : State) : Result State :=
  regTest .d bitNumber bitAlu rd rs s

/-- BTSTQ (rule R285). -/
def execBtstq (rd : Reg) (n : BitVec 5) (s : State) : Result State :=
  quickTest bitAlu rd (n.setWidth 32) s

/-- Scc Rd: 1 or 0; no flag is written (rules R283, R167). -/
def execScc (c : Cond) (rd : Reg) (s : State) : Result State :=
  noPcDest rd <| unprefixed s <|
  .next ((s.setGpr rd (if s.flags.holds c then 1 else 0)).retire s.nextPc false)

end Sys2Proof.Machine
end

