-- ==== Sys2Proof/Machine/Move.lean ====
section
/-! DEFINITION. The meanings of the moves, the tests, the multiple moves and the multiply and divide steps (45_move_logic_shift.md, 43_multiply_divide_step.md). -/

namespace Sys2Proof.Machine

/-- MOVE.m Rs,Rd (rule R260). -/
def execMoveReg (m : Size) (rd rs : Reg) (s : State) : Result State :=
  regAlu m (truncTo m) (moveAlu m) rd rs s

/-- MOVEQ: the immediate is sign-extended (rules R261, R96). -/
def execMoveq (rd : Reg) (imm : BitVec 6) (s : State) : Result State :=
  quickAlu (moveAlu .d) rd (imm.signExtend 32) s

/-- MOVE.m [s],Rd (rule R262). -/
def execMoveMemToReg (m : Size) (rd : Reg) (src : SrcMode) (s : State) : Result State :=
  memAlu m m id (moveAlu m) rd src s

/-- POP Rd, which is MOVE.D [SP+],Rd (rules R203, R262). -/
def execPopReg (rd : Reg) (s : State) : Result State :=
  memAlu .d .d id (moveAlu .d) rd (.mem (.inc spReg)) s

/-- MOVE.m Rs,[d] (rule R263). -/
def execMoveRegToMem (m : Size) (rs : Reg) (dst : AddrMode) (s : State) : Result State :=
  moveRegTo m rs dst s

/-- MOVS.z Rs,Rd (rule R267). -/
def execMovsReg (z : ZSize) (rd rs : Reg) (s : State) : Result State :=
  regAlu .d (signExtendFrom z.toSize) (moveAlu .d) rd rs s

/-- MOVS.z [s],Rd (rule R267). -/
def execMovsMem (z : ZSize) (rd : Reg) (src : SrcMode) (s : State) : Result State :=
  memAlu z.toSize .d (signExtendFrom z.toSize) (moveAlu .d) rd src s

/-- MOVU.z Rs,Rd (rule R268). -/
def execMovuReg (z : ZSize) (rd rs : Reg) (s : State) : Result State :=
  regAlu .d (truncTo z.toSize) (moveAlu .d) rd rs s

/-- MOVU.z [s],Rd (rule R268). -/
def execMovuMem (z : ZSize) (rd : Reg) (src : SrcMode) (s : State) : Result State :=
  memAlu z.toSize .d id (moveAlu .d) rd src s

/-- TEST.m Rn, which is MOVE.m Rn,Rn (rules R110, R264). -/
def execTestReg (m : Size) (rn : Reg) (s : State) : Result State :=
  regAlu m (truncTo m) (moveAlu m) rn rn s

/-- TEST.m [s]: only the flags are written (rule R264). -/
def execTestMem (m : Size) (src : SrcMode) (s : State) : Result State :=
  andThen (loadSource m src (fun _ => false) none s) fun (v, t) =>
    .next ({ t with flags := generalFlags m v t.flags }.retire (afterSource m src s) false)

/-- MOVEM Rs,[d]: Rs at the lowest address, R0 at the highest (rule R265). -/
def execMovemStore (rs : Reg) (dst : AddrMode) (s : State) : Result State :=
  refuseIf (rs == pcReg) .movemOfPc <|
  andThen (resolve dst (listStep rs) (inList rs) none s) fun (ea, t) =>
    andThen (storeList s (rs.toNat + 1) ea t) fun u => .next (u.retire s.nextPc false)

/-- MOVEM [s],Rd: Rd from the lowest address, R0 from the highest (rule R266). -/
def execMovemLoad (rd : Reg) (src : AddrMode) (s : State) : Result State :=
  refuseIf (rd == pcReg) .movemOfPc <|
  andThen (resolve src (listStep rd) (inList rd) none s) fun (ea, t) =>
    andThen (loadList (rd.toNat + 1) ea t) fun u => .next (u.retire s.nextPc false)

/-- MSTEP Rs,Rd (rules R220, R167, R247). -/
def execMstep (rd rs : Reg) (s : State) : Result State :=
  noPcDest rd <| noExtend s <| regAlu .d id mstepAlu rd rs s

/-- DSTEP Rs,Rd (rules R221, R167, R247). -/
def execDstep (rd rs : Reg) (s : State) : Result State :=
  noPcDest rd <| noExtend s <| regAlu .d id dstepAlu rd rs s

end Sys2Proof.Machine
end

