-- ==== Sys2Proof/Machine/System.lean ====
section
/-! DEFINITION. The meanings of the flag instructions, the special-register moves, CLEAR, PUSH, POP and the addressing-mode prefix words (42_break_flags_special_regs.md, 40_addressing_modes.md). -/

namespace Sys2Proof.Machine

/-- SETF of a list (rules R41, R191): the only instruction that can leave X set and the only one that sets M;
with X on the list it opens the interrupt-disable window (rule R305(c)). -/
def setFlags (list : Byte) (s : State) : Result State :=
  unprefixed s <|
  let t := s.retire s.nextPc (list.getLsbD 4)
  .next { t with flags := s.flags.setList list }

/-- CLEARF of a list (rules R41, R192). -/
def clearFlags (list : Byte) (s : State) : Result State :=
  unprefixed s <| .next ({ s with flags := s.flags.clearList list }.retire s.nextPc false)

/-- SETF (rule R191). -/
def execSetf (list : Byte) (s : State) : Result State :=
  setFlags list s

/-- AX, which is SETF X (rule R193). -/
def execAx (s : State) : Result State :=
  setFlags 0x10#8 s

/-- EI, which is SETF I (rule R195). -/
def execEi (s : State) : Result State :=
  setFlags 0x20#8 s

/-- CLEARF (rule R192). -/
def execClearf (list : Byte) (s : State) : Result State :=
  clearFlags list s

/-- DI, which is CLEARF I (rule R194). -/
def execDi (s : State) : Result State :=
  clearFlags 0x20#8 s

/-- MOVE Rs,Pd (rule R197). -/
def execMoveRegToSpecial (pd : PNum) (rs : Reg) (s : State) : Result State :=
  moveToSpecialFromReg pd rs s

/-- MOVE Ps,Rd (rule R198); with Rd = PC and Ps = SRP, IRP, BRP it is RET, RETI, RETB. -/
def execMoveSpecialToReg (ps : PNum) (rd : Reg) (s : State) : Result State :=
  withSpecial ps fun q =>
    if rd = pcReg then
      match q with
      | .srp => returnThrough .srp s
      | .irp => returnThrough .irp s
      | .brp => returnThrough .brp s
      | _ => .refused .moveSpecialToPc
    else moveFromSpecialToReg q rd s

/-- CLEAR.B Rd, which is MOVE P0,Rd (rule R201). -/
def execClearByteReg (rd : Reg) (s : State) : Result State :=
  moveFromSpecialToReg .p0 rd s

/-- CLEAR.B [d], which is MOVE P0,[d] (rule R201). -/
def execClearByteMem (dst : AddrMode) (s : State) : Result State :=
  moveFromSpecialToMem .p0 dst s

/-- CLEAR.W Rd, which is MOVE P4,Rd (rule R201). -/
def execClearWordReg (rd : Reg) (s : State) : Result State :=
  moveFromSpecialToReg .p4 rd s

/-- CLEAR.W [d], which is MOVE P4,[d] (rule R201). -/
def execClearWordMem (dst : AddrMode) (s : State) : Result State :=
  moveFromSpecialToMem .p4 dst s

/-- CLEAR.D Rd, which is MOVE P8,Rd (rule R201). -/
def execClearDwordReg (rd : Reg) (s : State) : Result State :=
  moveFromSpecialToReg .p8 rd s

/-- CLEAR.D [d], which is MOVE P8,[d] (rule R201). -/
def execClearDwordMem (dst : AddrMode) (s : State) : Result State :=
  moveFromSpecialToMem .p8 dst s

/-- MOVE [s],Pd (rule R199). -/
def execMoveMemToSpecial (pd : PNum) (src : SrcMode) (s : State) : Result State :=
  moveToSpecialFromMem pd src s

/-- POP Pd, which is MOVE [SP+],Pd (rule R203). -/
def execPopSpecial (pd : PNum) (s : State) : Result State :=
  moveToSpecialFromMem pd (.mem (.inc spReg)) s

/-- MOVE Ps,[d] (rule R200). -/
def execMoveSpecialToMem (ps : PNum) (dst : AddrMode) (s : State) : Result State :=
  withSpecial ps fun q => moveFromSpecialToMem q dst s

/-! ## Prefix words (rules R136 to R147)

A prefix word leaves the address it computes in `latch` and pc at the basic word behind it; the step then runs
that word as the same instruction (rule R137). It neither clears nor uses X and does not touch the window. -/

/-- Hands the address on to the basic word at `next` (rule R136). -/
def passAddress (ea : Word) (bumped : Option Reg) (fromDip : Bool) (next : Word) (s : State) : Result State :=
  .next { s with latch := some ⟨ea, bumped, fromDip⟩, pc := next }

/-- A prefix word may not follow a prefix word (rule R143) nor stand in a delay slot (rule R164). -/
def prefixForm (s : State) (k : Result State) : Result State :=
  refuseIf s.latch.isSome .consecutivePrefixes <| slotGuard true s k

/-- The pointer `[Rm]` or `[Rm+]` through which a prefix word reads memory: its address, the state after the
increment, and the register incremented (rules R141, R145). -/
def prefixPointer (m : Size) (a : AddrMode) (busy : Reg → Bool) (s : State) : Result (Word × State × Option Reg) :=
  match a with
  | .plain r => refuseIf (r == pcReg) .indirectThroughPc (.next (s.gpr r 0, s, none))
  | .inc r =>
    refuseIf (r == pcReg) .indirectThroughPc <|
    refuseIf (busy r) .addressRegisterConflict <|
    .next (s.gpr r 0, s.setGpr r (s.gpr r 0 + BitVec.ofNat 32 m.bytes), some r)

/-- The offset prefix with an offset `off` already read; the basic word is at `next`, which is also what a base
of PC reads as (rules R141, R142). -/
def addOffset (base : Reg) (off next : Word) (bumped : Option Reg) (s t : State) : Result State :=
  passAddress (s.gpr base next + off) bumped false next t

/-- BDAP with the byte offset in the word (rules R99, R141, R142). -/
def byteOffsetPrefix (base : Reg) (off : Byte) (s : State) : Result State :=
  prefixForm s <| addOffset base (off.signExtend 32) s.nextPc none s s

/-- BIAP, the indexed prefix (rules R138, R139): as base, PC reads as the address after the modified instruction; as index, as the address of the modified instruction. -/
def execBiap (m : Size) (index base : Reg) (s : State) : Result State :=
  prefixForm s <|
  passAddress (s.gpr base (s.pc + 4) + scaleBy m (s.gpr index s.nextPc)) none false s.nextPc s

/-- BDAP with a byte offset in the word (rules R141, R142). -/
def execBdapQuick (base : Reg) (off : Byte) (s : State) : Result State :=
  byteOffsetPrefix base off s

/-- BDAP, the offset prefix with an offset in memory or immediate data (rules R141, R142). -/
def execBdap (m : Size) (base : Reg) (off : SrcMode) (s : State) : Result State :=
  prefixForm s <|
  match off with
  | .mem a =>
    andThen (prefixPointer m a (fun r => r == base) s) fun (p, t, bumped) =>
      andThen (memRead m.bytes p t) fun (v, u) =>
        addOffset base (signExtendFrom m v) s.nextPc bumped s u
  | .imm v =>
    andThen (immediate m v s) fun (w, t) =>
      addOffset base (signExtendFrom m w) (afterSource m off s) none s t

/-- DIP, the double-indirect prefix, and the absolute address (rules R145, R146). -/
def execDip (src : SrcMode) (s : State) : Result State :=
  prefixForm s <|
  match src with
  | .mem a =>
    andThen (prefixPointer .d a (fun _ => false) s) fun (p, t, bumped) =>
      andThen (memRead 4 p t) fun (v, u) => passAddress v bumped true s.nextPc u
  | .imm v =>
    andThen (immediate .d v s) fun (w, t) => passAddress w none true (afterSource .d src s) t

/-- PUSH Rn: the offset prefix SP - 4 and MOVE.D Rn,[SP=SP-4], one instruction (rules R137, R202). -/
def execPushReg (rn : Reg) (s : State) : Result State :=
  andThen (byteOffsetPrefix spReg 0xFC#8 s) fun t => moveRegTo .d rn (.inc spReg) t

/-- PUSH Pn: the offset prefix SP - w and MOVE Pn,[SP=SP-w], w the width of Pn (rules R137, R202). -/
def execPushSpecial (pn : PNum) (s : State) : Result State :=
  withSpecial pn fun q =>
    andThen (byteOffsetPrefix spReg (BitVec.ofNat 8 (256 - q.size.bytes)) s) fun t =>
      moveFromSpecialToMem q (.inc spReg) t

end Sys2Proof.Machine
end

