-- ==== Sys2Proof/Machine/Dispatch.lean ====
section
/-! DEFINITION. `exec`: one arm for each instruction, one call of its meaning. -/

namespace Sys2Proof.Machine

/-- The meaning of each instruction. -/
def exec (i : Instr) (s : State) : Host.Outcome State Fault Refusal :=
  match i with
  | .reserved w => Sys2Proof.Machine.execReserved w s
  | .ba8 off => Sys2Proof.Machine.execBa8 off s
  | .bcc8 c off => Sys2Proof.Machine.execBcc8 c off s
  | .bdapQuick base off => Sys2Proof.Machine.execBdapQuick base off s
  | .addq rd imm => Sys2Proof.Machine.execAddq rd imm s
  | .moveq rd imm => Sys2Proof.Machine.execMoveq rd imm s
  | .subq rd imm => Sys2Proof.Machine.execSubq rd imm s
  | .cmpq rd imm => Sys2Proof.Machine.execCmpq rd imm s
  | .andq rd imm => Sys2Proof.Machine.execAndq rd imm s
  | .orq rd imm => Sys2Proof.Machine.execOrq rd imm s
  | .btstq rd n => Sys2Proof.Machine.execBtstq rd n s
  | .asrq rd n => Sys2Proof.Machine.execAsrq rd n s
  | .lslq rd n => Sys2Proof.Machine.execLslq rd n s
  | .lsrq rd n => Sys2Proof.Machine.execLsrq rd n s
  | .adduReg z rd rs => Sys2Proof.Machine.execAdduReg z rd rs s
  | .addsReg z rd rs => Sys2Proof.Machine.execAddsReg z rd rs s
  | .movuReg z rd rs => Sys2Proof.Machine.execMovuReg z rd rs s
  | .movsReg z rd rs => Sys2Proof.Machine.execMovsReg z rd rs s
  | .subuReg z rd rs => Sys2Proof.Machine.execSubuReg z rd rs s
  | .subsReg z rd rs => Sys2Proof.Machine.execSubsReg z rd rs s
  | .btst rd rs => Sys2Proof.Machine.execBtst rd rs s
  | .lsl m rd rs => Sys2Proof.Machine.execLsl m rd rs s
  | .nop => Sys2Proof.Machine.execNop s
  | .scc c rd => Sys2Proof.Machine.execScc c rd s
  | .addi m rd rs => Sys2Proof.Machine.execAddi m rd rs s
  | .biap m index base => Sys2Proof.Machine.execBiap m index base s
  | .ax => Sys2Proof.Machine.execAx s
  | .ei => Sys2Proof.Machine.execEi s
  | .setf list => Sys2Proof.Machine.execSetf list s
  | .neg m rd rs => Sys2Proof.Machine.execNeg m rd rs s
  | .di => Sys2Proof.Machine.execDi s
  | .clearf list => Sys2Proof.Machine.execClearf list s
  | .boundReg m rd rs => Sys2Proof.Machine.execBoundReg m rd rs s
  | .moveRegToSpecial pd rs => Sys2Proof.Machine.execMoveRegToSpecial pd rs s
  | .addReg m rd rs => Sys2Proof.Machine.execAddReg m rd rs s
  | .ret => Sys2Proof.Machine.execRet s
  | .reti => Sys2Proof.Machine.execReti s
  | .retb => Sys2Proof.Machine.execRetb s
  | .clearByteReg rd => Sys2Proof.Machine.execClearByteReg rd s
  | .clearWordReg rd => Sys2Proof.Machine.execClearWordReg rd s
  | .clearDwordReg rd => Sys2Proof.Machine.execClearDwordReg rd s
  | .moveSpecialToReg ps rd => Sys2Proof.Machine.execMoveSpecialToReg ps rd s
  | .moveReg m rd rs => Sys2Proof.Machine.execMoveReg m rd rs s
  | .absReg rd rs => Sys2Proof.Machine.execAbsReg rd rs s
  | .subReg m rd rs => Sys2Proof.Machine.execSubReg m rd rs s
  | .dstep rd rs => Sys2Proof.Machine.execDstep rd rs s
  | .cmpReg m rd rs => Sys2Proof.Machine.execCmpReg m rd rs s
  | .lz rd rs => Sys2Proof.Machine.execLz rd rs s
  | .andReg m rd rs => Sys2Proof.Machine.execAndReg m rd rs s
  | .notReg rd => Sys2Proof.Machine.execNotReg rd s
  | .swap opts rd => Sys2Proof.Machine.execSwap opts rd s
  | .orReg m rd rs => Sys2Proof.Machine.execOrReg m rd rs s
  | .xorReg rd rs => Sys2Proof.Machine.execXorReg rd rs s
  | .asr m rd rs => Sys2Proof.Machine.execAsr m rd rs s
  | .mstep rd rs => Sys2Proof.Machine.execMstep rd rs s
  | .lsr m rd rs => Sys2Proof.Machine.execLsr m rd rs s
  | .adduMem z rd src => Sys2Proof.Machine.execAdduMem z rd src s
  | .addsMem z rd src => Sys2Proof.Machine.execAddsMem z rd src s
  | .movuMem z rd src => Sys2Proof.Machine.execMovuMem z rd src s
  | .movsMem z rd src => Sys2Proof.Machine.execMovsMem z rd src s
  | .subuMem z rd src => Sys2Proof.Machine.execSubuMem z rd src s
  | .subsMem z rd src => Sys2Proof.Machine.execSubsMem z rd src s
  | .cmpuMem z rd src => Sys2Proof.Machine.execCmpuMem z rd src s
  | .cmpsMem z rd src => Sys2Proof.Machine.execCmpsMem z rd src s
  | .brk n => Sys2Proof.Machine.execBrk n s
  | .jumpImm target => Sys2Proof.Machine.execJumpImm target s
  | .jumpMem src => Sys2Proof.Machine.execJumpMem src s
  | .jsrMem src => Sys2Proof.Machine.execJsrMem src s
  | .jirMem src => Sys2Proof.Machine.execJirMem src s
  | .jsrcMem src => Sys2Proof.Machine.execJsrcMem src s
  | .jircMem src => Sys2Proof.Machine.execJircMem src s
  | .jbrcMem src => Sys2Proof.Machine.execJbrcMem src s
  | .dip src => Sys2Proof.Machine.execDip src s
  | .bdap m base off => Sys2Proof.Machine.execBdap m base off s
  | .jumpReg rs => Sys2Proof.Machine.execJumpReg rs s
  | .jsrReg rs => Sys2Proof.Machine.execJsrReg rs s
  | .jirReg rs => Sys2Proof.Machine.execJirReg rs s
  | .jsrcReg rs => Sys2Proof.Machine.execJsrcReg rs s
  | .jircReg rs => Sys2Proof.Machine.execJircReg rs s
  | .jbrcReg rs => Sys2Proof.Machine.execJbrcReg rs s
  | .ba16 off => Sys2Proof.Machine.execBa16 off s
  | .bcc16 c off => Sys2Proof.Machine.execBcc16 c off s
  | .boundMem m rd src => Sys2Proof.Machine.execBoundMem m rd src s
  | .popSpecial pd => Sys2Proof.Machine.execPopSpecial pd s
  | .moveMemToSpecial pd src => Sys2Proof.Machine.execMoveMemToSpecial pd src s
  | .addMem m rd src => Sys2Proof.Machine.execAddMem m rd src s
  | .popReg rd => Sys2Proof.Machine.execPopReg rd s
  | .clearByteMem dst => Sys2Proof.Machine.execClearByteMem dst s
  | .clearWordMem dst => Sys2Proof.Machine.execClearWordMem dst s
  | .clearDwordMem dst => Sys2Proof.Machine.execClearDwordMem dst s
  | .moveSpecialToMem ps dst => Sys2Proof.Machine.execMoveSpecialToMem ps dst s
  | .moveMemToReg m rd src => Sys2Proof.Machine.execMoveMemToReg m rd src s
  | .subMem m rd src => Sys2Proof.Machine.execSubMem m rd src s
  | .cmpMem m rd src => Sys2Proof.Machine.execCmpMem m rd src s
  | .andMem m rd src => Sys2Proof.Machine.execAndMem m rd src s
  | .orMem m rd src => Sys2Proof.Machine.execOrMem m rd src s
  | .movemLoad rd src => Sys2Proof.Machine.execMovemLoad rd src s
  | .testMem m src => Sys2Proof.Machine.execTestMem m src s
  | .movemStore rs dst => Sys2Proof.Machine.execMovemStore rs dst s
  | .moveRegToMem m rs dst => Sys2Proof.Machine.execMoveRegToMem m rs dst s
  | .testReg m rn => Sys2Proof.Machine.execTestReg m rn s
  | .pushReg rn => Sys2Proof.Machine.execPushReg rn s
  | .pushSpecial pn => Sys2Proof.Machine.execPushSpecial pn s

end Sys2Proof.Machine
end

