-- ==== Sys2Proof/Machine/Fetch.lean ====
section
/-! DEFINITION. Fetching an instruction through the prefetch register, running it together with its addressing-mode prefix word, and placing a program word (20_memory.md section 4, 60_exceptions.md R300 part 2). -/

namespace Sys2Proof.Machine

/-- The prefetch register holds the word at `a` (rule R71). -/
def State.prefetched (s : State) (a : Word) : Option Half :=
  match s.prefetch with
  | some p => if p.addr = a then some p.half else none
  | none => none

/-- The instruction word at the even address `a`: from the prefetch register or from memory (rules R70, R71). -/
def State.codeHalf (s : State) (a : Word) : Half :=
  match s.prefetched a with
  | some h => h
  | none => (s.mem.load 2 a).setWidth 16

/-- The prefetch register after the word at `a` was fetched: a read at a dword boundary saves the upper two bytes
(rules R46, R71). -/
def State.keepUpper (s : State) (a : Word) : State :=
  { s with prefetch :=
      match s.prefetched a with
      | some _ => none
      | none =>
        if a.getLsbD 1 then none else some ⟨a + 2, (s.mem.load 2 (a + 2)).setWidth 16⟩ }

/-- The read cycle of an instruction-word fetch, compared with BAR when `HWBP_ON_FETCH` says so; a word from the
prefetch register needs no cycle (rules R71, R309). -/
def State.watchFetch (s : State) (a : Word) : State :=
  if s.params.breakOnFetch && (s.prefetched a).isNone then s.watch 2 a else s

/-- The instruction whose word is at pc (rule R113). -/
def State.instrAt (s : State) : Instr := decodeWord (s.codeHalf s.pc) (s.mem.load 4 (s.pc + 2))

/-- The bytes the instruction at pc takes; behind a prefix word it has no immediate data (rule R100). -/
def State.fetchLength (s : State) : Nat := if s.latch.isSome then 2 else s.instrAt.length

/-- Fetches and decodes the instruction whose bytes stand in memory (rules R62, R70, R78): a byte that is no memory and
a byte the program has stored to stop the machine, immediate data and the unused byte included (DEDUCED, log entry 12).
That the second byte behind a byte immediate, whose value has no effect (decision D25), must be memory and counts for
`Alias31` like the others is the model's choice (DESIGN CHOICE, log entry 33). -/
def fetchHere (s : State) : Result (Instr × State) :=
  andThen (touch s.fetchLength s.pc s) fun t =>
    refuseIf (s.storedAny s.fetchLength s.pc) .storedCode <|
    .next (s.instrAt, (t.watchFetch s.pc).keepUpper s.pc)

/-- Fetches and decodes the instruction at pc (rules R50, R70): an odd address is refused, and the other bus masters may
write before (rule R74, log entry 10). -/
def fetchInstr (s : State) : Result (Instr × State) :=
  refuseOdd s.pc (fetchHere s.yieldBus)

/-- Fetches one instruction word with its immediate data and runs it. -/
def runWord (run : Instr → State → Result State) (s : State) : Result State :=
  andThen (fetchInstr s) fun p => run p.1 p.2

/-- Runs the instruction at pc; an addressing-mode prefix word and the word behind it run as one instruction
(rules R137, R300 part 2). -/
def runInstruction (run : Instr → State → Result State) (s : State) : Result State :=
  andThen (runWord run s) fun t => if t.latch.isSome then runWord run t else .next t

/-! ## Placing an instruction word -/

/-- Stores the words of a list from address `a` upward, the low byte of each first (rule R61). -/
def Memory.putWords (m : Memory) : List Half → Word → Memory
  | [], _ => m
  | w :: rest, a => Memory.putWords (m.store 2 a (w.setWidth 32)) rest (a + 2)

/-- The locations of the `n` bytes from `a`. -/
def locationsFrom : Nat → Word → List Nat
  | 0, _ => []
  | n + 1, a => location a :: locationsFrom n (a + 1)

/-- The next input of the environment without its requests. -/
def quietNext : List Input → List Input
  | [] => []
  | i :: rest => { i with reset := none, irq := none, nmi := none } :: rest

/-- The state in which the next step fetches and runs the instruction whose words are `ws` from pc: the words lie in
memory as if loaded from outside (log entry 11), no other bus master overwrites them, and no trap is due. -/
def State.place (s : State) (ws : List Half) : State :=
  { s with
    mem := s.mem.putWords ws s.pc
    stored := s.stored.filter fun l => !(locationsFrom (2 * ws.length) s.pc).contains l
    aliasSeen := s.aliasSeen.filter fun e => !(locationsFrom (2 * ws.length) s.pc).contains e.1
    others := s.others.map fun cells =>
      cells.filter fun c => !(locationsFrom (2 * ws.length) s.pc).contains (location c.1)
    prefetch := none
    irqWindow := s.irqWindow || s.hit
    env := quietNext s.env }

end Sys2Proof.Machine
end

