-- ==== Sys2Proof/Machine/Traps.lean ====
section
/-! DEFINITION. Which trap is taken at an instruction boundary, the acknowledge sequences of the interrupt, the NMI and the hardware breakpoint, and reset (60_exceptions.md R300 part 1, R301, R306, R310, R311; 70_reset_and_hazards.md R340). -/

namespace Sys2Proof.Machine

open Sys2Proof.Config

/-- The three traps that are taken between instructions (rule R300 part 1). -/
inductive TrapKind where
  | breakpoint
  | nmi
  | interrupt
  deriving DecidableEq, Repr

/-- The traps in the order in which they are considered; rule R311 fixes none, so the environment's input does. -/
def TrapOrder.kinds : TrapOrder → List TrapKind
  | .hni => [.breakpoint, .nmi, .interrupt]
  | .hin => [.breakpoint, .interrupt, .nmi]
  | .nhi => [.nmi, .breakpoint, .interrupt]
  | .nih => [.nmi, .interrupt, .breakpoint]
  | .ihn => [.interrupt, .breakpoint, .nmi]
  | .inh => [.interrupt, .nmi, .breakpoint]

/-- A trap is eligible: a hit is pending; an NMI is presented and M is set; an interrupt is presented and I is set
(rule R300 part 1). -/
def eligible (inp : Input) (s : State) : TrapKind → Bool
  | .breakpoint => s.hit
  | .nmi => inp.nmi.isSome && s.flags.m
  | .interrupt => inp.irq.isSome && s.flags.i

/-- The trap taken at this boundary: none inside the interrupt-disable window (rules R300 part 1, R305, R311). -/
def dueTrap (inp : Input) (s : State) : Option TrapKind :=
  if s.irqWindow then none else inp.order.kinds.find? (eligible inp s)

/-- The interrupt acknowledge sequence; no flag is written (rule R301). -/
def takeInterrupt (vec : Byte) (s : State) : Result State := takeException .irp vec s

/-- The NMI acknowledge sequence; it clears M (rule R306). -/
def takeNmi (vec : Byte) (s : State) : Result State :=
  takeException .brp vec { s with flags := { s.flags with m := false } }

/-- Taking a hardware-breakpoint hit: the vector number is fixed, B stays, and M becomes a free value
(rule R310, decision D13, log entry 7). The hit is cleared first, so that a hit of the sequence's own vector read stays
pending when `HWBP_ON_VECTOR_READ` holds; rule R310 fixes no order (DESIGN CHOICE, log entry 32). -/
def takeBreakpoint (s : State) : Result State :=
  takeException .brp 0x20#8
    { s with
      hit := false
      flags := { s.flags with m := maskAfterHit s.draws }
      draws := s.draws + 1 }

/-- Takes a trap; the vector number of an interrupt or NMI is the environment's answer to the INTA cycle
(rules R77, R303, R306). -/
def takeTrap (k : TrapKind) (inp : Input) (s : State) : Result State :=
  match k with
  | .breakpoint => takeBreakpoint s
  | .nmi => takeNmi (inp.nmi.getD 0) s
  | .interrupt => takeInterrupt (inp.irq.getD 0) s

/-- What the environment presents at the coming step: the head of its list, and nothing past the end
(rule R303). -/
def State.input (s : State) : Input := s.env.headD Input.quiet

/-- The state once that input is consumed. -/
def State.afterInput (s : State) : State := { s with env := s.env.tail }

/-- Reset from any state (rules R340, R341): pc, the flags, IBR and the hidden state are initialised, the other
registers take the values `u`. Memory and the parameters stay (log entry 31). -/
def State.systemReset (u : Unknowns) (s : State) : State :=
  { s with
    regs := u.regs
    pc := resetVector
    flags := Flags.clear
    ibrHigh := 0
    irp := u.irp
    srp := u.srp
    bar := u.bar
    brp := u.brp
    irqWindow := false
    slot := .none
    prefetch := Option.none
    hit := false
    latch := Option.none }

/-- A run ends here: pc is the address stated for `EndOfRun`, if one is (rule R323, decision D28, log entry 30). The
machine itself has no halt, so `step` does not ask. -/
def State.ended (s : State) : Bool := s.params.endOfRun == some s.pc

/-- One step of the CPU (rules R300, R340): a reset if one is presented, else a trap if one is due, else one
instruction, run by `run`. -/
def oneStep (run : State → Result State) (s : State) : Result State :=
  match s.input.reset with
  | some u => .next (s.afterInput.systemReset u)
  | none =>
    match dueTrap s.input s.afterInput with
    | some k => takeTrap k s.input s.afterInput
    | none => run s.afterInput

end Sys2Proof.Machine
end

