-- ==== Sys2Proof/Machine/Step.lean ====
section
/-! DEFINITION. One step of the machine (60_exceptions.md R300), and the placing of an instruction where the next step fetches it. -/

namespace Sys2Proof.Machine

/-- One step of the CPU (rule R300). -/
def step (s : State) : Host.Outcome State Fault Refusal := oneStep (runInstruction exec) s

/-- The state whose next step fetches and runs the instruction with bits `w`, numbered as
spec/opcode_table.json numbers them; the bits from `nbits` up are 0. -/
def State.withFetchWord (s : State) (nbits w : Nat) : State := s.place (wordsOfNat nbits w)

end Sys2Proof.Machine
end

