-- ==== Sys2Proof/Safety.lean ====
section
/-! DEFINITION. What counts as a sound state and a safe run, and the vocabulary of the statements: integer arithmetic on the low bits of a register, bytes of memory as a number, and what an instruction keeps. -/

namespace Sys2Proof.Machine

/-! ## Safe runs and sound states -/

/-- The outcome is a next state: neither a fault nor a refusal (rule R14). -/
def answers (o : Host.Outcome State Fault Refusal) : Prop := ∃ t, o = .next t

/-- The outcome is a refusal: the spec gives the situation no meaning (rule R14). -/
def refuses {α : Type} (o : Result α) : Prop := ∃ r, o = .refused r

/-- No other bus master writes, the default of `ExternalWriters` (rule R74, decision D8, log entry 10). No step changes
this. -/
abbrev Alone (s : State) : Prop := s.params.externalWriters = false

/-- A run of at most `k` steps, which ends at the address stated for `EndOfRun` (rule R323, decision D28). -/
def runToEnd : Nat → State → Result State
  | 0, s => .next s
  | k + 1, s => if s.ended then .next s else andThen (step s) (runToEnd k)

/-- The first `k` steps all answer a next state. -/
def safeFor : Nat → State → Prop
  | 0, _ => True
  | k + 1, s => ∃ t, step s = .next t ∧ safeFor k t

/-- A sound state between two instructions. Every step keeps it. -/
structure State.Inv (s : State) : Prop where
  /-- memory has its canonical form -/
  memory : s.mem.wf = true
  /-- pc is even (rule R50) -/
  pcEven : s.pc.getLsbD 0 = false
  /-- the target of a pending delayed jump is even (rules R45, R50) -/
  targetEven : ∀ t, s.slot = .pending t → t.getLsbD 0 = false
  /-- no trap can separate a delayed branch from its slot (rules R162, R304) -/
  slotHeld : s.slot ≠ .none → s.irqWindow = true
  /-- no trap can separate AX from the next instruction (rules R42, R193) -/
  extendHeld : s.flags.x = true → s.irqWindow = true
  /-- no instruction is half done: no prefix address is pending (rule R137) -/
  noLatch : s.latch = none
  /-- the prefetch register holds the upper half of an aligned dword (rule R46) -/
  prefetchUpper : ∀ p, s.prefetch = some p → p.addr.getLsbD 0 = false ∧ p.addr.getLsbD 1 = true
  /-- while no other bus master writes, the prefetch register agrees with memory, but where the program has stored since
  (rules R71, R78) -/
  prefetchFresh : s.params.externalWriters = false → ∀ p, s.prefetch = some p → s.storedAny 2 p.addr = false →
    p.half = (s.mem.load 2 p.addr).setWidth 16

/-! ## Numbers in the low bits of a value -/

/-- The number of bits of a size (rule R11). -/
def sizeBits : Size → Nat
  | .b => 8
  | .w => 16
  | .d => 32

/-- The low bits of a value as an unsigned number. -/
def lowNat (m : Size) (v : Word) : Nat := v.toNat % 2 ^ sizeBits m

/-- The low bits of a value as a signed number. -/
def lowInt (m : Size) (v : Word) : Int := Int.bmod v.toNat (2 ^ sizeBits m)

/-- The low bits of a value, zero-extended (rule R10). -/
def zeroExtended (m : Size) (v : Word) : Word := BitVec.ofNat 32 (lowNat m v)

/-- The low bits of a value, sign-extended (rule R10). -/
def signExtended (m : Size) (v : Word) : Word := BitVec.ofInt 32 (lowInt m v)

/-- The value with its low bits replaced by those of `r` (rules R12, R20). -/
def replaceLow (m : Size) (old r : Word) : Word :=
  BitVec.ofNat 32 (old.toNat / 2 ^ sizeBits m * 2 ^ sizeBits m + lowNat m r)

/-- The address is odd (rule R50). -/
def isOdd (a : Word) : Prop := a.toNat % 2 = 1

/-! ## Flags -/

/-- The four flags that results are reported in. -/
def Flags.nzvc (f : Flags) : Bool × Bool × Bool × Bool := (f.n, f.z, f.v, f.c)

/-- The carry that extended arithmetic takes in (rule R247). -/
def extendCarry (f : Flags) : Nat := if f.x = true ∧ f.c = true then 1 else 0

/-- `r` and the flags `g` are result and flags of adding S to D at size `m`, `f` being the flags before
(rules R36, R37, R247). -/
structure IsSum (m : Size) (s d : Word) (f : Flags) (r : Word) (g : Flags) : Prop where
  result : r.toNat = (lowNat m d + lowNat m s + extendCarry f) % 2 ^ sizeBits m
  negative : g.n = true ↔ lowInt m r < 0
  zero : g.z = true ↔ r = 0 ∧ (f.x = true → f.z = true)
  overflow : g.v = true ↔ lowInt m d + lowInt m s + extendCarry f ≠ lowInt m r
  carry : g.c = true ↔ 2 ^ sizeBits m ≤ lowNat m d + lowNat m s + extendCarry f

/-- `r` and the flags `g` are result and flags of subtracting S from D at size `m` (rules R36, R38, R247). -/
structure IsDifference (m : Size) (s d : Word) (f : Flags) (r : Word) (g : Flags) : Prop where
  result : (r.toNat : Int) = ((lowNat m d : Int) - lowNat m s - extendCarry f) % 2 ^ sizeBits m
  negative : g.n = true ↔ lowInt m r < 0
  zero : g.z = true ↔ r = 0 ∧ (f.x = true → f.z = true)
  overflow : g.v = true ↔ lowInt m d - lowInt m s - extendCarry f ≠ lowInt m r
  borrow : g.c = true ↔ lowNat m d < lowNat m s + extendCarry f

/-- The flags of a result `r` in the general case: N and Z from it, V and C clear (rules R36, R43). -/
structure IsGeneral (m : Size) (f : Flags) (r : Word) (g : Flags) : Prop where
  negative : g.n = true ↔ lowInt m r < 0
  zero : g.z = true ↔ r = 0 ∧ (f.x = true → f.z = true)
  overflow : g.v = false
  carry : g.c = false

/-! ## Memory -/

/-- The `n` bytes from address `a` as a number, least significant first (rules R61, R62). -/
def bytesNat (s : State) : Nat → Word → Nat
  | 0, _ => 0
  | n + 1, a => (s.peek a).toNat + 256 * bytesNat s n (a + 1)

/-- Address `x` names none of the locations of the `n` bytes from `a` (rule R68). -/
def outside (x : Word) (n : Nat) (a : Word) : Prop :=
  ∀ k, k < n → location x ≠ location (a + BitVec.ofNat 32 k)

/-- A bus access to the `n` bytes from `a` matches BAR in bits 30 to 2 (rules R64, R309). -/
def hitsBar (bar : Word) (n : Nat) (a : Word) : Prop :=
  ∃ k, k < n ∧ (a + BitVec.ofNat 32 k).toNat / 4 % 2 ^ 29 = bar.toNat / 4 % 2 ^ 29

/-- What a data access to the `n` bytes from `a` leaves: a hit is recorded when B is set and BAR matches; nothing
else changes but the model's own note of the aliases used (rules R66, R309). -/
structure Accessed (s u : State) (n : Nat) (a : Word) : Prop where
  same : u = { s with hit := u.hit, aliasSeen := u.aliasSeen }
  hit : u.hit = true ↔ s.hit = true ∨ (s.flags.b = true ∧ hitsBar s.bar n a)

/-! ## What an instruction leaves as it was, and how it ends -/

/-- Where pc goes after an instruction whose end is `next`: to the pending target in a taken delay slot
(rules R45, R300). -/
def Slot.goesTo (k : Slot) (next : Word) : Word :=
  match k with
  | .pending t => t
  | _ => next

/-- The frame: the general registers other than those in `but`, the special registers, the enable flags M, B, I,
every byte of memory, and what the environment and the other bus masters will present. -/
structure Kept (s t : State) (but : Reg → Prop) : Prop where
  registers : ∀ r, r ≠ pcReg → ¬ but r → t.gpr r 0 = s.gpr r 0
  specials : t.ibr = s.ibr ∧ t.irp = s.irp ∧ t.srp = s.srp ∧ t.bar = s.bar ∧ t.brp = s.brp
  enables : t.flags.m = s.flags.m ∧ t.flags.b = s.flags.b ∧ t.flags.i = s.flags.i
  bytes : ∀ a, t.peek a = s.peek a
  environment : t.env = s.env ∧ t.others = s.others ∧ t.params = s.params
  hit : t.hit = s.hit

/-- The end of an instruction: pc, no delay slot, the window, X cleared (rules R42, R45, R300 part 3). -/
structure Ends (s t : State) (next : Word) (window : Bool) : Prop where
  pc : t.pc = s.slot.goesTo next
  slot : t.slot = .none
  latch : t.latch = none
  window : t.irqWindow = window
  extend : t.flags.x = false

/-- The state after an instruction that changes flags at most, with window and flags as given (rule R300 part 3). -/
def State.finish (s : State) (window : Bool) (f : Flags) : State :=
  { s with pc := s.slot.goesTo (s.pc + 2), slot := .none, irqWindow := window, flags := f }

/-- The state after a branch: the window opens, the next instruction is its delay slot, and the target is pending when
the branch is taken (rules R45, R162). -/
def State.branched (u : State) (target : Word) (taken : Bool) : State :=
  { u with
    slot := if taken then .pending target else .notTaken
    irqWindow := true
    flags := { u.flags with x := false } }

/-- The state after an immediate jump to `target` (rule R165). -/
def State.arrived (u : State) (target : Word) : State :=
  { u with pc := target, latch := none, irqWindow := false, flags := { u.flags with x := false } }

/-- No register. -/
def noReg (_r : Reg) : Prop := False

/-- Only the register `rd`. -/
def only (rd : Reg) (r : Reg) : Prop := r = rd

/-- The instruction may run: no prefix word stands before it, and it is in no delay slot if it uses PC
(rules R147, R164). -/
def Ready (s : State) (usesPc : Prop) : Prop := s.latch = none ∧ (usesPc → s.slot = .none)

/-- The outcome of an immediate jump to `t` (rules R50, R165, R166): an odd target is refused; else pc is `t`, and
the state is `u` but for what `change` says. -/
def Jumps (o : Host.Outcome State Fault Refusal) (u : State) (t : Word) (change : State → Prop) : Prop :=
  (isOdd t → o = .refused .oddProgramCounter) ∧
  (¬ isOdd t → ∃ w, o = .next w ∧ Ends u w t false ∧ change w)

/-- The outcome of an instruction that writes a result of size `m` to `rd` and flags: `result` relates result and
flags to the operands; `u` is the state after its source operand is read, `next` the address after it. With PC the
result is a jump target (rules R12, R20, R166, R230). -/
def Computes (o : Host.Outcome State Fault Refusal) (u : State) (m : Size) (rd : Reg) (next : Word)
    (result : Word → Flags → Prop) : Prop :=
  ∃ r g, result r g ∧
    (rd ≠ pcReg → ∃ t, o = .next t ∧ t.gpr rd 0 = replaceLow m (u.gpr rd 0) r ∧ t.flags.nzvc = g.nzvc ∧
      Ends u t next false ∧ Kept u t (only rd)) ∧
    (rd = pcReg → Jumps o u (replaceLow m next r) fun t => t.flags.nzvc = g.nzvc ∧ Kept u t noReg)

/-- The outcome of an instruction that writes flags only. -/
def Tests (o : Host.Outcome State Fault Refusal) (u : State) (next : Word) (result : Flags → Prop) : Prop :=
  ∃ t, o = .next t ∧ result t.flags ∧ Ends u t next false ∧ Kept u t noReg

/-- The outcome of an instruction that writes the whole of `rd` and no flag. -/
def Sets (o : Host.Outcome State Fault Refusal) (u : State) (rd : Reg) (v next : Word) (window : Bool) : Prop :=
  ∃ t, o = .next t ∧ t.gpr rd 0 = v ∧ t.flags.nzvc = u.flags.nzvc ∧ Ends u t next window ∧ Kept u t (only rd)

/-! ## Kinds of instructions -/

/-- An addressing-mode prefix word (rule R98). -/
def isPrefixWord (i : Instr) : Prop :=
  (∃ base off, i = .bdapQuick base off) ∨ (∃ m index base, i = .biap m index base) ∨
  (∃ m base off, i = .bdap m base off) ∨ ∃ src, i = .dip src

/-- MOVE or POP to the special register with number `p` (rules R197, R199, R203). -/
def movesTo (p : PNum) (i : Instr) : Prop :=
  (∃ rs, i = .moveRegToSpecial p rs) ∨ (∃ src, i = .moveMemToSpecial p src) ∨ i = .popSpecial p

/-- SETF, AX or EI with flag number `k` on its list (rules R191, R193, R195). -/
def setsFlag (k : Nat) (i : Instr) : Prop :=
  (∃ l, i = .setf l ∧ l.getLsbD k = true) ∨ (i = .ax ∧ k = 4) ∨ (i = .ei ∧ k = 5)

/-- CLEARF or DI with flag number `k` on its list (rules R192, R194). -/
def clearsFlag (k : Nat) (i : Instr) : Prop :=
  (∃ l, i = .clearf l ∧ l.getLsbD k = true) ∨ (i = .di ∧ k = 5)

/-- The instructions that store to memory: MOVE and MOVEM to memory, CLEAR of memory, PUSH (rule R65). -/
def storesToMemory (i : Instr) : Prop :=
  (∃ m rs dst, i = .moveRegToMem m rs dst) ∨ (∃ rs dst, i = .movemStore rs dst) ∨
  (∃ p dst, i = .moveSpecialToMem p dst) ∨ (∃ dst, i = .clearByteMem dst) ∨
  (∃ dst, i = .clearWordMem dst) ∨ (∃ dst, i = .clearDwordMem dst) ∨
  (∃ r, i = .pushReg r) ∨ ∃ p, i = .pushSpecial p

/-- Bcc in its two forms (rule R160). -/
def isBranch (i : Instr) : Prop :=
  (∃ c off, i = .bcc8 c off) ∨ (∃ off, i = .ba8 off) ∨ (∃ c off, i = .bcc16 c off) ∨ ∃ off, i = .ba16 off

/-- RET, RETI and RETB, under their own names or as a MOVE to PC (rules R171 to R173). -/
def isReturn (i : Instr) : Prop :=
  i = .ret ∨ i = .reti ∨ i = .retb ∨ ∃ p, p.returnPointer = true ∧ i = .moveSpecialToReg p pcReg

/-- A jump of the jump group, or BREAK (rules R165, R168 to R170, R190). -/
def isJump (i : Instr) : Prop :=
  (∃ t, i = .jumpImm t) ∨ (∃ a, i = .jumpMem a) ∨ (∃ r, i = .jumpReg r) ∨
  (∃ a, i = .jsrMem a) ∨ (∃ r, i = .jsrReg r) ∨ (∃ a, i = .jirMem a) ∨ (∃ r, i = .jirReg r) ∨
  (∃ a, i = .jsrcMem a) ∨ (∃ r, i = .jsrcReg r) ∨ (∃ a, i = .jircMem a) ∨ (∃ r, i = .jircReg r) ∨
  (∃ a, i = .jbrcMem a) ∨ (∃ r, i = .jbrcReg r) ∨ ∃ n, i = .brk n

/-- A jump of the jump group with a register operand (rule R105). -/
def isRegisterJump (i : Instr) : Prop :=
  (∃ r, i = .jumpReg r) ∨ (∃ r, i = .jsrReg r) ∨ (∃ r, i = .jirReg r) ∨ (∃ r, i = .jsrcReg r) ∨
  (∃ r, i = .jircReg r) ∨ ∃ r, i = .jbrcReg r

/-- A transfer to or from a special register: the MOVE forms, PUSH and POP of a special register, CLEAR, RET, RETI,
RETB (rule R305(b)). -/
def transfersSpecial (i : Instr) : Prop :=
  (∃ p r, i = .moveRegToSpecial p r) ∨ (∃ p r, i = .moveSpecialToReg p r) ∨
  (∃ p a, i = .moveMemToSpecial p a) ∨ (∃ p a, i = .moveSpecialToMem p a) ∨
  (∃ p, i = .popSpecial p) ∨ (∃ p, i = .pushSpecial p) ∨
  (∃ r, i = .clearByteReg r) ∨ (∃ r, i = .clearWordReg r) ∨ (∃ r, i = .clearDwordReg r) ∨
  (∃ a, i = .clearByteMem a) ∨ (∃ a, i = .clearWordMem a) ∨ (∃ a, i = .clearDwordMem a) ∨ isReturn i

/-- The instructions that open the interrupt-disable window (rule R305(b), (c), (d)). -/
def opensWindow (i : Instr) : Prop := transfersSpecial i ∨ setsFlag 4 i ∨ isBranch i

/-- A general-register operand field of the instruction names PC (rules R164, R166). -/
def namesPc : Instr → Prop
  | .addq r _ => r = pcReg
  | .moveq r _ => r = pcReg
  | .subq r _ => r = pcReg
  | .cmpq r _ => r = pcReg
  | .andq r _ => r = pcReg
  | .orq r _ => r = pcReg
  | .btstq r _ => r = pcReg
  | .asrq r _ => r = pcReg
  | .lslq r _ => r = pcReg
  | .lsrq r _ => r = pcReg
  | .adduReg _ r q => r = pcReg ∨ q = pcReg
  | .addsReg _ r q => r = pcReg ∨ q = pcReg
  | .movuReg _ r q => r = pcReg ∨ q = pcReg
  | .movsReg _ r q => r = pcReg ∨ q = pcReg
  | .subuReg _ r q => r = pcReg ∨ q = pcReg
  | .subsReg _ r q => r = pcReg ∨ q = pcReg
  | .btst r q => r = pcReg ∨ q = pcReg
  | .lsl _ r q => r = pcReg ∨ q = pcReg
  | .scc _ r => r = pcReg
  | .addi _ r q => r = pcReg ∨ q = pcReg
  | .neg _ r q => r = pcReg ∨ q = pcReg
  | .boundReg _ r q => r = pcReg ∨ q = pcReg
  | .moveRegToSpecial _ r => r = pcReg
  | .addReg _ r q => r = pcReg ∨ q = pcReg
  | .clearByteReg r => r = pcReg
  | .clearWordReg r => r = pcReg
  | .clearDwordReg r => r = pcReg
  | .moveSpecialToReg _ r => r = pcReg
  | .moveReg _ r q => r = pcReg ∨ q = pcReg
  | .absReg r q => r = pcReg ∨ q = pcReg
  | .subReg _ r q => r = pcReg ∨ q = pcReg
  | .dstep r q => r = pcReg ∨ q = pcReg
  | .cmpReg _ r q => r = pcReg ∨ q = pcReg
  | .lz r q => r = pcReg ∨ q = pcReg
  | .andReg _ r q => r = pcReg ∨ q = pcReg
  | .notReg r => r = pcReg
  | .swap _ r => r = pcReg
  | .orReg _ r q => r = pcReg ∨ q = pcReg
  | .xorReg r q => r = pcReg ∨ q = pcReg
  | .asr _ r q => r = pcReg ∨ q = pcReg
  | .mstep r q => r = pcReg ∨ q = pcReg
  | .lsr _ r q => r = pcReg ∨ q = pcReg
  | .adduMem _ r _ => r = pcReg
  | .addsMem _ r _ => r = pcReg
  | .movuMem _ r _ => r = pcReg
  | .movsMem _ r _ => r = pcReg
  | .subuMem _ r _ => r = pcReg
  | .subsMem _ r _ => r = pcReg
  | .cmpuMem _ r _ => r = pcReg
  | .cmpsMem _ r _ => r = pcReg
  | .boundMem _ r _ => r = pcReg
  | .addMem _ r _ => r = pcReg
  | .popReg r => r = pcReg
  | .moveMemToReg _ r _ => r = pcReg
  | .subMem _ r _ => r = pcReg
  | .cmpMem _ r _ => r = pcReg
  | .andMem _ r _ => r = pcReg
  | .orMem _ r _ => r = pcReg
  | .movemLoad r _ => r = pcReg
  | .movemStore r _ => r = pcReg
  | .moveRegToMem _ r _ => r = pcReg
  | .testReg _ r => r = pcReg
  | .pushReg r => r = pcReg
  | _ => False

/-- The instructions that may not stand in a delay slot (rule R164). -/
def forbiddenInSlot (i : Instr) : Prop :=
  isBranch i ∨ isJump i ∨ isReturn i ∨ isPrefixWord i ∨ (∃ r, i = .pushReg r) ∨ (∃ p, i = .pushSpecial p) ∨
    i.immLength ≠ 0 ∨ namesPc i

/-! ## Memory operands of the instructions -/

/-- The memory or immediate operand of an instruction, its destination in memory included; prefix words are not listed,
nor is PUSH, whose operand belongs to its own prefix word (rules R102 to R105). -/
def operand : Instr → Option SrcMode
  | .adduMem _ _ src => some src
  | .addsMem _ _ src => some src
  | .movuMem _ _ src => some src
  | .movsMem _ _ src => some src
  | .subuMem _ _ src => some src
  | .subsMem _ _ src => some src
  | .cmpuMem _ _ src => some src
  | .cmpsMem _ _ src => some src
  | .boundMem _ _ src => some src
  | .addMem _ _ src => some src
  | .moveMemToReg _ _ src => some src
  | .subMem _ _ src => some src
  | .cmpMem _ _ src => some src
  | .andMem _ _ src => some src
  | .orMem _ _ src => some src
  | .testMem _ src => some src
  | .moveMemToSpecial _ src => some src
  | .popReg _ => some (.mem (.inc spReg))
  | .popSpecial _ => some (.mem (.inc spReg))
  | .jumpMem a => some (.mem a)
  | .jumpImm v => some (.imm v)
  | .jsrMem src => some src
  | .jirMem src => some src
  | .jsrcMem src => some src
  | .jircMem src => some src
  | .jbrcMem src => some src
  | .moveRegToMem _ _ dst => some (.mem dst)
  | .moveSpecialToMem _ dst => some (.mem dst)
  | .clearByteMem dst => some (.mem dst)
  | .clearWordMem dst => some (.mem dst)
  | .clearDwordMem dst => some (.mem dst)
  | .movemLoad _ src => some (.mem src)
  | .movemStore _ dst => some (.mem dst)
  | _ => none

/-- The general register that an instruction with a memory operand writes (rule R136); MOVEM writes a list. -/
def destination : Instr → Option Reg
  | .adduMem _ rd _ => some rd
  | .addsMem _ rd _ => some rd
  | .movuMem _ rd _ => some rd
  | .movsMem _ rd _ => some rd
  | .subuMem _ rd _ => some rd
  | .subsMem _ rd _ => some rd
  | .boundMem _ rd _ => some rd
  | .addMem _ rd _ => some rd
  | .moveMemToReg _ rd _ => some rd
  | .subMem _ rd _ => some rd
  | .andMem _ rd _ => some rd
  | .orMem _ rd _ => some rd
  | .popReg rd => some rd
  | _ => none

/-- The registers that an instruction with a memory operand uses beside the address: its destination, its stored source,
its register list (decision D17), and the register a comparison compares (log entry 15). -/
def usesRegister (i : Instr) (r : Reg) : Prop :=
  destination i = some r ∨ (∃ z src, i = .cmpuMem z r src) ∨ (∃ z src, i = .cmpsMem z r src) ∨
  (∃ m src, i = .cmpMem m r src) ∨ (∃ m dst, i = .moveRegToMem m r dst) ∨
  (∃ n a, (i = .movemLoad n a ∨ i = .movemStore n a) ∧ r.toNat ≤ n.toNat)

/-! ## Other bus masters -/

/-- What the byte at address `x` is after stores of single bytes to memory in which it was `old`. -/
def afterCells : List (Word × Byte) → Word → Byte → Byte
  | [], _, old => old
  | (a, v) :: rest, x, old => afterCells rest x (if location a = location x then v else old)

/-! ## Traps -/

/-- The state whose coming input has the given order of simultaneous traps (rule R311, log entry 9). -/
def State.withOrder (s : State) (o : TrapOrder) : State := { s with env := { s.input with order := o } :: s.env.tail }

/-! ## Special registers by number -/

/-- The flag byte as a number (rule R28). -/
def flagByte (f : Flags) : Nat :=
  f.m.toNat * 128 + f.b.toNat * 64 + f.i.toNat * 32 + f.x.toNat * 16 + f.n.toNat * 8 + f.z.toNat * 4 +
    f.v.toNat * 2 + f.c.toNat

/-- What special register `p` reads as (rules R25 to R33). -/
def specialNat (s : State) (p : PNum) : Nat :=
  match p.toNat with
  | 1 => s.params.version.value.toNat
  | 5 => flagByte s.flags
  | 9 => s.ibrHigh.toNat * 65536
  | 10 => s.irp.toNat
  | 11 => s.srp.toNat
  | 12 => s.bar.toNat
  | 13 => flagByte s.flags
  | 14 => s.brp.toNat
  | _ => 0

/-- The effect of moving `v` to special register `p`: the zero registers and VR discard it, IBR keeps bits 31 to 16,
CCR and DCCR take B, I, N, Z, V, C (rules R25 to R33, R40); every other special register keeps its value and X is
cleared. -/
structure SpecialWritten (u t : State) (p : PNum) (v : Word) : Prop where
  ibr : t.ibr.toNat = if p = 9#4 then v.toNat / 65536 * 65536 else u.ibr.toNat
  irp : t.irp = if p = 10#4 then v else u.irp
  srp : t.srp = if p = 11#4 then v else u.srp
  bar : t.bar = if p = 12#4 then v else u.bar
  brp : t.brp = if p = 14#4 then v else u.brp
  flags : t.flags = if p = 5#4 ∨ p = 13#4 then
      ⟨u.flags.m, v.getLsbD 6, v.getLsbD 5, false, v.getLsbD 3, v.getLsbD 2, v.getLsbD 1, v.getLsbD 0⟩
    else { u.flags with x := false }
  registers : ∀ r, r ≠ pcReg → t.gpr r 0 = u.gpr r 0
  bytes : ∀ a, t.peek a = u.peek a
  environment : t.env = u.env ∧ t.others = u.others ∧ t.params = u.params
  hit : t.hit = u.hit

/-! ## Stores -/

/-- The frame of an instruction that stores `n` bytes at `ea`: every other byte, and all that `Kept` names but the
bytes and the breakpoint hit. -/
structure Stored (u t : State) (n : Nat) (ea : Word) : Prop where
  registers : ∀ r, r ≠ pcReg → t.gpr r 0 = u.gpr r 0
  specials : t.ibr = u.ibr ∧ t.irp = u.irp ∧ t.srp = u.srp ∧ t.bar = u.bar ∧ t.brp = u.brp
  flags : t.flags = { u.flags with x := false }
  others : ∀ a, outside a n ea → t.peek a = u.peek a
  environment : t.env = u.env ∧ t.others = u.others ∧ t.params = u.params
  hit : t.hit = true ↔ u.hit = true ∨ (u.flags.b = true ∧ hitsBar u.bar n ea)

end Sys2Proof.Machine
end

