-- ==== Sys2Proof/Certificates/Slice0/Obligations.lean ====
section
/-! DEFINITION. The statements for the provers. `∃ t, exec i s = .next t ∧ …` says that the instruction completes and what it leaves; `Kept` and `Stored` are the frames, `Ends` the end of an instruction (Sys2Proof/Safety.lean). -/

open Sys2Proof Sys2Proof.Machine

/-! ## Encoding -/

/-- Decoding the words of a well-formed instruction gives it back, whatever words follow (rule R113). -/
def Obligations.DecodeInvertsEncode : Prop :=
  ∀ (i : Instr) (rest : List Half), i.wellFormed = true → decode (encode i ++ rest) = .ok (i, rest)

/-- Every 16-bit word decodes to a well-formed instruction that has this very word: no bit of an encoding is dropped
and no word is without a row (rules R111, R113). -/
def Obligations.EveryWordDecodesToItsOwnRow : Prop :=
  ∀ (w : Half) (next : Word), (decodeWord w next).wellFormed = true ∧ (decodeWord w next).word = w

/-- Words written out in the spec decode to the instruction the spec says they are (rules R149, R163, R197, R246). -/
def Obligations.SpecWordsDecodeAsWritten : Prop :=
  decodeWord 0x7546#16 0 = .biap .b 7#4 6#4 ∧
  decodeWord 0x611B#16 0 = .bdapQuick 6#4 27#8 ∧
  decodeWord 0x3E68#16 0 = .moveMemToReg .d 3#4 (.mem (.inc 8#4)) ∧
  decodeWord 0x0D7F#16 0x15A#32 = .dip (.imm 0x15A#32) ∧
  decodeWord 0x20FF#16 0 = .bcc8 .ne 0xFF#8 ∧
  decodeWord 0xB633#16 0 = .moveRegToSpecial 11#4 3#4 ∧
  decodeWord 0x0DEF#16 3#32 = .boundMem .d 0#4 (.imm 3#32) ∧
  decodeWord 0xE933#16 0 = .brk 3#4 ∧
  decodeWord 0x1433#16 0 = .addsReg .w 1#4 3#4 ∧
  decodeWord 0xF770#16 0 = .swap 15#4 0#4

/-- The assembler names: PUSH is a byte-offset prefix SP - w and a MOVE in assign mode, in its words and in its
effect; `TEST.m Rn` is `MOVE.m Rn,Rn` (rules R110, R202, R264). -/
def Obligations.AssemblerNamesExpand : Prop :=
  (∀ rn s, exec (.pushReg rn) s =
    andThen (exec (.bdapQuick spReg 0xFC#8) s) (exec (.moveRegToMem .d rn (.inc spReg)))) ∧
  (∀ rn, encode (.pushReg rn) = encode (.bdapQuick spReg 0xFC#8) ++ encode (.moveRegToMem .d rn (.inc spReg))) ∧
  (∀ p s, p.implemented = true → exec (.pushSpecial p) s =
    andThen (exec (.bdapQuick spReg (BitVec.ofInt 8 (-(p.size.bytes : Int)))) s) fun t =>
      if p.zeroRegister = true then
        (if p = 0#4 then exec (.clearByteMem (.inc spReg)) t
         else if p = 4#4 then exec (.clearWordMem (.inc spReg)) t else exec (.clearDwordMem (.inc spReg)) t)
      else exec (.moveSpecialToMem p (.inc spReg)) t) ∧
  (∀ p, encode (.pushSpecial p) =
    encode (.bdapQuick spReg (BitVec.ofInt 8 (-(p.size.bytes : Int)))) ++
      encode (.moveSpecialToMem p (.inc spReg))) ∧
  (∀ m rn s, exec (.testReg m rn) s = exec (.moveReg m rn rn) s) ∧
  ∀ m rn, encode (.testReg m rn) = encode (.moveReg m rn rn)

/-! ## The step -/

/-- When the bytes at pc decode to an instruction, the step runs it: at the state in which one input of the environment
is consumed (log entry 8), the other bus masters wrote (log entry 10) and the prefetch register is updated; a hit is
recorded when `HWBP_ON_FETCH` holds, B is set and the read cycle of the fetch, if there is one, matches BAR (rule R309).
That an addressing-mode prefix word is followed by the word behind it in the same step is the spec's decision D1 in the
form of log entry 26 (rules R137, R300 part 2). -/
def Obligations.StepRunsTheDecodedInstruction : Prop :=
  (∀ (s b : State) (i : Instr) (rest : List Half), s.input.reset = none → dueTrap s.input s.afterInput = none →
    s.latch = none → ¬ isOdd s.pc → b = s.afterInput.yieldBus →
    (∀ p, b.prefetch = some p → p.addr = b.pc → p.half = BitVec.ofNat 16 (bytesNat b 2 b.pc)) →
    decode [BitVec.ofNat 16 (bytesNat b 2 b.pc), BitVec.ofNat 16 (bytesNat b 2 (b.pc + 2)),
      BitVec.ofNat 16 (bytesNat b 2 (b.pc + 4))] = .ok (i, rest) →
    b.accessible i.length b.pc = true → b.storedAny i.length b.pc = false →
    ∃ u, u = { b with prefetch := u.prefetch, hit := u.hit, aliasSeen := u.aliasSeen } ∧
      (u.hit = true ↔ s.hit = true ∨ (s.params.breakOnFetch = true ∧ s.flags.b = true ∧
        (∀ p, s.prefetch = some p → p.addr ≠ s.pc) ∧ hitsBar s.bar 2 s.pc)) ∧
      step s = andThen (exec i u) fun t => if t.latch.isSome then runWord exec t else .next t) ∧
  ∀ (t b : State) (j : Instr) (rest : List Half), t.latch.isSome = true → ¬ isOdd t.pc → b = t.yieldBus →
    (∀ p, b.prefetch = some p → p.addr = b.pc → p.half = BitVec.ofNat 16 (bytesNat b 2 b.pc)) →
    decode [BitVec.ofNat 16 (bytesNat b 2 b.pc), BitVec.ofNat 16 (bytesNat b 2 (b.pc + 2)),
      BitVec.ofNat 16 (bytesNat b 2 (b.pc + 4))] = .ok (j, rest) →
    b.accessible 2 b.pc = true → b.storedAny 2 b.pc = false →
    ∃ u, u = { b with prefetch := u.prefetch, hit := u.hit, aliasSeen := u.aliasSeen } ∧
      (u.hit = true ↔ t.hit = true ∨ (t.params.breakOnFetch = true ∧ t.flags.b = true ∧
        (∀ p, t.prefetch = some p → p.addr ≠ t.pc) ∧ hitsBar t.bar 2 t.pc)) ∧
      runWord exec t = exec j u

/-- The prefetch register cannot be observed: in a sound state without other bus masters (log entry 10) an instruction
that is fetched is the one in memory (rules R71, R78; that stored bytes are never fetched is the spec's decision D10). -/
def Obligations.PrefetchRegisterIsInvisible : Prop :=
  ∀ (s t : State) (i : Instr), s.Inv → Alone s → fetchInstr s = .next (i, t) →
    i = decodeWord (BitVec.ofNat 16 (bytesNat s 2 s.pc)) (BitVec.ofNat 32 (bytesNat s 4 (s.pc + 2)))

/-! ## Traps and reset -/

/-- The interrupt acknowledge sequence, when the interrupt is the trap taken: IRP receives pc, pc receives the dword at
IBR + 4 * vec, the window opens, and nothing else changes but what the other bus masters write (log entry 10) and a hit of
the vector read when `HWBP_ON_VECTOR_READ` holds (rules R301, R309; pc is the resume address by the spec's decision D15).
An odd vector is refused (decision D4, log entry 17). -/
def Obligations.InterruptAcknowledgeSequence : Prop :=
  ∀ (s : State) (vec : Byte) (a target : Word), s.input.reset = none → s.input.irq = some vec →
    dueTrap s.input s.afterInput = some .interrupt →
    a = BitVec.ofNat 32 (s.ibr.toNat + 4 * vec.toNat) → s.accessible 4 a = true →
    target = BitVec.ofNat 32 (bytesNat s.yieldBus 4 a) →
    (isOdd target → step s = .refused .oddProgramCounter) ∧
    (¬ isOdd target → ∃ t, step s = .next t ∧
      t = { s.yieldBus with env := s.env.tail, irp := s.pc, pc := target, irqWindow := true,
                            hit := t.hit, aliasSeen := t.aliasSeen } ∧
      (t.hit = true ↔ s.hit = true ∨ (s.params.breakOnVectorRead = true ∧ s.flags.b = true ∧ hitsBar s.bar 4 a)))

/-- The NMI acknowledge sequence, when the NMI is the trap taken: as for the interrupt, but BRP receives pc and M is
cleared (rules R306, R309). The vector number comes from the environment (decision D27); an odd vector is refused
(decision D4, log entry 17). -/
def Obligations.NmiAcknowledgeSequence : Prop :=
  ∀ (s : State) (vec : Byte) (a target : Word), s.input.reset = none → s.input.nmi = some vec →
    dueTrap s.input s.afterInput = some .nmi →
    a = BitVec.ofNat 32 (s.ibr.toNat + 4 * vec.toNat) → s.accessible 4 a = true →
    target = BitVec.ofNat 32 (bytesNat s.yieldBus 4 a) →
    (isOdd target → step s = .refused .oddProgramCounter) ∧
    (¬ isOdd target → ∃ t, step s = .next t ∧
      t = { s.yieldBus with env := s.env.tail, brp := s.pc, pc := target, irqWindow := true,
                            flags := { s.flags with m := false },
                            hit := t.hit, aliasSeen := t.aliasSeen } ∧
      (t.hit = true ↔ s.hit = true ∨ (s.params.breakOnVectorRead = true ∧ s.flags.b = true ∧ hitsBar s.bar 4 a)))

/-- Taking a hardware-breakpoint hit: BRP receives pc, pc receives the dword at IBR + 0x80, the hit is cleared, B and
I stay; nothing is said of M, which the spec leaves open (rule R310; the boundary, B and M are the spec's decision D13,
log entry 7). A hit of the vector read itself, when `HWBP_ON_VECTOR_READ` holds, stays pending: the model's choice of log
entry 32. An odd vector is refused (decision D4, log entry 17). -/
def Obligations.HardwareBreakpointSequence : Prop :=
  ∀ (s : State) (a target : Word), s.input.reset = none → dueTrap s.input s.afterInput = some .breakpoint →
    a = BitVec.ofNat 32 (s.ibr.toNat + 0x80) → s.accessible 4 a = true →
    target = BitVec.ofNat 32 (bytesNat s.yieldBus 4 a) →
    (isOdd target → step s = .refused .oddProgramCounter) ∧
    (¬ isOdd target → ∃ t, step s = .next t ∧
      t = { s.yieldBus with env := s.env.tail, brp := s.pc, pc := target, irqWindow := true,
                            flags := { s.flags with m := t.flags.m }, draws := t.draws,
                            hit := t.hit, aliasSeen := t.aliasSeen } ∧
      (t.hit = true ↔ s.params.breakOnVectorRead = true ∧ s.flags.b = true ∧ hitsBar s.bar 4 a))

/-- Inside the window, or when nothing that is enabled is pending, the step runs the instruction at pc (rules R300 part 1,
R303, R305). Outside it the step takes one of the eligible traps and nothing else, however many there are, and under some
order any of them is the one taken (rule R311, decision D12; that the order is part of the environment's input is log
entry 9). `dueTrap` is the trap of the acknowledge statements. -/
def Obligations.AnyEligibleTrapMayBeTaken : Prop :=
  ∀ s : State, s.input.reset = none →
    (s.irqWindow = true ∨
      (s.hit = false ∧ (s.input.nmi = none ∨ s.flags.m = false) ∧ (s.input.irq = none ∨ s.flags.i = false)) →
      step s = runInstruction exec s.afterInput) ∧
    (s.irqWindow = false →
      (∀ k, eligible s.input s k = true → ∃ o, (s.withOrder o).input.irq = s.input.irq ∧
        (s.withOrder o).input.nmi = s.input.nmi ∧ dueTrap (s.withOrder o).input (s.withOrder o).afterInput = some k ∧
        step (s.withOrder o) = takeTrap k s.input s.afterInput) ∧
      (∀ k, eligible s.input s k = true → ∃ j, eligible s.input s j = true ∧
        dueTrap s.input s.afterInput = some j ∧ step s = takeTrap j s.input s.afterInput) ∧
      (eligible s.input s .breakpoint = true ↔ s.hit = true) ∧
      (eligible s.input s .nmi = true ↔ s.input.nmi ≠ none ∧ s.flags.m = true) ∧
      (eligible s.input s .interrupt = true ↔ s.input.irq ≠ none ∧ s.flags.i = true))

/-- Reset from any state: pc is 0x80000002, all flags and IBR are zero, no window, no pending jump, no pending hit;
the registers whose value is unknown hold any values (rules R340, R341; the window, the jump and the hit are the spec's
decision D16); that memory keeps its bytes is the model's choice (log entry 31). -/
def Obligations.ResetFromAnyState : Prop :=
  ∀ (s : State) (u : Unknowns), s.input.reset = some u →
    ∃ t, step s = .next t ∧ t.pc = 0x80000002#32 ∧ flagByte t.flags = 0 ∧ t.ibr = 0 ∧
      specialNat t 1#4 = s.params.version.value.toNat ∧ t.irqWindow = false ∧ t.slot = .none ∧ t.hit = false ∧
      t.regs = u.regs ∧ t.irp = u.irp ∧ t.srp = u.srp ∧ t.bar = u.bar ∧ t.brp = u.brp ∧
      ∀ a, t.peek a = s.peek a

/-- The values that the spec gives for reset hold in `State.reset` (rule R48; the window, the jump and the hit by the
spec's decision D16). -/
def Obligations.ResetStateHoldsTheGivenValues : Prop :=
  State.reset.pc = 0x80000002#32 ∧ specialNat State.reset 5#4 = 0 ∧ specialNat State.reset 13#4 = 0 ∧
  specialNat State.reset 9#4 = 0 ∧
  (specialNat State.reset 1#4 = 8 ∨ specialNat State.reset 1#4 = 9) ∧
  State.reset.irqWindow = false ∧ State.reset.slot = .none ∧ State.reset.hit = false

/-! ## Invariants and whole-machine rules -/

/-- Every step keeps a sound state sound. -/
def Obligations.EveryStepKeepsTheInvariant : Prop :=
  ∀ s t : State, s.Inv → step s = .next t → t.Inv

/-- The state after reset is sound. -/
def Obligations.ResetStateIsSound : Prop := State.reset.Inv

/-- No step changes a parameter, so VR reads the same for ever (rules R8, R26); that a step consumes one entry of the list
of inputs is the model's form of `IntEnv` (rule R303, log entry 8). -/
def Obligations.ParametersNeverChange : Prop :=
  ∀ s t : State, step s = .next t → t.params = s.params ∧ t.env = s.env.tail ∧ specialNat t 1#4 = specialNat s 1#4

/-- A run ends at the address stated for `EndOfRun`: once there it goes no further, and until then one more step allowed
is one more step taken (rule R323, decision D28; that the address is a parameter held in the state and that `step` itself
does not ask is log entry 30). -/
def Obligations.RunsEndAtTheStatedAddress : Prop :=
  (∀ s : State, s.ended = true ↔ s.params.endOfRun = some s.pc) ∧
  (∀ (s t : State) (j k : Nat), runToEnd k s = .next t → t.ended = true → runToEnd (k + j) s = .next t) ∧
  (∀ (s t : State) (k : Nat), runToEnd k s = .next t → t.ended = false → runToEnd (k + 1) s = step t) ∧
  ∀ (s t : State) (k : Nat), runToEnd k s = .next t → t.params = s.params

/-- No instruction clears M, and only SETF with M on its list sets it (rules R41, R306). -/
def Obligations.NmiEnableIsSticky : Prop :=
  ∀ (i : Instr) (s t : State), exec i s = .next t →
    (s.flags.m = true → t.flags.m = true) ∧ (s.flags.m = false → t.flags.m = true → setsFlag 7 i)

/-- An instruction ends with X set exactly when it is AX or a SETF with X on its list; a prefix word leaves the flags
(rule R42). -/
def Obligations.ExtendFlagIsSetOnlyByAx : Prop :=
  ∀ (i : Instr) (s t : State), exec i s = .next t →
    (¬ isPrefixWord i → (t.flags.x = true ↔ setsFlag 4 i)) ∧ (isPrefixWord i → t.flags = s.flags)

/-- An instruction leaves the interrupt-disable window open exactly when it is on the list of rule R305 (Bcc is on it,
BREAK and the calls are not, by the spec's decisions D2 and D22); a prefix word leaves the window (decision D1). -/
def Obligations.WindowIsOpenedExactlyByTheList : Prop :=
  ∀ (i : Instr) (s t : State), exec i s = .next t →
    (¬ isPrefixWord i → (t.irqWindow = true ↔ opensWindow i)) ∧ (isPrefixWord i → t.irqWindow = s.irqWindow)

/-- After the instruction in a delay slot pc is the pending target and no jump is pending; only branches and returns
leave a delay slot behind them (rules R45, R162). -/
def Obligations.DelaySlotThenTarget : Prop :=
  ∀ (i : Instr) (s t : State), exec i s = .next t →
    (∀ target, s.slot = .pending target → t.pc = target ∧ t.slot = .none) ∧
    (s.slot = .notTaken → t.slot = .none) ∧
    (t.slot ≠ .none → isBranch i ∨ isReturn i)

/-- The kinds of instructions that may not stand in a delay slot are refused there, whether or not the branch before
it was taken (rule R164, decision D3). -/
def Obligations.DelaySlotRefusesForbiddenKinds : Prop :=
  ∀ (i : Instr) (s : State), s.slot ≠ .none → forbiddenInSlot i → refuses (exec i s)

/-- The CPU writes memory only by MOVE to memory, MOVEM to memory, CLEAR of memory and PUSH (rule R65); without other
bus masters (log entry 10) no other instruction changes a byte. -/
def Obligations.OnlyStoresChangeMemory : Prop :=
  ∀ (i : Instr) (s t : State), Alone s → exec i s = .next t → ¬ storesToMemory i → ∀ a, t.peek a = s.peek a

/-- IRP, SRP, BRP, BAR and IBR change only by the instructions the spec names for each; the interrupt-enable flag I
and the breakpoint-enable flag B only by SETF and CLEARF with the flag on the list and by a move to CCR or DCCR
(rules R29 to R33, R40, R41, R303). -/
def Obligations.ControlStateChangesOnlyByItsWriters : Prop :=
  ∀ (i : Instr) (s t : State), exec i s = .next t →
    (t.irp ≠ s.irp → movesTo 10#4 i ∨ (∃ a, i = .jirMem a) ∨ (∃ r, i = .jirReg r) ∨
      (∃ a, i = .jircMem a) ∨ ∃ r, i = .jircReg r) ∧
    (t.srp ≠ s.srp → movesTo 11#4 i ∨ (∃ a, i = .jsrMem a) ∨ (∃ r, i = .jsrReg r) ∨
      (∃ a, i = .jsrcMem a) ∨ ∃ r, i = .jsrcReg r) ∧
    (t.brp ≠ s.brp → movesTo 14#4 i ∨ (∃ a, i = .jbrcMem a) ∨ (∃ r, i = .jbrcReg r) ∨ ∃ n, i = .brk n) ∧
    (t.bar ≠ s.bar → movesTo 12#4 i) ∧
    (t.ibr ≠ s.ibr → movesTo 9#4 i) ∧
    (t.flags.i ≠ s.flags.i → setsFlag 5 i ∨ clearsFlag 5 i ∨ movesTo 5#4 i ∨ movesTo 13#4 i) ∧
    (t.flags.b ≠ s.flags.b → setsFlag 6 i ∨ clearsFlag 6 i ∨ movesTo 5#4 i ∨ movesTo 13#4 i)

/-! ## What the spec refuses -/

/-- A reserved pattern and an unimplemented special register have no meaning (rules R34, R111, decision D6). -/
def Obligations.ReservedAndUnimplementedAreRefused : Prop :=
  (∀ w s, exec (.reserved w) s = .refused .reservedEncoding) ∧
  ∀ (p : PNum) (s : State), p = 2#4 ∨ p = 3#4 ∨ p = 6#4 ∨ p = 7#4 ∨ p = 15#4 →
    (∀ r, refuses (exec (.moveRegToSpecial p r) s)) ∧ (∀ r, refuses (exec (.moveSpecialToReg p r) s)) ∧
    (∀ a, refuses (exec (.moveMemToSpecial p a) s)) ∧ (∀ a, refuses (exec (.moveSpecialToMem p a) s)) ∧
    refuses (exec (.popSpecial p) s) ∧ refuses (exec (.pushSpecial p) s)

/-- PC as the destination of the instructions that do not support it (rule R167), `MOVE Ps,PC` and CLEAR of PC
(rule R174), MOVEM with PC (rules R265, R266), in every state; ABS, ADDI, BOUND, DSTEP and MSTEP when X is set
(rule R247, decision D18). -/
def Obligations.RestrictedOperandsAreRefused : Prop :=
  ∀ s : State,
    (∀ m q, refuses (exec (.addi m pcReg q) s) ∧ refuses (exec (.boundReg m pcReg q) s) ∧
      refuses (exec (.lsl m pcReg q) s) ∧ refuses (exec (.lsr m pcReg q) s) ∧ refuses (exec (.neg m pcReg q) s)) ∧
    (∀ q, refuses (exec (.dstep pcReg q) s) ∧ refuses (exec (.mstep pcReg q) s)) ∧
    (∀ m src, refuses (exec (.boundMem m pcReg src) s)) ∧
    (∀ n, refuses (exec (.lslq pcReg n) s) ∧ refuses (exec (.lsrq pcReg n) s)) ∧
    (∀ c, refuses (exec (.scc c pcReg) s)) ∧ (∀ o, refuses (exec (.swap o pcReg) s)) ∧
    refuses (exec (.notReg pcReg) s) ∧
    (∀ p : PNum, p.returnPointer = false → refuses (exec (.moveSpecialToReg p pcReg) s)) ∧
    refuses (exec (.clearByteReg pcReg) s) ∧ refuses (exec (.clearWordReg pcReg) s) ∧
    refuses (exec (.clearDwordReg pcReg) s) ∧
    (∀ a, refuses (exec (.movemLoad pcReg a) s) ∧ refuses (exec (.movemStore pcReg a) s)) ∧
    (s.flags.x = true →
      (∀ rd rs, refuses (exec (.absReg rd rs) s) ∧ refuses (exec (.dstep rd rs) s) ∧
        refuses (exec (.mstep rd rs) s)) ∧
      (∀ m rd rs, refuses (exec (.addi m rd rs) s) ∧ refuses (exec (.boundReg m rd rs) s)) ∧
      ∀ m rd src, refuses (exec (.boundMem m rd src) s))

/-- The memory operands without a meaning, instruction by instruction. Without a prefix: PC as address register (rule
R111(f), (g)), an autoincrement register that the instruction uses (rule R134, decision D17; for a comparison log
entry 15), POP SP among them (rule R203). Behind a prefix word: immediate data, or an assignment to PC, to a register
that the instruction uses, or after the double-indirect prefix (rules R137, R145, decisions D6, D17), a plain word
whose register is not the destination (rule R136, decision D20), and a register that the prefix word incremented and
the instruction uses (decision D17). -/
def Obligations.MeaninglessOperandsAreRefused : Prop :=
  ∀ (i : Instr) (s : State),
    (∀ a, operand i = some (.mem a) → s.latch = none →
      a = .plain pcReg ∨ a = .inc pcReg ∨ (∃ r, a = .inc r ∧ usesRegister i r) → refuses (exec i s)) ∧
    (∀ a l, operand i = some (.mem a) → s.latch = some l →
      a = .inc pcReg ∨ (l.fromDip = true ∧ ∃ r, a = .inc r) ∨ (∃ r, a = .inc r ∧ usesRegister i r) ∨
        (∃ r d, a = .plain r ∧ destination i = some d ∧ d ≠ r) ∨
        (∃ q, l.bumped = some q ∧ usesRegister i q) →
      refuses (exec i s)) ∧
    (∀ v, operand i = some (.imm v) → s.latch.isSome = true → refuses (exec i s))

/-- A prefix word before an instruction that cannot take one, or before another prefix word, has no meaning
(rules R143, R147, decisions D6, D19). -/
def Obligations.PrefixBeforeOtherWordsIsRefused : Prop :=
  ∀ (i : Instr) (s : State), s.latch.isSome = true →
    isPrefixWord i ∨ isBranch i ∨ isReturn i ∨ isRegisterJump i ∨ (∃ n, i = .brk n) ∨
      i.word.extractLsb' 11 1 = 0#1 → refuses (exec i s)

/-! ## Memory -/

/-- A data read of n bytes yields them, least significant first, whatever the alignment, and changes nothing but the
breakpoint hit (rules R62, R64, R66); without other bus masters (log entry 10). -/
def Obligations.DataReadYieldsTheBytes : Prop :=
  ∀ (n : Nat) (a : Word) (s : State), n ≤ 4 → Alone s → s.accessible n a = true →
    ∃ v u, memRead n a s = .next (v, u) ∧ v.toNat = bytesNat s n a ∧ Accessed s u n a

/-- A data write of n bytes stores the low bytes of the value, least significant first, whatever the alignment, and
leaves every other byte and everything else (rules R63, R64, R66); without other bus masters (log entry 10). -/
def Obligations.DataWriteStoresTheBytes : Prop :=
  ∀ (n : Nat) (a v : Word) (s : State), n ≤ 4 → Alone s → s.mem.wf = true → s.accessible n a = true →
    ∃ t, memWrite n a v s = .next t ∧ bytesNat t n a = v.toNat % 2 ^ (8 * n) ∧
      (∀ x, outside x n a → t.peek x = s.peek x) ∧
      t = { s with mem := t.mem, stored := t.stored, hit := t.hit, aliasSeen := t.aliasSeen } ∧
      (t.hit = true ↔ s.hit = true ∨ (s.flags.b = true ∧ hitsBar s.bar n a))

/-- A data access of which ANY byte lies outside `MemMap`, or is a location that was reached through the other value of
address bit 31 while `Alias31` is `unspecified`, gives no result (rules R62, R68, decisions D9, D23; the fault is the
model's own form of the refusal, log entry 23). Nor is an instruction fetched from an odd address (decision D4), nor when
any of its bytes is such a byte, the unused byte behind a byte immediate included (log entry 33), nor where the program
stored one of them (rule R78, decision D10); that this counts the immediate data and that unused byte, not the instruction
word alone, is the model's reading (DEDUCED, log entry 12). -/
def Obligations.AccessesAndFetchesThatStop : Prop :=
  (∀ (n : Nat) (a : Word) (s : State), s.accessible n a = true ↔ ∀ k, k < n →
    mapped s.params (a + BitVec.ofNat 32 k) = true ∧
    (s.params.alias31 = .sameLocation ∨ ∀ b, aliasOf s.aliasSeen (location (a + BitVec.ofNat 32 k)) = some b →
      b = (a + BitVec.ofNat 32 k).getLsbD 31)) ∧
  (∀ (n : Nat) (a v : Word) (s : State), 0 < n → n ≤ 4 → s.accessible n a = false →
    (memRead n a s = .fault .notMemory ∨ memRead n a s = .refused .aliasConflict) ∧
    (memWrite n a v s = .fault .notMemory ∨ memWrite n a v s = .refused .aliasConflict) ∧
    (s.params.alias31 = .sameLocation → memRead n a s = .fault .notMemory ∧ memWrite n a v s = .fault .notMemory) ∧
    ((∀ k, k < n → mapped s.params (a + BitVec.ofNat 32 k) = true) →
      memRead n a s = .refused .aliasConflict ∧ memWrite n a v s = .refused .aliasConflict)) ∧
  (∀ s, isOdd s.pc → fetchInstr s = .refused .oddProgramCounter) ∧
  ∀ s b : State, ¬ isOdd s.pc → b = s.yieldBus →
    (b.accessible b.fetchLength b.pc = false →
      fetchInstr s = .fault .notMemory ∨ fetchInstr s = .refused .aliasConflict) ∧
    (b.accessible b.fetchLength b.pc = true → b.storedAny b.fetchLength b.pc = true →
      fetchInstr s = .refused .storedCode)

/-- Where another bus master may change memory (`ExternalWriters`), it writes before each bus access of the CPU, and so
between the two halves of a split access, never inside an access that lies within one aligned dword; without one, memory
is the CPU's own (rules R64, R65, R74, decision D8; the list of what it writes, and that an access within one dword is not
torn, are the model's form, log entry 10). That the half below the boundary is accessed first is the model's choice
(DESIGN CHOICE, log entry 29): rule R64, decision D8 and U35 leave the order of the halves open. -/
def Obligations.OtherMastersWriteBetweenBusAccesses : Prop :=
  (∀ s : State, Alone s → s.yieldBus = s) ∧
  (∀ (s : State) (cells : List (Word × Byte)) (rest : List (List (Word × Byte))), s.params.externalWriters = true →
    s.others = cells :: rest → s.mem.wf = true →
    s.yieldBus = { s with mem := s.yieldBus.mem, others := rest } ∧
    ∀ x, s.yieldBus.peek x = afterCells cells x (s.peek x)) ∧
  ∀ (n : Nat) (a v : Word) (s b : State), n ≤ 4 → s.accessible n a = true → b = s.yieldBus →
    (a.toNat % 4 + n ≤ 4 →
      (∃ r u, memRead n a s = .next (r, u) ∧ r.toNat = bytesNat b n a ∧
        u = { b with hit := u.hit, aliasSeen := u.aliasSeen }) ∧
      ∃ t, memWrite n a v s = .next t ∧ t.mem = b.mem.store n a v ∧ t.others = b.others) ∧
    ∀ k, k = 4 - a.toNat % 4 → k < n →
      (∃ r u, memRead n a s = .next (r, u) ∧
        r.toNat = bytesNat b k a + 256 ^ k * bytesNat b.yieldBus (n - k) (a + BitVec.ofNat 32 k) ∧
        u = { b.yieldBus with hit := u.hit, aliasSeen := u.aliasSeen }) ∧
      ∃ c t, c = State.yieldBus { b with mem := b.mem.store k a v } ∧ memWrite n a v s = .next t ∧
        t.mem = c.mem.store (n - k) (a + BitVec.ofNat 32 k) (v >>> (8 * k)) ∧ t.others = c.others

/-! ## Operands -/

/-- Indirect mode: the address is in the register, which is not changed; autoincrement mode: the register is then
incremented by the step (rules R133, R134). -/
def Obligations.IndirectAndAutoincrementModes : Prop :=
  ∀ (s : State) (r : Reg) (w : Word) (busy : Reg → Bool) (dest : Option Reg), s.latch = none → r ≠ pcReg →
    resolve (.plain r) w busy dest s = .next (s.gpr r 0, s) ∧
    (busy r = false → ∃ u, resolve (.inc r) w busy dest s = .next (s.gpr r 0, u) ∧
      u.gpr r 0 = s.gpr r 0 + w ∧ (∀ q, q ≠ r → u.gpr q 0 = s.gpr q 0) ∧ u = { s with regs := u.regs })

/-- The operand of a word behind a prefix word: the prefix address; in assign mode the register receives that
address (rules R136, R137, R140, R144). -/
def Obligations.PrefixedOperandModes : Prop :=
  ∀ (s : State) (l : Latch) (r : Reg) (w : Word) (busy : Reg → Bool) (dest : Option Reg), s.latch = some l →
    (∀ q, l.bumped = some q → busy q = false) →
    ((∀ d, dest = some d → d = r) → resolve (.plain r) w busy dest s = .next (l.ea, s)) ∧
    (r ≠ pcReg → l.fromDip = false → busy r = false →
      ∃ u, resolve (.inc r) w busy dest s = .next (l.ea, u) ∧ u.gpr r 0 = l.ea ∧
        (∀ q, q ≠ r → u.gpr q 0 = s.gpr q 0) ∧ u = { s with regs := u.regs })

/-- A source operand: from memory the bytes at the operand address, after the mode's register change, without other bus
masters (log entry 10); immediate data behind the word (rules R72, R134, R135, R230). The autoincrement step is the
operand's width. That a read of immediate data is compared with BAR is log entry 14 (DEDUCED). -/
def Obligations.SourceOperandIsRead : Prop :=
  (∀ (s u : State) (m : Size) (a : AddrMode) (busy : Reg → Bool) (dest : Option Reg) (ea : Word),
    Alone s → resolve a (BitVec.ofNat 32 (sizeBits m / 8)) busy dest s = .next (ea, u) →
    u.accessible (sizeBits m / 8) ea = true →
    ∃ v w, loadSource m (.mem a) busy dest s = .next (v, w) ∧ v.toNat = bytesNat u (sizeBits m / 8) ea ∧
      Accessed u w (sizeBits m / 8) ea) ∧
  ∀ (s : State) (m : Size) (v : Word) (busy : Reg → Bool) (dest : Option Reg), Ready s True →
    ∃ w, loadSource m (.imm v) busy dest s = .next (zeroExtended m v, w) ∧
      w = { s with hit := w.hit } ∧
      (w.hit = true ↔ s.hit = true ∨ (s.flags.b = true ∧ hitsBar s.bar (sizeBits m / 8) (s.pc + 2)))

/-- The indexed prefix: base plus the index shifted by 0, 1 or 2; the base PC is the address after the modified
instruction, the index PC that of the modified instruction (rules R138, R139). The byte-offset prefix: base plus the
signed offset, the base PC being the address of the modified instruction (rules R141, R142). That a prefix word leaves X
and the window as they were is the spec's decision D1; `latch` is log entry 26. -/
def Obligations.IndexedAndByteOffsetPrefixes : Prop :=
  ∀ s : State, Ready s True →
    (∀ m index base, exec (.biap m index base) s = .next { s with
      pc := s.pc + 2
      latch := some ⟨s.gpr base (s.pc + 4) +
        s.gpr index (s.pc + 2) * (match m with | .b => 1 | .w => 2 | .d => 4), none, false⟩ }) ∧
    ∀ base off, exec (.bdapQuick base off) s = .next { s with
      pc := s.pc + 2
      latch := some ⟨s.gpr base (s.pc + 2) + BitVec.ofInt 32 off.toInt, none, false⟩ }

/-- The offset prefix with an offset in memory, without other bus masters (log entry 10), or behind the prefix word
(rules R141, R142). That its read of memory is compared with BAR is the spec's decision D13, that immediate data is
compared is log entry 14 (DEDUCED), that X and the window stay is decision D1. An increment of the base register (decision
D17) and an offset through PC (rule R141, decision D6) are refused, in every state. -/
def Obligations.MemoryOffsetPrefix : Prop :=
  (∀ (s : State) (m : Size) (base : Reg), refuses (exec (.bdap m base (.mem (.inc base))) s) ∧
    refuses (exec (.bdap m base (.mem (.plain pcReg))) s) ∧ refuses (exec (.bdap m base (.mem (.inc pcReg))) s)) ∧
  ∀ (s : State) (m : Size) (base : Reg), Ready s True → Alone s →
    (∀ r, r ≠ pcReg → s.accessible (sizeBits m / 8) (s.gpr r 0) = true →
      ∃ u, Accessed s u (sizeBits m / 8) (s.gpr r 0) ∧
        exec (.bdap m base (.mem (.plain r))) s = .next { u with
          pc := s.pc + 2
          latch := some ⟨s.gpr base (s.pc + 2) +
            signExtended m (BitVec.ofNat 32 (bytesNat s (sizeBits m / 8) (s.gpr r 0))), none, false⟩ }) ∧
    (∀ r, r ≠ pcReg → r ≠ base → s.accessible (sizeBits m / 8) (s.gpr r 0) = true →
      ∃ u, Accessed s u (sizeBits m / 8) (s.gpr r 0) ∧
        exec (.bdap m base (.mem (.inc r))) s = .next { u with
          regs := (u.setGpr r (s.gpr r 0 + BitVec.ofNat 32 (sizeBits m / 8))).regs
          pc := s.pc + 2
          latch := some ⟨s.gpr base (s.pc + 2) +
            signExtended m (BitVec.ofNat 32 (bytesNat s (sizeBits m / 8) (s.gpr r 0))), some r, false⟩ }) ∧
    ∀ v, ∃ u : State, u = { s with hit := u.hit } ∧
      (u.hit = true ↔ s.hit = true ∨ (s.flags.b = true ∧ hitsBar s.bar (sizeBits m / 8) (s.pc + 2))) ∧
      exec (.bdap m base (.imm v)) s = .next { u with
        pc := s.pc + 2 + BitVec.ofNat 32 m.immBytes
        latch := some ⟨s.gpr base (s.pc + 2 + BitVec.ofNat 32 m.immBytes) + signExtended m v, none, false⟩ }

/-- The double-indirect prefix reads the operand's address from memory, without other bus masters (log entry 10), the
register being left or incremented by 4; the absolute address stands behind the prefix word (rules R145, R146). That the
read of memory is compared with BAR is the spec's decision D13, that the absolute address is compared is log entry 14
(DEDUCED), that X and the window stay is decision D1. A pointer in PC is refused (rule R146, decision D6), in every
state. -/
def Obligations.DoubleIndirectAndAbsolutePrefix : Prop :=
  (∀ s : State, refuses (exec (.dip (.mem (.plain pcReg))) s) ∧ refuses (exec (.dip (.mem (.inc pcReg))) s)) ∧
  ∀ s : State, Ready s True → Alone s →
    (∀ r, r ≠ pcReg → s.accessible 4 (s.gpr r 0) = true →
      ∃ u, Accessed s u 4 (s.gpr r 0) ∧
        exec (.dip (.mem (.plain r))) s = .next { u with
          pc := s.pc + 2
          latch := some ⟨BitVec.ofNat 32 (bytesNat s 4 (s.gpr r 0)), none, true⟩ }) ∧
    (∀ r, r ≠ pcReg → s.accessible 4 (s.gpr r 0) = true →
      ∃ u, Accessed s u 4 (s.gpr r 0) ∧
        exec (.dip (.mem (.inc r))) s = .next { u with
          regs := (u.setGpr r (s.gpr r 0 + 4)).regs
          pc := s.pc + 2
          latch := some ⟨BitVec.ofNat 32 (bytesNat s 4 (s.gpr r 0)), some r, true⟩ }) ∧
    ∀ v, ∃ u : State, u = { s with hit := u.hit } ∧
      (u.hit = true ↔ s.hit = true ∨ (s.flags.b = true ∧ hitsBar s.bar 4 (s.pc + 2))) ∧
      exec (.dip (.imm v)) s = .next { u with pc := s.pc + 6, latch := some ⟨v, none, true⟩ }

/-! ## Arithmetic -/

/-- The addition instructions compute D + S (+ C when X is set) at their size, with the flags of an addition (rules
R231 to R234, R37, R247), and jump when PC is the destination (rule R166). PC reads as the address after the
instruction (rule R23(g), (h); log entry 16); an odd value for PC is refused (decision D4, log entry 17). -/
def Obligations.AdditionInstructions : Prop :=
  ∀ (s : State) (rd : Reg),
    (∀ imm, Ready s (rd = pcReg) → Computes (exec (.addq rd imm) s) s .d rd (s.pc + 2)
      (IsSum .d (BitVec.ofNat 32 imm.toNat) (s.gpr rd (s.pc + 2)) s.flags)) ∧
    (∀ m rs, Ready s (rd = pcReg ∨ rs = pcReg) → Computes (exec (.addReg m rd rs) s) s m rd (s.pc + 2)
      (IsSum m (s.gpr rs (s.pc + 2)) (s.gpr rd (s.pc + 2)) s.flags)) ∧
    (∀ z rs, Ready s (rd = pcReg ∨ rs = pcReg) → Computes (exec (.addsReg z rd rs) s) s .d rd (s.pc + 2)
      (IsSum .d (signExtended z.toSize (s.gpr rs (s.pc + 2))) (s.gpr rd (s.pc + 2)) s.flags)) ∧
    (∀ z rs, Ready s (rd = pcReg ∨ rs = pcReg) → Computes (exec (.adduReg z rd rs) s) s .d rd (s.pc + 2)
      (IsSum .d (zeroExtended z.toSize (s.gpr rs (s.pc + 2))) (s.gpr rd (s.pc + 2)) s.flags)) ∧
    ((rd = pcReg → s.slot = .none) →
      (∀ m src v u next, loadSource m src (fun r => r == rd) (some rd) s = .next (v, u) →
        next = s.pc + 2 + BitVec.ofNat 32 (src.immLength m) →
        Computes (exec (.addMem m rd src) s) u m rd next (IsSum m v (u.gpr rd next) s.flags)) ∧
      (∀ z src v u next, loadSource z.toSize src (fun r => r == rd) (some rd) s = .next (v, u) →
        next = s.pc + 2 + BitVec.ofNat 32 (src.immLength z.toSize) →
        Computes (exec (.addsMem z rd src) s) u .d rd next
          (IsSum .d (signExtended z.toSize v) (u.gpr rd next) s.flags)) ∧
      ∀ z src v u next, loadSource z.toSize src (fun r => r == rd) (some rd) s = .next (v, u) →
        next = s.pc + 2 + BitVec.ofNat 32 (src.immLength z.toSize) →
        Computes (exec (.adduMem z rd src) s) u .d rd next (IsSum .d v (u.gpr rd next) s.flags))

/-- The subtraction instructions compute D - S (- C when X is set), NEG computes 0 - S (- C), with the flags of a
subtraction (rules R236 to R239, R243, R38, R247), and jump when PC is the destination (rule R166). PC reads as the
address after the instruction (rule R23(g), (h); log entry 16); an odd value for PC is refused (decision D4, log entry
17). -/
def Obligations.SubtractionInstructions : Prop :=
  ∀ (s : State) (rd : Reg),
    (∀ imm, Ready s (rd = pcReg) → Computes (exec (.subq rd imm) s) s .d rd (s.pc + 2)
      (IsDifference .d (BitVec.ofNat 32 imm.toNat) (s.gpr rd (s.pc + 2)) s.flags)) ∧
    (∀ m rs, Ready s (rd = pcReg ∨ rs = pcReg) → Computes (exec (.subReg m rd rs) s) s m rd (s.pc + 2)
      (IsDifference m (s.gpr rs (s.pc + 2)) (s.gpr rd (s.pc + 2)) s.flags)) ∧
    (∀ z rs, Ready s (rd = pcReg ∨ rs = pcReg) → Computes (exec (.subsReg z rd rs) s) s .d rd (s.pc + 2)
      (IsDifference .d (signExtended z.toSize (s.gpr rs (s.pc + 2))) (s.gpr rd (s.pc + 2)) s.flags)) ∧
    (∀ z rs, Ready s (rd = pcReg ∨ rs = pcReg) → Computes (exec (.subuReg z rd rs) s) s .d rd (s.pc + 2)
      (IsDifference .d (zeroExtended z.toSize (s.gpr rs (s.pc + 2))) (s.gpr rd (s.pc + 2)) s.flags)) ∧
    ((rd = pcReg → s.slot = .none) →
      (∀ m src v u next, loadSource m src (fun r => r == rd) (some rd) s = .next (v, u) →
        next = s.pc + 2 + BitVec.ofNat 32 (src.immLength m) →
        Computes (exec (.subMem m rd src) s) u m rd next (IsDifference m v (u.gpr rd next) s.flags)) ∧
      (∀ z src v u next, loadSource z.toSize src (fun r => r == rd) (some rd) s = .next (v, u) →
        next = s.pc + 2 + BitVec.ofNat 32 (src.immLength z.toSize) →
        Computes (exec (.subsMem z rd src) s) u .d rd next
          (IsDifference .d (signExtended z.toSize v) (u.gpr rd next) s.flags)) ∧
      ∀ z src v u next, loadSource z.toSize src (fun r => r == rd) (some rd) s = .next (v, u) →
        next = s.pc + 2 + BitVec.ofNat 32 (src.immLength z.toSize) →
        Computes (exec (.subuMem z rd src) s) u .d rd next (IsDifference .d v (u.gpr rd next) s.flags)) ∧
    (∀ m rs, rd ≠ pcReg → Ready s (rs = pcReg) → Computes (exec (.neg m rd rs) s) s m rd (s.pc + 2)
      (IsDifference m (s.gpr rs (s.pc + 2)) 0 s.flags))

/-- The comparison instructions write the flags of D - S (- C when X is set) and no register (rules R240, R241, R242,
R244, R38, R247). That PC as D reads as the address after the instruction is the model's reading (PRESUMED, log entry 16):
no cited rule says it. -/
def Obligations.ComparisonInstructions : Prop :=
  ∀ (s : State) (rd : Reg),
    (∀ imm : BitVec 6, Ready s (rd = pcReg) → Tests (exec (.cmpq rd imm) s) s (s.pc + 2) fun g =>
      ∃ r, IsDifference .d (BitVec.ofInt 32 imm.toInt) (s.gpr rd (s.pc + 2)) s.flags r g) ∧
    (∀ m rs, Ready s (rd = pcReg ∨ rs = pcReg) → Tests (exec (.cmpReg m rd rs) s) s (s.pc + 2) fun g =>
      ∃ r, IsDifference m (s.gpr rs (s.pc + 2)) (s.gpr rd (s.pc + 2)) s.flags r g) ∧
    ((rd = pcReg → s.slot = .none) →
      (∀ m src v u next, loadSource m src (fun r => r == rd) none s = .next (v, u) →
        next = s.pc + 2 + BitVec.ofNat 32 (src.immLength m) →
        Tests (exec (.cmpMem m rd src) s) u next fun g => ∃ r, IsDifference m v (u.gpr rd next) s.flags r g) ∧
      (∀ z src v u next, loadSource z.toSize src (fun r => r == rd) none s = .next (v, u) →
        next = s.pc + 2 + BitVec.ofNat 32 (src.immLength z.toSize) →
        Tests (exec (.cmpsMem z rd src) s) u next fun g =>
          ∃ r, IsDifference .d (signExtended z.toSize v) (u.gpr rd next) s.flags r g) ∧
      ∀ z src v u next, loadSource z.toSize src (fun r => r == rd) none s = .next (v, u) →
        next = s.pc + 2 + BitVec.ofNat 32 (src.immLength z.toSize) →
        Tests (exec (.cmpuMem z rd src) s) u next fun g => ∃ r, IsDifference .d v (u.gpr rd next) s.flags r g)

/-- After `CMP s,d` with X clear the condition codes read as the relations of d and s (rules R35, R240). -/
def Obligations.ConditionsAfterCompare : Prop :=
  ∀ (m : Size) (s d r : Word) (f g : Flags), f.x = false → IsDifference m s d f r g →
    (g.holds .eq = true ↔ lowNat m d = lowNat m s) ∧ (g.holds .ne = true ↔ lowNat m d ≠ lowNat m s) ∧
    (g.holds .cs = true ↔ lowNat m d < lowNat m s) ∧ (g.holds .cc = true ↔ lowNat m s ≤ lowNat m d) ∧
    (g.holds .ls = true ↔ lowNat m d ≤ lowNat m s) ∧ (g.holds .hi = true ↔ lowNat m s < lowNat m d) ∧
    (g.holds .lt = true ↔ lowInt m d < lowInt m s) ∧ (g.holds .ge = true ↔ lowInt m s ≤ lowInt m d) ∧
    (g.holds .le = true ↔ lowInt m d ≤ lowInt m s) ∧ (g.holds .gt = true ↔ lowInt m s < lowInt m d) ∧
    (g.holds .mi = g.n) ∧ (g.holds .pl = !g.n) ∧ (g.holds .vs = g.v) ∧ (g.holds .vc = !g.v) ∧
    g.holds .a = true

/-- BOUND takes the unsigned minimum of the whole of Rd and the zero-extended source (rule R246); ABS the absolute value,
0x80000000 giving itself; ADDI adds the scaled index and Scc sets 1 or 0, both writing no flag (rules R245, R235, R283).
ABS jumps when PC is the destination (rule R166); an odd value for PC is refused (decision D4, log entry 17). What the
hypotheses leave out, PC as another destination and X set, `RestrictedOperandsAreRefused` is about. -/
def Obligations.BoundAbsAddiAndSetOnCondition : Prop :=
  ∀ (s : State) (rd : Reg),
    (∀ m, rd ≠ pcReg → s.flags.x = false →
      (∀ rs, Ready s (rs = pcReg) → Computes (exec (.boundReg m rd rs) s) s .d rd (s.pc + 2) fun r g =>
        r.toNat = min (s.gpr rd 0).toNat (lowNat m (s.gpr rs (s.pc + 2))) ∧ IsGeneral .d s.flags r g) ∧
      ∀ src v u next, loadSource m src (fun r => r == rd) (some rd) s = .next (v, u) →
        next = s.pc + 2 + BitVec.ofNat 32 (src.immLength m) →
        Computes (exec (.boundMem m rd src) s) u .d rd next fun r g =>
          r.toNat = min (u.gpr rd 0).toNat v.toNat ∧ IsGeneral .d s.flags r g) ∧
    (∀ rs, s.flags.x = false → Ready s (rd = pcReg ∨ rs = pcReg) →
      Computes (exec (.absReg rd rs) s) s .d rd (s.pc + 2) fun r g =>
        r.toNat = (s.gpr rs (s.pc + 2)).toInt.natAbs ∧ IsGeneral .d s.flags r g) ∧
    (∀ m rs, rd ≠ pcReg → s.flags.x = false → Ready s (rs = pcReg) →
      Sets (exec (.addi m rd rs) s) s rd (s.gpr rd 0 +
        s.gpr rs (s.pc + 2) * (match m with | .b => 1 | .w => 2 | .d => 4)) (s.pc + 2) false) ∧
    ∀ c, rd ≠ pcReg → Ready s False →
      Sets (exec (.scc c rd) s) s rd (if s.flags.holds c = true then 1 else 0) (s.pc + 2) false

/-- MSTEP shifts Rd left and adds Rs when N was set; DSTEP shifts Rd left and subtracts Rs when the shifted value is
not below it (rules R220, R221). -/
def Obligations.MultiplyAndDivideSteps : Prop :=
  ∀ (s : State) (rd rs : Reg), rd ≠ pcReg → s.flags.x = false → Ready s (rs = pcReg) →
    Computes (exec (.mstep rd rs) s) s .d rd (s.pc + 2) (fun r g =>
      r.toNat = (2 * (s.gpr rd 0).toNat + if s.flags.n = true then (s.gpr rs (s.pc + 2)).toNat else 0) % 2 ^ 32 ∧
      IsGeneral .d s.flags r g) ∧
    Computes (exec (.dstep rd rs) s) s .d rd (s.pc + 2) fun r g =>
      (∃ k, k = 2 * (s.gpr rd 0).toNat % 2 ^ 32 ∧ r.toNat =
        if (s.gpr rs (s.pc + 2)).toNat ≤ k then k - (s.gpr rs (s.pc + 2)).toNat else k) ∧
      IsGeneral .d s.flags r g

/-- Sixteen multiply steps multiply: from the multiplier in the upper half of Rd, N being its top bit, and the
multiplicand in Rs, Rd ends as the product (rule R222). -/
def Obligations.SixteenMultiplyStepsMultiply : Prop :=
  ∀ (s : State) (rd rs : Reg) (a b : Nat), rd ≠ pcReg → rs ≠ pcReg → rd ≠ rs → a < 2 ^ 16 → b < 2 ^ 16 →
    s.latch = none → s.flags.x = false → s.gpr rs 0 = BitVec.ofNat 32 a →
    s.gpr rd 0 = BitVec.ofNat 32 (b * 2 ^ 16) → (s.flags.n = true ↔ 2 ^ 15 ≤ b) →
    ∃ t, (List.replicate 16 (Instr.mstep rd rs)).foldl (fun o i => andThen o (exec i)) (.next s) = .next t ∧
      t.gpr rd 0 = BitVec.ofNat 32 (a * b) ∧ Kept s t (only rd)

/-! ## Moves, logic, shifts, bits -/

/-- The moves to a general register: the value at the operation's size, extended for MOVS and MOVU and for MOVEQ, the
general flags; POP is the autoincrement form on SP (rules R260 to R262, R267, R268, R203), and POP SP is refused in
every state (rule R203, decision D17). With PC as destination they jump (rule R166); an odd value for PC is refused
(decision D4, log entry 17). -/
def Obligations.MovesToGeneralRegisters : Prop :=
  ∀ (s : State) (rd : Reg), refuses (exec (.popReg spReg) s) ∧
    (∀ imm : BitVec 6, Ready s (rd = pcReg) → Computes (exec (.moveq rd imm) s) s .d rd (s.pc + 2) fun r g =>
      r = BitVec.ofInt 32 imm.toInt ∧ IsGeneral .d s.flags r g) ∧
    (∀ m rs, Ready s (rd = pcReg ∨ rs = pcReg) → Computes (exec (.moveReg m rd rs) s) s m rd (s.pc + 2) fun r g =>
      r = zeroExtended m (s.gpr rs (s.pc + 2)) ∧ IsGeneral m s.flags r g) ∧
    (∀ z rs, Ready s (rd = pcReg ∨ rs = pcReg) → Computes (exec (.movsReg z rd rs) s) s .d rd (s.pc + 2) fun r g =>
      r = signExtended z.toSize (s.gpr rs (s.pc + 2)) ∧ IsGeneral .d s.flags r g) ∧
    (∀ z rs, Ready s (rd = pcReg ∨ rs = pcReg) → Computes (exec (.movuReg z rd rs) s) s .d rd (s.pc + 2) fun r g =>
      r = zeroExtended z.toSize (s.gpr rs (s.pc + 2)) ∧ IsGeneral .d s.flags r g) ∧
    ((rd = pcReg → s.slot = .none) →
      (∀ m src v u next, loadSource m src (fun r => r == rd) (some rd) s = .next (v, u) →
        next = s.pc + 2 + BitVec.ofNat 32 (src.immLength m) →
        Computes (exec (.moveMemToReg m rd src) s) u m rd next fun r g => r = v ∧ IsGeneral m s.flags r g) ∧
      (∀ z src v u next, loadSource z.toSize src (fun r => r == rd) (some rd) s = .next (v, u) →
        next = s.pc + 2 + BitVec.ofNat 32 (src.immLength z.toSize) →
        Computes (exec (.movsMem z rd src) s) u .d rd next fun r g =>
          r = signExtended z.toSize v ∧ IsGeneral .d s.flags r g) ∧
      (∀ z src v u next, loadSource z.toSize src (fun r => r == rd) (some rd) s = .next (v, u) →
        next = s.pc + 2 + BitVec.ofNat 32 (src.immLength z.toSize) →
        Computes (exec (.movuMem z rd src) s) u .d rd next fun r g => r = v ∧ IsGeneral .d s.flags r g) ∧
      ∀ v u, loadSource .d (.mem (.inc spReg)) (fun r => r == rd) (some rd) s = .next (v, u) →
        Computes (exec (.popReg rd) s) u .d rd (s.pc + 2) fun r g => r = v ∧ IsGeneral .d s.flags r g)

/-- The logic instructions: bitwise and, or, exclusive or, and complement, with the general flags (rules R269 to R274).
With PC as destination they jump (rule R166), but NOT; an odd value for PC is refused (decision D4, log entry 17). -/
def Obligations.LogicInstructions : Prop :=
  ∀ (s : State) (rd : Reg),
    (∀ imm : BitVec 6, Ready s (rd = pcReg) →
      Computes (exec (.andq rd imm) s) s .d rd (s.pc + 2) (fun r g =>
        r = s.gpr rd (s.pc + 2) &&& BitVec.ofInt 32 imm.toInt ∧ IsGeneral .d s.flags r g) ∧
      Computes (exec (.orq rd imm) s) s .d rd (s.pc + 2) fun r g =>
        r = s.gpr rd (s.pc + 2) ||| BitVec.ofInt 32 imm.toInt ∧ IsGeneral .d s.flags r g) ∧
    (∀ m rs, Ready s (rd = pcReg ∨ rs = pcReg) →
      Computes (exec (.andReg m rd rs) s) s m rd (s.pc + 2) (fun r g =>
        r = zeroExtended m (s.gpr rd (s.pc + 2) &&& s.gpr rs (s.pc + 2)) ∧ IsGeneral m s.flags r g) ∧
      Computes (exec (.orReg m rd rs) s) s m rd (s.pc + 2) fun r g =>
        r = zeroExtended m (s.gpr rd (s.pc + 2) ||| s.gpr rs (s.pc + 2)) ∧ IsGeneral m s.flags r g) ∧
    (∀ rs, Ready s (rd = pcReg ∨ rs = pcReg) →
      Computes (exec (.xorReg rd rs) s) s .d rd (s.pc + 2) fun r g =>
        r = s.gpr rd (s.pc + 2) ^^^ s.gpr rs (s.pc + 2) ∧ IsGeneral .d s.flags r g) ∧
    (rd ≠ pcReg → Ready s False → Computes (exec (.notReg rd) s) s .d rd (s.pc + 2) fun r g =>
      r.toNat = 2 ^ 32 - 1 - (s.gpr rd 0).toNat ∧ IsGeneral .d s.flags r g) ∧
    ((rd = pcReg → s.slot = .none) →
      ∀ m src v u next, loadSource m src (fun r => r == rd) (some rd) s = .next (v, u) →
        next = s.pc + 2 + BitVec.ofNat 32 (src.immLength m) →
        Computes (exec (.andMem m rd src) s) u m rd next (fun r g =>
          r = zeroExtended m (u.gpr rd next &&& v) ∧ IsGeneral m s.flags r g) ∧
        Computes (exec (.orMem m rd src) s) u m rd next fun r g =>
          r = zeroExtended m (u.gpr rd next ||| v) ∧ IsGeneral m s.flags r g)

/-- The shifts by register: the count is Rs modulo 64, the value the low bits of Rd; the quick shifts: the count is the
5-bit field, the value all of Rd (rules R275 to R280). ASR and ASRQ jump when PC is the destination (rule R166); an odd
value for PC is refused (decision D4, log entry 17). -/
def Obligations.ShiftInstructions : Prop :=
  ∀ (s : State) (rd : Reg),
    (∀ m rs k, k = (s.gpr rs (s.pc + 2)).toNat % 64 →
      (rd ≠ pcReg → Ready s (rs = pcReg) →
        Computes (exec (.lsl m rd rs) s) s m rd (s.pc + 2) (fun r g =>
          r.toNat = lowNat m (s.gpr rd 0) * 2 ^ k % 2 ^ sizeBits m ∧ IsGeneral m s.flags r g) ∧
        Computes (exec (.lsr m rd rs) s) s m rd (s.pc + 2) fun r g =>
          r.toNat = lowNat m (s.gpr rd 0) / 2 ^ k ∧ IsGeneral m s.flags r g) ∧
      (Ready s (rd = pcReg ∨ rs = pcReg) → Computes (exec (.asr m rd rs) s) s m rd (s.pc + 2) fun r g =>
        r = zeroExtended m (BitVec.ofInt 32 (lowInt m (s.gpr rd (s.pc + 2)) / 2 ^ k)) ∧ IsGeneral m s.flags r g)) ∧
    ∀ n : BitVec 5,
      (rd ≠ pcReg → Ready s False →
        Computes (exec (.lslq rd n) s) s .d rd (s.pc + 2) (fun r g =>
          r.toNat = (s.gpr rd 0).toNat * 2 ^ n.toNat % 2 ^ 32 ∧ IsGeneral .d s.flags r g) ∧
        Computes (exec (.lsrq rd n) s) s .d rd (s.pc + 2) fun r g =>
          r.toNat = (s.gpr rd 0).toNat / 2 ^ n.toNat ∧ IsGeneral .d s.flags r g) ∧
      (Ready s (rd = pcReg) → Computes (exec (.asrq rd n) s) s .d rd (s.pc + 2) fun r g =>
        r = BitVec.ofInt 32 ((s.gpr rd (s.pc + 2)).toInt / 2 ^ n.toNat) ∧ IsGeneral .d s.flags r g)

/-- SWAP: bit i of the result is bit i ^ (16 W | 8 B | 7 R) of Rd, inverted with option N; LZ counts the leading zeros
(rules R282, R281). LZ jumps when PC is the destination (rule R166); an odd value for PC is refused (decision D4, log
entry 17). -/
def Obligations.SwapAndLeadingZeros : Prop :=
  ∀ (s : State) (rd : Reg),
    (∀ opts : BitVec 4, rd ≠ pcReg → Ready s False →
      Computes (exec (.swap opts rd) s) s .d rd (s.pc + 2) fun r g =>
        (∀ i, i < 32 → r.getLsbD i =
          Bool.xor (opts.getLsbD 3) ((s.gpr rd 0).getLsbD
            (i ^^^ ((if opts.getLsbD 2 then 16 else 0) ||| (if opts.getLsbD 1 then 8 else 0) |||
              (if opts.getLsbD 0 then 7 else 0))))) ∧
        IsGeneral .d s.flags r g) ∧
    ∀ rs, Ready s (rd = pcReg ∨ rs = pcReg) →
      Computes (exec (.lz rd rs) s) s .d rd (s.pc + 2) fun r g =>
        r.toNat ≤ 32 ∧ (s.gpr rs (s.pc + 2)).toNat < 2 ^ (32 - r.toNat) ∧
        (r.toNat < 32 → 2 ^ (31 - r.toNat) ≤ (s.gpr rs (s.pc + 2)).toNat) ∧ IsGeneral .d s.flags r g

/-- The bit tests: N is bit n of D, Z says that bit n and all below it are zero (rule R39); n is Rs modulo 32 or the
5-bit field (rules R284, R285); V and C are clear (rule R43, PRESUMED by the spec, log entry 20). That PC as D reads as
the address after the instruction is the model's reading (PRESUMED, log entry 16). TEST writes the general flags of its
operand and no register; the register form rewrites Rn with itself (rule R264). -/
def Obligations.BitTestAndTestInstructions : Prop :=
  (∀ (s : State) (rd : Reg),
     (∀ rs k, Ready s (rd = pcReg ∨ rs = pcReg) → k = (s.gpr rs (s.pc + 2)).toNat % 32 →
       Tests (exec (.btst rd rs) s) s (s.pc + 2) fun g =>
         g.n = (s.gpr rd (s.pc + 2)).getLsbD k ∧
         (g.z = true ↔ (s.gpr rd (s.pc + 2)).toNat % 2 ^ (k + 1) = 0 ∧ (s.flags.x = true → s.flags.z = true)) ∧
         g.v = false ∧ g.c = false) ∧
     ∀ n : BitVec 5, Ready s (rd = pcReg) →
       Tests (exec (.btstq rd n) s) s (s.pc + 2) fun g =>
         g.n = (s.gpr rd (s.pc + 2)).getLsbD n.toNat ∧
         (g.z = true ↔ (s.gpr rd (s.pc + 2)).toNat % 2 ^ (n.toNat + 1) = 0 ∧
           (s.flags.x = true → s.flags.z = true)) ∧
         g.v = false ∧ g.c = false) ∧
  (∀ (s : State) (m : Size) (src : SrcMode) (v : Word) (u : State),
    loadSource m src (fun _ => false) none s = .next (v, u) →
    Tests (exec (.testMem m src) s) u (s.pc + 2 + BitVec.ofNat 32 (src.immLength m)) (IsGeneral m s.flags v)) ∧
  ∀ (s : State) (m : Size) (rn : Reg), rn ≠ pcReg → Ready s False →
    Tests (exec (.testReg m rn) s) s (s.pc + 2) (IsGeneral m s.flags (zeroExtended m (s.gpr rn 0)))

/-! ## Flags and special registers -/

/-- NOP and the flag instructions: SETF sets what is on its list and X exactly when listed, AX is SETF X and EI is
SETF I; CLEARF clears what is on its list but M, and X, DI is CLEARF I; X on SETF's list opens the window
(rules R191 to R196). -/
def Obligations.NopAndFlagInstructions : Prop :=
  ∀ s : State, Ready s False →
    exec .nop s = .next (s.finish false { s.flags with x := false }) ∧
    exec .ax s = .next (s.finish true { s.flags with x := true }) ∧
    exec .ei s = .next (s.finish false { s.flags with i := true, x := false }) ∧
    exec .di s = .next (s.finish false { s.flags with i := false, x := false }) ∧
    (∀ l : Byte, exec (.setf l) s = .next (s.finish (l.getLsbD 4)
      ⟨if l.getLsbD 7 then true else s.flags.m, if l.getLsbD 6 then true else s.flags.b,
       if l.getLsbD 5 then true else s.flags.i, l.getLsbD 4, if l.getLsbD 3 then true else s.flags.n,
       if l.getLsbD 2 then true else s.flags.z, if l.getLsbD 1 then true else s.flags.v,
       if l.getLsbD 0 then true else s.flags.c⟩)) ∧
    ∀ l : Byte, exec (.clearf l) s = .next (s.finish false
      ⟨s.flags.m, if l.getLsbD 6 then false else s.flags.b, if l.getLsbD 5 then false else s.flags.i, false,
       if l.getLsbD 3 then false else s.flags.n, if l.getLsbD 2 then false else s.flags.z,
       if l.getLsbD 1 then false else s.flags.v, if l.getLsbD 0 then false else s.flags.c⟩)

/-- The moves to a special register, from a register, from memory or immediate data, and POP: the register's width is
moved, each register takes its bits, the window opens (rules R197, R199, R203, R25 to R33, R40, R305). That VR discards a
write is the spec's decision D24 (log entry 25). -/
def Obligations.MovesToSpecialRegisters : Prop :=
  ∀ (s : State) (p : PNum), p.implemented = true →
    (∀ rs, Ready s (rs = pcReg) → ∃ t, exec (.moveRegToSpecial p rs) s = .next t ∧
      SpecialWritten s t p (zeroExtended p.size (s.gpr rs (s.pc + 2))) ∧ Ends s t (s.pc + 2) true) ∧
    (∀ src v u, loadSource p.size src (fun _ => false) none s = .next (v, u) →
      ∃ t, exec (.moveMemToSpecial p src) s = .next t ∧ SpecialWritten u t p v ∧
        Ends u t (s.pc + 2 + BitVec.ofNat 32 (src.immLength p.size)) true) ∧
    ∀ v u, loadSource p.size (.mem (.inc spReg)) (fun _ => false) none s = .next (v, u) →
      ∃ t, exec (.popSpecial p) s = .next t ∧ SpecialWritten u t p v ∧ Ends u t (s.pc + 2) true

/-- The moves from a special register and CLEAR of a register: the low bits of Rd receive the register's value or zero,
the rest stays, no flag but X changes, the window opens (rules R198, R201). -/
def Obligations.MovesFromSpecialRegisters : Prop :=
  ∀ (s : State) (rd : Reg), rd ≠ pcReg → Ready s False →
    (∀ p : PNum, p.implemented = true → Sets (exec (.moveSpecialToReg p rd) s) s rd
      (replaceLow p.size (s.gpr rd 0) (BitVec.ofNat 32 (specialNat s p))) (s.pc + 2) true) ∧
    Sets (exec (.clearByteReg rd) s) s rd (replaceLow .b (s.gpr rd 0) 0) (s.pc + 2) true ∧
    Sets (exec (.clearWordReg rd) s) s rd (replaceLow .w (s.gpr rd 0) 0) (s.pc + 2) true ∧
    Sets (exec (.clearDwordReg rd) s) s rd 0 (s.pc + 2) true

/-- The moves of a special register to memory, CLEAR of memory and PUSH of a special register: the width of the
register is stored at the operand address and nowhere else, the window opens (rules R200 to R202); without other bus
masters (log entry 10). -/
def Obligations.SpecialRegistersToMemory : Prop :=
  (∀ (s u : State) (p : PNum) (dst : AddrMode) (ea : Word), p.implemented = true → Alone s → s.mem.wf = true →
    resolve dst (BitVec.ofNat 32 p.size.bytes) (fun _ => false) none s = .next (ea, u) →
    u.accessible p.size.bytes ea = true →
    ∃ t, exec (.moveSpecialToMem p dst) s = .next t ∧ bytesNat t p.size.bytes ea = specialNat s p ∧
      Stored u t p.size.bytes ea ∧ Ends u t (s.pc + 2) true) ∧
  (∀ (s u : State) (dst : AddrMode) (ea : Word), Alone s → s.mem.wf = true →
    (resolve dst 1 (fun _ => false) none s = .next (ea, u) → u.accessible 1 ea = true →
      ∃ t, exec (.clearByteMem dst) s = .next t ∧ bytesNat t 1 ea = 0 ∧ Stored u t 1 ea ∧
        Ends u t (s.pc + 2) true) ∧
    (resolve dst 2 (fun _ => false) none s = .next (ea, u) → u.accessible 2 ea = true →
      ∃ t, exec (.clearWordMem dst) s = .next t ∧ bytesNat t 2 ea = 0 ∧ Stored u t 2 ea ∧
        Ends u t (s.pc + 2) true) ∧
    (resolve dst 4 (fun _ => false) none s = .next (ea, u) → u.accessible 4 ea = true →
      ∃ t, exec (.clearDwordMem dst) s = .next t ∧ bytesNat t 4 ea = 0 ∧ Stored u t 4 ea ∧
        Ends u t (s.pc + 2) true)) ∧
  ∀ (s : State) (p : PNum) (sp : Word), p.implemented = true → Alone s → s.mem.wf = true → Ready s True →
    sp = s.gpr spReg 0 - BitVec.ofNat 32 p.size.bytes → s.accessible p.size.bytes sp = true →
    ∃ t, exec (.pushSpecial p) s = .next t ∧ bytesNat t p.size.bytes sp = specialNat s p ∧
      t.gpr spReg 0 = sp ∧ Stored (s.setGpr spReg sp) t p.size.bytes sp ∧ Ends s t (s.pc + 4) true

/-- The zero registers P0, P4 and P8, of 8, 16 and 32 bits: a read yields zero, a write, from a register or from memory,
changes no register, no flag but X and no byte, and CLEAR is the read (rule R25). -/
def Obligations.ZeroRegisters : Prop :=
  (∀ s : State, specialNat s 0#4 = 0 ∧ specialNat s 4#4 = 0 ∧ specialNat s 8#4 = 0) ∧
  (∀ (s : State) (rd : Reg), rd ≠ pcReg → Ready s False →
    (∃ t, exec (.moveSpecialToReg 0#4 rd) s = .next t ∧ t.gpr rd 0 = replaceLow .b (s.gpr rd 0) 0) ∧
    (∃ t, exec (.moveSpecialToReg 4#4 rd) s = .next t ∧ t.gpr rd 0 = replaceLow .w (s.gpr rd 0) 0) ∧
    ∃ t, exec (.moveSpecialToReg 8#4 rd) s = .next t ∧ t.gpr rd 0 = 0) ∧
  (∀ p : PNum, p = 0#4 ∨ p = 4#4 ∨ p = 8#4 →
    (∀ (s : State) (rs : Reg), Ready s (rs = pcReg) → ∃ t, exec (.moveRegToSpecial p rs) s = .next t ∧
      t.flags = { s.flags with x := false } ∧ Kept s t noReg) ∧
    (∀ (s u : State) (src : SrcMode) (v : Word), loadSource p.size src (fun _ => false) none s = .next (v, u) →
      ∃ t, exec (.moveMemToSpecial p src) s = .next t ∧ t.flags = { u.flags with x := false } ∧ Kept u t noReg) ∧
    ∀ (s u : State) (v : Word), loadSource p.size (.mem (.inc spReg)) (fun _ => false) none s = .next (v, u) →
      ∃ t, exec (.popSpecial p) s = .next t ∧ t.flags = { u.flags with x := false } ∧ Kept u t noReg) ∧
  ∀ s : State,
    (∀ rd, rd ≠ pcReg → exec (.clearByteReg rd) s = exec (.moveSpecialToReg 0#4 rd) s ∧
      exec (.clearWordReg rd) s = exec (.moveSpecialToReg 4#4 rd) s ∧
      exec (.clearDwordReg rd) s = exec (.moveSpecialToReg 8#4 rd) s) ∧
    ∀ dst, exec (.clearByteMem dst) s = exec (.moveSpecialToMem 0#4 dst) s ∧
      exec (.clearWordMem dst) s = exec (.moveSpecialToMem 4#4 dst) s ∧
      exec (.clearDwordMem dst) s = exec (.moveSpecialToMem 8#4 dst) s

/-- IBR: a write stores bits 31 to 16 of the data and discards the rest, a read yields them above sixteen zero bits, the
vectors and the BREAK entry points lie above it, and it is zero after reset (rule R29). -/
def Obligations.InterruptBaseRegister : Prop :=
  (∀ (s : State) (rs : Reg), Ready s (rs = pcReg) → ∃ t, exec (.moveRegToSpecial 9#4 rs) s = .next t ∧
    t.ibr.toNat = (s.gpr rs (s.pc + 2)).toNat / 65536 * 65536) ∧
  (∀ (s u : State) (src : SrcMode) (v : Word), loadSource .d src (fun _ => false) none s = .next (v, u) →
    ∃ t, exec (.moveMemToSpecial 9#4 src) s = .next t ∧ t.ibr.toNat = v.toNat / 65536 * 65536) ∧
  (∀ s : State, s.ibr.toNat % 65536 = 0) ∧
  (∀ (s : State) (rd : Reg), rd ≠ pcReg → Ready s False →
    ∃ t, exec (.moveSpecialToReg 9#4 rd) s = .next t ∧ t.gpr rd 0 = s.ibr) ∧
  (∀ (s : State) (vec : Byte), (s.vectorAddress vec).toNat = s.ibr.toNat + 4 * vec.toNat) ∧
  (∀ (s : State) (n : BitVec 4), Ready s True → ∃ t, exec (.brk n) s = .next t ∧
    t.pc.toNat = s.ibr.toNat + 8 * n.toNat) ∧
  State.reset.ibr = 0

/-! ## Stores and register lists -/

/-- MOVE to memory and PUSH: the low bytes of Rs at the operand address and nowhere else, no flag but X (rules R263,
R202); without other bus masters (log entry 10). PC is stored as the address after the instruction (rule R23(h), log
entry 16); PUSH SP is refused (decision D17). -/
def Obligations.RegistersToMemory : Prop :=
  (∀ (s u : State) (m : Size) (rs : Reg) (dst : AddrMode) (ea : Word), (rs = pcReg → s.slot = .none) → Alone s →
    s.mem.wf = true →
    resolve dst (BitVec.ofNat 32 (sizeBits m / 8)) (fun r => r == rs) none s = .next (ea, u) →
    u.accessible (sizeBits m / 8) ea = true →
    ∃ t, exec (.moveRegToMem m rs dst) s = .next t ∧
      bytesNat t (sizeBits m / 8) ea = lowNat m (s.gpr rs (s.pc + 2)) ∧
      Stored u t (sizeBits m / 8) ea ∧ Ends u t (s.pc + 2) false) ∧
  (∀ (s : State) (rs : Reg) (sp : Word), rs ≠ spReg → Alone s → s.mem.wf = true → Ready s True →
    sp = s.gpr spReg 0 - 4 →
    s.accessible 4 sp = true →
    ∃ t, exec (.pushReg rs) s = .next t ∧ bytesNat t 4 sp = (s.gpr rs (s.pc + 4)).toNat ∧
      t.gpr spReg 0 = sp ∧ Stored (s.setGpr spReg sp) t 4 sp ∧ Ends s t (s.pc + 4) false) ∧
  ∀ s : State, refuses (exec (.pushReg spReg) s)

/-- MOVEM stores and loads R0 to Rn as dwords, Rn at the lowest address, R0 at the highest (rules R265, R266); without
other bus masters (log entry 10). -/
def Obligations.MultipleMoves : Prop :=
  (∀ (s u : State) (rs : Reg) (dst : AddrMode) (ea : Word), rs ≠ pcReg → Alone s → s.mem.wf = true →
    resolve dst (BitVec.ofNat 32 (4 * (rs.toNat + 1))) (fun r => decide (r.toNat ≤ rs.toNat)) none s =
      .next (ea, u) →
    u.accessible (4 * (rs.toNat + 1)) ea = true →
    ∃ t, exec (.movemStore rs dst) s = .next t ∧
      (∀ k, k ≤ rs.toNat → bytesNat t 4 (ea + BitVec.ofNat 32 (4 * k)) =
        (s.gpr (BitVec.ofNat 4 (rs.toNat - k)) 0).toNat) ∧
      Stored u t (4 * (rs.toNat + 1)) ea ∧ Ends u t (s.pc + 2) false) ∧
  ∀ (s u : State) (rd : Reg) (src : AddrMode) (ea : Word), rd ≠ pcReg → Alone s →
    resolve src (BitVec.ofNat 32 (4 * (rd.toNat + 1))) (fun r => decide (r.toNat ≤ rd.toNat)) none s =
      .next (ea, u) →
    u.accessible (4 * (rd.toNat + 1)) ea = true →
    ∃ t w, exec (.movemLoad rd src) s = .next t ∧
      (∀ k, k ≤ rd.toNat → (t.gpr (BitVec.ofNat 4 (rd.toNat - k)) 0).toNat =
        bytesNat u 4 (ea + BitVec.ofNat 32 (4 * k))) ∧
      Accessed u w (4 * (rd.toNat + 1)) ea ∧ Kept w t (fun r => r.toNat ≤ rd.toNat) ∧
      t.flags = { s.flags with x := false } ∧ Ends u t (s.pc + 2) false

/-! ## Transfers of control -/

/-- Bcc in both forms: the window opens (decision D2), the next instruction is the delay slot, and the pending target
is the address of the slot plus the signed offset when the condition holds; no flag but X changes (rules R160, R162,
R106). An odd target is refused (decision D4); that this happens at the Bcc and only when it is taken is log entry 17
(DEDUCED). That the read of the 16-bit offset is compared with BAR is log entry 14 (DEDUCED). -/
def Obligations.BranchInstructions : Prop :=
  ∀ s : State, Ready s True →
    (∀ (off : Byte) (o : Int) (target : Word),
      (o = if off.toNat % 2 = 1 then (off.toNat : Int) - 1 - 256 else off.toNat) →
      target = s.pc + 2 + BitVec.ofInt 32 o → ¬ isOdd s.pc →
      (∀ c, exec (.bcc8 c off) s = .next (State.branched { s with pc := s.pc + 2 } target (s.flags.holds c))) ∧
      exec (.ba8 off) s = .next (State.branched { s with pc := s.pc + 2 } target true)) ∧
    ∀ (off : Half) (target : Word), target = s.pc + 4 + BitVec.ofInt 32 off.toInt →
      ∃ u : State, u = { s with pc := s.pc + 4, hit := u.hit } ∧
        (u.hit = true ↔ s.hit = true ∨ (s.flags.b = true ∧ hitsBar s.bar 2 (s.pc + 2))) ∧
        (∀ c, (isOdd target → s.flags.holds c = true → exec (.bcc16 c off) s = .refused .oddProgramCounter) ∧
          (¬ isOdd target ∨ s.flags.holds c = false →
            exec (.bcc16 c off) s = .next (State.branched u target (s.flags.holds c)))) ∧
        (isOdd target → exec (.ba16 off) s = .refused .oddProgramCounter) ∧
        (¬ isOdd target → exec (.ba16 off) s = .next (State.branched u target true))

/-- The jump group: pc receives the target at once; JSR, JIR store the address after the instruction in SRP, IRP, and
JSRC, JIRC, JBRC that address plus 4 in SRP, IRP, BRP (rules R165, R168 to R170). That the calls do not open the window is
the spec's decision D22. An odd target is refused (decision D4, log entry 17). -/
def Obligations.JumpsAndSubroutineCalls : Prop :=
  (∀ (s : State) (rs : Reg) (next target : Word), Ready s True → next = s.pc + 2 → target = s.gpr rs next →
    (isOdd target → ∀ i ∈ [Instr.jumpReg rs, .jsrReg rs, .jirReg rs, .jsrcReg rs, .jircReg rs, .jbrcReg rs],
      exec i s = .refused .oddProgramCounter) ∧
    (¬ isOdd target →
      exec (.jumpReg rs) s = .next (State.arrived s target) ∧
      exec (.jsrReg rs) s = .next (State.arrived { s with srp := next } target) ∧
      exec (.jirReg rs) s = .next (State.arrived { s with irp := next } target) ∧
      exec (.jsrcReg rs) s = .next (State.arrived { s with srp := next + 4 } target) ∧
      exec (.jircReg rs) s = .next (State.arrived { s with irp := next + 4 } target) ∧
      exec (.jbrcReg rs) s = .next (State.arrived { s with brp := next + 4 } target))) ∧
  (∀ (s u : State) (src : SrcMode) (next target : Word), s.slot = .none →
    loadSource .d src (fun _ => false) none s = .next (target, u) →
    next = s.pc + 2 + BitVec.ofNat 32 (src.immLength .d) →
    (isOdd target → ∀ i ∈ [Instr.jsrMem src, .jirMem src, .jsrcMem src, .jircMem src, .jbrcMem src],
      exec i s = .refused .oddProgramCounter) ∧
    (¬ isOdd target →
      exec (.jsrMem src) s = .next (State.arrived { u with srp := next } target) ∧
      exec (.jirMem src) s = .next (State.arrived { u with irp := next } target) ∧
      exec (.jsrcMem src) s = .next (State.arrived { u with srp := next + 4 } target) ∧
      exec (.jircMem src) s = .next (State.arrived { u with irp := next + 4 } target) ∧
      exec (.jbrcMem src) s = .next (State.arrived { u with brp := next + 4 } target)) ∧
    (∀ a, src = .mem a → if target.toNat % 2 = 1 then exec (.jumpMem a) s = .refused .oddProgramCounter
      else exec (.jumpMem a) s = .next (State.arrived u target)) ∧
    ∀ v, src = .imm v → if target.toNat % 2 = 1 then exec (.jumpImm v) s = .refused .oddProgramCounter
      else exec (.jumpImm v) s = .next (State.arrived u target))

/-- BREAK n: BRP receives the address after the instruction (the spec's decision D14), pc the address IBR + 8 n, at once;
no flag but X changes and the window does not open (rules R190, R307, decision D22). RET, RETI, RETB, under their own
names and as a MOVE to PC: a delayed jump through SRP, IRP, BRP; no flag but X changes (rules R171 to R173, R312); an
odd pointer is refused (decision D4). -/
def Obligations.BreakAndReturnInstructions : Prop :=
  ∀ s : State, Ready s True →
   (∀ n : BitVec 4, exec (.brk n) s = .next { s with
      brp := s.pc + 2, pc := BitVec.ofNat 32 (s.ibr.toNat + 8 * n.toNat), irqWindow := false
      flags := { s.flags with x := false } }) ∧
   ∀ (i : Instr) (pointer : Word),
    ((i = .ret ∨ i = .moveSpecialToReg 11#4 pcReg) ∧ pointer = s.srp) ∨
    ((i = .reti ∨ i = .moveSpecialToReg 10#4 pcReg) ∧ pointer = s.irp) ∨
    ((i = .retb ∨ i = .moveSpecialToReg 14#4 pcReg) ∧ pointer = s.brp) →
    (isOdd pointer → exec i s = .refused .oddProgramCounter) ∧
    (¬ isOdd pointer → exec i s = .next { s with
      pc := s.pc + 2, slot := .pending pointer, irqWindow := true, flags := { s.flags with x := false } })
end

