-- ==== Sys2Proof/Laws/Memory.lean ====
section
/-! SUPPORT. The laws of memory: the canonical form is kept, a read after a write, and what a write leaves. -/

namespace Sys2Proof.Machine

/-! ## The canonical form -/

theorem Memory.wfFrom_mono {m : Memory} {lo lo' : Nat} (h : lo' ≤ lo) (hw : m.wfFrom lo = true) :
    m.wfFrom lo' = true := by
  cases m with
  | nil => rfl
  | cons c rest =>
    obtain ⟨l, v⟩ := c
    simp only [Memory.wfFrom, Bool.and_eq_true, decide_eq_true_eq] at hw ⊢
    exact ⟨⟨⟨by omega, hw.1.1.2⟩, hw.1.2⟩, hw.2⟩

/-- Writing a byte keeps the canonical form. -/
theorem Memory.setByte_wfFrom {m : Memory} {lo k : Nat} {v : Byte} (hw : m.wfFrom lo = true) (hk : lo ≤ k)
    (hs : k < Memory.size) : (m.setByte k v).wfFrom lo = true := by
  induction m generalizing lo with
  | nil =>
    unfold Memory.setByte
    split
    · rfl
    · rename_i h; simp [Memory.wfFrom, hk, hs, h]
  | cons c rest ih =>
    obtain ⟨l, w⟩ := c
    simp only [Memory.wfFrom, Bool.and_eq_true, decide_eq_true_eq, bne_iff_ne, ne_eq] at hw
    obtain ⟨⟨⟨h1, h2⟩, h3⟩, h4⟩ := hw
    unfold Memory.setByte
    split
    · simp only [Memory.wfFrom, Bool.and_eq_true, decide_eq_true_eq, bne_iff_ne, ne_eq]
      exact ⟨⟨⟨h1, h2⟩, h3⟩, ih h4 (by omega)⟩
    · split
      · split
        · exact Memory.wfFrom_mono (by omega) h4
        · rename_i e hv
          subst e
          simp [Memory.wfFrom, hk, hs, hv, h4]
      · split
        · simp [Memory.wfFrom, h1, h2, h3, h4]
        · rename_i hv
          have : k + 1 ≤ l := by omega
          simp [Memory.wfFrom, hk, hs, hv, this, h2, h3, h4]

theorem location_lt (a : Word) : location a < Memory.size := Nat.mod_lt _ (by decide)

theorem Memory.setByte_wf {m : Memory} (hw : m.wf = true) (a : Word) (v : Byte) :
    (m.setByte (location a) v).wf = true :=
  Memory.setByte_wfFrom hw (Nat.zero_le _) (location_lt a)

/-- Storing bytes keeps the canonical form. -/
theorem Memory.store_wf {m : Memory} (hw : m.wf = true) (n : Nat) (a v : Word) : (m.store n a v).wf = true := by
  induction n generalizing m a v with
  | zero => exact hw
  | succ n ih => exact ih (Memory.setByte_wf hw a _) _ _

/-- Placing words keeps the canonical form. -/
theorem Memory.putWords_wf {m : Memory} (hw : m.wf = true) (ws : List Half) (a : Word) :
    (m.putWords ws a).wf = true := by
  induction ws generalizing m a with
  | nil => exact hw
  | cons w rest ih => exact ih (Memory.store_wf hw _ _ _) _

/-- The memory after reset has the canonical form. -/
theorem reset_mem_wf : State.reset.mem.wf = true := rfl

/-! ## Reading after writing -/

/-- A location below the first listed one reads as an unlisted one. -/
theorem Memory.byteAt_below {m : Memory} {lo k : Nat} (hw : m.wfFrom lo = true) (hk : k < lo) :
    m.byteAt k = Memory.unlisted := by
  induction m generalizing lo with
  | nil => rfl
  | cons c rest ih =>
    obtain ⟨l, w⟩ := c
    simp only [Memory.wfFrom, Bool.and_eq_true, decide_eq_true_eq] at hw
    unfold Memory.byteAt
    rw [if_neg (by omega)]
    exact ih hw.2 (by omega)

/-- Reading the location just written. -/
theorem Memory.byteAt_setByte_self {m : Memory} {lo : Nat} (hw : m.wfFrom lo = true) (k : Nat) (v : Byte) :
    (m.setByte k v).byteAt k = v := by
  induction m generalizing lo with
  | nil =>
    unfold Memory.setByte
    split
    · rename_i h; simp [Memory.byteAt, h]
    · simp [Memory.byteAt]
  | cons c rest ih =>
    obtain ⟨l, w⟩ := c
    simp only [Memory.wfFrom, Bool.and_eq_true, decide_eq_true_eq] at hw
    obtain ⟨_, h4⟩ := hw
    unfold Memory.setByte
    split
    · rename_i h
      unfold Memory.byteAt
      rw [if_neg (by omega)]
      exact ih h4
    · split
      · rename_i e
        split
        · rename_i hv
          subst e
          rw [hv]
          exact Memory.byteAt_below h4 (by omega)
        · simp [Memory.byteAt]
      · split
        · rename_i hv
          unfold Memory.byteAt
          rw [if_neg (by omega), hv]
          exact Memory.byteAt_below h4 (by omega)
        · simp [Memory.byteAt]

/-- Reading another location than the one written. -/
theorem Memory.byteAt_setByte_ne (m : Memory) {k j : Nat} (v : Byte) (h : j ≠ k) :
    (m.setByte k v).byteAt j = m.byteAt j := by
  induction m with
  | nil =>
    unfold Memory.setByte
    split
    · rfl
    · simp [Memory.byteAt, Ne.symm h]
  | cons c rest ih =>
    obtain ⟨l, w⟩ := c
    unfold Memory.setByte
    split
    · simp only [Memory.byteAt, ih]
    · split
      · rename_i e
        split
        · simp [Memory.byteAt, show l ≠ j by omega]
        · simp [Memory.byteAt, show l ≠ j by omega, Ne.symm h]
      · split
        · rfl
        · simp [Memory.byteAt, Ne.symm h]

/-! ## The note of stored locations (rule R78) -/

theorem State.storedAny_congr {s t : State} (h : t.stored = s.stored) (n : Nat) (a : Word) :
    t.storedAny n a = s.storedAny n a := by
  induction n generalizing a with
  | zero => rfl
  | succ n ih => simp only [State.storedAny, h, ih]

theorem mem_noteStoredIn {l : List Nat} {k x : Nat} : x ∈ noteStoredIn l k ↔ x = k ∨ x ∈ l := by
  induction l with
  | nil => simp [noteStoredIn]
  | cons c rest ih =>
    unfold noteStoredIn
    split
    · simp only [List.mem_cons, ih]; tauto
    · split
      · rename_i e; simp [e]
      · simp

/-! ## Stores of several bytes -/

theorem outside_succ {x : Word} {n : Nat} {a : Word} (h : outside x (n + 1) a) :
    location x ≠ location a ∧ outside x n (a + 1) := by
  refine ⟨by simpa using h 0 (Nat.succ_pos n), fun k hk => ?_⟩
  have := h (k + 1) (by omega)
  rwa [show a + 1 + BitVec.ofNat 32 k = a + BitVec.ofNat 32 (k + 1) by
    rw [BitVec.add_assoc]; congr 1; rw [BitVec.ofNat_add]; exact BitVec.add_comm _ _]

/-- A store notes its own locations and keeps the others noted. -/
theorem mem_noteStored {n : Nat} {a : Word} {l : List Nat} {x : Nat} :
    x ∈ noteStored n a l ↔ x ∈ l ∨ ∃ k, k < n ∧ x = location (a + BitVec.ofNat 32 k) := by
  induction n generalizing a l with
  | zero => simp [noteStored]
  | succ n ih =>
    rw [noteStored, ih, mem_noteStoredIn]
    have e : ∀ k, a + 1 + BitVec.ofNat 32 k = a + BitVec.ofNat 32 (k + 1) := fun k => by
      rw [BitVec.add_assoc]; congr 1; rw [BitVec.ofNat_add]; exact BitVec.add_comm _ _
    constructor
    · rintro ((rfl | h) | ⟨k, hk, rfl⟩)
      · exact .inr ⟨0, by omega, by simp⟩
      · exact .inl h
      · exact .inr ⟨k + 1, by omega, by rw [e]⟩
    · rintro (h | ⟨k, hk, rfl⟩)
      · exact .inl (.inr h)
      · cases k with
        | zero => exact .inl (.inl (by simp))
        | succ k => exact .inr ⟨k, by omega, by rw [e]⟩

/-- A store leaves every byte outside it. -/
theorem Memory.byteAt_store_outside (m : Memory) {n : Nat} {a v x : Word} (h : outside x n a) :
    (m.store n a v).byteAt (location x) = m.byteAt (location x) := by
  induction n generalizing m a v with
  | zero => rfl
  | succ n ih =>
    obtain ⟨h1, h2⟩ := outside_succ h
    rw [Memory.store, ih _ h2, Memory.byteAt_setByte_ne _ _ h1]

/-- The locations of a byte and of those behind it differ, within the 2^31 locations there are. -/
theorem outside_self {n : Nat} (a : Word) (h : n < Memory.size) : outside a n (a + 1) := by
  intro k hk e
  unfold location at e
  have h1 : (a + 1 + BitVec.ofNat 32 k).toNat = (a.toNat + (k + 1)) % 2 ^ 32 := by
    rw [BitVec.toNat_add, BitVec.toNat_add, BitVec.toNat_ofNat]
    have h : (1 : Word).toNat = 1 := rfl
    rw [h]
    omega
  rw [h1] at e
  unfold Memory.size at *
  omega

/-- The number that `n` stored bytes hold. -/
theorem bytesNat_lt (s : State) (n : Nat) (a : Word) : bytesNat s n a < 256 ^ n := by
  induction n generalizing a with
  | zero => simp [bytesNat]
  | succ n ih =>
    have := ih (a + 1)
    have h := (s.peek a).isLt
    simp only [bytesNat, pow_succ]; omega

theorem bytesNat_congr {s t : State} (n : Nat) (a : Word)
    (h : ∀ k, k < n → t.peek (a + BitVec.ofNat 32 k) = s.peek (a + BitVec.ofNat 32 k)) :
    bytesNat t n a = bytesNat s n a := by
  induction n generalizing a with
  | zero => rfl
  | succ n ih =>
    have h0 := h 0 (Nat.succ_pos n)
    simp only [BitVec.add_zero] at h0
    rw [bytesNat, bytesNat, h0, ih]
    intro k hk
    have := h (k + 1) (by omega)
    rwa [show a + BitVec.ofNat 32 (k + 1) = a + 1 + BitVec.ofNat 32 k by
      rw [BitVec.add_assoc]; congr 1; rw [BitVec.ofNat_add]; exact BitVec.add_comm _ _] at this

/-- A load yields the number that the bytes hold (rule R62). -/
theorem Memory.load_toNat (s : State) {n : Nat} (hn : n ≤ 4) (a : Word) :
    (s.mem.load n a).toNat = bytesNat s n a := by
  induction n generalizing a with
  | zero => rfl
  | succ n ih =>
    have h1 := ih (by omega) (a + 1)
    have hb := bytesNat_lt s n (a + 1)
    have h256 : 256 ^ n ≤ 256 ^ 3 := Nat.pow_le_pow_right (by decide) (by omega)
    have hlt : bytesNat s n (a + 1) < 2 ^ 24 := by
      calc _ < 256 ^ n := hb
        _ ≤ _ := h256
        _ = _ := by norm_num
    have hp : (s.mem.byteAt (location a)).toNat < 2 ^ 8 := (s.peek a).isLt
    simp only [Memory.load, bytesNat, State.peek]
    have hs : bytesNat s n (a + 1) <<< 8 % 2 ^ 32 = bytesNat s n (a + 1) <<< 8 := by
      rw [Nat.shiftLeft_eq]; omega
    rw [BitVec.toNat_or, BitVec.toNat_shiftLeft, h1, BitVec.toNat_setWidth, hs,
      Nat.mod_eq_of_lt (show (s.mem.byteAt (location a)).toNat < 2 ^ 32 by omega),
      ← Nat.shiftLeft_add_eq_or_of_lt hp, Nat.shiftLeft_eq]
    omega

end Sys2Proof.Machine
end

