-- ==== Sys2Proof/Laws/State.lean ====
section
/-! SUPPORT. One lemma per field and per state update: what each named operation leaves as it was, and what it writes. -/

namespace Sys2Proof.Machine


/-! ### State.setGpr -/

@[simp] theorem State.setGpr_pc (s : State) (r : Reg) (v : Word) : (s.setGpr r v).pc = s.pc := by unfold State.setGpr; split <;> rfl
@[simp] theorem State.setGpr_flags (s : State) (r : Reg) (v : Word) : (s.setGpr r v).flags = s.flags := by unfold State.setGpr; split <;> rfl
@[simp] theorem State.setGpr_ibrHigh (s : State) (r : Reg) (v : Word) : (s.setGpr r v).ibrHigh = s.ibrHigh := by unfold State.setGpr; split <;> rfl
@[simp] theorem State.setGpr_irp (s : State) (r : Reg) (v : Word) : (s.setGpr r v).irp = s.irp := by unfold State.setGpr; split <;> rfl
@[simp] theorem State.setGpr_srp (s : State) (r : Reg) (v : Word) : (s.setGpr r v).srp = s.srp := by unfold State.setGpr; split <;> rfl
@[simp] theorem State.setGpr_bar (s : State) (r : Reg) (v : Word) : (s.setGpr r v).bar = s.bar := by unfold State.setGpr; split <;> rfl
@[simp] theorem State.setGpr_brp (s : State) (r : Reg) (v : Word) : (s.setGpr r v).brp = s.brp := by unfold State.setGpr; split <;> rfl
@[simp] theorem State.setGpr_irqWindow (s : State) (r : Reg) (v : Word) : (s.setGpr r v).irqWindow = s.irqWindow := by unfold State.setGpr; split <;> rfl
@[simp] theorem State.setGpr_slot (s : State) (r : Reg) (v : Word) : (s.setGpr r v).slot = s.slot := by unfold State.setGpr; split <;> rfl
@[simp] theorem State.setGpr_prefetch (s : State) (r : Reg) (v : Word) : (s.setGpr r v).prefetch = s.prefetch := by unfold State.setGpr; split <;> rfl
@[simp] theorem State.setGpr_hit (s : State) (r : Reg) (v : Word) : (s.setGpr r v).hit = s.hit := by unfold State.setGpr; split <;> rfl
@[simp] theorem State.setGpr_latch (s : State) (r : Reg) (v : Word) : (s.setGpr r v).latch = s.latch := by unfold State.setGpr; split <;> rfl
@[simp] theorem State.setGpr_mem (s : State) (r : Reg) (v : Word) : (s.setGpr r v).mem = s.mem := by unfold State.setGpr; split <;> rfl
@[simp] theorem State.setGpr_stored (s : State) (r : Reg) (v : Word) : (s.setGpr r v).stored = s.stored := by unfold State.setGpr; split <;> rfl
@[simp] theorem State.setGpr_aliasSeen (s : State) (r : Reg) (v : Word) : (s.setGpr r v).aliasSeen = s.aliasSeen := by unfold State.setGpr; split <;> rfl
@[simp] theorem State.setGpr_env (s : State) (r : Reg) (v : Word) : (s.setGpr r v).env = s.env := by unfold State.setGpr; split <;> rfl
@[simp] theorem State.setGpr_others (s : State) (r : Reg) (v : Word) : (s.setGpr r v).others = s.others := by unfold State.setGpr; split <;> rfl
@[simp] theorem State.setGpr_draws (s : State) (r : Reg) (v : Word) : (s.setGpr r v).draws = s.draws := by unfold State.setGpr; split <;> rfl
@[simp] theorem State.setGpr_params (s : State) (r : Reg) (v : Word) : (s.setGpr r v).params = s.params := by unfold State.setGpr; split <;> rfl

/-! ### State.noteAlias -/

@[simp] theorem State.noteAlias_regs (s : State) (a : Word) : (s.noteAlias a).regs = s.regs := by unfold State.noteAlias; split <;> rfl
@[simp] theorem State.noteAlias_pc (s : State) (a : Word) : (s.noteAlias a).pc = s.pc := by unfold State.noteAlias; split <;> rfl
@[simp] theorem State.noteAlias_flags (s : State) (a : Word) : (s.noteAlias a).flags = s.flags := by unfold State.noteAlias; split <;> rfl
@[simp] theorem State.noteAlias_ibrHigh (s : State) (a : Word) : (s.noteAlias a).ibrHigh = s.ibrHigh := by unfold State.noteAlias; split <;> rfl
@[simp] theorem State.noteAlias_irp (s : State) (a : Word) : (s.noteAlias a).irp = s.irp := by unfold State.noteAlias; split <;> rfl
@[simp] theorem State.noteAlias_srp (s : State) (a : Word) : (s.noteAlias a).srp = s.srp := by unfold State.noteAlias; split <;> rfl
@[simp] theorem State.noteAlias_bar (s : State) (a : Word) : (s.noteAlias a).bar = s.bar := by unfold State.noteAlias; split <;> rfl
@[simp] theorem State.noteAlias_brp (s : State) (a : Word) : (s.noteAlias a).brp = s.brp := by unfold State.noteAlias; split <;> rfl
@[simp] theorem State.noteAlias_irqWindow (s : State) (a : Word) : (s.noteAlias a).irqWindow = s.irqWindow := by unfold State.noteAlias; split <;> rfl
@[simp] theorem State.noteAlias_slot (s : State) (a : Word) : (s.noteAlias a).slot = s.slot := by unfold State.noteAlias; split <;> rfl
@[simp] theorem State.noteAlias_prefetch (s : State) (a : Word) : (s.noteAlias a).prefetch = s.prefetch := by unfold State.noteAlias; split <;> rfl
@[simp] theorem State.noteAlias_hit (s : State) (a : Word) : (s.noteAlias a).hit = s.hit := by unfold State.noteAlias; split <;> rfl
@[simp] theorem State.noteAlias_latch (s : State) (a : Word) : (s.noteAlias a).latch = s.latch := by unfold State.noteAlias; split <;> rfl
@[simp] theorem State.noteAlias_mem (s : State) (a : Word) : (s.noteAlias a).mem = s.mem := by unfold State.noteAlias; split <;> rfl
@[simp] theorem State.noteAlias_stored (s : State) (a : Word) : (s.noteAlias a).stored = s.stored := by unfold State.noteAlias; split <;> rfl
@[simp] theorem State.noteAlias_env (s : State) (a : Word) : (s.noteAlias a).env = s.env := by unfold State.noteAlias; split <;> rfl
@[simp] theorem State.noteAlias_others (s : State) (a : Word) : (s.noteAlias a).others = s.others := by unfold State.noteAlias; split <;> rfl
@[simp] theorem State.noteAlias_draws (s : State) (a : Word) : (s.noteAlias a).draws = s.draws := by unfold State.noteAlias; split <;> rfl
@[simp] theorem State.noteAlias_params (s : State) (a : Word) : (s.noteAlias a).params = s.params := by unfold State.noteAlias; split <;> rfl

/-! ### State.watch -/

@[simp] theorem State.watch_regs (s : State) (n : Nat) (a : Word) : (s.watch n a).regs = s.regs := rfl
@[simp] theorem State.watch_pc (s : State) (n : Nat) (a : Word) : (s.watch n a).pc = s.pc := rfl
@[simp] theorem State.watch_flags (s : State) (n : Nat) (a : Word) : (s.watch n a).flags = s.flags := rfl
@[simp] theorem State.watch_ibrHigh (s : State) (n : Nat) (a : Word) : (s.watch n a).ibrHigh = s.ibrHigh := rfl
@[simp] theorem State.watch_irp (s : State) (n : Nat) (a : Word) : (s.watch n a).irp = s.irp := rfl
@[simp] theorem State.watch_srp (s : State) (n : Nat) (a : Word) : (s.watch n a).srp = s.srp := rfl
@[simp] theorem State.watch_bar (s : State) (n : Nat) (a : Word) : (s.watch n a).bar = s.bar := rfl
@[simp] theorem State.watch_brp (s : State) (n : Nat) (a : Word) : (s.watch n a).brp = s.brp := rfl
@[simp] theorem State.watch_irqWindow (s : State) (n : Nat) (a : Word) : (s.watch n a).irqWindow = s.irqWindow := rfl
@[simp] theorem State.watch_slot (s : State) (n : Nat) (a : Word) : (s.watch n a).slot = s.slot := rfl
@[simp] theorem State.watch_prefetch (s : State) (n : Nat) (a : Word) : (s.watch n a).prefetch = s.prefetch := rfl
@[simp] theorem State.watch_latch (s : State) (n : Nat) (a : Word) : (s.watch n a).latch = s.latch := rfl
@[simp] theorem State.watch_mem (s : State) (n : Nat) (a : Word) : (s.watch n a).mem = s.mem := rfl
@[simp] theorem State.watch_stored (s : State) (n : Nat) (a : Word) : (s.watch n a).stored = s.stored := rfl
@[simp] theorem State.watch_aliasSeen (s : State) (n : Nat) (a : Word) : (s.watch n a).aliasSeen = s.aliasSeen := rfl
@[simp] theorem State.watch_env (s : State) (n : Nat) (a : Word) : (s.watch n a).env = s.env := rfl
@[simp] theorem State.watch_others (s : State) (n : Nat) (a : Word) : (s.watch n a).others = s.others := rfl
@[simp] theorem State.watch_draws (s : State) (n : Nat) (a : Word) : (s.watch n a).draws = s.draws := rfl
@[simp] theorem State.watch_params (s : State) (n : Nat) (a : Word) : (s.watch n a).params = s.params := rfl

/-! ### State.withBus -/

@[simp] theorem State.withBus_regs (s : State) (b : Bus) : (s.withBus b).regs = s.regs := rfl
@[simp] theorem State.withBus_pc (s : State) (b : Bus) : (s.withBus b).pc = s.pc := rfl
@[simp] theorem State.withBus_flags (s : State) (b : Bus) : (s.withBus b).flags = s.flags := rfl
@[simp] theorem State.withBus_ibrHigh (s : State) (b : Bus) : (s.withBus b).ibrHigh = s.ibrHigh := rfl
@[simp] theorem State.withBus_irp (s : State) (b : Bus) : (s.withBus b).irp = s.irp := rfl
@[simp] theorem State.withBus_srp (s : State) (b : Bus) : (s.withBus b).srp = s.srp := rfl
@[simp] theorem State.withBus_bar (s : State) (b : Bus) : (s.withBus b).bar = s.bar := rfl
@[simp] theorem State.withBus_brp (s : State) (b : Bus) : (s.withBus b).brp = s.brp := rfl
@[simp] theorem State.withBus_irqWindow (s : State) (b : Bus) : (s.withBus b).irqWindow = s.irqWindow := rfl
@[simp] theorem State.withBus_slot (s : State) (b : Bus) : (s.withBus b).slot = s.slot := rfl
@[simp] theorem State.withBus_prefetch (s : State) (b : Bus) : (s.withBus b).prefetch = s.prefetch := rfl
@[simp] theorem State.withBus_hit (s : State) (b : Bus) : (s.withBus b).hit = s.hit := rfl
@[simp] theorem State.withBus_latch (s : State) (b : Bus) : (s.withBus b).latch = s.latch := rfl
@[simp] theorem State.withBus_stored (s : State) (b : Bus) : (s.withBus b).stored = s.stored := rfl
@[simp] theorem State.withBus_aliasSeen (s : State) (b : Bus) : (s.withBus b).aliasSeen = s.aliasSeen := rfl
@[simp] theorem State.withBus_env (s : State) (b : Bus) : (s.withBus b).env = s.env := rfl
@[simp] theorem State.withBus_draws (s : State) (b : Bus) : (s.withBus b).draws = s.draws := rfl
@[simp] theorem State.withBus_params (s : State) (b : Bus) : (s.withBus b).params = s.params := rfl
@[simp] theorem State.withBus_mem (s : State) (b : Bus) : (s.withBus b).mem = b.mem := rfl
@[simp] theorem State.withBus_others (s : State) (b : Bus) : (s.withBus b).others = b.others := rfl
@[simp] theorem State.withBus_bus (s : State) : s.withBus s.bus = s := rfl
@[simp] theorem State.bus_mem (s : State) : s.bus.mem = s.mem := rfl
@[simp] theorem State.bus_others (s : State) : s.bus.others = s.others := rfl
@[simp] theorem State.bus_shared (s : State) : s.bus.shared = s.params.externalWriters := rfl

/-! ### State.yieldBus -/

@[simp] theorem State.yieldBus_regs (s : State) : s.yieldBus.regs = s.regs := rfl
@[simp] theorem State.yieldBus_pc (s : State) : s.yieldBus.pc = s.pc := rfl
@[simp] theorem State.yieldBus_flags (s : State) : s.yieldBus.flags = s.flags := rfl
@[simp] theorem State.yieldBus_ibrHigh (s : State) : s.yieldBus.ibrHigh = s.ibrHigh := rfl
@[simp] theorem State.yieldBus_irp (s : State) : s.yieldBus.irp = s.irp := rfl
@[simp] theorem State.yieldBus_srp (s : State) : s.yieldBus.srp = s.srp := rfl
@[simp] theorem State.yieldBus_bar (s : State) : s.yieldBus.bar = s.bar := rfl
@[simp] theorem State.yieldBus_brp (s : State) : s.yieldBus.brp = s.brp := rfl
@[simp] theorem State.yieldBus_irqWindow (s : State) : s.yieldBus.irqWindow = s.irqWindow := rfl
@[simp] theorem State.yieldBus_slot (s : State) : s.yieldBus.slot = s.slot := rfl
@[simp] theorem State.yieldBus_prefetch (s : State) : s.yieldBus.prefetch = s.prefetch := rfl
@[simp] theorem State.yieldBus_hit (s : State) : s.yieldBus.hit = s.hit := rfl
@[simp] theorem State.yieldBus_latch (s : State) : s.yieldBus.latch = s.latch := rfl
@[simp] theorem State.yieldBus_stored (s : State) : s.yieldBus.stored = s.stored := rfl
@[simp] theorem State.yieldBus_aliasSeen (s : State) : s.yieldBus.aliasSeen = s.aliasSeen := rfl
@[simp] theorem State.yieldBus_env (s : State) : s.yieldBus.env = s.env := rfl
@[simp] theorem State.yieldBus_draws (s : State) : s.yieldBus.draws = s.draws := rfl
@[simp] theorem State.yieldBus_params (s : State) : s.yieldBus.params = s.params := rfl

/-! ### State.putBytes -/

@[simp] theorem State.putBytes_regs (s : State) (n : Nat) (a v : Word) : (s.putBytes n a v).regs = s.regs := rfl
@[simp] theorem State.putBytes_pc (s : State) (n : Nat) (a v : Word) : (s.putBytes n a v).pc = s.pc := rfl
@[simp] theorem State.putBytes_flags (s : State) (n : Nat) (a v : Word) : (s.putBytes n a v).flags = s.flags := rfl
@[simp] theorem State.putBytes_ibrHigh (s : State) (n : Nat) (a v : Word) : (s.putBytes n a v).ibrHigh = s.ibrHigh := rfl
@[simp] theorem State.putBytes_irp (s : State) (n : Nat) (a v : Word) : (s.putBytes n a v).irp = s.irp := rfl
@[simp] theorem State.putBytes_srp (s : State) (n : Nat) (a v : Word) : (s.putBytes n a v).srp = s.srp := rfl
@[simp] theorem State.putBytes_bar (s : State) (n : Nat) (a v : Word) : (s.putBytes n a v).bar = s.bar := rfl
@[simp] theorem State.putBytes_brp (s : State) (n : Nat) (a v : Word) : (s.putBytes n a v).brp = s.brp := rfl
@[simp] theorem State.putBytes_irqWindow (s : State) (n : Nat) (a v : Word) : (s.putBytes n a v).irqWindow = s.irqWindow := rfl
@[simp] theorem State.putBytes_slot (s : State) (n : Nat) (a v : Word) : (s.putBytes n a v).slot = s.slot := rfl
@[simp] theorem State.putBytes_prefetch (s : State) (n : Nat) (a v : Word) : (s.putBytes n a v).prefetch = s.prefetch := rfl
@[simp] theorem State.putBytes_hit (s : State) (n : Nat) (a v : Word) : (s.putBytes n a v).hit = s.hit := rfl
@[simp] theorem State.putBytes_latch (s : State) (n : Nat) (a v : Word) : (s.putBytes n a v).latch = s.latch := rfl
@[simp] theorem State.putBytes_aliasSeen (s : State) (n : Nat) (a v : Word) : (s.putBytes n a v).aliasSeen = s.aliasSeen := rfl
@[simp] theorem State.putBytes_env (s : State) (n : Nat) (a v : Word) : (s.putBytes n a v).env = s.env := rfl
@[simp] theorem State.putBytes_draws (s : State) (n : Nat) (a v : Word) : (s.putBytes n a v).draws = s.draws := rfl
@[simp] theorem State.putBytes_params (s : State) (n : Nat) (a v : Word) : (s.putBytes n a v).params = s.params := rfl

/-! ### State.retire -/

@[simp] theorem State.retire_regs (s : State) (next : Word) (w : Bool) : (s.retire next w).regs = s.regs := rfl
@[simp] theorem State.retire_ibrHigh (s : State) (next : Word) (w : Bool) : (s.retire next w).ibrHigh = s.ibrHigh := rfl
@[simp] theorem State.retire_irp (s : State) (next : Word) (w : Bool) : (s.retire next w).irp = s.irp := rfl
@[simp] theorem State.retire_srp (s : State) (next : Word) (w : Bool) : (s.retire next w).srp = s.srp := rfl
@[simp] theorem State.retire_bar (s : State) (next : Word) (w : Bool) : (s.retire next w).bar = s.bar := rfl
@[simp] theorem State.retire_brp (s : State) (next : Word) (w : Bool) : (s.retire next w).brp = s.brp := rfl
@[simp] theorem State.retire_prefetch (s : State) (next : Word) (w : Bool) : (s.retire next w).prefetch = s.prefetch := rfl
@[simp] theorem State.retire_hit (s : State) (next : Word) (w : Bool) : (s.retire next w).hit = s.hit := rfl
@[simp] theorem State.retire_mem (s : State) (next : Word) (w : Bool) : (s.retire next w).mem = s.mem := rfl
@[simp] theorem State.retire_stored (s : State) (next : Word) (w : Bool) : (s.retire next w).stored = s.stored := rfl
@[simp] theorem State.retire_aliasSeen (s : State) (next : Word) (w : Bool) : (s.retire next w).aliasSeen = s.aliasSeen := rfl
@[simp] theorem State.retire_env (s : State) (next : Word) (w : Bool) : (s.retire next w).env = s.env := rfl
@[simp] theorem State.retire_others (s : State) (next : Word) (w : Bool) : (s.retire next w).others = s.others := rfl
@[simp] theorem State.retire_draws (s : State) (next : Word) (w : Bool) : (s.retire next w).draws = s.draws := rfl
@[simp] theorem State.retire_params (s : State) (next : Word) (w : Bool) : (s.retire next w).params = s.params := rfl

/-! ### State.setPointer -/

@[simp] theorem State.setPointer_regs (s : State) (p : Pointer) (v : Word) : (s.setPointer p v).regs = s.regs := by cases p <;> rfl
@[simp] theorem State.setPointer_pc (s : State) (p : Pointer) (v : Word) : (s.setPointer p v).pc = s.pc := by cases p <;> rfl
@[simp] theorem State.setPointer_flags (s : State) (p : Pointer) (v : Word) : (s.setPointer p v).flags = s.flags := by cases p <;> rfl
@[simp] theorem State.setPointer_ibrHigh (s : State) (p : Pointer) (v : Word) : (s.setPointer p v).ibrHigh = s.ibrHigh := by cases p <;> rfl
@[simp] theorem State.setPointer_bar (s : State) (p : Pointer) (v : Word) : (s.setPointer p v).bar = s.bar := by cases p <;> rfl
@[simp] theorem State.setPointer_irqWindow (s : State) (p : Pointer) (v : Word) : (s.setPointer p v).irqWindow = s.irqWindow := by cases p <;> rfl
@[simp] theorem State.setPointer_slot (s : State) (p : Pointer) (v : Word) : (s.setPointer p v).slot = s.slot := by cases p <;> rfl
@[simp] theorem State.setPointer_prefetch (s : State) (p : Pointer) (v : Word) : (s.setPointer p v).prefetch = s.prefetch := by cases p <;> rfl
@[simp] theorem State.setPointer_hit (s : State) (p : Pointer) (v : Word) : (s.setPointer p v).hit = s.hit := by cases p <;> rfl
@[simp] theorem State.setPointer_latch (s : State) (p : Pointer) (v : Word) : (s.setPointer p v).latch = s.latch := by cases p <;> rfl
@[simp] theorem State.setPointer_mem (s : State) (p : Pointer) (v : Word) : (s.setPointer p v).mem = s.mem := by cases p <;> rfl
@[simp] theorem State.setPointer_stored (s : State) (p : Pointer) (v : Word) : (s.setPointer p v).stored = s.stored := by cases p <;> rfl
@[simp] theorem State.setPointer_aliasSeen (s : State) (p : Pointer) (v : Word) : (s.setPointer p v).aliasSeen = s.aliasSeen := by cases p <;> rfl
@[simp] theorem State.setPointer_env (s : State) (p : Pointer) (v : Word) : (s.setPointer p v).env = s.env := by cases p <;> rfl
@[simp] theorem State.setPointer_others (s : State) (p : Pointer) (v : Word) : (s.setPointer p v).others = s.others := by cases p <;> rfl
@[simp] theorem State.setPointer_draws (s : State) (p : Pointer) (v : Word) : (s.setPointer p v).draws = s.draws := by cases p <;> rfl
@[simp] theorem State.setPointer_params (s : State) (p : Pointer) (v : Word) : (s.setPointer p v).params = s.params := by cases p <;> rfl

/-! ### State.writeSpecial -/

@[simp] theorem State.writeSpecial_regs (s : State) (p : Special) (v : Word) : (s.writeSpecial p v).regs = s.regs := by cases p <;> rfl
@[simp] theorem State.writeSpecial_pc (s : State) (p : Special) (v : Word) : (s.writeSpecial p v).pc = s.pc := by cases p <;> rfl
@[simp] theorem State.writeSpecial_irqWindow (s : State) (p : Special) (v : Word) : (s.writeSpecial p v).irqWindow = s.irqWindow := by cases p <;> rfl
@[simp] theorem State.writeSpecial_slot (s : State) (p : Special) (v : Word) : (s.writeSpecial p v).slot = s.slot := by cases p <;> rfl
@[simp] theorem State.writeSpecial_prefetch (s : State) (p : Special) (v : Word) : (s.writeSpecial p v).prefetch = s.prefetch := by cases p <;> rfl
@[simp] theorem State.writeSpecial_hit (s : State) (p : Special) (v : Word) : (s.writeSpecial p v).hit = s.hit := by cases p <;> rfl
@[simp] theorem State.writeSpecial_latch (s : State) (p : Special) (v : Word) : (s.writeSpecial p v).latch = s.latch := by cases p <;> rfl
@[simp] theorem State.writeSpecial_mem (s : State) (p : Special) (v : Word) : (s.writeSpecial p v).mem = s.mem := by cases p <;> rfl
@[simp] theorem State.writeSpecial_stored (s : State) (p : Special) (v : Word) : (s.writeSpecial p v).stored = s.stored := by cases p <;> rfl
@[simp] theorem State.writeSpecial_aliasSeen (s : State) (p : Special) (v : Word) : (s.writeSpecial p v).aliasSeen = s.aliasSeen := by cases p <;> rfl
@[simp] theorem State.writeSpecial_env (s : State) (p : Special) (v : Word) : (s.writeSpecial p v).env = s.env := by cases p <;> rfl
@[simp] theorem State.writeSpecial_others (s : State) (p : Special) (v : Word) : (s.writeSpecial p v).others = s.others := by cases p <;> rfl
@[simp] theorem State.writeSpecial_draws (s : State) (p : Special) (v : Word) : (s.writeSpecial p v).draws = s.draws := by cases p <;> rfl
@[simp] theorem State.writeSpecial_params (s : State) (p : Special) (v : Word) : (s.writeSpecial p v).params = s.params := by cases p <;> rfl

/-! ### State.keepUpper -/

@[simp] theorem State.keepUpper_regs (s : State) (a : Word) : (s.keepUpper a).regs = s.regs := rfl
@[simp] theorem State.keepUpper_pc (s : State) (a : Word) : (s.keepUpper a).pc = s.pc := rfl
@[simp] theorem State.keepUpper_flags (s : State) (a : Word) : (s.keepUpper a).flags = s.flags := rfl
@[simp] theorem State.keepUpper_ibrHigh (s : State) (a : Word) : (s.keepUpper a).ibrHigh = s.ibrHigh := rfl
@[simp] theorem State.keepUpper_irp (s : State) (a : Word) : (s.keepUpper a).irp = s.irp := rfl
@[simp] theorem State.keepUpper_srp (s : State) (a : Word) : (s.keepUpper a).srp = s.srp := rfl
@[simp] theorem State.keepUpper_bar (s : State) (a : Word) : (s.keepUpper a).bar = s.bar := rfl
@[simp] theorem State.keepUpper_brp (s : State) (a : Word) : (s.keepUpper a).brp = s.brp := rfl
@[simp] theorem State.keepUpper_irqWindow (s : State) (a : Word) : (s.keepUpper a).irqWindow = s.irqWindow := rfl
@[simp] theorem State.keepUpper_slot (s : State) (a : Word) : (s.keepUpper a).slot = s.slot := rfl
@[simp] theorem State.keepUpper_hit (s : State) (a : Word) : (s.keepUpper a).hit = s.hit := rfl
@[simp] theorem State.keepUpper_latch (s : State) (a : Word) : (s.keepUpper a).latch = s.latch := rfl
@[simp] theorem State.keepUpper_mem (s : State) (a : Word) : (s.keepUpper a).mem = s.mem := rfl
@[simp] theorem State.keepUpper_stored (s : State) (a : Word) : (s.keepUpper a).stored = s.stored := rfl
@[simp] theorem State.keepUpper_aliasSeen (s : State) (a : Word) : (s.keepUpper a).aliasSeen = s.aliasSeen := rfl
@[simp] theorem State.keepUpper_env (s : State) (a : Word) : (s.keepUpper a).env = s.env := rfl
@[simp] theorem State.keepUpper_others (s : State) (a : Word) : (s.keepUpper a).others = s.others := rfl
@[simp] theorem State.keepUpper_draws (s : State) (a : Word) : (s.keepUpper a).draws = s.draws := rfl
@[simp] theorem State.keepUpper_params (s : State) (a : Word) : (s.keepUpper a).params = s.params := rfl

/-! ### State.watchFetch -/

@[simp] theorem State.watchFetch_regs (s : State) (a : Word) : (s.watchFetch a).regs = s.regs := by unfold State.watchFetch; split <;> rfl
@[simp] theorem State.watchFetch_pc (s : State) (a : Word) : (s.watchFetch a).pc = s.pc := by unfold State.watchFetch; split <;> rfl
@[simp] theorem State.watchFetch_flags (s : State) (a : Word) : (s.watchFetch a).flags = s.flags := by unfold State.watchFetch; split <;> rfl
@[simp] theorem State.watchFetch_ibrHigh (s : State) (a : Word) : (s.watchFetch a).ibrHigh = s.ibrHigh := by unfold State.watchFetch; split <;> rfl
@[simp] theorem State.watchFetch_irp (s : State) (a : Word) : (s.watchFetch a).irp = s.irp := by unfold State.watchFetch; split <;> rfl
@[simp] theorem State.watchFetch_srp (s : State) (a : Word) : (s.watchFetch a).srp = s.srp := by unfold State.watchFetch; split <;> rfl
@[simp] theorem State.watchFetch_bar (s : State) (a : Word) : (s.watchFetch a).bar = s.bar := by unfold State.watchFetch; split <;> rfl
@[simp] theorem State.watchFetch_brp (s : State) (a : Word) : (s.watchFetch a).brp = s.brp := by unfold State.watchFetch; split <;> rfl
@[simp] theorem State.watchFetch_irqWindow (s : State) (a : Word) : (s.watchFetch a).irqWindow = s.irqWindow := by unfold State.watchFetch; split <;> rfl
@[simp] theorem State.watchFetch_slot (s : State) (a : Word) : (s.watchFetch a).slot = s.slot := by unfold State.watchFetch; split <;> rfl
@[simp] theorem State.watchFetch_prefetch (s : State) (a : Word) : (s.watchFetch a).prefetch = s.prefetch := by unfold State.watchFetch; split <;> rfl
@[simp] theorem State.watchFetch_latch (s : State) (a : Word) : (s.watchFetch a).latch = s.latch := by unfold State.watchFetch; split <;> rfl
@[simp] theorem State.watchFetch_mem (s : State) (a : Word) : (s.watchFetch a).mem = s.mem := by unfold State.watchFetch; split <;> rfl
@[simp] theorem State.watchFetch_stored (s : State) (a : Word) : (s.watchFetch a).stored = s.stored := by unfold State.watchFetch; split <;> rfl
@[simp] theorem State.watchFetch_aliasSeen (s : State) (a : Word) : (s.watchFetch a).aliasSeen = s.aliasSeen := by unfold State.watchFetch; split <;> rfl
@[simp] theorem State.watchFetch_env (s : State) (a : Word) : (s.watchFetch a).env = s.env := by unfold State.watchFetch; split <;> rfl
@[simp] theorem State.watchFetch_others (s : State) (a : Word) : (s.watchFetch a).others = s.others := by unfold State.watchFetch; split <;> rfl
@[simp] theorem State.watchFetch_draws (s : State) (a : Word) : (s.watchFetch a).draws = s.draws := by unfold State.watchFetch; split <;> rfl
@[simp] theorem State.watchFetch_params (s : State) (a : Word) : (s.watchFetch a).params = s.params := by unfold State.watchFetch; split <;> rfl

/-! ### State.systemReset -/

@[simp] theorem State.systemReset_mem (u : Unknowns) (s : State) : (s.systemReset u).mem = s.mem := rfl
@[simp] theorem State.systemReset_stored (u : Unknowns) (s : State) : (s.systemReset u).stored = s.stored := rfl
@[simp] theorem State.systemReset_aliasSeen (u : Unknowns) (s : State) : (s.systemReset u).aliasSeen = s.aliasSeen := rfl
@[simp] theorem State.systemReset_env (u : Unknowns) (s : State) : (s.systemReset u).env = s.env := rfl
@[simp] theorem State.systemReset_others (u : Unknowns) (s : State) : (s.systemReset u).others = s.others := rfl
@[simp] theorem State.systemReset_draws (u : Unknowns) (s : State) : (s.systemReset u).draws = s.draws := rfl
@[simp] theorem State.systemReset_params (u : Unknowns) (s : State) : (s.systemReset u).params = s.params := rfl

/-! ### State.afterInput -/

@[simp] theorem State.afterInput_regs (s : State) : (s.afterInput).regs = s.regs := rfl
@[simp] theorem State.afterInput_pc (s : State) : (s.afterInput).pc = s.pc := rfl
@[simp] theorem State.afterInput_flags (s : State) : (s.afterInput).flags = s.flags := rfl
@[simp] theorem State.afterInput_ibrHigh (s : State) : (s.afterInput).ibrHigh = s.ibrHigh := rfl
@[simp] theorem State.afterInput_irp (s : State) : (s.afterInput).irp = s.irp := rfl
@[simp] theorem State.afterInput_srp (s : State) : (s.afterInput).srp = s.srp := rfl
@[simp] theorem State.afterInput_bar (s : State) : (s.afterInput).bar = s.bar := rfl
@[simp] theorem State.afterInput_brp (s : State) : (s.afterInput).brp = s.brp := rfl
@[simp] theorem State.afterInput_irqWindow (s : State) : (s.afterInput).irqWindow = s.irqWindow := rfl
@[simp] theorem State.afterInput_slot (s : State) : (s.afterInput).slot = s.slot := rfl
@[simp] theorem State.afterInput_prefetch (s : State) : (s.afterInput).prefetch = s.prefetch := rfl
@[simp] theorem State.afterInput_hit (s : State) : (s.afterInput).hit = s.hit := rfl
@[simp] theorem State.afterInput_latch (s : State) : (s.afterInput).latch = s.latch := rfl
@[simp] theorem State.afterInput_mem (s : State) : (s.afterInput).mem = s.mem := rfl
@[simp] theorem State.afterInput_stored (s : State) : (s.afterInput).stored = s.stored := rfl
@[simp] theorem State.afterInput_aliasSeen (s : State) : (s.afterInput).aliasSeen = s.aliasSeen := rfl
@[simp] theorem State.afterInput_draws (s : State) : (s.afterInput).draws = s.draws := rfl
@[simp] theorem State.afterInput_others (s : State) : (s.afterInput).others = s.others := rfl
@[simp] theorem State.afterInput_params (s : State) : (s.afterInput).params = s.params := rfl

/-! ### What each update writes -/

@[simp] theorem State.watch_hit (s : State) (n : Nat) (a : Word) :
    (s.watch n a).hit = (s.hit || (s.flags.b && matchesBar s.bar n a)) := rfl
@[simp] theorem State.putBytes_mem (s : State) (n : Nat) (a v : Word) :
    (s.putBytes n a v).mem = (s.bus.advance.write n a v).mem := rfl
@[simp] theorem State.putBytes_others (s : State) (n : Nat) (a v : Word) :
    (s.putBytes n a v).others = (s.bus.advance.write n a v).others := rfl
@[simp] theorem State.putBytes_stored (s : State) (n : Nat) (a v : Word) :
    (s.putBytes n a v).stored = noteStored n a s.stored := rfl
@[simp] theorem State.retire_slot (s : State) (next : Word) (w : Bool) : (s.retire next w).slot = .none := rfl
@[simp] theorem State.retire_latch (s : State) (next : Word) (w : Bool) : (s.retire next w).latch = none := rfl
@[simp] theorem State.retire_irqWindow (s : State) (next : Word) (w : Bool) : (s.retire next w).irqWindow = w := rfl
@[simp] theorem State.retire_flags (s : State) (next : Word) (w : Bool) :
    (s.retire next w).flags = { s.flags with x := false } := rfl
theorem State.retire_pc (s : State) (next : Word) (w : Bool) :
    (s.retire next w).pc = match s.slot with | .pending t => t | _ => next := rfl
theorem State.retire_pc_of_no_slot (s : State) (next : Word) (w : Bool) (h : s.slot = .none) :
    (s.retire next w).pc = next := by simp [State.retire, h]

/-! ### General registers -/

/-- Register 15 reads as the value given for this use. -/
@[simp] theorem State.gpr_pc (s : State) (v : Word) : s.gpr pcReg v = v := rfl

/-- A register other than PC does not depend on what PC reads as. -/
theorem State.gpr_of_ne_pc (s : State) {r : Reg} (h : r ≠ pcReg) (v w : Word) : s.gpr r v = s.gpr r w := by
  have : r.toNat < 15 := by
    have h2 : r.toNat ≠ 15 := fun e => h (BitVec.eq_of_toNat_eq (by simpa [pcReg] using e))
    have := r.isLt; omega
  simp [State.gpr, this]

theorem Reg.lt_of_ne_pc {r : Reg} (h : r ≠ pcReg) : r.toNat < 15 := by
  have h2 : r.toNat ≠ 15 := fun e => h (BitVec.eq_of_toNat_eq (by simpa [pcReg] using e))
  have := r.isLt; omega

/-- Reading a register after writing it. -/
theorem State.gpr_setGpr_self (s : State) {r : Reg} (h : r ≠ pcReg) (v p : Word) : (s.setGpr r v).gpr r p = v := by
  simp [State.gpr, State.setGpr, Reg.lt_of_ne_pc h]

/-- Writing a register leaves the others. -/
theorem State.gpr_setGpr_ne (s : State) {r q : Reg} (h : q ≠ r) (v p : Word) : (s.setGpr r v).gpr q p = s.gpr q p := by
  have : r.toNat ≠ q.toNat := fun e => h (BitVec.eq_of_toNat_eq e.symm)
  unfold State.gpr State.setGpr
  split
  · split
    · simp [this]
    · rfl
  · rfl

/-- A register read depends on the register file only. -/
theorem State.gpr_congr {s t : State} (h : t.regs = s.regs) (r : Reg) (p : Word) : t.gpr r p = s.gpr r p := by
  unfold State.gpr; rw [h]

/-- Writing PC as a general register does nothing. -/
@[simp] theorem State.setGpr_pcReg (s : State) (v : Word) : s.setGpr pcReg v = s := rfl

/-- A byte read depends on memory only. -/
theorem State.peek_congr {s t : State} (h : t.mem = s.mem) (a : Word) : t.peek a = s.peek a := by
  unfold State.peek; rw [h]

/-- A register write is an update of the register file. -/
theorem State.setGpr_eq (s : State) (r : Reg) (v : Word) : s.setGpr r v = { s with regs := (s.setGpr r v).regs } := by
  unfold State.setGpr; split <;> rfl

/-- Noting an alias is an update of `aliasSeen`. -/
theorem State.noteAlias_eq (s : State) (a : Word) : s.noteAlias a = { s with aliasSeen := (s.noteAlias a).aliasSeen } := by
  unfold State.noteAlias; split <;> rfl

end Sys2Proof.Machine
end

