-- ==== Sys2Proof/Laws/Bus.lean ====
section
/-! SUPPORT. The laws of the bus: what an access does when no other bus master writes, when it does not split and when it does, and that every bus operation keeps the canonical form of memory. -/

namespace Sys2Proof.Machine

/-! ## The canonical form -/

/-- Storing the bytes of another bus master keeps the canonical form. -/
theorem Memory.putCells_wf {m : Memory} (hw : m.wf = true) (cells : List (Word × Byte)) :
    (m.putCells cells).wf = true := by
  induction cells generalizing m with
  | nil => exact hw
  | cons c rest ih => exact ih (m := m.setByte (location c.1) c.2) (Memory.setByte_wf hw _ _)

theorem Bus.advance_wf {b : Bus} (hw : b.mem.wf = true) : b.advance.mem.wf = true := by
  unfold Bus.advance
  split
  · split
    · exact hw
    · exact Memory.putCells_wf hw _
  · exact hw

theorem Bus.goTo_wf {b : Bus} (hw : b.mem.wf = true) (n : Nat) (a : Word) : (b.goTo n a).mem.wf = true := by
  unfold Bus.goTo; split
  · exact Bus.advance_wf hw
  · exact hw

theorem Bus.read_wf {b : Bus} (hw : b.mem.wf = true) (n : Nat) (a : Word) : (b.read n a).2.mem.wf = true := by
  induction n generalizing b a with
  | zero => exact hw
  | succ n ih => exact ih (Bus.goTo_wf hw _ _) _

theorem Bus.write_wf {b : Bus} (hw : b.mem.wf = true) (n : Nat) (a v : Word) : (b.write n a v).mem.wf = true := by
  induction n generalizing b a v with
  | zero => exact hw
  | succ n ih => exact ih (Bus.goTo_wf (Memory.setByte_wf hw a _) _ _) _ _

/-! ## No other bus master -/

theorem Bus.advance_alone {b : Bus} (h : b.shared = false) : b.advance = b := by
  unfold Bus.advance; rw [h]; rfl

theorem Bus.goTo_alone {b : Bus} (h : b.shared = false) (n : Nat) (a : Word) : b.goTo n a = b := by
  unfold Bus.goTo; split
  · exact Bus.advance_alone h
  · rfl

/-- Alone on the bus, a read yields the bytes in memory and changes nothing. -/
theorem Bus.read_alone {b : Bus} (h : b.shared = false) (n : Nat) (a : Word) : b.read n a = (b.mem.load n a, b) := by
  induction n generalizing a with
  | zero => rfl
  | succ n ih => rw [Bus.read, Bus.goTo_alone h, ih]; rfl

/-- Alone on the bus, a write stores its bytes. -/
theorem Bus.write_alone {b : Bus} (h : b.shared = false) (n : Nat) (a v : Word) :
    b.write n a v = { b with mem := b.mem.store n a v } := by
  induction n generalizing b a v with
  | zero => rfl
  | succ n ih => rw [Bus.write, Bus.goTo_alone (by exact h), ih (by exact h)]; rfl

theorem State.yieldBus_alone {s : State} (h : s.params.externalWriters = false) : s.yieldBus = s := by
  unfold State.yieldBus; rw [Bus.advance_alone (by exact h)]; rfl

/-! ## Accesses that do not split (rule R64) -/

/-- Of the bytes behind the first, none begins a dword: the access does not split there. -/
theorem splitsAt_eq_true {n : Nat} {a : Word} : splitsAt n a = true ↔ 0 < n ∧ a.toNat % 4 = 0 := by
  unfold splitsAt
  rw [Bool.and_eq_true, decide_eq_true_eq, decide_eq_true_eq]
  refine and_congr_right fun _ => ?_
  rw [BitVec.toNat_eq]
  simp [BitVec.extractLsb'_toNat]

theorem Bus.goTo_within {b : Bus} {n : Nat} {a : Word} (h : n = 0 ∨ a.toNat % 4 ≠ 0) : b.goTo n a = b := by
  unfold Bus.goTo
  rw [if_neg]
  rw [splitsAt_eq_true]
  omega

theorem Bus.goTo_boundary {b : Bus} {n : Nat} {a : Word} (hn : 0 < n) (h : a.toNat % 4 = 0) :
    b.goTo n a = b.advance := by
  unfold Bus.goTo
  rw [if_pos (splitsAt_eq_true.mpr ⟨hn, h⟩)]

theorem succ_mod_four {a : Word} {n : Nat} (h : a.toNat % 4 + (n + 1) ≤ 4) :
    n = 0 ∨ (a + 1).toNat % 4 ≠ 0 ∧ (a + 1).toNat % 4 + n ≤ 4 := by
  have : (a + 1).toNat = (a.toNat + 1) % 2 ^ 32 := by rw [BitVec.toNat_add]; rfl
  omega

/-- A read within one aligned dword sees one state of memory. -/
theorem Bus.read_within {b : Bus} {n : Nat} {a : Word} (h : a.toNat % 4 + n ≤ 4) : b.read n a = (b.mem.load n a, b) := by
  induction n generalizing a with
  | zero => rfl
  | succ n ih =>
    have h1 := succ_mod_four h
    rw [Bus.read, Bus.goTo_within (by omega)]
    obtain rfl | h2 := h1
    · rfl
    · rw [ih h2.2]; rfl

/-- A write within one aligned dword stores its bytes at once. -/
theorem Bus.write_within {b : Bus} {n : Nat} {a : Word} (v : Word) (h : a.toNat % 4 + n ≤ 4) :
    b.write n a v = { b with mem := b.mem.store n a v } := by
  induction n generalizing b a v with
  | zero => rfl
  | succ n ih =>
    have h1 := succ_mod_four h
    rw [Bus.write, Bus.goTo_within (by omega)]
    obtain rfl | h2 := h1
    · rfl
    · rw [ih _ h2.2]; rfl

/-! ## Accesses that split (rule R64) -/

theorem add_ofNat_succ (a : Word) (j : Nat) : a + 1 + BitVec.ofNat 32 j = a + BitVec.ofNat 32 (j + 1) := by
  rw [BitVec.add_assoc]; congr 1; rw [BitVec.ofNat_add]; exact BitVec.add_comm _ _

theorem succ_toNat_mod_four (a : Word) : (a + 1).toNat % 4 = (a.toNat + 1) % 4 := by
  have : (a + 1).toNat = (a.toNat + 1) % 2 ^ 32 := by rw [BitVec.toNat_add]; rfl
  omega

/-- A read across a dword boundary is two bus accesses, the other bus masters writing between them. -/
theorem Bus.read_split {b : Bus} {j m : Nat} {a : Word} (hj : 0 < j) (hm : 0 < m) (h : a.toNat % 4 + j = 4) :
    b.read (j + m) a =
      (b.mem.load j a ||| ((b.advance.read m (a + BitVec.ofNat 32 j)).1 <<< (8 * j)),
        (b.advance.read m (a + BitVec.ofNat 32 j)).2) := by
  induction j generalizing a with
  | zero => cases hj
  | succ j ih =>
    have hs := succ_toNat_mod_four a
    rw [show j + 1 + m = (j + m) + 1 by omega, Bus.read]
    by_cases h0 : j = 0
    · subst h0
      rw [Bus.goTo_boundary (by omega) (by omega)]
      simp only [Memory.load, Nat.zero_add]
      refine Prod.ext ?_ rfl
      apply BitVec.eq_of_getLsbD_eq
      intro i hi
      simp [Bool.or_comm]
    · rw [Bus.goTo_within (by omega), ih (by omega) (by omega), add_ofNat_succ]
      refine Prod.ext ?_ rfl
      simp only [Memory.load]
      rw [BitVec.shiftLeft_or_distrib, ← BitVec.shiftLeft_add, show 8 * j + 8 = 8 * (j + 1) by omega,
        BitVec.or_assoc, BitVec.or_assoc]
      congr 1
      exact BitVec.or_comm _ _

/-- A write across a dword boundary is two bus accesses. -/
theorem Bus.write_split {b : Bus} {j m : Nat} {a v : Word} (hj : 0 < j) (hm : 0 < m) (h : a.toNat % 4 + j = 4) :
    b.write (j + m) a v =
      (Bus.advance { b with mem := b.mem.store j a v }).write m (a + BitVec.ofNat 32 j) (v >>> (8 * j)) := by
  induction j generalizing b a v with
  | zero => cases hj
  | succ j ih =>
    have hs := succ_toNat_mod_four a
    rw [show j + 1 + m = (j + m) + 1 by omega, Bus.write]
    by_cases h0 : j = 0
    · subst h0
      rw [Bus.goTo_boundary (by omega) (by omega)]
      simp only [Memory.store, Nat.zero_add]; rfl
    · rw [Bus.goTo_within (by omega), ih (by omega) (by omega), add_ofNat_succ]
      simp only [Memory.store]
      rw [← BitVec.shiftRight_add, show 8 + 8 * j = 8 * (j + 1) by omega]

/-! ## What the other bus masters write -/

/-- A byte after the stores of another bus master is the last one stored to its location. -/
theorem Memory.byteAt_putCells {m : Memory} (hw : m.wf = true) (cells : List (Word × Byte)) (x : Word) :
    (m.putCells cells).byteAt (location x) = afterCells cells x (m.byteAt (location x)) := by
  induction cells generalizing m with
  | nil => rfl
  | cons c rest ih =>
    refine (ih (m := m.setByte (location c.1) c.2) (Memory.setByte_wf hw _ _)).trans ?_
    refine congrArg (afterCells rest x) ?_
    split
    · rename_i e; rw [← e]; exact Memory.byteAt_setByte_self hw _ _
    · rename_i e; exact Memory.byteAt_setByte_ne _ _ (Ne.symm e)

theorem State.yieldBus_bus (s : State) : s.yieldBus.bus = s.bus.advance := by
  unfold State.yieldBus State.bus State.withBus Bus.advance
  simp only
  split
  · rename_i h; split <;> simp_all
  · rename_i h; simp_all

end Sys2Proof.Machine
end

