-- ==== Sys2Proof/Laws/Control.lean ====
section
/-! SUPPORT. The laws of the outcomes: when a chain of operations answers a next state. -/

namespace Sys2Proof.Machine

@[simp] theorem andThen_next {α β : Type} (a : α) (k : α → Result β) : andThen (.next a) k = k a := rfl
@[simp] theorem andThen_fault {α β : Type} (f : Fault) (k : α → Result β) : andThen (.fault f) k = .fault f := rfl
@[simp] theorem andThen_refused {α β : Type} (r : Refusal) (k : α → Result β) :
    andThen (.refused r) k = .refused r := rfl

/-- A chain answers a value when both links do. -/
theorem andThen_eq_next {α β : Type} {x : Result α} {k : α → Result β} {b : β} :
    andThen x k = .next b ↔ ∃ a, x = .next a ∧ k a = .next b := by
  cases x <;> simp [andThen]

/-- Chains nest to the right. -/
theorem andThen_assoc {α β γ : Type} (x : Result α) (k : α → Result β) (l : β → Result γ) :
    andThen (andThen x k) l = andThen x fun a => andThen (k a) l := by
  cases x <;> rfl

@[simp] theorem refuseIf_true {α : Type} (r : Refusal) (k : Result α) : refuseIf true r k = .refused r := rfl
@[simp] theorem refuseIf_false {α : Type} (r : Refusal) (k : Result α) : refuseIf false r k = k := rfl

/-- A guard answers a value when it does not refuse and the rest does. -/
theorem refuseIf_eq_next {α : Type} {b : Bool} {r : Refusal} {k : Result α} {a : α} :
    refuseIf b r k = .next a ↔ b = false ∧ k = .next a := by
  cases b <;> simp [refuseIf]

theorem refuseOdd_eq_next {α : Type} {t : Word} {k : Result α} {a : α} :
    refuseOdd t k = .next a ↔ t.getLsbD 0 = false ∧ k = .next a := refuseIf_eq_next

theorem slotGuard_eq_next {α : Type} {p : Bool} {s : State} {k : Result α} {a : α} :
    slotGuard p s k = .next a ↔ (p = true → s.slot = .none) ∧ k = .next a := by
  unfold slotGuard State.inSlot
  rw [refuseIf_eq_next]
  cases p <;> simp

theorem unprefixed_eq_next {α : Type} {s : State} {k : Result α} {a : α} :
    unprefixed s k = .next a ↔ s.latch = none ∧ k = .next a := by
  unfold unprefixed
  rw [refuseIf_eq_next]
  cases s.latch <;> simp

end Sys2Proof.Machine
end

