-- ==== Sys2Proof/Laws/Decode.lean ====
section
/-! SUPPORT. The laws of instruction lengths and of the encoder's words. -/

namespace Sys2Proof

theorem SrcMode.immLength_le (m : Size) (s : SrcMode) : s.immLength m ≤ 4 := by
  cases s <;> cases m <;> simp [SrcMode.immLength, Size.immBytes]

theorem SrcMode.immLength_even (m : Size) (s : SrcMode) : s.immLength m % 2 = 0 := by
  cases s <;> cases m <;> simp [SrcMode.immLength, Size.immBytes]

theorem Instr.immLength_le (i : Instr) : i.immLength ≤ 4 := by
  cases i <;> simp only [Instr.immLength] <;> first | omega | apply SrcMode.immLength_le

/-- An instruction takes a whole number of words behind its first (rule R100). -/
theorem Instr.immLength_even (i : Instr) : i.immLength % 2 = 0 := by
  cases i <;> simp only [Instr.immLength] <;> first | rfl | apply SrcMode.immLength_even

/-- No instruction takes more than six bytes (rule R100). -/
theorem Instr.length_le (i : Instr) : i.length ≤ 6 := by
  have := i.immLength_le
  unfold Instr.length
  split <;> omega

/-- No instruction takes less than two bytes (rule R100). -/
theorem Instr.two_le_length (i : Instr) : 2 ≤ i.length := by
  unfold Instr.length
  split <;> omega

/-- Decoding a list: the first word is decoded with the two words behind it; too few words are rejected. -/
theorem decode_cons (w : Half) (rest : List Half) :
    decode (w :: rest) =
      if rest.length < (decodeWord w (dwordOfWords rest)).immLength / 2 then .error .immediateDataMissing
      else .ok (decodeWord w (dwordOfWords rest), rest.drop ((decodeWord w (dwordOfWords rest)).immLength / 2)) := rfl

end Sys2Proof
end

