-- ==== Sys2Proof/Laws/Ops.lean ====
section
/-! SUPPORT. What the shared operations can do: one lemma says all that an answer of the operation implies, one that it answers. -/

namespace Sys2Proof.Machine

/-! ## Access checks -/

/-- All that the access check changes: the note of the aliases used. -/
theorem touch_eq_next {n : Nat} {a : Word} {s t : State} (h : touch n a s = .next t) :
    t = { s with aliasSeen := t.aliasSeen } := by
  induction n generalizing a s with
  | zero => cases h; rfl
  | succ n ih =>
    unfold touch at h
    split at h
    · split at h
      · cases h
      · have e := ih h
        rw [State.noteAlias_eq] at e
        exact e
    · cases h

theorem aliasOf_noteAliasIn_ne {l : List (Nat × Bool)} {k j : Nat} {b : Bool} (h : j ≠ k) :
    aliasOf (noteAliasIn l k b) j = aliasOf l j := by
  induction l with
  | nil => simp [noteAliasIn, aliasOf, Ne.symm h]
  | cons c rest ih =>
    obtain ⟨l, v⟩ := c
    unfold noteAliasIn
    split
    · simp only [aliasOf, ih]
    · split
      · rename_i e
        simp [aliasOf, Ne.symm h, show l ≠ j by omega]
      · simp [aliasOf, Ne.symm h]

theorem State.aliasClash_noteAlias {s : State} {a x : Word} (h : location x ≠ location a) :
    (s.noteAlias a).aliasClash x = s.aliasClash x := by
  unfold State.aliasClash State.noteAlias
  cases hp : s.params.alias31 <;> simp [hp, aliasOf_noteAliasIn_ne h]

theorem State.accessible_noteAlias {s : State} {n : Nat} {a b : Word} (h : outside a n b) :
    (s.noteAlias a).accessible n b = s.accessible n b := by
  induction n generalizing b with
  | zero => rfl
  | succ n ih =>
    obtain ⟨h1, h2⟩ := outside_succ h
    simp only [State.accessible, State.noteAlias_params, State.aliasClash_noteAlias (Ne.symm h1), ih h2]

/-- What may be accessed depends on the parameters and the aliases noted. -/
theorem State.accessible_congr {s t : State} (hp : t.params = s.params) (ha : t.aliasSeen = s.aliasSeen) (n : Nat)
    (a : Word) : t.accessible n a = s.accessible n a := by
  induction n generalizing a with
  | zero => rfl
  | succ n ih => simp only [State.accessible, State.aliasClash, hp, ha, ih]

/-- The check admits an access when the bytes may be accessed. -/
theorem touch_of_accessible {n : Nat} {a : Word} {s : State} (hn : n < Memory.size) (h : s.accessible n a = true) :
    ∃ t, touch n a s = .next t := by
  induction n generalizing a s with
  | zero => exact ⟨s, rfl⟩
  | succ n ih =>
    simp only [State.accessible, Bool.and_eq_true, Bool.not_eq_true'] at h
    obtain ⟨⟨h1, h2⟩, h3⟩ := h
    obtain ⟨t, ht⟩ := ih (a := a + 1) (s := s.noteAlias a) (by omega)
      (by rw [State.accessible_noteAlias (outside_self a (by omega))]; exact h3)
    exact ⟨t, by rw [touch, if_pos h1, h2]; exact ht⟩

/-- The check admits no other access: some byte is no memory, or reached through the other alias. -/
theorem accessible_of_touch {n : Nat} {a : Word} {s t : State} (hn : n < Memory.size)
    (h : touch n a s = .next t) : s.accessible n a = true := by
  induction n generalizing a s with
  | zero => rfl
  | succ n ih =>
    unfold touch at h
    split at h
    · rename_i h1
      split at h
      · cases h
      · rename_i h2
        have h3 := ih (by omega) h
        rw [State.accessible_noteAlias (outside_self a (by omega))] at h3
        rw [State.accessible, h1, h3]
        simpa using h2
    · cases h

/-! ## The comparison with BAR -/

theorem dwordOf_eq (a b : Word) : dwordOf a = dwordOf b ↔ a.toNat / 4 % 2 ^ 29 = b.toNat / 4 % 2 ^ 29 := by
  unfold dwordOf
  rw [BitVec.toNat_eq.symm.symm]
  simp [BitVec.extractLsb'_toNat, Nat.shiftRight_eq_div_pow]

/-- The comparison is that of the address bits 30 to 2 of every byte (rules R64, R309). -/
theorem matchesBar_iff (bar : Word) (n : Nat) (a : Word) : matchesBar bar n a = true ↔ hitsBar bar n a := by
  induction n generalizing a with
  | zero => simp [matchesBar, hitsBar]
  | succ n ih =>
    simp only [matchesBar, Bool.or_eq_true, decide_eq_true_eq, ih, dwordOf_eq]
    unfold hitsBar
    have e : ∀ k, a + 1 + BitVec.ofNat 32 k = a + BitVec.ofNat 32 (k + 1) := fun k => by
      rw [BitVec.add_assoc]; congr 1; rw [BitVec.ofNat_add]; exact BitVec.add_comm _ _
    constructor
    · rintro (h | ⟨k, hk, h⟩)
      · exact ⟨0, by omega, by simpa using h⟩
      · exact ⟨k + 1, by omega, by rwa [e] at h⟩
    · rintro ⟨k, hk, h⟩
      cases k with
      | zero => exact .inl (by simpa using h)
      | succ k => exact .inr ⟨k, by omega, by rwa [e]⟩

/-- A hit is recorded when B is set and an access matches. -/
theorem State.watch_hit_iff (s : State) (n : Nat) (a : Word) :
    (s.watch n a).hit = true ↔ s.hit = true ∨ (s.flags.b = true ∧ hitsBar s.bar n a) := by
  simp [matchesBar_iff]

theorem State.watch_eq (s : State) (n : Nat) (a : Word) : s.watch n a = { s with hit := (s.watch n a).hit } := rfl

/-! ## Data accesses -/

/-- All that a data read does: it reads over the bus, and notes the aliases and a hit (rules R62, R309). -/
theorem memRead_eq_next {n : Nat} {a : Word} {s : State} {v : Word} {u : State} (h : memRead n a s = .next (v, u)) :
    v = (s.bus.advance.read n a).1 ∧
      u = { s.withBus (s.bus.advance.read n a).2 with hit := u.hit, aliasSeen := u.aliasSeen } ∧
      (u.hit = true ↔ s.hit = true ∨ (s.flags.b = true ∧ hitsBar s.bar n a)) := by
  unfold memRead at h
  obtain ⟨t, ht, h⟩ := andThen_eq_next.mp h
  have e := touch_eq_next ht
  cases h
  rw [e]
  exact ⟨rfl, rfl, State.watch_hit_iff _ _ _⟩

/-- Alone on the bus, a data read yields the bytes in memory (rules R62, R309). -/
theorem memRead_alone {n : Nat} {a : Word} {s : State} {v : Word} {u : State} (ha : Alone s)
    (h : memRead n a s = .next (v, u)) : v = s.mem.load n a ∧ Accessed s u n a := by
  obtain ⟨hv, hu, hh⟩ := memRead_eq_next h
  have hs : s.bus.shared = false := ha
  rw [Bus.advance_alone hs, Bus.read_alone hs] at hv hu
  exact ⟨hv, hu, hh⟩

/-- A data read answers when the bytes may be accessed. -/
theorem memRead_of_accessible {n : Nat} {a : Word} {s : State} (hn : n < Memory.size)
    (h : s.accessible n a = true) : ∃ v u, memRead n a s = .next (v, u) := by
  obtain ⟨t, ht⟩ := touch_of_accessible hn h
  exact ⟨_, _, by rw [memRead, ht]; rfl⟩

/-- All that a data write does (rules R63, R309). -/
theorem memWrite_eq_next {n : Nat} {a v : Word} {s t : State} (h : memWrite n a v s = .next t) :
    t = { s.withBus (s.bus.advance.write n a v) with
      stored := noteStored n a s.stored, hit := t.hit, aliasSeen := t.aliasSeen } ∧
      (t.hit = true ↔ s.hit = true ∨ (s.flags.b = true ∧ hitsBar s.bar n a)) := by
  unfold memWrite at h
  obtain ⟨w, hw, h⟩ := andThen_eq_next.mp h
  have e := touch_eq_next hw
  cases h
  rw [e]
  exact ⟨rfl, by rw [State.putBytes_hit, State.watch_hit_iff]⟩

/-- Alone on the bus, a data write stores its bytes (rules R63, R309). -/
theorem memWrite_alone {n : Nat} {a v : Word} {s t : State} (ha : Alone s) (h : memWrite n a v s = .next t) :
    t = { s with mem := s.mem.store n a v, stored := noteStored n a s.stored, hit := t.hit, aliasSeen := t.aliasSeen } ∧
      (t.hit = true ↔ s.hit = true ∨ (s.flags.b = true ∧ hitsBar s.bar n a)) := by
  obtain ⟨ht, hh⟩ := memWrite_eq_next h
  have hs : s.bus.shared = false := ha
  rw [Bus.advance_alone hs, Bus.write_alone hs] at ht
  exact ⟨ht, hh⟩

/-- A data write answers when the bytes may be accessed. -/
theorem memWrite_of_accessible {n : Nat} {a : Word} {s : State} (v : Word) (hn : n < Memory.size)
    (h : s.accessible n a = true) : ∃ t, memWrite n a v s = .next t := by
  obtain ⟨t, ht⟩ := touch_of_accessible hn h
  exact ⟨(t.watch n a).putBytes n a v, by simp [memWrite, ht]⟩

/-- The bytes after a store are the low bytes of the value (rule R63). -/
theorem bytesNat_store (s : State) (hw : s.mem.wf = true) {n : Nat} (hn : n < Memory.size) (a v : Word) (st : List Nat) :
    bytesNat { s with mem := s.mem.store n a v, stored := st } n a = v.toNat % 256 ^ n := by
  induction n generalizing s a v with
  | zero => simp [bytesNat, Nat.mod_one]
  | succ n ih =>
    have hb : ∀ u : State, u.mem.wf = true → u.peek a = v.setWidth 8 →
        bytesNat { u with mem := u.mem.store n (a + 1) (v >>> 8), stored := st } (n + 1) a = v.toNat % 256 ^ (n + 1) := by
      intro u hu h0
      have h1 := ih u hu (by omega) (a + 1) (v >>> 8)
      rw [bytesNat, h1]
      have h2 : State.peek { u with mem := u.mem.store n (a + 1) (v >>> 8), stored := st } a = u.peek a :=
        Memory.byteAt_store_outside _ (outside_self a (by omega))
      rw [h2, h0, BitVec.toNat_setWidth, BitVec.toNat_ushiftRight, Nat.shiftRight_eq_div_pow,
        show 256 ^ (n + 1) = 2 ^ 8 * 256 ^ n by rw [Nat.pow_succ]; omega, Nat.mod_mul]
      rfl
    refine hb { s with mem := s.mem.setByte (location a) (v.setWidth 8) } (Memory.setByte_wf hw _ _) ?_
    exact Memory.byteAt_setByte_self hw _ _

end Sys2Proof.Machine
end

