-- ==== Sys2Proof/Laws/Values.lean ====
section
/-! SUPPORT. The value operations in the vocabulary of the statements: truncation, extension and merging as arithmetic on numbers. -/

namespace Sys2Proof.Machine

theorem toNat_bits (m : Size) : 0 < 2 ^ sizeBits m ∧ 2 ^ sizeBits m ≤ 2 ^ 32 := by cases m <;> decide

theorem truncTo_toNat (m : Size) (v : Word) : (truncTo m v).toNat = lowNat m v := by
  cases m <;> simp [truncTo, lowNat, sizeBits] <;> omega

/-- Truncation is zero extension of the low bits (rule R10). -/
theorem truncTo_eq (m : Size) (v : Word) : truncTo m v = zeroExtended m v := by
  apply BitVec.eq_of_toNat_eq
  rw [truncTo_toNat, zeroExtended, BitVec.toNat_ofNat]
  have := Nat.mod_lt v.toNat (toNat_bits m).1
  have := (toNat_bits m).2
  unfold lowNat
  omega

/-- Sign extension of the low bits (rule R10). -/
theorem signExtendFrom_eq (m : Size) (v : Word) : signExtendFrom m v = signExtended m v := by
  have h : ∀ k, ((v.setWidth k).signExtend 32 : Word) = BitVec.ofInt 32 (Int.bmod v.toNat (2 ^ k)) := fun k => by
    rw [BitVec.signExtend, BitVec.toInt_eq_toNat_bmod, BitVec.toNat_setWidth, Int.natCast_mod, Int.emod_bmod]
  cases m
  · exact h 8
  · exact h 16
  · show v = BitVec.ofInt 32 (Int.bmod v.toNat (2 ^ 32))
    rw [← BitVec.toInt_eq_toNat_bmod, BitVec.ofInt_toInt]

/-- The number of two joined bit vectors. -/
theorem toNat_join {j k : Nat} (a : BitVec j) (b : BitVec k) : (a ++ b).toNat = a.toNat * 2 ^ k + b.toNat := by
  rw [BitVec.toNat_append, ← Nat.shiftLeft_add_eq_or_of_lt b.isLt, Nat.shiftLeft_eq]

/-- Merging replaces the low bits (rules R12, R20). -/
theorem mergeLow_eq (m : Size) (old r : Word) : mergeLow m old r = replaceLow m old r := by
  apply BitVec.eq_of_toNat_eq
  have h := old.isLt
  have h' := r.isLt
  rw [replaceLow, BitVec.toNat_ofNat]
  cases m
  · show (old.extractLsb' 8 24 ++ r.setWidth 8 : BitVec (24 + 8)).toNat = _
    rw [toNat_join, BitVec.extractLsb'_toNat, BitVec.toNat_setWidth, Nat.shiftRight_eq_div_pow]
    simp only [lowNat, sizeBits]; omega
  · show (old.extractLsb' 16 16 ++ r.setWidth 16 : BitVec (16 + 16)).toNat = _
    rw [toNat_join, BitVec.extractLsb'_toNat, BitVec.toNat_setWidth, Nat.shiftRight_eq_div_pow]
    simp only [lowNat, sizeBits]; omega
  · simp only [mergeLow, lowNat, sizeBits]; omega

theorem lowNat_lt (m : Size) (v : Word) : lowNat m v < 2 ^ sizeBits m := Nat.mod_lt _ (toNat_bits m).1

@[simp] theorem lowNat_truncTo (m : Size) (v : Word) : lowNat m (truncTo m v) = lowNat m v := by
  unfold lowNat
  rw [truncTo_toNat, lowNat, Nat.mod_mod]

theorem msbOf_iff_nat (m : Size) (v : Word) : msbOf m v = true ↔ 2 ^ (sizeBits m - 1) ≤ lowNat m v := by
  unfold msbOf lowNat
  rw [BitVec.getLsbD, Nat.testBit_eq_decide_div_mod_eq, decide_eq_true_eq]
  cases m <;> simp only [sizeMsb, sizeBits] <;> omega

theorem lowInt_eq (m : Size) (v : Word) :
    lowInt m v = if 2 ^ (sizeBits m - 1) ≤ lowNat m v then (lowNat m v : Int) - 2 ^ sizeBits m else lowNat m v := by
  unfold lowInt lowNat
  cases m <;> simp only [sizeBits, Int.bmod_def] <;> norm_num <;> split_ifs <;> omega

@[simp] theorem lowInt_truncTo (m : Size) (v : Word) : lowInt m (truncTo m v) = lowInt m v := by
  rw [lowInt_eq, lowNat_truncTo, ← lowInt_eq]

/-- The sign of the low bits is their top bit. -/
theorem msbOf_iff (m : Size) (v : Word) : msbOf m v = true ↔ lowInt m v < 0 := by
  rw [msbOf_iff_nat, lowInt_eq]
  have := lowNat_lt m v
  split <;> cases m <;> simp only [sizeBits] at * <;> omega

theorem zeroFlag_iff (f : Flags) (r : Word) : zeroFlag f r = true ↔ r = 0 ∧ (f.x = true → f.z = true) := by
  unfold zeroFlag
  cases f.x <;> cases f.z <;> simp

/-- The general flags (rules R36, R43). -/
theorem generalFlags_spec (m : Size) (r : Word) (f : Flags) : IsGeneral m f r (generalFlags m r f) :=
  ⟨msbOf_iff m r, zeroFlag_iff f r, rfl, rfl⟩

theorem carryIn_toNat (f : Flags) : (carryIn f).toNat = extendCarry f := by
  unfold carryIn extendCarry
  cases f.x <;> cases f.c <;> rfl

/-- The flags of an addition (rule R37). -/
theorem addFlags_spec (m : Size) (s d r : Word) (f : Flags)
    (hr : r.toNat = (lowNat m d + lowNat m s + extendCarry f) % 2 ^ sizeBits m) :
    IsSum m s d f r (addFlags m s d r f) := by
  have hc : extendCarry f ≤ 1 := by unfold extendCarry; split <;> omega
  have h1 := lowNat_lt m s
  have h2 := lowNat_lt m d
  have h3 : lowNat m r = (lowNat m d + lowNat m s + extendCarry f) % 2 ^ sizeBits m := by rw [lowNat, hr, Nat.mod_mod]
  refine ⟨hr, msbOf_iff m r, zeroFlag_iff f r, ?_, ?_⟩
  · simp only [addFlags, lowInt_eq, Bool.or_eq_true, Bool.and_eq_true, Bool.not_eq_true', ← Bool.not_eq_true,
      msbOf_iff_nat]
    clear hr
    generalize lowNat m r = r, lowNat m s = a, lowNat m d = b, extendCarry f = c at *
    cases m <;> simp only [sizeBits, Nat.reduceSub, Nat.reducePow, Int.reducePow] at * <;> split_ifs <;> omega
  · simp only [addFlags, Bool.or_eq_true, Bool.and_eq_true, Bool.not_eq_true', ← Bool.not_eq_true, msbOf_iff_nat]
    clear hr
    generalize lowNat m r = r, lowNat m s = a, lowNat m d = b, extendCarry f = c at *
    cases m <;> simp only [sizeBits, Nat.reduceSub, Nat.reducePow] at * <;> omega

/-- The flags of a subtraction (rule R38). -/
theorem subFlags_spec (m : Size) (s d r : Word) (f : Flags)
    (hr : (r.toNat : Int) = ((lowNat m d : Int) - lowNat m s - extendCarry f) % 2 ^ sizeBits m) :
    IsDifference m s d f r (subFlags m s d r f) := by
  have hc : extendCarry f ≤ 1 := by unfold extendCarry; split <;> omega
  have h1 := lowNat_lt m s
  have h2 := lowNat_lt m d
  have h3 : (lowNat m r : Int) = ((lowNat m d : Int) - lowNat m s - extendCarry f) % 2 ^ sizeBits m := by
    have : lowNat m r = r.toNat := by
      apply Nat.mod_eq_of_lt
      have := Int.emod_lt_of_pos ((lowNat m d : Int) - lowNat m s - extendCarry f)
        (show (0 : Int) < 2 ^ sizeBits m by positivity)
      rw [← hr] at this
      exact_mod_cast this
    rw [this, hr]
  refine ⟨hr, msbOf_iff m r, zeroFlag_iff f r, ?_, ?_⟩
  · simp only [subFlags, lowInt_eq, Bool.or_eq_true, Bool.and_eq_true, Bool.not_eq_true', ← Bool.not_eq_true,
      msbOf_iff_nat]
    clear hr
    generalize lowNat m r = r, lowNat m s = a, lowNat m d = b, extendCarry f = c at *
    cases m <;> simp only [sizeBits, Nat.reduceSub, Nat.reducePow, Int.reducePow] at * <;> split_ifs <;> omega
  · simp only [subFlags, Bool.or_eq_true, Bool.and_eq_true, Bool.not_eq_true', ← Bool.not_eq_true, msbOf_iff_nat]
    clear hr
    generalize lowNat m r = r, lowNat m s = a, lowNat m d = b, extendCarry f = c at *
    cases m <;> simp only [sizeBits, Nat.reduceSub, Nat.reducePow, Int.reducePow] at * <;> omega

theorem lowNat_sub_carry (m : Size) (d s : Word) (f : Flags) :
    (lowNat m (d - s - carryIn f) : Int) = ((lowNat m d : Int) - lowNat m s - extendCarry f) % 2 ^ sizeBits m := by
  have h1 := d.isLt
  have h2 := s.isLt
  have hc : extendCarry f ≤ 1 := by unfold extendCarry; split <;> omega
  unfold lowNat
  rw [BitVec.toNat_sub, BitVec.toNat_sub, carryIn_toNat]
  cases m <;> simp only [sizeBits, Nat.reducePow, Int.reducePow] at * <;> omega

end Sys2Proof.Machine
end

