-- ==== Sys2Proof/Laws/Operands.lean ====
section
/-! SUPPORT. The laws of the operand forms: what resolving, loading and writing a result do, in the vocabulary of the statements. -/

namespace Sys2Proof.Machine

theorem isOdd_iff (a : Word) : isOdd a ↔ a.getLsbD 0 = true := by
  unfold isOdd; rw [BitVec.getLsbD, Nat.testBit_zero, decide_eq_true_eq]

theorem refuseOdd_odd {α : Type} {t : Word} (h : isOdd t) (k : Result α) :
    refuseOdd t k = .refused .oddProgramCounter := by
  rw [isOdd_iff] at h; unfold refuseOdd; rw [h]; rfl

theorem refuseOdd_even {α : Type} {t : Word} (h : ¬ isOdd t) (k : Result α) : refuseOdd t k = k := by
  rw [isOdd_iff, Bool.not_eq_true] at h; unfold refuseOdd; rw [h]; rfl

/-- A guard that does not refuse. -/
theorem refuseIf_of {α : Type} {b : Bool} (h : b = false) (r : Refusal) (k : Result α) : refuseIf b r k = k := by
  rw [h]; rfl

theorem slotGuard_of {α : Type} {p : Bool} {s : State} (h : p = true → s.slot = .none) (k : Result α) :
    slotGuard p s k = k := by
  unfold slotGuard State.inSlot
  cases p
  · rfl
  · rw [h rfl]; rfl

theorem unprefixed_of {α : Type} {s : State} (h : s.latch = none) (k : Result α) : unprefixed s k = k := by
  unfold unprefixed; rw [h]; rfl

/-- A register-mode instruction that may run goes on. -/
theorem regForm_of {s : State} {p : Bool} {P : Prop} (h : Ready s P) (hp : p = true → P) (k : Result State) :
    regForm p s k = k := by
  unfold regForm
  rw [unprefixed_of h.1, slotGuard_of fun e => h.2 (hp e)]

/-! ## Refusals -/

theorem refuses_refuseIf {α : Type} {b : Bool} {r : Refusal} {k : Result α} (h : b = true ∨ refuses k) :
    refuses (refuseIf b r k) := by
  unfold refuseIf
  split
  · exact ⟨_, rfl⟩
  · exact h.resolve_left (by assumption)

theorem refuses_slotGuard {α : Type} {p : Bool} {s : State} {k : Result α}
    (h : (p = true ∧ s.slot ≠ .none) ∨ refuses k) : refuses (slotGuard p s k) :=
  refuses_refuseIf (h.imp_left fun ⟨h1, h2⟩ => by simp [h1, State.inSlot, h2])

theorem refuses_unprefixed {α : Type} {s : State} {k : Result α} (h : s.latch.isSome = true ∨ refuses k) :
    refuses (unprefixed s k) := refuses_refuseIf h

theorem refuses_andThen {α β : Type} {x : Result α} {k : α → Result β}
    (h : refuses x) : refuses (andThen x k) := by
  obtain ⟨r, rfl⟩ := h; exact ⟨r, rfl⟩

/-! ## Memory operands -/

/-- All that resolving a memory operand changes: the register file. -/
theorem resolve_eq_next {a : AddrMode} {w : Word} {busy : Reg → Bool} {dest : Option Reg} {s t : State} {ea : Word}
    (h : resolve a w busy dest s = .next (ea, t)) : t = { s with regs := t.regs } := by
  unfold resolve at h
  obtain hl | ⟨l, hl⟩ : s.latch = none ∨ ∃ l, s.latch = some l := by cases s.latch <;> simp
  · cases a with
    | plain r =>
      simp only [hl, refuseIf_eq_next] at h
      obtain ⟨_, h⟩ := h; cases h; rfl
    | inc r =>
      simp only [hl, refuseIf_eq_next] at h
      obtain ⟨_, _, h⟩ := h; cases h; rw [State.setGpr_eq]
  · cases a with
    | plain r =>
      simp only [hl, refuseIf_eq_next] at h
      obtain ⟨_, _, h⟩ := h; cases h; rfl
    | inc r =>
      simp only [hl, refuseIf_eq_next] at h
      obtain ⟨_, _, _, _, h⟩ := h; cases h; rw [State.setGpr_eq]

/-- A register that the mode may not change stays. -/
theorem resolve_keeps_busy {a : AddrMode} {w : Word} {busy : Reg → Bool} {dest : Option Reg} {s t : State} {ea : Word}
    (h : resolve a w busy dest s = .next (ea, t)) {r : Reg} (hr : busy r = true) (p : Word) : t.gpr r p = s.gpr r p := by
  unfold resolve at h
  obtain hl | ⟨l, hl⟩ : s.latch = none ∨ ∃ l, s.latch = some l := by cases s.latch <;> simp
  · cases a with
    | plain q =>
      simp only [hl, refuseIf_eq_next] at h
      obtain ⟨_, h⟩ := h; cases h; rfl
    | inc q =>
      simp only [hl, refuseIf_eq_next] at h
      obtain ⟨_, h2, h⟩ := h; cases h
      exact State.gpr_setGpr_ne _ (fun e => by rw [e, h2] at hr; cases hr) _ _
  · cases a with
    | plain q =>
      simp only [hl, refuseIf_eq_next] at h
      obtain ⟨_, _, h⟩ := h; cases h; rfl
    | inc q =>
      simp only [hl, refuseIf_eq_next] at h
      obtain ⟨_, _, _, h2, h⟩ := h; cases h
      exact State.gpr_setGpr_ne _ (fun e => by rw [e, h2] at hr; cases hr) _ _

/-- All that loading a source changes: the register file, the breakpoint hit, the note of the aliases used, and what the
other bus masters write. -/
theorem loadSource_eq_next {m : Size} {src : SrcMode} {busy : Reg → Bool} {dest : Option Reg} {s u : State} {v : Word}
    (h : loadSource m src busy dest s = .next (v, u)) :
    u = { s with regs := u.regs, mem := u.mem, others := u.others, hit := u.hit, aliasSeen := u.aliasSeen } := by
  unfold loadSource at h
  cases src with
  | mem a =>
    simp only at h
    obtain ⟨⟨ea, t⟩, h1, h2⟩ := andThen_eq_next.mp h
    have h3 := (memRead_eq_next h2).2.1
    have h4 := resolve_eq_next h1
    simp only at h3
    rw [h4] at h3
    rw [h3]; rfl
  | imm w =>
    simp only [immediate, refuseIf_eq_next, slotGuard_eq_next] at h
    obtain ⟨_, _, h⟩ := h; cases h; rfl

/-! ## Results -/

theorem destOperand_eq (m : Size) (rd : Reg) (next : Word) (s : State) :
    destOperand m rd next s = zeroExtended m (s.gpr rd next) := truncTo_eq m _

/-- Writing a computed result and its flags (rules R20, R166, R230). -/
theorem applyAlu_computes {m : Size} {alu : Alu} {rd : Reg} {src next : Word} {u : State} {result : Word → Flags → Prop}
    (h : result (alu src (destOperand m rd next u) u.flags).1 (alu src (destOperand m rd next u) u.flags).2)
    (hk : ∀ s d f, (alu s d f).2.m = f.m ∧ (alu s d f).2.b = f.b ∧ (alu s d f).2.i = f.i) :
    Computes (applyAlu m alu rd src next u) u m rd next result := by
  refine ⟨_, _, h, ?_, ?_⟩
  · intro hr
    unfold applyAlu writeResult
    simp only [hr, if_false]
    refine ⟨_, rfl, ?_, by simp [Flags.nzvc], ⟨?_, rfl, rfl, rfl, rfl⟩, ?_⟩
    · rw [State.gpr_congr (State.retire_regs _ _ _), State.gpr_setGpr_self _ hr, mergeLow_eq]
      congr 1
      exact State.gpr_of_ne_pc u hr _ _
    · cases u.slot <;> simp [Slot.goesTo, State.retire, State.setGpr_slot]
    · refine ⟨?_, by simp [State.ibr], by simp [hk], ?_, by simp, by simp⟩
      · intro r _ hn
        rw [State.gpr_congr (State.retire_regs _ _ _), State.gpr_setGpr_ne _ hn]; rfl
      · intro a; exact State.peek_congr (by simp) a
  · intro hr
    subst hr
    unfold applyAlu writeResult
    simp only [if_true, State.gpr_pc, mergeLow_eq]
    unfold jumpNow
    exact ⟨fun ho => refuseOdd_odd ho _, fun ho => ⟨_, refuseOdd_even ho _, ⟨rfl, rfl, rfl, rfl, rfl⟩, rfl,
      ⟨fun _ _ _ => rfl, ⟨rfl, rfl, rfl, rfl, rfl⟩, hk _ _ _, fun _ => rfl, ⟨rfl, rfl, rfl⟩, rfl⟩⟩⟩

/-- Writing computed flags only. -/
theorem applyTest_tests {m : Size} {alu : Alu} {rd : Reg} {src next : Word} {u : State} {result : Flags → Prop}
    (h : result { (alu src (destOperand m rd next u) u.flags).2 with x := false })
    (hk : ∀ s d f, (alu s d f).2.m = f.m ∧ (alu s d f).2.b = f.b ∧ (alu s d f).2.i = f.i) :
    Tests (applyTest m alu rd src next u) u next result :=
  ⟨_, rfl, h, ⟨rfl, rfl, rfl, rfl, rfl⟩,
    ⟨fun _ _ _ => rfl, ⟨rfl, rfl, rfl, rfl, rfl⟩, hk _ _ _, fun _ => rfl, ⟨rfl, rfl, rfl⟩, rfl⟩⟩

end Sys2Proof.Machine
end

