-- ==== Sys2Proof/Laws/PerInstr.lean ====
section
/-! SUPPORT. The statements made for every instruction, one lemma per constructor of `Instr`. -/

namespace Sys2Proof.Laws

/-- The words that the encoder writes are as many as the instruction's length says (rules R97, R100). -/
def Length.Statement (i : Instr) : Prop := 2 * (encode i).length = i.length

/-- The immediate words of a source are as many as its immediate length says (rule R97). -/
theorem source_words (m : Size) (s : SrcMode) : 2 * (s.words m).length = s.immLength m := by
  cases s <;> cases m <;> rfl

theorem Length.of_tail {i : Instr} (h : 2 * i.tailWords.length = i.immLength) (h' : i.length = 2 + i.immLength) :
    Length.Statement i := by
  unfold Length.Statement encode
  rw [List.length_cons, h', ← h]
  omega

theorem Length.reserved (w : Half) : Length.Statement (.reserved w) := Length.of_tail rfl rfl
theorem Length.ba8 (off : Byte) : Length.Statement (.ba8 off) := Length.of_tail rfl rfl
theorem Length.bcc8 (c : Cond) (off : Byte) : Length.Statement (.bcc8 c off) := Length.of_tail rfl rfl
theorem Length.bdapQuick (base : Reg) (off : Byte) : Length.Statement (.bdapQuick base off) := Length.of_tail rfl rfl
theorem Length.addq (rd : Reg) (imm : BitVec 6) : Length.Statement (.addq rd imm) := Length.of_tail rfl rfl
theorem Length.moveq (rd : Reg) (imm : BitVec 6) : Length.Statement (.moveq rd imm) := Length.of_tail rfl rfl
theorem Length.subq (rd : Reg) (imm : BitVec 6) : Length.Statement (.subq rd imm) := Length.of_tail rfl rfl
theorem Length.cmpq (rd : Reg) (imm : BitVec 6) : Length.Statement (.cmpq rd imm) := Length.of_tail rfl rfl
theorem Length.andq (rd : Reg) (imm : BitVec 6) : Length.Statement (.andq rd imm) := Length.of_tail rfl rfl
theorem Length.orq (rd : Reg) (imm : BitVec 6) : Length.Statement (.orq rd imm) := Length.of_tail rfl rfl
theorem Length.btstq (rd : Reg) (n : BitVec 5) : Length.Statement (.btstq rd n) := Length.of_tail rfl rfl
theorem Length.asrq (rd : Reg) (n : BitVec 5) : Length.Statement (.asrq rd n) := Length.of_tail rfl rfl
theorem Length.lslq (rd : Reg) (n : BitVec 5) : Length.Statement (.lslq rd n) := Length.of_tail rfl rfl
theorem Length.lsrq (rd : Reg) (n : BitVec 5) : Length.Statement (.lsrq rd n) := Length.of_tail rfl rfl
theorem Length.adduReg (z : ZSize) (rd rs : Reg) : Length.Statement (.adduReg z rd rs) := Length.of_tail rfl rfl
theorem Length.addsReg (z : ZSize) (rd rs : Reg) : Length.Statement (.addsReg z rd rs) := Length.of_tail rfl rfl
theorem Length.movuReg (z : ZSize) (rd rs : Reg) : Length.Statement (.movuReg z rd rs) := Length.of_tail rfl rfl
theorem Length.movsReg (z : ZSize) (rd rs : Reg) : Length.Statement (.movsReg z rd rs) := Length.of_tail rfl rfl
theorem Length.subuReg (z : ZSize) (rd rs : Reg) : Length.Statement (.subuReg z rd rs) := Length.of_tail rfl rfl
theorem Length.subsReg (z : ZSize) (rd rs : Reg) : Length.Statement (.subsReg z rd rs) := Length.of_tail rfl rfl
theorem Length.btst (rd rs : Reg) : Length.Statement (.btst rd rs) := Length.of_tail rfl rfl
theorem Length.lsl (m : Size) (rd rs : Reg) : Length.Statement (.lsl m rd rs) := Length.of_tail rfl rfl
theorem Length.nop : Length.Statement .nop := Length.of_tail rfl rfl
theorem Length.scc (c : Cond) (rd : Reg) : Length.Statement (.scc c rd) := Length.of_tail rfl rfl
theorem Length.addi (m : Size) (rd rs : Reg) : Length.Statement (.addi m rd rs) := Length.of_tail rfl rfl
theorem Length.biap (m : Size) (index base : Reg) : Length.Statement (.biap m index base) := Length.of_tail rfl rfl
theorem Length.ax : Length.Statement .ax := Length.of_tail rfl rfl
theorem Length.ei : Length.Statement .ei := Length.of_tail rfl rfl
theorem Length.setf (list : Byte) : Length.Statement (.setf list) := Length.of_tail rfl rfl
theorem Length.neg (m : Size) (rd rs : Reg) : Length.Statement (.neg m rd rs) := Length.of_tail rfl rfl
theorem Length.di : Length.Statement .di := Length.of_tail rfl rfl
theorem Length.clearf (list : Byte) : Length.Statement (.clearf list) := Length.of_tail rfl rfl
theorem Length.boundReg (m : Size) (rd rs : Reg) : Length.Statement (.boundReg m rd rs) := Length.of_tail rfl rfl
theorem Length.moveRegToSpecial (pd : PNum) (rs : Reg) : Length.Statement (.moveRegToSpecial pd rs) := Length.of_tail rfl rfl
theorem Length.addReg (m : Size) (rd rs : Reg) : Length.Statement (.addReg m rd rs) := Length.of_tail rfl rfl
theorem Length.ret : Length.Statement .ret := Length.of_tail rfl rfl
theorem Length.reti : Length.Statement .reti := Length.of_tail rfl rfl
theorem Length.retb : Length.Statement .retb := Length.of_tail rfl rfl
theorem Length.clearByteReg (rd : Reg) : Length.Statement (.clearByteReg rd) := Length.of_tail rfl rfl
theorem Length.clearWordReg (rd : Reg) : Length.Statement (.clearWordReg rd) := Length.of_tail rfl rfl
theorem Length.clearDwordReg (rd : Reg) : Length.Statement (.clearDwordReg rd) := Length.of_tail rfl rfl
theorem Length.moveSpecialToReg (ps : PNum) (rd : Reg) : Length.Statement (.moveSpecialToReg ps rd) := Length.of_tail rfl rfl
theorem Length.moveReg (m : Size) (rd rs : Reg) : Length.Statement (.moveReg m rd rs) := Length.of_tail rfl rfl
theorem Length.absReg (rd rs : Reg) : Length.Statement (.absReg rd rs) := Length.of_tail rfl rfl
theorem Length.subReg (m : Size) (rd rs : Reg) : Length.Statement (.subReg m rd rs) := Length.of_tail rfl rfl
theorem Length.dstep (rd rs : Reg) : Length.Statement (.dstep rd rs) := Length.of_tail rfl rfl
theorem Length.cmpReg (m : Size) (rd rs : Reg) : Length.Statement (.cmpReg m rd rs) := Length.of_tail rfl rfl
theorem Length.lz (rd rs : Reg) : Length.Statement (.lz rd rs) := Length.of_tail rfl rfl
theorem Length.andReg (m : Size) (rd rs : Reg) : Length.Statement (.andReg m rd rs) := Length.of_tail rfl rfl
theorem Length.notReg (rd : Reg) : Length.Statement (.notReg rd) := Length.of_tail rfl rfl
theorem Length.swap (opts : BitVec 4) (rd : Reg) : Length.Statement (.swap opts rd) := Length.of_tail rfl rfl
theorem Length.orReg (m : Size) (rd rs : Reg) : Length.Statement (.orReg m rd rs) := Length.of_tail rfl rfl
theorem Length.xorReg (rd rs : Reg) : Length.Statement (.xorReg rd rs) := Length.of_tail rfl rfl
theorem Length.asr (m : Size) (rd rs : Reg) : Length.Statement (.asr m rd rs) := Length.of_tail rfl rfl
theorem Length.mstep (rd rs : Reg) : Length.Statement (.mstep rd rs) := Length.of_tail rfl rfl
theorem Length.lsr (m : Size) (rd rs : Reg) : Length.Statement (.lsr m rd rs) := Length.of_tail rfl rfl
theorem Length.adduMem (z : ZSize) (rd : Reg) (src : SrcMode) : Length.Statement (.adduMem z rd src) := Length.of_tail (source_words _ src) rfl
theorem Length.addsMem (z : ZSize) (rd : Reg) (src : SrcMode) : Length.Statement (.addsMem z rd src) := Length.of_tail (source_words _ src) rfl
theorem Length.movuMem (z : ZSize) (rd : Reg) (src : SrcMode) : Length.Statement (.movuMem z rd src) := Length.of_tail (source_words _ src) rfl
theorem Length.movsMem (z : ZSize) (rd : Reg) (src : SrcMode) : Length.Statement (.movsMem z rd src) := Length.of_tail (source_words _ src) rfl
theorem Length.subuMem (z : ZSize) (rd : Reg) (src : SrcMode) : Length.Statement (.subuMem z rd src) := Length.of_tail (source_words _ src) rfl
theorem Length.subsMem (z : ZSize) (rd : Reg) (src : SrcMode) : Length.Statement (.subsMem z rd src) := Length.of_tail (source_words _ src) rfl
theorem Length.cmpuMem (z : ZSize) (rd : Reg) (src : SrcMode) : Length.Statement (.cmpuMem z rd src) := Length.of_tail (source_words _ src) rfl
theorem Length.cmpsMem (z : ZSize) (rd : Reg) (src : SrcMode) : Length.Statement (.cmpsMem z rd src) := Length.of_tail (source_words _ src) rfl
theorem Length.brk (n : BitVec 4) : Length.Statement (.brk n) := Length.of_tail rfl rfl
theorem Length.jumpImm (target : Word) : Length.Statement (.jumpImm target) := Length.of_tail rfl rfl
theorem Length.jumpMem (src : AddrMode) : Length.Statement (.jumpMem src) := Length.of_tail rfl rfl
theorem Length.jsrMem (src : SrcMode) : Length.Statement (.jsrMem src) := Length.of_tail (source_words _ src) rfl
theorem Length.jirMem (src : SrcMode) : Length.Statement (.jirMem src) := Length.of_tail (source_words _ src) rfl
theorem Length.jsrcMem (src : SrcMode) : Length.Statement (.jsrcMem src) := Length.of_tail (source_words _ src) rfl
theorem Length.jircMem (src : SrcMode) : Length.Statement (.jircMem src) := Length.of_tail (source_words _ src) rfl
theorem Length.jbrcMem (src : SrcMode) : Length.Statement (.jbrcMem src) := Length.of_tail (source_words _ src) rfl
theorem Length.dip (src : SrcMode) : Length.Statement (.dip src) := Length.of_tail (source_words _ src) rfl
theorem Length.bdap (m : Size) (base : Reg) (off : SrcMode) : Length.Statement (.bdap m base off) := Length.of_tail (source_words _ off) rfl
theorem Length.jumpReg (rs : Reg) : Length.Statement (.jumpReg rs) := Length.of_tail rfl rfl
theorem Length.jsrReg (rs : Reg) : Length.Statement (.jsrReg rs) := Length.of_tail rfl rfl
theorem Length.jirReg (rs : Reg) : Length.Statement (.jirReg rs) := Length.of_tail rfl rfl
theorem Length.jsrcReg (rs : Reg) : Length.Statement (.jsrcReg rs) := Length.of_tail rfl rfl
theorem Length.jircReg (rs : Reg) : Length.Statement (.jircReg rs) := Length.of_tail rfl rfl
theorem Length.jbrcReg (rs : Reg) : Length.Statement (.jbrcReg rs) := Length.of_tail rfl rfl
theorem Length.ba16 (off : Half) : Length.Statement (.ba16 off) := Length.of_tail rfl rfl
theorem Length.bcc16 (c : Cond) (off : Half) : Length.Statement (.bcc16 c off) := Length.of_tail rfl rfl
theorem Length.boundMem (m : Size) (rd : Reg) (src : SrcMode) : Length.Statement (.boundMem m rd src) := Length.of_tail (source_words _ src) rfl
theorem Length.popSpecial (pd : PNum) : Length.Statement (.popSpecial pd) := Length.of_tail rfl rfl
theorem Length.moveMemToSpecial (pd : PNum) (src : SrcMode) : Length.Statement (.moveMemToSpecial pd src) := Length.of_tail (source_words _ src) rfl
theorem Length.addMem (m : Size) (rd : Reg) (src : SrcMode) : Length.Statement (.addMem m rd src) := Length.of_tail (source_words _ src) rfl
theorem Length.popReg (rd : Reg) : Length.Statement (.popReg rd) := Length.of_tail rfl rfl
theorem Length.clearByteMem (dst : AddrMode) : Length.Statement (.clearByteMem dst) := Length.of_tail rfl rfl
theorem Length.clearWordMem (dst : AddrMode) : Length.Statement (.clearWordMem dst) := Length.of_tail rfl rfl
theorem Length.clearDwordMem (dst : AddrMode) : Length.Statement (.clearDwordMem dst) := Length.of_tail rfl rfl
theorem Length.moveSpecialToMem (ps : PNum) (dst : AddrMode) : Length.Statement (.moveSpecialToMem ps dst) := Length.of_tail rfl rfl
theorem Length.moveMemToReg (m : Size) (rd : Reg) (src : SrcMode) : Length.Statement (.moveMemToReg m rd src) := Length.of_tail (source_words _ src) rfl
theorem Length.subMem (m : Size) (rd : Reg) (src : SrcMode) : Length.Statement (.subMem m rd src) := Length.of_tail (source_words _ src) rfl
theorem Length.cmpMem (m : Size) (rd : Reg) (src : SrcMode) : Length.Statement (.cmpMem m rd src) := Length.of_tail (source_words _ src) rfl
theorem Length.andMem (m : Size) (rd : Reg) (src : SrcMode) : Length.Statement (.andMem m rd src) := Length.of_tail (source_words _ src) rfl
theorem Length.orMem (m : Size) (rd : Reg) (src : SrcMode) : Length.Statement (.orMem m rd src) := Length.of_tail (source_words _ src) rfl
theorem Length.movemLoad (rd : Reg) (src : AddrMode) : Length.Statement (.movemLoad rd src) := Length.of_tail rfl rfl
theorem Length.testMem (m : Size) (src : SrcMode) : Length.Statement (.testMem m src) := Length.of_tail (source_words _ src) rfl
theorem Length.movemStore (rs : Reg) (dst : AddrMode) : Length.Statement (.movemStore rs dst) := Length.of_tail rfl rfl
theorem Length.moveRegToMem (m : Size) (rs : Reg) (dst : AddrMode) : Length.Statement (.moveRegToMem m rs dst) := Length.of_tail rfl rfl
theorem Length.testReg (m : Size) (rn : Reg) : Length.Statement (.testReg m rn) := Length.of_tail rfl rfl
theorem Length.pushReg (rn : Reg) : Length.Statement (.pushReg rn) := rfl
theorem Length.pushSpecial (pn : PNum) : Length.Statement (.pushSpecial pn) := rfl

end Sys2Proof.Laws
end

