-- ==== Sys2Proof/Tests/Slice0.lean ====
section
/-! SUPPORT. The model's own tests: ill-formed terms, words written out from the spec's encodings, one step of each instruction with the results that 95_test_vectors.md or a hand calculation gives, and witnesses for the hypotheses of the statements. -/

namespace Sys2Proof.Tests

open Sys2Proof Sys2Proof.Machine

/-! ## Small states -/

/-- pc = 0x1000, everything else as after reset. -/
def calm : State := { State.reset with pc := 0x1000#32 }

/-- The words at 0x1000 and the registers given. -/
def start (words : List Half) (regs : List (Reg × Word)) : State :=
  (regs.foldl (fun (s : State) p => s.setGpr p.1 p.2) calm).place words

/-- The flags M B I X N Z V C from the bits of a byte. -/
def flagsOf (b : Byte) : Flags :=
  ⟨b.getLsbD 7, b.getLsbD 6, b.getLsbD 5, b.getLsbD 4, b.getLsbD 3, b.getLsbD 2, b.getLsbD 1, b.getLsbD 0⟩

/-- The state with these flags. -/
def withFlags (s : State) (b : Byte) : State := { s with flags := flagsOf b }

/-- The state with these bytes from address `a`. -/
def withBytes (s : State) (a : Word) (bytes : List Byte) : State :=
  { s with mem := (bytes.foldl (fun (p : Memory × Word) b => (p.1.store 1 p.2 (b.setWidth 32), p.2 + 1)) (s.mem, a)).1 }

/-- What `f` sees in the next state, if there is one. -/
def seen {α : Type} (o : Result State) (f : State → α) : Option α :=
  match o with
  | .next t => some (f t)
  | _ => none

/-- The outcome is a refusal. -/
def isRefusal (o : Result State) : Bool :=
  match o with
  | .refused _ => true
  | _ => false

/-! ## WellFormed: each check refuses an ill-formed term -/

theorem test_wf_reserved : (Instr.reserved 0x0622).wellFormed = false ∧ (Instr.reserved 0x0570).wellFormed = true := by
  decide
theorem test_wf_branch : (Instr.bcc8 .a 4).wellFormed = false ∧ (Instr.bcc16 .a 4).wellFormed = false := by decide
theorem test_wf_addi_nop : (Instr.addi .b 15 0).wellFormed = false ∧ (Instr.addi .b 15 1).wellFormed = true := by decide
theorem test_wf_flag_lists : (Instr.setf 0x10).wellFormed = false ∧ (Instr.setf 0x20).wellFormed = false ∧
    (Instr.clearf 0x20).wellFormed = false ∧ (Instr.clearf 0x10).wellFormed = true := by decide
theorem test_wf_special_to_reg : (Instr.moveSpecialToReg 4 3).wellFormed = false ∧
    (Instr.moveSpecialToReg 11 15).wellFormed = false ∧ (Instr.moveSpecialToReg 11 3).wellFormed = true := by decide
theorem test_wf_swap : (Instr.swap 8 3).wellFormed = false := by decide
theorem test_wf_special_to_mem : (Instr.moveSpecialToMem 8 (.plain 3)).wellFormed = false := by decide
theorem test_wf_pop : (Instr.moveMemToReg .d 3 (.mem (.inc 14))).wellFormed = false ∧
    (Instr.moveMemToSpecial 9 (.mem (.inc 14))).wellFormed = false ∧
    (Instr.moveMemToReg .w 3 (.mem (.inc 14))).wellFormed = true := by decide
theorem test_wf_jump : (Instr.jumpMem (.inc 15)).wellFormed = false := by decide
theorem test_wf_assembler_names : (Instr.testReg .d 3).wellFormed = false ∧ (Instr.pushReg 3).wellFormed = false ∧
    (Instr.pushSpecial 9).wellFormed = false := by decide
/-- Immediate data that does not fit its size, and PC written as an autoincrement register. -/
theorem test_wf_extending_sources :
    (Instr.adduMem .b 3 (.imm 0x100)).wellFormed = false ∧ (Instr.addsMem .w 3 (.imm 0x10000)).wellFormed = false ∧
    (Instr.movuMem .b 3 (.imm 0x100)).wellFormed = false ∧ (Instr.movsMem .w 3 (.imm 0x10000)).wellFormed = false ∧
    (Instr.subuMem .b 3 (.imm 0x100)).wellFormed = false ∧ (Instr.subsMem .w 3 (.mem (.inc 15))).wellFormed = false ∧
    (Instr.cmpuMem .b 3 (.mem (.inc 15))).wellFormed = false ∧
    (Instr.cmpsMem .w 3 (.imm 0x10000)).wellFormed = false := by decide
theorem test_wf_sized_sources :
    (Instr.bdap .b 3 (.imm 0x100)).wellFormed = false ∧ (Instr.boundMem .w 3 (.imm 0x10000)).wellFormed = false ∧
    (Instr.addMem .b 3 (.imm 0x100)).wellFormed = false ∧ (Instr.subMem .w 3 (.imm 0x10000)).wellFormed = false ∧
    (Instr.cmpMem .d 3 (.mem (.inc 15))).wellFormed = false ∧ (Instr.andMem .b 3 (.imm 0x100)).wellFormed = false ∧
    (Instr.orMem .w 3 (.imm 0x10000)).wellFormed = false ∧ (Instr.testMem .b (.imm 0x100)).wellFormed = false ∧
    (Instr.moveMemToReg .b 3 (.imm 0x100)).wellFormed = false ∧
    (Instr.moveMemToSpecial 5 (.imm 0x10000)).wellFormed = false := by decide
theorem test_wf_dword_sources :
    (Instr.jsrMem (.mem (.inc 15))).wellFormed = false ∧ (Instr.jirMem (.mem (.inc 15))).wellFormed = false ∧
    (Instr.jsrcMem (.mem (.inc 15))).wellFormed = false ∧ (Instr.jircMem (.mem (.inc 15))).wellFormed = false ∧
    (Instr.jbrcMem (.mem (.inc 15))).wellFormed = false ∧ (Instr.dip (.mem (.inc 15))).wellFormed = false := by decide
/-- The restrictions on operands (rules R34, R167, R174, R265). -/
theorem test_legal : (Instr.moveRegToSpecial 15 0).legal = false ∧ (Instr.lslq 15 1).legal = false ∧
    (Instr.moveSpecialToReg 5 15).legal = false ∧ (Instr.movemStore 15 (.plain 2)).legal = false ∧
    (Instr.reserved 0x0570).legal = false ∧ (Instr.moveSpecialToReg 11 15).legal = true := by decide

/-! ## Decoding words written out from the spec's encodings (Part 2 of 95_test_vectors.md and rules R102 to R112) -/

theorem test_decode_quick :
    decodeWord 0xF004 0 = .reserved 0xF004 ∧ decodeWord 0xE004 0 = .ba8 4 ∧ decodeWord 0x7001 0 = .bcc8 .mi 1 ∧
    decodeWord 0x61FC 0 = .bdapQuick 6 0xFC ∧ decodeWord 0x023F 0 = .addq 0 63 ∧ decodeWord 0x0260 0 = .moveq 0 0x20 ∧
    decodeWord 0x0281 0 = .subq 0 1 ∧ decodeWord 0x02FF 0 = .cmpq 0 0x3F ∧ decodeWord 0x033E 0 = .andq 0 0x3E ∧
    decodeWord 0x037F 0 = .orq 0 0x3F ∧ decodeWord 0x039F 0 = .btstq 0 31 ∧ decodeWord 0x03BF 0 = .asrq 0 31 ∧
    decodeWord 0x13D0 0 = .lslq 1 16 ∧ decodeWord 0x03FF 0 = .lsrq 0 31 := by decide
theorem test_decode_register_arithmetic :
    decodeWord 0x0401 0 = .adduReg .b 0 1 ∧ decodeWord 0x1433 0 = .addsReg .w 1 3 ∧ decodeWord 0x0451 0 = .movuReg .w 0 1 ∧
    decodeWord 0x0461 0 = .movsReg .b 0 1 ∧ decodeWord 0x0481 0 = .subuReg .b 0 1 ∧ decodeWord 0x04A1 0 = .subsReg .b 0 1 ∧
    decodeWord 0x04F1 0 = .btst 0 1 ∧ decodeWord 0x04D1 0 = .lsl .w 0 1 ∧ decodeWord 0x1520 0 = .addi .d 0 1 ∧
    decodeWord 0x05A1 0 = .neg .d 0 1 ∧ decodeWord 0x05C1 0 = .boundReg .b 0 1 ∧ decodeWord 0x0611 0 = .addReg .w 0 1 ∧
    decodeWord 0x0651 0 = .moveReg .w 0 1 ∧ decodeWord 0x06B1 0 = .absReg 0 1 ∧ decodeWord 0x16A3 0 = .subReg .d 1 3 ∧
    decodeWord 0x16F0 0 = .dstep 1 0 ∧ decodeWord 0x16E3 0 = .cmpReg .d 1 3 ∧ decodeWord 0x0731 0 = .lz 0 1 ∧
    decodeWord 0x0701 0 = .andReg .b 0 1 ∧ decodeWord 0x8770 0 = .notReg 0 ∧ decodeWord 0x6770 0 = .swap 6 0 ∧
    decodeWord 0x0741 0 = .orReg .b 0 1 ∧ decodeWord 0x07B1 0 = .xorReg 0 1 ∧ decodeWord 0x07A1 0 = .asr .d 0 1 ∧
    decodeWord 0x17F0 0 = .mstep 1 0 ∧ decodeWord 0x07C1 0 = .lsr .b 0 1 := by decide
theorem test_decode_register_system :
    decodeWord 0x050F 0 = .nop ∧ decodeWord 0x9533 0 = .scc .hi 3 ∧ decodeWord 0x7556 0 = .biap .w 7 6 ∧
    decodeWord 0x15B0 0 = .ax ∧ decodeWord 0x25B0 0 = .ei ∧ decodeWord 0x05B5 0 = .setf 5 ∧ decodeWord 0x25F0 0 = .di ∧
    decodeWord 0xF5FF 0 = .clearf 0xFF ∧ decodeWord 0x9630 0 = .moveRegToSpecial 9 0 ∧ decodeWord 0xB67F 0 = .ret ∧
    decodeWord 0xA67F 0 = .reti ∧ decodeWord 0xE67F 0 = .retb ∧ decodeWord 0x0675 0 = .clearByteReg 5 ∧
    decodeWord 0x4675 0 = .clearWordReg 5 ∧ decodeWord 0x8675 0 = .clearDwordReg 5 ∧
    decodeWord 0xD671 0 = .moveSpecialToReg 13 1 := by decide
theorem test_decode_memory_arithmetic :
    decodeWord 0x3C1F 0xFFFF = .adduMem .w 3 (.imm 0xFFFF) ∧ decodeWord 0x3C2F 0xFF = .addsMem .b 3 (.imm 0xFF) ∧
    decodeWord 0x3C42 0 = .movuMem .b 3 (.mem (.inc 2)) ∧ decodeWord 0x3C72 0 = .movsMem .w 3 (.mem (.inc 2)) ∧
    decodeWord 0x0892 0 = .subuMem .w 0 (.mem (.plain 2)) ∧ decodeWord 0x08A2 0 = .subsMem .b 0 (.mem (.plain 2)) ∧
    decodeWord 0x08C2 0 = .cmpuMem .b 0 (.mem (.plain 2)) ∧ decodeWord 0x08E2 0 = .cmpsMem .b 0 (.mem (.plain 2)) ∧
    decodeWord 0x0DEF 3 = .boundMem .d 0 (.imm 3) ∧ decodeWord 0x3E22 0 = .addMem .d 3 (.mem (.inc 2)) ∧
    decodeWord 0x3A92 0 = .subMem .w 3 (.mem (.plain 2)) ∧
    decodeWord 0x3EEF 0x80000000 = .cmpMem .d 3 (.imm 0x80000000) ∧
    decodeWord 0x3B22 0 = .andMem .d 3 (.mem (.plain 2)) ∧ decodeWord 0x3B62 0 = .orMem .d 3 (.mem (.plain 2)) ∧
    decodeWord 0x0B92 0 = .testMem .w (.mem (.plain 2)) := by decide
theorem test_decode_memory_moves :
    decodeWord 0x3E4F 0xAA7F = .moveMemToReg .b 3 (.imm 0x7F) ∧ decodeWord 0x3E6E 0 = .popReg 3 ∧
    decodeWord 0x2FB5 0 = .movemLoad 2 (.inc 5) ∧ decodeWord 0x2BF5 0 = .movemStore 2 (.plain 5) ∧
    decodeWord 0x3FC2 0 = .moveRegToMem .b 3 (.inc 2) ∧ decodeWord 0x5E3E 0 = .popSpecial 5 ∧
    decodeWord 0x9E3F 0x10000 = .moveMemToSpecial 9 (.imm 0x10000) ∧
    decodeWord 0xBE72 0 = .moveSpecialToMem 11 (.inc 2) ∧ decodeWord 0x0A75 0 = .clearByteMem (.plain 5) ∧
    decodeWord 0x4E75 0 = .clearWordMem (.inc 5) ∧ decodeWord 0x8A75 0 = .clearDwordMem (.plain 5) := by decide
theorem test_decode_control :
    decodeWord 0xE933 0 = .brk 3 ∧ decodeWord 0x0D3F 0x15A = .jumpImm 0x15A ∧ decodeWord 0x0D3E 0 = .jumpMem (.inc 14) ∧
    decodeWord 0xBD3F 0x4000 = .jsrMem (.imm 0x4000) ∧ decodeWord 0xA933 0 = .jirMem (.mem (.plain 3)) ∧
    decodeWord 0x3D3F 0x4000 = .jsrcMem (.imm 0x4000) ∧ decodeWord 0x2D33 0 = .jircMem (.mem (.inc 3)) ∧
    decodeWord 0x6D3F 0x4000 = .jbrcMem (.imm 0x4000) ∧ decodeWord 0x0D76 0 = .dip (.mem (.inc 6)) ∧
    decodeWord 0x6D6F 0x12345 = .bdap .d 6 (.imm 0x12345) ∧ decodeWord 0x09B3 0 = .jumpReg 3 ∧
    decodeWord 0xB9B3 0 = .jsrReg 3 ∧ decodeWord 0xA9B3 0 = .jirReg 3 ∧ decodeWord 0x39B3 0 = .jsrcReg 3 ∧
    decodeWord 0x29B3 0 = .jircReg 3 ∧ decodeWord 0x69B3 0 = .jbrcReg 3 ∧ decodeWord 0xEDFF 0xFFFC = .ba16 0xFFFC ∧
    decodeWord 0x3DFF 0x100 = .bcc16 .eq 0x100 := by decide
/-- The words of the assembler names (rules R110, R202): they decode to the instructions the names stand for. -/
theorem test_encode_assembler_names :
    encode (.pushReg 3) = [0xE1FC, 0x3FEE] ∧ encode (.pushSpecial 5) = [0xE1FE, 0x5E7E] ∧
    encode (.testReg .d 0) = [0x0660] := by decide
/-- Reserved patterns of each mode (vectors X1, X25 to X29, X33). -/
theorem test_decode_reserved :
    decodeWord 0x0570 0 = .reserved 0x0570 ∧ decodeWord 0x0AB0 0 = .reserved 0x0AB0 ∧
    decodeWord 0x19B3 0 = .reserved 0x19B3 ∧ decodeWord 0xED30 0 = .reserved 0xED30 ∧
    decodeWord 0x1BA2 0 = .reserved 0x1BA2 ∧ decodeWord 0x1976 0 = .reserved 0x1976 := by decide
theorem test_decode_rejects : decode [] = .error .noWord ∧ decode [0x3E4F] = .error .immediateDataMissing := by
  constructor <;> rfl

/-! ## The memory -/

theorem test_memory_canonical :
    Memory.store (Memory.store [] 4 0x2000 0x00BB00DD) 1 0x2000 0 = [(0x2002, 0xBB)] := by decide
theorem test_memory_alias : Memory.store [] 2 0x7FFFFFFF 0x1234 = [(0, 0x12), (0x7FFFFFFF, 0x34)] := by decide

/-! ## One step of each instruction -/

/-- V1: MOVE.D [R6+R7.B],R3 (rule R138). -/
theorem test_biap_moveMemToReg_V1 :
    seen (step (withBytes (start [0x7546, 0x3A63] [(6, 0x2000), (7, 0x5)]) 0x2005 [0xBE, 0xBA, 0xFE, 0xCA]))
    (fun t => (t.gpr 3 0, t.flags.toByte, t.pc)) = some (0xCAFEBABE, 0x08, 0x1004) := by decide
/-- V4: MOVE.D [R8=R6+27],R3 (rules R141, R144). -/
theorem test_bdapQuick_moveMemToReg_V4 :
    seen (step (withBytes (start [0x611B, 0x3E68] [(6, 0x2000)]) 0x201B [0x04, 0x03, 0x02, 0x01]))
    (fun t => (t.gpr 3 0, t.gpr 8 0, t.flags.toByte, t.pc)) = some (0x1020304, 0x201B, 0x00, 0x1004) := by decide
/-- V8: MOVE.D [R6+0x12345],R3 (rule R141). -/
theorem test_bdap_moveMemToReg_V8 :
    seen (step (withBytes (start [0x6D6F, 0x2345, 0x0001, 0x3A63] [(6, 0x1000)]) 0x13345 [0xA5, 0xA5, 0xA5, 0xA5]))
    (fun t => (t.gpr 3 0, t.flags.toByte, t.pc)) = some (0xA5A5A5A5, 0x08, 0x1008) := by decide
/-- V9: MOVE.B [R6+[R7+].W],R3 (offset word -2) (rule R141). -/
theorem test_bdap_moveMemToReg_V9 :
    seen (step (withBytes (withBytes (start [0x6D57, 0x3A43] [(6, 0x2000), (7, 0x2100), (3, 0xFFFFFF00)]) 0x2100 [0xFE, 0xFF]) 0x1FFE [0x7A]))
    (fun t => (t.gpr 3 0, t.gpr 7 0, t.flags.toByte, t.pc)) = some (0xFFFFFF7A, 0x2102, 0x00, 0x1004) := by decide
/-- V10: MOVE.D [[R6+]],R3 (rule R145). -/
theorem test_dip_moveMemToReg_V10 :
    seen (step (withBytes (withBytes (start [0x0D76, 0x3A63] [(6, 0x2000)]) 0x2000 [0x00, 0x24, 0x00, 0x00]) 0x2400 [0x99, 0x00, 0x00, 0x00]))
    (fun t => (t.gpr 3 0, t.gpr 6 0, t.flags.toByte, t.pc)) = some (0x99, 0x2004, 0x00, 0x1004) := by decide
/-- V6: JUMP [0x15A]  (D0: JUMP [346]) (rules R146, R165). -/
theorem test_dip_jumpMem_V6 :
    seen (step (withBytes (start [0x0D7F, 0x015A, 0x0000, 0x0930] []) 0x15A [0x00, 0x40, 0x00, 0x00]))
    (fun t => (t.flags.toByte, t.pc)) = some (0x00, 0x4000) := by decide
/-- V7: JUMP [PC+R3.D]; .DWORD 0x2000, 0x2100, 0x2200 (rules R139, R165). -/
theorem test_biap_jumpMem_V7 :
    seen (step (start [0x356F, 0x0930, 0x2000, 0x0000, 0x2100, 0x0000, 0x2200, 0x0000] [(3, 0x2)]))
    (fun t => (t.flags.toByte, t.pc)) = some (0x00, 0x2200) := by decide
/-- V12: ADD.D [R2+],R3 (unaligned dword) (rules R134, R231, R64). -/
theorem test_addMem_V12 :
    seen (step (withBytes (start [0x3E22] [(2, 0x2002), (3, 0x1)]) 0x2002 [0xFF, 0xFF, 0xFF, 0x7F]))
    (fun t => (t.gpr 2 0, t.gpr 3 0, t.flags.toByte, t.pc)) = some (0x2006, 0x80000000, 0x0A, 0x1002) := by decide
/-- V13: MOVE.D R3,[R2] (dword at 0x2003: split access) (rules R263, R64). -/
theorem test_moveRegToMem_V13 :
    seen (step (start [0x3BE2] [(2, 0x2003), (3, 0xAABBCCDD)]))
    (fun t => (t.mem.load 4 0x2003, t.flags.toByte, t.pc)) = some (0xAABBCCDD, 0x00, 0x1002) := by decide
/-- V14: MOVE.D [R2],R3 (address wraps past 0xFFFFFFFF) (rule R62). -/
theorem test_moveMemToReg_V14 :
    seen (step (withBytes (withBytes (start [0x3A62] [(2, 0xFFFFFFFE)]) 0xFFFFFFFE [0x01, 0x02]) 0x0 [0x03, 0x04]))
    (fun t => (t.gpr 3 0, t.flags.toByte, t.pc)) = some (0x4030201, 0x00, 0x1002) := by decide
/-- V15: MOVE.B 0x7F,R3 (byte immediate occupies a word; high byte 0xAA ignored) (rules R135, R97, R262). -/
theorem test_moveMemToReg_V15 :
    seen (step (start [0x3E4F, 0xAA7F] [(3, 0x11223344)]))
    (fun t => (t.gpr 3 0, t.flags.toByte, t.pc)) = some (0x1122337F, 0x00, 0x1004) := by decide
/-- V16: MOVE.B R3,[R2+] (rules R263, R134). -/
theorem test_moveRegToMem_V16 :
    seen (step (start [0x3FC2] [(2, 0x2000), (3, 0x1FF)]))
    (fun t => (t.gpr 2 0, t.mem.load 1 0x2000, t.flags.toByte, t.pc)) = some (0x2001, 0xFF, 0x00, 0x1002) := by decide
/-- V17: MOVEM [R5+],R2 (rule R266). -/
theorem test_movemLoad_V17 :
    seen (step (withBytes (start [0x2FB5] [(5, 0x2000)]) 0x2000 [0x0C, 0x00, 0x00, 0x00, 0x0B, 0x00, 0x00, 0x00, 0x0A, 0x00, 0x00, 0x00]))
    (fun t => (t.gpr 0 0, t.gpr 1 0, t.gpr 2 0, t.gpr 5 0, t.flags.toByte, t.pc)) = some (0xA, 0xB, 0xC, 0x200C, 0x00, 0x1002) := by decide
/-- V18: MOVEM R2,[R5] (rule R265). -/
theorem test_movemStore_V18 :
    seen (step (start [0x2BF5] [(5, 0x2000), (0, 0xA), (1, 0xB), (2, 0xC)]))
    (fun t => (t.mem.load 4 0x2000, t.mem.load 4 0x2004, t.mem.load 4 0x2008, t.flags.toByte, t.pc)) = some (0xC, 0xB, 0xA, 0x00, 0x1002) := by decide
/-- V20: PUSH CCR (rules R202, R200). -/
theorem test_bdapQuick_moveSpecialToMem_V20 :
    seen (step (withFlags (start [0xE1FE, 0x5E7E] [(14, 0x3000)]) 0x29))
    (fun t => (t.gpr 14 0, t.mem.load 2 0x2FFE, t.flags.toByte, t.pc, t.irqWindow)) = some (0x2FFE, 0x29, 0x29, 0x1004, true) := by decide
/-- V21: POP R3 (rule R203). -/
theorem test_popReg_V21 :
    seen (step (withBytes (start [0x3E6E] [(14, 0x2FFC)]) 0x2FFC [0x00, 0x00, 0x00, 0x80]))
    (fun t => (t.gpr 3 0, t.gpr 14 0, t.flags.toByte, t.pc)) = some (0x80000000, 0x3000, 0x08, 0x1002) := by decide
/-- V22: POP CCR (M kept, X cleared) (rules R203, R199, R40). -/
theorem test_popSpecial_V22 :
    seen (step (withBytes (withFlags (start [0x5E3E] [(14, 0x2FFE)]) 0x90) 0x2FFE [0xFF, 0xFF]))
    (fun t => (t.gpr 14 0, t.flags.toByte, t.pc, t.irqWindow)) = some (0x3000, 0xEF, 0x1002, true) := by decide
/-- V30: BEQ +0x100 (16-bit form), taken (rule R160). -/
theorem test_bcc16_V30 :
    seen (step (withFlags (start [0x3DFF, 0x0100] []) 0x04))
    (fun t => (t.flags.toByte, t.pc, t.slot, t.irqWindow)) = some (0x04, 0x1004, .pending 0x1104, true) := by decide
/-- V31: BEQ +0x100 (16-bit form), not taken (rule R160). -/
theorem test_bcc16_V31 :
    seen (step (start [0x3DFF, 0x0100] []))
    (fun t => (t.flags.toByte, t.pc, t.irqWindow)) = some (0x00, 0x1004, true) := by decide
/-- V32: BA -4 (16-bit form) (rule R160). -/
theorem test_ba16_V32 :
    seen (step (start [0xEDFF, 0xFFFC] []))
    (fun t => (t.flags.toByte, t.pc, t.slot, t.irqWindow)) = some (0x00, 0x1004, .pending 0x1000, true) := by decide
/-- V33: BNE to itself (8-bit form, offset -2) (rule R160). -/
theorem test_bcc8_V33 :
    seen (step (start [0x20FF] []))
    (fun t => (t.flags.toByte, t.pc, t.slot, t.irqWindow)) = some (0x00, 0x1002, .pending 0x1000, true) := by decide
/-- V35: BMI -256 (8-bit form, smallest offset) (rule R160). -/
theorem test_bcc8_V35 :
    seen (step (withFlags (start [0x7001] []) 0x08))
    (fun t => (t.flags.toByte, t.pc, t.slot, t.irqWindow)) = some (0x08, 0x1002, .pending 0xF02, true) := by decide
/-- V50: JUMP R3 (rule R165). -/
theorem test_jumpReg_V50 :
    seen (step (start [0x09B3] [(3, 0x4000)]))
    (fun t => (t.flags.toByte, t.pc)) = some (0x00, 0x4000) := by decide
/-- V51: JSR R3 (rule R168). -/
theorem test_jsrReg_V51 :
    seen (step (start [0xB9B3] [(3, 0x4000)]))
    (fun t => (t.srp, t.flags.toByte, t.pc)) = some (0x1002, 0x00, 0x4000) := by decide
/-- V52: JSR 0x4000 (rule R168). -/
theorem test_jsrMem_V52 :
    seen (step (start [0xBD3F, 0x4000, 0x0000] []))
    (fun t => (t.srp, t.flags.toByte, t.pc)) = some (0x1006, 0x00, 0x4000) := by decide
/-- V53: JSRC 0x4000 (rule R170). -/
theorem test_jsrcMem_V53 :
    seen (step (start [0x3D3F, 0x4000, 0x0000] []))
    (fun t => (t.srp, t.flags.toByte, t.pc)) = some (0x100A, 0x00, 0x4000) := by decide
/-- V54: JSRC R3 (rule R170). -/
theorem test_jsrcReg_V54 :
    seen (step (start [0x39B3] [(3, 0x4000)]))
    (fun t => (t.srp, t.flags.toByte, t.pc)) = some (0x1006, 0x00, 0x4000) := by decide
/-- V55: JIR [R3] (rule R169). -/
theorem test_jirMem_V55 :
    seen (step (withBytes (start [0xA933] [(3, 0x2000)]) 0x2000 [0x00, 0x40, 0x00, 0x00]))
    (fun t => (t.irp, t.flags.toByte, t.pc)) = some (0x1002, 0x00, 0x4000) := by decide
/-- V56: JIRC [R3+] (rule R170). -/
theorem test_jircMem_V56 :
    seen (step (withBytes (start [0x2D33] [(3, 0x2000)]) 0x2000 [0x00, 0x40, 0x00, 0x00]))
    (fun t => (t.gpr 3 0, t.irp, t.flags.toByte, t.pc)) = some (0x2004, 0x1006, 0x00, 0x4000) := by decide
/-- V57: JBRC 0x4000 (rule R170). -/
theorem test_jbrcMem_V57 :
    seen (step (start [0x6D3F, 0x4000, 0x0000] []))
    (fun t => (t.brp, t.flags.toByte, t.pc)) = some (0x100A, 0x00, 0x4000) := by decide
/-- V58: JUMP [SP+] (rule R165). -/
theorem test_jumpMem_V58 :
    seen (step (withBytes (start [0x0D3E] [(14, 0x2FFC)]) 0x2FFC [0x0C, 0x10, 0x00, 0x00]))
    (fun t => (t.gpr 14 0, t.flags.toByte, t.pc)) = some (0x3000, 0x00, 0x100C) := by decide
/-- V60: ADD.B R1,PC (only the low byte of pc is replaced) (rule R166). -/
theorem test_addReg_V60 :
    seen (step (start [0xF601] [(1, 0x10)]))
    (fun t => (t.flags.toByte, t.pc)) = some (0x00, 0x1012) := by decide
/-- V63: RET (first step only) (rule R171). -/
theorem test_ret_V63 :
    seen (step ({ start [0xB67F, 0x0201] [] with srp := 0x4000 }))
    (fun t => (t.flags.toByte, t.pc, t.slot, t.irqWindow)) = some (0x00, 0x1002, .pending 0x4000, true) := by decide
/-- V70: SETF MBIXNZVC (rule R191). -/
theorem test_setf_V70 :
    seen (step (start [0xF5BF] []))
    (fun t => (t.flags.toByte, t.pc, t.irqWindow)) = some (0xFF, 0x1002, true) := by decide
/-- V71: CLEARF MBIXNZVC (M cannot be cleared) (rule R192). -/
theorem test_clearf_V71 :
    seen (step (withFlags (start [0xF5FF] []) 0xFF))
    (fun t => (t.flags.toByte, t.pc)) = some (0x80, 0x1002) := by decide
/-- V72: SETF ZC with X=1 (rules R191, R42). -/
theorem test_setf_V72 :
    seen (step (withFlags (start [0x05B5] []) 0x10))
    (fun t => (t.flags.toByte, t.pc)) = some (0x05, 0x1002) := by decide
/-- V73: AX with C=1 (rule R193). -/
theorem test_ax_V73 :
    seen (step (withFlags (start [0x15B0] []) 0x01))
    (fun t => (t.flags.toByte, t.pc, t.irqWindow)) = some (0x11, 0x1002, true) := by decide
/-- V74: EI (rule R195). -/
theorem test_ei_V74 :
    seen (step (start [0x25B0] []))
    (fun t => (t.flags.toByte, t.pc)) = some (0x20, 0x1002) := by decide
/-- V75: DI (rule R194). -/
theorem test_di_V75 :
    seen (step (withFlags (start [0x25F0] []) 0x28))
    (fun t => (t.flags.toByte, t.pc)) = some (0x08, 0x1002) := by decide
/-- V77: MOVE R0,CCR with M=1 (rules R197, R40). -/
theorem test_moveRegToSpecial_V77 :
    seen (step (withFlags (start [0x5630] [(0, 0xFFFF)]) 0x80))
    (fun t => (t.flags.toByte, t.pc, t.irqWindow)) = some (0xEF, 0x1002, true) := by decide
/-- V80: MOVE CCR,R0 (16 bits written) (rules R198, R27). -/
theorem test_moveSpecialToReg_V80 :
    seen (step (withFlags (start [0x5670] [(0, 0xAAAAAAAA)]) 0xEF))
    (fun t => (t.gpr 0 0, t.flags.toByte, t.pc, t.irqWindow)) = some (0xAAAA00EF, 0xEF, 0x1002, true) := by decide
/-- V82: MOVE VR,R0 (8 bits written; VR_VALUE = 8) (rules R198, R26). -/
theorem test_moveSpecialToReg_V82 :
    seen (step (start [0x1670] [(0, 0xAABBCCDD)]))
    (fun t => (t.gpr 0 0, t.flags.toByte, t.pc, t.irqWindow)) = some (0xAABBCC08, 0x00, 0x1002, true) := by decide
/-- V84: MOVE R0,IBR (low 16 bits stay 0) (rules R197, R29). -/
theorem test_moveRegToSpecial_V84 :
    seen (step (start [0x9630] [(0, 0x1234FFFF)]))
    (fun t => (t.ibr, t.flags.toByte, t.pc, t.irqWindow)) = some (0x12340000, 0x00, 0x1002, true) := by decide
/-- V85: MOVE 0x10000,IBR (rule R199). -/
theorem test_moveMemToSpecial_V85 :
    seen (step (start [0x9E3F, 0x0000, 0x0001] []))
    (fun t => (t.ibr, t.flags.toByte, t.pc, t.irqWindow)) = some (0x10000, 0x00, 0x1006, true) := by decide
/-- V86: MOVE 0x20,CCR (rules R199, R40). -/
theorem test_moveMemToSpecial_V86 :
    seen (step (withFlags (start [0x5E3F, 0x0020] []) 0xFF))
    (fun t => (t.flags.toByte, t.pc, t.irqWindow)) = some (0xA0, 0x1004, true) := by decide
/-- V88: MOVE SRP,[R2+] (rule R200). -/
theorem test_moveSpecialToMem_V88 :
    seen (step ({ start [0xBE72] [(2, 0x2000)] with srp := 0x11223344 }))
    (fun t => (t.gpr 2 0, t.mem.load 4 0x2000, t.flags.toByte, t.pc, t.irqWindow)) = some (0x2004, 0x11223344, 0x00, 0x1002, true) := by decide
/-- V89: CLEAR.B R5 (rule R201). -/
theorem test_clearByteReg_V89 :
    seen (step (withFlags (start [0x0675] [(5, 0xFFFFFFFF)]) 0x08))
    (fun t => (t.gpr 5 0, t.flags.toByte, t.pc, t.irqWindow)) = some (0xFFFFFF00, 0x08, 0x1002, true) := by decide
/-- V90: CLEAR.W R5 (rule R201). -/
theorem test_clearWordReg_V90 :
    seen (step (start [0x4675] [(5, 0xFFFFFFFF)]))
    (fun t => (t.gpr 5 0, t.flags.toByte, t.pc, t.irqWindow)) = some (0xFFFF0000, 0x00, 0x1002, true) := by decide
/-- V91: CLEAR.D R5 (rule R201). -/
theorem test_clearDwordReg_V91 :
    seen (step (start [0x8675] [(5, 0xFFFFFFFF)]))
    (fun t => (t.gpr 5 0, t.flags.toByte, t.pc, t.irqWindow)) = some (0x0, 0x00, 0x1002, true) := by decide
/-- V92: CLEAR.W [R5+] (rule R201). -/
theorem test_clearWordMem_V92 :
    seen (step (start [0x4E75] [(5, 0x2000)]))
    (fun t => (t.gpr 5 0, t.mem.load 2 0x2000, t.flags.toByte, t.pc, t.irqWindow)) = some (0x2002, 0x0, 0x00, 0x1002, true) := by decide
/-- V93: CLEAR.D [R5] (rule R201). -/
theorem test_clearDwordMem_V93 :
    seen (step (start [0x8A75] [(5, 0x2001)]))
    (fun t => (t.mem.load 4 0x2001, t.flags.toByte, t.pc, t.irqWindow)) = some (0x0, 0x00, 0x1002, true) := by decide
/-- V94: NOP (rule R196). -/
theorem test_nop_V94 :
    seen (step (withFlags (start [0x050F] []) 0xFF))
    (fun t => (t.flags.toByte, t.pc)) = some (0xEF, 0x1002) := by decide
/-- V95: BREAK 3 (rules R190, R307). -/
theorem test_brk_V95 :
    seen (step ({ start [0xE933] [] with ibrHigh := 0x1 }))
    (fun t => (t.brp, t.flags.toByte, t.pc)) = some (0x1002, 0x00, 0x10018) := by decide
/-- V97: BREAK 15 (rule R190). -/
theorem test_brk_V97 :
    seen (step ({ start [0xE93F] [] with ibrHigh := 0xFFFF }))
    (fun t => (t.brp, t.flags.toByte, t.pc)) = some (0x1002, 0x00, 0xFFFF0078) := by decide
/-- V101: ADD.W R1,R0 (bits 31:16 kept, flags on 16 bits) (rule R231). -/
theorem test_addReg_V101 :
    seen (step (start [0x0611] [(0, 0x1FFFF), (1, 0x1)]))
    (fun t => (t.gpr 0 0, t.flags.toByte, t.pc)) = some (0x10000, 0x05, 0x1002) := by decide
/-- V104: ADDQ 63,R0 (unsigned 6-bit immediate) (rule R232). -/
theorem test_addq_V104 :
    seen (step (start [0x023F] [(0, 0xFFFFFFC1)]))
    (fun t => (t.gpr 0 0, t.flags.toByte, t.pc)) = some (0x0, 0x05, 0x1002) := by decide
/-- V105: ADDS.B 0xFF,R3 (adds -1) (rule R233). -/
theorem test_addsMem_V105 :
    seen (step (start [0x3C2F, 0x00FF] [(3, 0x1)]))
    (fun t => (t.gpr 3 0, t.flags.toByte, t.pc)) = some (0x0, 0x05, 0x1004) := by decide
/-- V106: ADDS.W R3,R1 (low word 0x8000 sign-extended) (rule R233). -/
theorem test_addsReg_V106 :
    seen (step (start [0x1433] [(1, 0x5), (3, 0x12348000)]))
    (fun t => (t.gpr 1 0, t.flags.toByte, t.pc)) = some (0xFFFF8005, 0x08, 0x1002) := by decide
/-- V107: ADDU.W 0xFFFF,R3 (rule R234). -/
theorem test_adduMem_V107 :
    seen (step (start [0x3C1F, 0xFFFF] [(3, 0x1)]))
    (fun t => (t.gpr 3 0, t.flags.toByte, t.pc)) = some (0x10000, 0x00, 0x1004) := by decide
/-- V108: ADDU.B R1,R0 (rule R234). -/
theorem test_adduReg_V108 :
    seen (step (start [0x0401] [(0, 0x100), (1, 0xFFFFFF80)]))
    (fun t => (t.gpr 0 0, t.flags.toByte, t.pc)) = some (0x180, 0x00, 0x1002) := by decide
/-- V109: ADDI R1.D,R0 (no flag written) (rule R235). -/
theorem test_addi_V109 :
    seen (step (withFlags (start [0x1520] [(0, 0x1000), (1, 0x3)]) 0x0F))
    (fun t => (t.gpr 0 0, t.flags.toByte, t.pc)) = some (0x100C, 0x0F, 0x1002) := by decide
/-- V110: SUB.B R1,R0 (rule R236). -/
theorem test_subReg_V110 :
    seen (step (start [0x0681] [(0, 0xAABBCC00), (1, 0x1)]))
    (fun t => (t.gpr 0 0, t.flags.toByte, t.pc)) = some (0xAABBCCFF, 0x09, 0x1002) := by decide
/-- V111: SUB.W [R2],R3 (rule R236). -/
theorem test_subMem_V111 :
    seen (step (withBytes (start [0x3A92] [(2, 0x2000), (3, 0x10000)]) 0x2000 [0x01, 0x00]))
    (fun t => (t.gpr 3 0, t.flags.toByte, t.pc)) = some (0x1FFFF, 0x09, 0x1002) := by decide
/-- V112: SUBQ 1,R0 (rule R237). -/
theorem test_subq_V112 :
    seen (step (start [0x0281] [(0, 0x0)]))
    (fun t => (t.gpr 0 0, t.flags.toByte, t.pc)) = some (0xFFFFFFFF, 0x09, 0x1002) := by decide
/-- V113: SUBS.B R1,R0 (subtracts -1) (rule R238). -/
theorem test_subsReg_V113 :
    seen (step (start [0x04A1] [(0, 0x0), (1, 0xFF)]))
    (fun t => (t.gpr 0 0, t.flags.toByte, t.pc)) = some (0x1, 0x01, 0x1002) := by decide
/-- V114: SUBU.B R1,R0 (subtracts 255) (rule R239). -/
theorem test_subuReg_V114 :
    seen (step (start [0x0481] [(0, 0x0), (1, 0xFF)]))
    (fun t => (t.gpr 0 0, t.flags.toByte, t.pc)) = some (0xFFFFFF01, 0x09, 0x1002) := by decide
/-- V115: CMP.B R1,R0 (0x80 - 0x7F, signed overflow) (rule R240). -/
theorem test_cmpReg_V115 :
    seen (step (start [0x06C1] [(0, 0x80), (1, 0x7F)]))
    (fun t => (t.flags.toByte, t.pc)) = some (0x02, 0x1002) := by decide
/-- V116: CMP.D 0x80000000,R3 (rule R240). -/
theorem test_cmpMem_V116 :
    seen (step (start [0x3EEF, 0x0000, 0x8000] [(3, 0x7FFFFFFF)]))
    (fun t => (t.flags.toByte, t.pc)) = some (0x0B, 0x1006) := by decide
/-- V117: CMPQ -1,R0 (rule R241). -/
theorem test_cmpq_V117 :
    seen (step (start [0x02FF] [(0, 0xFFFFFFFF)]))
    (fun t => (t.flags.toByte, t.pc)) = some (0x04, 0x1002) := by decide
/-- V118: CMPS.B [R2],R0 (rule R242). -/
theorem test_cmpsMem_V118 :
    seen (step (withBytes (start [0x08E2] [(0, 0xFFFFFF80), (2, 0x2000)]) 0x2000 [0x80]))
    (fun t => (t.flags.toByte, t.pc)) = some (0x04, 0x1002) := by decide
/-- V119: CMPU.B [R2],R0 (rule R244). -/
theorem test_cmpuMem_V119 :
    seen (step (withBytes (start [0x08C2] [(0, 0xFFFFFF80), (2, 0x2000)]) 0x2000 [0x80]))
    (fun t => (t.flags.toByte, t.pc)) = some (0x08, 0x1002) := by decide
/-- V120: NEG.D R1,R0 (most negative) (rule R243). -/
theorem test_neg_V120 :
    seen (step (start [0x05A1] [(1, 0x80000000)]))
    (fun t => (t.gpr 0 0, t.flags.toByte, t.pc)) = some (0x80000000, 0x0B, 0x1002) := by decide
/-- V121: NEG.B R1,R0 (rule R243). -/
theorem test_neg_V121 :
    seen (step (start [0x0581] [(0, 0x11223344), (1, 0x1)]))
    (fun t => (t.gpr 0 0, t.flags.toByte, t.pc)) = some (0x112233FF, 0x09, 0x1002) := by decide
/-- V126: BOUND.D 3,R0 (rule R246). -/
theorem test_boundMem_V126 :
    seen (step (start [0x0DEF, 0x0003, 0x0000] [(0, 0xFFFFFFFE)]))
    (fun t => (t.gpr 0 0, t.flags.toByte, t.pc)) = some (0x3, 0x00, 0x1006) := by decide
/-- V128: BOUND.B R1,R0 (bound = low byte of R1) (rule R246). -/
theorem test_boundReg_V128 :
    seen (step (start [0x05C1] [(0, 0x150), (1, 0x1FF)]))
    (fun t => (t.gpr 0 0, t.flags.toByte, t.pc)) = some (0xFF, 0x00, 0x1002) := by decide
/-- V140: SUBQ 1,R0 with X=C=Z=1 (rules R237, R247). -/
theorem test_subq_V140 :
    seen (step (withFlags (start [0x0281] [(0, 0x1)]) 0x15))
    (fun t => (t.gpr 0 0, t.flags.toByte, t.pc)) = some (0xFFFFFFFF, 0x09, 0x1002) := by decide
/-- V141: MOVEQ 0,R0 with X=1 Z=0 (Z stays 0) (rules R261, R36). -/
theorem test_moveq_V141 :
    seen (step (withFlags (start [0x0240] [(0, 0x9)]) 0x10))
    (fun t => (t.gpr 0 0, t.flags.toByte, t.pc)) = some (0x0, 0x00, 0x1002) := by decide
/-- V150: MOVE.B R1,R0 (rule R260). -/
theorem test_moveReg_V150 :
    seen (step (start [0x0641] [(0, 0x11223344), (1, 0xFFFFFF80)]))
    (fun t => (t.gpr 0 0, t.flags.toByte, t.pc)) = some (0x11223380, 0x08, 0x1002) := by decide
/-- V152: MOVEQ -32,R0 (rule R261). -/
theorem test_moveq_V152 :
    seen (step (start [0x0260] []))
    (fun t => (t.gpr 0 0, t.flags.toByte, t.pc)) = some (0xFFFFFFE0, 0x08, 0x1002) := by decide
/-- V154: MOVS.W [R2+],R3 (rule R267). -/
theorem test_movsMem_V154 :
    seen (step (withBytes (start [0x3C72] [(2, 0x2000)]) 0x2000 [0x00, 0x80]))
    (fun t => (t.gpr 2 0, t.gpr 3 0, t.flags.toByte, t.pc)) = some (0x2002, 0xFFFF8000, 0x08, 0x1002) := by decide
/-- V155: MOVU.B [R2+],R3 (rule R268). -/
theorem test_movuMem_V155 :
    seen (step (withBytes (start [0x3C42] [(2, 0x2000), (3, 0xFFFFFFFF)]) 0x2000 [0x80]))
    (fun t => (t.gpr 2 0, t.gpr 3 0, t.flags.toByte, t.pc)) = some (0x2001, 0x80, 0x00, 0x1002) := by decide
/-- V156: MOVS.B R1,R0 (rule R267). -/
theorem test_movsReg_V156 :
    seen (step (start [0x0461] [(1, 0x17F)]))
    (fun t => (t.gpr 0 0, t.flags.toByte, t.pc)) = some (0x7F, 0x00, 0x1002) := by decide
/-- V157: MOVU.W R1,R0 (rule R268). -/
theorem test_movuReg_V157 :
    seen (step (start [0x0451] [(1, 0xABCD8000)]))
    (fun t => (t.gpr 0 0, t.flags.toByte, t.pc)) = some (0x8000, 0x00, 0x1002) := by decide
/-- V158: TEST.W [R2] (rule R264). -/
theorem test_testMem_V158 :
    seen (step (withBytes (withFlags (start [0x0B92] [(2, 0x2000)]) 0x03) 0x2000 [0x00, 0x80]))
    (fun t => (t.flags.toByte, t.pc)) = some (0x08, 0x1002) := by decide
/-- V160: AND.D [R2],R3 (rule R269). -/
theorem test_andMem_V160 :
    seen (step (withBytes (start [0x3B22] [(2, 0x2000), (3, 0xF0F0F0F0)]) 0x2000 [0x0F, 0x0F, 0x0F, 0x0F]))
    (fun t => (t.gpr 3 0, t.flags.toByte, t.pc)) = some (0x0, 0x04, 0x1002) := by decide
/-- V161: AND.B R1,R0 (rule R269). -/
theorem test_andReg_V161 :
    seen (step (start [0x0701] [(0, 0x12345678), (1, 0xF)]))
    (fun t => (t.gpr 0 0, t.flags.toByte, t.pc)) = some (0x12345608, 0x00, 0x1002) := by decide
/-- V162: ANDQ -2,R0 (rule R270). -/
theorem test_andq_V162 :
    seen (step (start [0x033E] [(0, 0xFFFFFFFF)]))
    (fun t => (t.gpr 0 0, t.flags.toByte, t.pc)) = some (0xFFFFFFFE, 0x08, 0x1002) := by decide
/-- V164: OR.B R1,R0 (N from bit 7) (rule R271). -/
theorem test_orReg_V164 :
    seen (step (start [0x0741] [(0, 0x100), (1, 0x80)]))
    (fun t => (t.gpr 0 0, t.flags.toByte, t.pc)) = some (0x180, 0x08, 0x1002) := by decide
/-- V165: ORQ -1,R0 (rule R273). -/
theorem test_orq_V165 :
    seen (step (start [0x037F] []))
    (fun t => (t.gpr 0 0, t.flags.toByte, t.pc)) = some (0xFFFFFFFF, 0x08, 0x1002) := by decide
/-- V166: NOT R0 (rule R272). -/
theorem test_notReg_V166 :
    seen (step (start [0x8770] [(0, 0xFFFF)]))
    (fun t => (t.gpr 0 0, t.flags.toByte, t.pc)) = some (0xFFFF0000, 0x08, 0x1002) := by decide
/-- V167: XOR R1,R0 (rule R274). -/
theorem test_xorReg_V167 :
    seen (step (start [0x07B1] [(0, 0x5A5A5A5A), (1, 0x5A5A5A5A)]))
    (fun t => (t.gpr 0 0, t.flags.toByte, t.pc)) = some (0x0, 0x04, 0x1002) := by decide
/-- V168: LSL.B R1,R0 (count 8 = width) (rule R275). -/
theorem test_lsl_V168 :
    seen (step (start [0x04C1] [(0, 0x1FF), (1, 0x8)]))
    (fun t => (t.gpr 0 0, t.flags.toByte, t.pc)) = some (0x100, 0x04, 0x1002) := by decide
/-- V169: LSL.W R1,R0 (count 0x44 taken as 4) (rule R275). -/
theorem test_lsl_V169 :
    seen (step (start [0x04D1] [(0, 0x1F00F), (1, 0x44)]))
    (fun t => (t.gpr 0 0, t.flags.toByte, t.pc)) = some (0x100F0, 0x00, 0x1002) := by decide
/-- V172: LSLQ 31,R0 (rule R276). -/
theorem test_lslq_V172 :
    seen (step (start [0x03DF] [(0, 0x3)]))
    (fun t => (t.gpr 0 0, t.flags.toByte, t.pc)) = some (0x80000000, 0x08, 0x1002) := by decide
/-- V174: LSR.D R1,R0 (count 33) (rule R277). -/
theorem test_lsr_V174 :
    seen (step (start [0x07E1] [(0, 0xFFFFFFFF), (1, 0x21)]))
    (fun t => (t.gpr 0 0, t.flags.toByte, t.pc)) = some (0x0, 0x04, 0x1002) := by decide
/-- V175: LSR.B R1,R0 (rule R277). -/
theorem test_lsr_V175 :
    seen (step (start [0x07C1] [(0, 0xFFFFFF80), (1, 0x7)]))
    (fun t => (t.gpr 0 0, t.flags.toByte, t.pc)) = some (0xFFFFFF01, 0x00, 0x1002) := by decide
/-- V177: LSRQ 31,R0 (rule R278). -/
theorem test_lsrq_V177 :
    seen (step (start [0x03FF] [(0, 0x80000000)]))
    (fun t => (t.gpr 0 0, t.flags.toByte, t.pc)) = some (0x1, 0x00, 0x1002) := by decide
/-- V178: ASR.B R1,R0 (count 40) (rule R279). -/
theorem test_asr_V178 :
    seen (step (start [0x0781] [(0, 0x80), (1, 0x28)]))
    (fun t => (t.gpr 0 0, t.flags.toByte, t.pc)) = some (0xFF, 0x08, 0x1002) := by decide
/-- V180: ASRQ 31,R0 (rule R280). -/
theorem test_asrq_V180 :
    seen (step (start [0x03BF] [(0, 0x80000000)]))
    (fun t => (t.gpr 0 0, t.flags.toByte, t.pc)) = some (0xFFFFFFFF, 0x08, 0x1002) := by decide
/-- V182: LZ R1,R0 (rule R281). -/
theorem test_lz_V182 :
    seen (step (start [0x0731] [(1, 0x0)]))
    (fun t => (t.gpr 0 0, t.flags.toByte, t.pc)) = some (0x20, 0x00, 0x1002) := by decide
/-- V184: LZ R1,R0 (rule R281). -/
theorem test_lz_V184 :
    seen (step (start [0x0731] [(1, 0x10000)]))
    (fun t => (t.gpr 0 0, t.flags.toByte, t.pc)) = some (0xF, 0x00, 0x1002) := by decide
/-- V187: SWAPWB R0 (rule R282). -/
theorem test_swap_V187 :
    seen (step (start [0x6770] [(0, 0x12345678)]))
    (fun t => (t.gpr 0 0, t.flags.toByte, t.pc)) = some (0x78563412, 0x00, 0x1002) := by decide
/-- V188: SWAPR R0 (rule R282). -/
theorem test_swap_V188 :
    seen (step (start [0x1770] [(0, 0x12345678)]))
    (fun t => (t.gpr 0 0, t.flags.toByte, t.pc)) = some (0x482C6A1E, 0x00, 0x1002) := by decide
/-- V190: SHI R3 (rule R283). -/
theorem test_scc_V190 :
    seen (step (start [0x9533] [(3, 0xFFFFFFFF)]))
    (fun t => (t.gpr 3 0, t.flags.toByte, t.pc)) = some (0x1, 0x00, 0x1002) := by decide
/-- V193: SEQ R3 (rule R283). -/
theorem test_scc_V193 :
    seen (step (start [0x3533] [(3, 0x5)]))
    (fun t => (t.gpr 3 0, t.flags.toByte, t.pc)) = some (0x0, 0x00, 0x1002) := by decide
/-- V194: BTSTQ 31,R0 (rule R285). -/
theorem test_btstq_V194 :
    seen (step (start [0x039F] [(0, 0x80000000)]))
    (fun t => (t.flags.toByte, t.pc)) = some (0x08, 0x1002) := by decide
/-- V195: BTSTQ 0,R0 (rule R285). -/
theorem test_btstq_V195 :
    seen (step (start [0x0380] [(0, 0xFFFFFFFE)]))
    (fun t => (t.flags.toByte, t.pc)) = some (0x04, 0x1002) := by decide
/-- V198: BTST R1,R0 (rule R284). -/
theorem test_btst_V198 :
    seen (step (start [0x04F1] [(0, 0x100), (1, 0x7)]))
    (fun t => (t.flags.toByte, t.pc)) = some (0x04, 0x1002) := by decide
/-- V199: BTST R1,R0 (count 0x29 taken as 9) (rule R284). -/
theorem test_btst_V199 :
    seen (step (start [0x04F1] [(0, 0x100), (1, 0x29)]))
    (fun t => (t.flags.toByte, t.pc)) = some (0x00, 0x1002) := by decide
/-- V210: MSTEP R0,R1 with N=1 (rule R220). -/
theorem test_mstep_V210 :
    seen (step (withFlags (start [0x17F0] [(0, 0x1234), (1, 0xABCD0000)]) 0x08))
    (fun t => (t.gpr 1 0, t.flags.toByte, t.pc)) = some (0x579A1234, 0x00, 0x1002) := by decide
/-- V212: MSTEP R1,R1 with N=1 (source = destination) (rule R220). -/
theorem test_mstep_V212 :
    seen (step (withFlags (start [0x17F1] [(1, 0x40000001)]) 0x08))
    (fun t => (t.gpr 1 0, t.flags.toByte, t.pc)) = some (0xC0000003, 0x08, 0x1002) := by decide
/-- V214: DSTEP R0,R1 (subtraction) (rule R221). -/
theorem test_dstep_V214 :
    seen (step (start [0x16F0] [(0, 0x6FFFF), (1, 0x64000)]))
    (fun t => (t.gpr 1 0, t.flags.toByte, t.pc)) = some (0x58001, 0x00, 0x1002) := by decide
/-- V216: DSTEP R0,R1 (bit 31 shifted out and lost) (rule R221). -/
theorem test_dstep_V216 :
    seen (step (start [0x16F0] [(0, 0xFFFFFFFF), (1, 0xFFFFFFFF)]))
    (fun t => (t.gpr 1 0, t.flags.toByte, t.pc)) = some (0xFFFFFFFE, 0x08, 0x1002) := by decide

/-- BA +4 alone: the branch word of vector V36 (rule R160). -/
theorem test_ba8 : seen (step (start [0xE004] [])) (fun t => (t.pc, t.slot, t.irqWindow)) =
    some (0x1002, .pending 0x1006, true) := by decide
/-- SUBU.W [R2],R0: 0x10000 - 0xFFFF (rule R239). -/
theorem test_subuMem : seen (step (withBytes (start [0x0892] [(0, 0x10000), (2, 0x2000)]) 0x2000 [0xFF, 0xFF]))
    (fun t => (t.gpr 0 0, t.flags.toByte)) = some (1, 0) := by decide
/-- SUBS.B [R2],R0: 0 - (-1), with a borrow (rule R238). -/
theorem test_subsMem : seen (step (withBytes (start [0x08A2] [(2, 0x2000)]) 0x2000 [0xFF]))
    (fun t => (t.gpr 0 0, t.flags.toByte)) = some (1, 1) := by decide
/-- JUMP 346 (example E3 of 95_test_vectors.md). -/
theorem test_jumpImm : seen (step (start [0x0D3F, 0x015A, 0x0000] [])) (fun t => (t.pc, t.slot)) =
    some (0x15A, .none) := by decide
/-- JIR R3 (rule R169). -/
theorem test_jirReg : seen (step (start [0xA9B3] [(3, 0x4000)])) (fun t => (t.irp, t.srp, t.pc)) =
    some (0x1002, 0, 0x4000) := by decide
/-- JIRC R3 (rule R170). -/
theorem test_jircReg : seen (step (start [0x29B3] [(3, 0x4000)])) (fun t => (t.irp, t.srp, t.pc)) =
    some (0x1006, 0, 0x4000) := by decide
/-- JBRC R3 (rule R170). -/
theorem test_jbrcReg : seen (step (start [0x69B3] [(3, 0x4000)])) (fun t => (t.brp, t.srp, t.pc)) =
    some (0x1006, 0, 0x4000) := by decide
/-- RETI, its own step (rule R172). -/
theorem test_reti : seen (step { start [0xA67F] [] with irp := 0x4000 }) (fun t => (t.pc, t.slot, t.irqWindow)) =
    some (0x1002, .pending 0x4000, true) := by decide
/-- RETB, its own step (rule R173). -/
theorem test_retb : seen (step { start [0xE67F] [] with brp := 0x4000 }) (fun t => (t.pc, t.slot, t.irqWindow)) =
    some (0x1002, .pending 0x4000, true) := by decide
/-- CLEAR.B [R5] (rule R201): one byte, no flag but X. -/
theorem test_clearByteMem : seen (step (withBytes (withFlags (start [0x0A75] [(5, 0x2000)]) 0x1F) 0x2000 [0x55, 0x66]))
    (fun t => (t.mem.load 2 0x2000, t.flags.toByte, t.irqWindow)) = some (0x6600, 0x0F, true) := by decide
/-- OR.D [R2],R3 (rule R271). -/
theorem test_orMem : seen (step (withBytes (start [0x3B62] [(2, 0x2000), (3, 0x80000000)]) 0x2000 [0x0F, 0, 0, 0]))
    (fun t => (t.gpr 3 0, t.flags.toByte)) = some (0x8000000F, 0x08) := by decide
/-- TEST.D R0 under its assembler name (vector V159). -/
theorem test_testReg : seen (exec (.testReg .d 0) calm) (fun t => (t.flags.toByte, t.pc)) = some (0x04, 0x1002) := by
  decide
/-- PUSH R3 under its assembler name (vector V19). -/
theorem test_pushReg : seen (exec (.pushReg 3) (start [] [(14, 0x3000), (3, 0x12345678)]))
    (fun t => (t.gpr 14 0, t.mem.load 4 0x2FFC, t.pc)) = some (0x2FFC, 0x12345678, 0x1004) := by decide
/-- PUSH CCR under its assembler name (vector V20). -/
theorem test_pushSpecial : seen (exec (.pushSpecial 5) (withFlags (start [] [(14, 0x3000)]) 0x29))
    (fun t => (t.gpr 14 0, t.mem.load 2 0x2FFE, t.irqWindow)) = some (0x2FFE, 0x29, true) := by decide
/-- A reserved word (vector X25). -/
theorem test_reserved : step (start [0x0570] []) = .refused .reservedEncoding := rfl
/-- Refusals of the spec's vectors X9, X10, X18, X19, X20, X21, X22, X24. -/
theorem test_refusals :
    isRefusal (step (start [0x3E63] [(3, 0x2000)])) = true ∧
    isRefusal (step (start [0xE1FC, 0xEFEE] [(14, 0x3000)])) = true ∧
    isRefusal (step (start [0x09B3] [(3, 0x4001)])) = true ∧
    isRefusal (step (start [0x0D76, 0x3E63] [(6, 0x2000)])) = true ∧
    isRefusal (step (start [0x611B, 0x0641] [])) = true ∧
    isRefusal (step (start [0x611B, 0x611B, 0x3A63] [])) = true ∧
    isRefusal (step (start [0x3A6F] [])) = true ∧
    isRefusal (step (start [0x611B, 0x3A64] [(6, 0x2000)])) = true := by decide
/-- An interrupt with vector number 3 (rule R301). -/
theorem test_interrupt : seen (step { withBytes (withFlags calm 0x20) 0x1000C [0, 0x40] with
      ibrHigh := 1, env := [⟨none, some 3, none, .hni⟩] })
    (fun t => (t.irp, t.pc, t.flags.toByte, t.irqWindow)) = some (0x1000, 0x4000, 0x20, true) := by decide
/-- An NMI with vector number 0x21 (rule R306). -/
theorem test_nmi : seen (step { withBytes (withFlags calm 0xA0) 0x84 [0, 0x40] with
      env := [⟨none, none, some 0x21, .hni⟩] })
    (fun t => (t.brp, t.pc, t.flags.toByte)) = some (0x1000, 0x4000, 0x20) := by decide
/-- A hardware-breakpoint hit (rule R310); M is not looked at. -/
theorem test_hardware_breakpoint : seen (step { withBytes (withFlags calm 0x40) 0x80 [0, 0x40] with hit := true })
    (fun t => (t.brp, t.pc, t.flags.b, t.hit)) = some (0x1000, 0x4000, true, false) := by decide
/-- A data read of the BAR dword with B set records the hit (rule R309): MOVE.D [R2],R3 with BAR = R2 + 3. -/
theorem test_breakpoint_hit : seen (step { withFlags (start [0x3A62] [(2, 0x2000)]) 0x40 with bar := 0x2003 })
    (fun t => t.hit) = some true := by decide
/-- With `HWBP_ON_VECTOR_READ` and B set the vector read of a breakpoint at BAR hits again (rule R309, log entry 32). -/
theorem test_breakpoint_vector_hit : seen (step { withBytes (withFlags calm 0x40) 0x80 [0, 0x40] with
      hit := true, bar := 0x82, params := { calm.params with breakOnVectorRead := true } })
    (fun t => (t.brp, t.pc, t.hit)) = some (0x1000, 0x4000, true) := by decide
/-- Between the halves of a split read another bus master changes the upper one (rules R64, R65): MOVE.W [R2],R3. -/
theorem test_other_master : seen (step { withBytes (start [0x3A52] [(2, 0x2003), (3, 0)]) 0x2003 [1, 2] with
      params := { calm.params with externalWriters := true }, others := [[], [], [(0x2003, 9), (0x2004, 8)]] })
    (fun t => (t.gpr 3 0, t.peek 0x2003)) = some (0x0801, 9) := by decide
/-- A stored byte is not fetched as code (rule R78). -/
theorem test_stored_code : step { start [0x050F] [] with stored := [0x1001] } = .refused .storedCode := rfl

/-! ## Witnesses: states and operands that meet the hypotheses of each statement -/

/-- A taken branch stands before. -/
def inSlot : State := { calm with slot := .pending 0x2000, irqWindow := true }

/-- A branch that was not taken stands before. -/
def inDeadSlot : State := { calm with slot := .notTaken, irqWindow := true }

/-- A prefix word stands before; the prefix address is 0x2000. -/
def prefixed : State := { calm with latch := some ⟨0x2000, some 7, false⟩ }

/-- The double-indirect prefix word stands before. -/
def dipped : State := { calm with latch := some ⟨0x2000, none, true⟩ }

/-- R2 = 0x2000, R3 = 0xFFFFFFFF, R7 = 3. -/
def loaded : State := start [] [(2, 0x2000), (3, 0xFFFFFFFF), (7, 3)]

theorem calm_ready (P : Prop) : Ready calm P := ⟨rfl, fun _ => rfl⟩
theorem loaded_ready (P : Prop) : Ready loaded P := ⟨rfl, fun _ => rfl⟩
theorem inSlot_ready : Ready inSlot False := ⟨rfl, False.elim⟩

/-- The state that runs `MOVE.D [R6+R7.B],R3`. -/
def running : State := start [0x7546, 0x3A63] [(6, 0x2000), (7, 5)]

theorem running_inv : running.Inv :=
  ⟨rfl, rfl, fun _ h => (by cases h), fun h => absurd rfl h, fun h => (by cases h), rfl, fun _ h => (by cases h),
    fun _ _ h => (by cases h)⟩

/-- `running` after its prefix word. -/
def half : State := { running with pc := 0x1002, latch := some ⟨0x2005, none, false⟩ }

theorem witness_DecodeInvertsEncode :
    (Instr.addMem .b 3 (.imm 0xFF)).wellFormed = true ∧ (Instr.addMem .d 3 (.imm 0xFFFFFFFF)).wellFormed = true ∧
    (Instr.bcc16 .eq 0x100).wellFormed = true ∧ (Instr.reserved 0x0570).wellFormed = true := by decide
theorem witness_AssemblerNamesExpand : PNum.implemented 4#4 = true ∧ PNum.zeroRegister 4#4 = true ∧
    PNum.implemented 14#4 = true ∧ PNum.zeroRegister 14#4 = false := by decide
/-- `running` where another bus master writes the prefix word that is fetched. -/
def shared : State :=
  { calm with
    regs := running.regs
    params := { calm.params with externalWriters := true }
    others := [[(0x1000, 0x46), (0x1001, 0x75)], [(0x1002, 0x63), (0x1003, 0x3A)], [(0x2005, 7)]] }

theorem witness_StepRunsTheDecodedInstruction :
    (∀ s ∈ [running, shared], s.input.reset = none ∧ dueTrap s.input s.afterInput = none ∧ s.latch = none ∧
      s.prefetch = none ∧
      decode [BitVec.ofNat 16 (bytesNat s.afterInput.yieldBus 2 0x1000), BitVec.ofNat 16 (bytesNat s.afterInput.yieldBus 2 0x1002),
        BitVec.ofNat 16 (bytesNat s.afterInput.yieldBus 2 0x1004)] = .ok (.biap .b 7 6, [if s = running then 0x3A63 else 0, 0]) ∧
      s.afterInput.yieldBus.accessible 2 0x1000 = true ∧ s.afterInput.yieldBus.storedAny 2 0x1000 = false) ∧
    ¬ isOdd running.pc ∧
    (half.latch.isSome = true ∧ ¬ isOdd half.pc ∧ half.yieldBus.prefetch = none ∧
      decode [BitVec.ofNat 16 (bytesNat half.yieldBus 2 half.pc), BitVec.ofNat 16 (bytesNat half.yieldBus 2 (half.pc + 2)),
        BitVec.ofNat 16 (bytesNat half.yieldBus 2 (half.pc + 4))] = .ok (.moveMemToReg .d 3 (.mem (.plain 3)), [0, 0]) ∧
      half.yieldBus.accessible 2 half.pc = true ∧ half.yieldBus.storedAny 2 half.pc = false) :=
  ⟨by decide, by unfold isOdd; decide, rfl, by unfold isOdd; decide, rfl, rfl, rfl, rfl⟩
theorem witness_PrefetchRegisterIsInvisible :
    running.Inv ∧ Alone running ∧ ∃ t, fetchInstr running = .next (.biap .b 7 6, t) := ⟨running_inv, rfl, _, rfl⟩

/-- An interrupt is presented; its vector 0xFF at IBR + 0x3FC holds `v`. -/
def interrupted (v : Byte) : State :=
  { withBytes (withFlags calm 0x20) 0x103FC [v] with ibrHigh := 1, env := [⟨none, some 0xFF, none, .hni⟩] }

theorem witness_InterruptAcknowledgeSequence :
    (∀ v ∈ [1#8, 2#8], (interrupted v).input.reset = none ∧ (interrupted v).input.irq = some 0xFF ∧
      dueTrap (interrupted v).input (interrupted v).afterInput = some .interrupt ∧ BitVec.ofNat 32 ((interrupted v).ibr.toNat + 4 * 0xFF) = 0x103FC#32 ∧
      (interrupted v).accessible 4 0x103FC = true) ∧
    isOdd (BitVec.ofNat 32 (bytesNat (interrupted 1).yieldBus 4 0x103FC)) ∧
    ¬ isOdd (BitVec.ofNat 32 (bytesNat (interrupted 2).yieldBus 4 0x103FC)) :=
  ⟨by decide, by unfold isOdd; decide, by unfold isOdd; decide⟩

/-- An NMI is presented; its vector 0 at IBR holds `v`. -/
def nmiPresented (v : Byte) : State :=
  { withBytes (withFlags calm 0x80) 0 [v] with env := [⟨none, none, some 0, .hni⟩] }

theorem witness_NmiAcknowledgeSequence :
    (∀ v ∈ [1#8, 2#8], (nmiPresented v).input.reset = none ∧ (nmiPresented v).input.nmi = some 0 ∧
      dueTrap (nmiPresented v).input (nmiPresented v).afterInput = some .nmi ∧ BitVec.ofNat 32 ((nmiPresented v).ibr.toNat + 4 * 0) = 0#32 ∧
      (nmiPresented v).accessible 4 0 = true) ∧
    isOdd (BitVec.ofNat 32 (bytesNat (nmiPresented 1).yieldBus 4 0)) ∧
    ¬ isOdd (BitVec.ofNat 32 (bytesNat (nmiPresented 2).yieldBus 4 0)) :=
  ⟨by decide, by unfold isOdd; decide, by unfold isOdd; decide⟩

/-- A hit is pending; the vector at IBR + 0x80 holds `v`. -/
def hitPending (v : Byte) : State := { withBytes calm 0x80 [v] with hit := true }

theorem witness_HardwareBreakpointSequence :
    (∀ v ∈ [1#8, 2#8], (hitPending v).input.reset = none ∧
      dueTrap (hitPending v).input (hitPending v).afterInput = some .breakpoint ∧
      BitVec.ofNat 32 ((hitPending v).ibr.toNat + 0x80) = 0x80#32 ∧ (hitPending v).accessible 4 0x80 = true) ∧
    isOdd (BitVec.ofNat 32 (bytesNat (hitPending 1).yieldBus 4 0x80)) ∧
    ¬ isOdd (BitVec.ofNat 32 (bytesNat (hitPending 2).yieldBus 4 0x80)) :=
  ⟨by decide, by unfold isOdd; decide, by unfold isOdd; decide⟩
/-- All three traps are eligible at once. -/
def contended (o : TrapOrder) : State := { withFlags calm 0xA0 with hit := true, env := [⟨none, some 0xFF, some 0, o⟩] }

theorem witness_AnyEligibleTrapMayBeTaken :
    (inSlot.input.reset = none ∧ inSlot.irqWindow = true) ∧
    (calm.input.reset = none ∧ calm.hit = false ∧ calm.flags.m = false ∧ calm.flags.i = false) ∧
    (contended .nih).input.reset = none ∧ (contended .nih).irqWindow = false ∧
    (∀ k ∈ [TrapKind.breakpoint, .nmi, .interrupt], eligible (contended .nih).input (contended .nih) k = true) ∧
    dueTrap (contended .nih).input (contended .nih).afterInput = some .nmi := by decide
theorem witness_ResetFromAnyState :
    State.input { inSlot with env := [⟨some Unknowns.zero, none, none, .hni⟩] } =
      ⟨some Unknowns.zero, none, none, .hni⟩ := rfl
theorem witness_EveryStepKeepsTheInvariant : running.Inv ∧ ∃ t, step running = .next t := ⟨running_inv, _, rfl⟩
theorem witness_ParametersNeverChange : ∃ t, step running = .next t := ⟨_, rfl⟩
theorem witness_RunsEndAtTheStatedAddress :
    let s : State := { running with params := { running.params with endOfRun := some 0x1004 } }
    (seen (runToEnd 1 s) fun t => (t.ended, t.pc)) = some (true, 0x1004) ∧
    (seen (runToEnd 0 s) fun t => t.ended) = some false := by decide
theorem witness_NmiEnableIsSticky :
    ((withFlags calm 0xFF).flags.m = true ∧ ∃ t, exec (.clearf 0xFF) (withFlags calm 0xFF) = .next t) ∧
    (calm.flags.m = false ∧ ∃ t, exec (.setf 0x80) calm = .next t ∧ t.flags.m = true) :=
  ⟨⟨rfl, _, rfl⟩, rfl, _, rfl, rfl⟩
theorem witness_ExtendFlagIsSetOnlyByAx :
    (∃ t, exec .ax calm = .next t) ∧ (∃ t, exec .nop calm = .next t) ∧
    (isPrefixWord (.bdapQuick 6 27) ∧ ∃ t, exec (.bdapQuick 6 27) calm = .next t) :=
  ⟨⟨_, rfl⟩, ⟨_, rfl⟩, .inl ⟨6, 27, rfl⟩, _, rfl⟩
theorem witness_WindowIsOpenedExactlyByTheList :
    (∃ t, exec (.ba8 4) calm = .next t) ∧ (∃ t, exec .nop calm = .next t) ∧
    (isPrefixWord (.bdapQuick 6 27) ∧ ∃ t, exec (.bdapQuick 6 27) calm = .next t) :=
  ⟨⟨_, rfl⟩, ⟨_, rfl⟩, .inl ⟨6, 27, rfl⟩, _, rfl⟩
theorem witness_DelaySlotThenTarget :
    (inSlot.slot = .pending 0x2000 ∧ ∃ t, exec .nop inSlot = .next t) ∧
    (inDeadSlot.slot = .notTaken ∧ ∃ t, exec .nop inDeadSlot = .next t) ∧
    ∃ t, exec (.ba8 4) calm = .next t ∧ t.slot = .pending 0x1006 := ⟨⟨rfl, _, rfl⟩, ⟨rfl, _, rfl⟩, _, rfl, rfl⟩
theorem witness_DelaySlotRefusesForbiddenKinds :
    inSlot.slot ≠ .none ∧ inDeadSlot.slot ≠ .none ∧ forbiddenInSlot (.ba8 4) ∧ forbiddenInSlot (.jumpReg 3) ∧
    forbiddenInSlot .ret ∧ forbiddenInSlot (.bdapQuick 6 27) ∧ forbiddenInSlot (.pushReg 3) ∧
    forbiddenInSlot (.pushSpecial 9) ∧ forbiddenInSlot (.addMem .b 3 (.imm 0)) ∧ forbiddenInSlot (.addq 15 2) :=
  ⟨by decide, by decide, .inl (.inr (.inl ⟨4, rfl⟩)), .inr (.inl (.inr (.inr (.inl ⟨3, rfl⟩)))),
    .inr (.inr (.inl (.inl rfl))), .inr (.inr (.inr (.inl (.inl ⟨6, 27, rfl⟩)))),
    .inr (.inr (.inr (.inr (.inl ⟨3, rfl⟩)))), .inr (.inr (.inr (.inr (.inr (.inl ⟨9, rfl⟩))))),
    .inr (.inr (.inr (.inr (.inr (.inr (.inl (by decide))))))),
    .inr (.inr (.inr (.inr (.inr (.inr (.inr rfl))))))⟩
theorem witness_OnlyStoresChangeMemory :
    Alone loaded ∧ (∃ t, exec (.addMem .d 3 (.mem (.plain 2))) loaded = .next t) ∧
    ¬ storesToMemory (.addMem .d 3 (.mem (.plain 2))) :=
  ⟨rfl, ⟨_, rfl⟩, by simp [storesToMemory]⟩
theorem witness_ControlStateChangesOnlyByItsWriters :
    (∃ t, exec (.jirReg 2) loaded = .next t ∧ t.irp ≠ loaded.irp) ∧
    (∃ t, exec (.jsrReg 2) loaded = .next t ∧ t.srp ≠ loaded.srp) ∧
    (∃ t, exec (.brk 1) loaded = .next t ∧ t.brp ≠ loaded.brp) ∧
    (∃ t, exec (.moveRegToSpecial 12 3) loaded = .next t ∧ t.bar ≠ loaded.bar) ∧
    (∃ t, exec (.moveRegToSpecial 9 3) loaded = .next t ∧ t.ibr ≠ loaded.ibr) ∧
    (∃ t, exec .ei loaded = .next t ∧ t.flags.i ≠ loaded.flags.i) ∧
    ∃ t, exec (.setf 0x40) loaded = .next t ∧ t.flags.b ≠ loaded.flags.b :=
  ⟨⟨_, rfl, by decide⟩, ⟨_, rfl, by decide⟩, ⟨_, rfl, by decide⟩, ⟨_, rfl, by decide⟩, ⟨_, rfl, by decide⟩,
    ⟨_, rfl, by decide⟩, _, rfl, by decide⟩
theorem witness_RestrictedOperandsAreRefused :
    PNum.returnPointer 10#4 = true ∧ PNum.returnPointer 12#4 = false ∧ (withFlags calm 0x10).flags.x = true := by decide
theorem witness_MeaninglessOperandsAreRefused :
    (calm.latch = none ∧ operand (.popReg spReg) = some (.mem (.inc spReg)) ∧ usesRegister (.popReg spReg) spReg ∧
      operand (.jumpMem (.plain pcReg)) = some (.mem (.plain pcReg)) ∧
      operand (.movemStore 14 (.inc 14)) = some (.mem (.inc 14)) ∧ usesRegister (.movemStore 14 (.inc 14)) 14 ∧
      operand (.clearByteMem (.inc pcReg)) = some (.mem (.inc pcReg))) ∧
    (prefixed.latch = some ⟨0x2000, some 7, false⟩ ∧ operand (.addMem .d 7 (.mem (.plain 7))) = some (.mem (.plain 7)) ∧
      usesRegister (.addMem .d 7 (.mem (.plain 7))) 7 ∧ operand (.addMem .d 3 (.mem (.plain 4))) = some (.mem (.plain 4)) ∧
      destination (.addMem .d 3 (.mem (.plain 4))) = some 3 ∧ usesRegister (.cmpMem .d 3 (.mem (.inc 3))) 3 ∧
      usesRegister (.moveRegToMem .d 3 (.inc 3)) 3) ∧
    (dipped.latch = some ⟨0x2000, none, true⟩ ∧ operand (.testMem .d (.mem (.inc 3))) = some (.mem (.inc 3))) ∧
    operand (.jumpImm 4) = some (.imm 4) ∧ prefixed.latch.isSome = true :=
  ⟨⟨rfl, rfl, .inl rfl, rfl, rfl, .inr (.inr (.inr (.inr (.inr ⟨14, .inc 14, .inr rfl, by decide⟩)))), rfl⟩,
    ⟨rfl, rfl, .inl rfl, rfl, rfl, .inr (.inr (.inr (.inl ⟨.d, .mem (.inc 3), rfl⟩))),
      .inr (.inr (.inr (.inr (.inl ⟨.d, .inc 3, rfl⟩))))⟩, ⟨rfl, rfl⟩, rfl, rfl⟩
theorem witness_PrefixBeforeOtherWordsIsRefused :
    prefixed.latch.isSome = true ∧ isPrefixWord (.bdapQuick 6 27) ∧ isBranch (.ba16 4) ∧ isReturn .ret ∧
    isRegisterJump (.jumpReg 3) ∧ Instr.word (.addReg .d 0 2) = 0x0622#16 ∧
    (0x0622#16).extractLsb' 11 1 = 0#1 :=
  ⟨rfl, .inl ⟨6, 27, rfl⟩, .inr (.inr (.inr ⟨4, rfl⟩)), .inl rfl, .inl ⟨3, rfl⟩, rfl, rfl⟩
theorem witness_DataReadYieldsTheBytes : 4 ≤ 4 ∧ Alone calm ∧ calm.accessible 4 0xFFFFFFFE = true ∧ calm.accessible 0 0 = true := by
  decide
theorem witness_DataWriteStoresTheBytes : 4 ≤ 4 ∧ Alone calm ∧ calm.mem.wf = true ∧
    calm.accessible 4 0xFFFFFFFE = true := by decide

/-- Memory is the 16 bytes from 0x1000 only. -/
def small : State := { calm with params := { calm.params with memMap := [⟨0x1000, 16⟩] } }

/-- `Alias31` is unspecified, and 0x2000 was reached with address bit 31 clear. -/
def strict : State :=
  { calm with params := { calm.params with alias31 := .unspecified }, aliasSeen := [(0x2000, false)] }

/-- The program stored to the second byte of the instruction at pc. -/
def overwritten : State := { calm with stored := [0x1001] }

theorem witness_AccessesAndFetchesThatStop :
    (small.accessible 4 0x1010 = false ∧ small.accessible 4 0xFFF = false ∧ small.accessible 4 0x100D = false) ∧
    small.params.alias31 = .sameLocation ∧
    small.accessible 4 0x100C = true ∧
    (strict.accessible 4 0x80002000 = false ∧ strict.accessible 4 0x80001FFD = false) ∧
    strict.accessible 4 0x80001FFC = true ∧
    (∀ k, k < 4 → mapped strict.params (0x80001FFD + BitVec.ofNat 32 k) = true) ∧
    isOdd 0x1001 ∧ ¬ isOdd overwritten.pc ∧
    (State.accessible { small with pc := 0x1010 } (State.fetchLength { small with pc := 0x1010 }) 0x1010 = false) ∧
    overwritten.yieldBus.accessible overwritten.yieldBus.fetchLength overwritten.yieldBus.pc = true ∧
    overwritten.yieldBus.storedAny overwritten.yieldBus.fetchLength overwritten.yieldBus.pc = true :=
  ⟨⟨rfl, rfl, rfl⟩, rfl, rfl, ⟨rfl, rfl⟩, rfl, by decide, by unfold isOdd; decide, by unfold isOdd; decide,
    rfl, rfl, rfl⟩
/-- Both sides of a dword boundary: 2 bytes at 0x2002 lie within one dword, 2 bytes at 0x2003 and 4 at 0x2001 do not. -/
theorem witness_OtherMastersWriteBetweenBusAccesses :
    shared.params.externalWriters = true ∧ shared.mem.wf = true ∧ shared.others.head? = some [(0x1000, 0x46), (0x1001, 0x75)] ∧
    (0x2002#32).toNat % 4 + 2 ≤ 4 ∧ 4 - (0x2003#32).toNat % 4 < 2 ∧ 4 - (0x2001#32).toNat % 4 < 4 ∧
    shared.accessible 4 0x2001 = true ∧ Alone calm := by decide
theorem witness_IndirectAndAutoincrementModes : calm.latch = none ∧ (14#4 : Reg) ≠ pcReg ∧
    (fun r : Reg => r == 3#4) 14#4 = false := by decide
theorem witness_PrefixedOperandModes : prefixed.latch = some ⟨0x2000, some 7, false⟩ ∧
    (fun r : Reg => r == 3#4) 7#4 = false ∧ (14#4 : Reg) ≠ pcReg ∧ (fun r : Reg => r == 3#4) 14#4 = false := by decide
theorem witness_SourceOperandIsRead :
    Alone loaded ∧ (∃ u, resolve (.inc 2) (BitVec.ofNat 32 (sizeBits .w / 8)) (fun r => r == 3#4) (some 3) loaded =
      .next (0x2000, u) ∧ u.accessible 2 0x2000 = true) ∧ Ready calm True := ⟨rfl, ⟨_, rfl, rfl⟩, calm_ready _⟩
theorem witness_IndexedAndByteOffsetPrefixes : Ready calm True := calm_ready _
theorem witness_MemoryOffsetPrefix : Ready loaded True ∧ Alone loaded ∧ (2#4 : Reg) ≠ pcReg ∧ (2#4 : Reg) ≠ 6#4 ∧
    loaded.accessible 4 (loaded.gpr 2 0) = true := ⟨loaded_ready _, rfl, by decide, by decide, by decide⟩
theorem witness_DoubleIndirectAndAbsolutePrefix : Ready loaded True ∧ Alone loaded ∧ (2#4 : Reg) ≠ pcReg ∧
    loaded.accessible 4 (loaded.gpr 2 0) = true := ⟨loaded_ready _, rfl, by decide, by decide⟩

/-- The memory source [R2+] of each size can be read, with R3 and with PC as the destination. -/
theorem sources_readable :
    (∃ v u, loadSource .d (.mem (.inc 2)) (fun r => r == 3#4) (some 3) loaded = .next (v, u)) ∧
    (∃ v u, loadSource .w (.imm 0xFFFF) (fun r => r == pcReg) (some pcReg) loaded = .next (v, u)) ∧
    (∃ v u, loadSource .b (.mem (.inc 2)) (fun r => r == 3#4) none loaded = .next (v, u)) ∧
    ∃ v u, loadSource .d (.mem (.plain 3)) (fun r => r == 3#4) (some 3) prefixed = .next (v, u) :=
  ⟨⟨_, _, rfl⟩, ⟨_, _, rfl⟩, ⟨_, _, rfl⟩, _, _, rfl⟩
/-- A jump through PC as destination: 0x1002 + 0x100 is even, 0x1002 + 0xFF is odd. -/
theorem jump_targets : ¬ isOdd (replaceLow .d 0x1002 (0x1002 + 0x100)) ∧ isOdd (replaceLow .d 0x1002 (0x1002 + 0xFF)) := by
  constructor <;> unfold isOdd <;> decide

theorem witness_AdditionInstructions : Ready loaded True ∧ loaded.slot = .none ∧ inSlot.slot ≠ .none ∧
    ∃ v u, loadSource .d (.mem (.inc 2)) (fun r => r == 3#4) (some 3) loaded = .next (v, u) :=
  ⟨loaded_ready _, rfl, by decide, sources_readable.1⟩
theorem witness_SubtractionInstructions : Ready loaded True ∧ Ready inSlot False ∧ (3#4 : Reg) ≠ pcReg ∧
    ∃ v u, loadSource .w (.imm 0xFFFF) (fun r => r == pcReg) (some pcReg) loaded = .next (v, u) :=
  ⟨loaded_ready _, inSlot_ready, by decide, sources_readable.2.1⟩
theorem witness_ComparisonInstructions : Ready loaded True ∧
    ∃ v u, loadSource .b (.mem (.inc 2)) (fun r => r == 3#4) none loaded = .next (v, u) :=
  ⟨loaded_ready _, sources_readable.2.2.1⟩
theorem witness_ConditionsAfterCompare :
    calm.flags.x = false ∧ IsDifference .b 1 0x80 Flags.clear 0x7F ⟨false, false, false, false, false, false, true, false⟩ :=
  ⟨rfl, by decide, by decide, by decide, by decide, by decide⟩
theorem witness_BoundAbsAddiAndSetOnCondition : loaded.flags.x = false ∧ Ready loaded True ∧ (14#4 : Reg) ≠ pcReg ∧
    Ready inSlot False ∧ (3#4 : Reg) ≠ pcReg ∧
    ∃ v u, loadSource .d (.mem (.inc 2)) (fun r => r == 3#4) (some 3) loaded = .next (v, u) :=
  ⟨rfl, loaded_ready _, by decide, inSlot_ready, by decide, sources_readable.1⟩
theorem witness_MultiplyAndDivideSteps : (3#4 : Reg) ≠ pcReg ∧ loaded.flags.x = false ∧ Ready loaded True :=
  ⟨by decide, rfl, loaded_ready _⟩
/-- 0xFFFF times 0xFFFF: R0 the multiplicand, R1 the multiplier in its upper half, N set. -/
theorem witness_SixteenMultiplyStepsMultiply :
    let s := withFlags (start [] [(0, 0xFFFF), (1, 0xFFFF0000)]) 0x08
    s.latch = none ∧ s.flags.x = false ∧ s.gpr 0 0 = BitVec.ofNat 32 0xFFFF ∧
      s.gpr 1 0 = BitVec.ofNat 32 (0xFFFF * 2 ^ 16) ∧ (s.flags.n = true ↔ 2 ^ 15 ≤ 0xFFFF) := by decide
theorem witness_MovesToGeneralRegisters : Ready loaded True ∧ loaded.slot = .none ∧
    (∃ v u, loadSource .d (.mem (.plain 3)) (fun r => r == 3#4) (some 3) prefixed = .next (v, u)) ∧
    ∃ v u, loadSource .d (.mem (.inc spReg)) (fun r => r == pcReg) (some pcReg) loaded = .next (v, u) :=
  ⟨loaded_ready _, rfl, sources_readable.2.2.2, _, _, rfl⟩
theorem witness_LogicInstructions : Ready loaded True ∧ (3#4 : Reg) ≠ pcReg ∧
    ∃ v u, loadSource .d (.mem (.inc 2)) (fun r => r == 3#4) (some 3) loaded = .next (v, u) :=
  ⟨loaded_ready _, by decide, sources_readable.1⟩
theorem witness_ShiftInstructions : Ready loaded True ∧ Ready inSlot False ∧ (3#4 : Reg) ≠ pcReg ∧
    (loaded.gpr 3 0).toNat % 64 = 63 := ⟨loaded_ready _, inSlot_ready, by decide, by decide⟩
theorem witness_SwapAndLeadingZeros : Ready loaded True ∧ Ready inSlot False ∧ (3#4 : Reg) ≠ pcReg :=
  ⟨loaded_ready _, inSlot_ready, by decide⟩
theorem witness_BitTestAndTestInstructions : Ready loaded True ∧ (loaded.gpr 3 0).toNat % 32 = 31 ∧
    (∃ v u, loadSource .w (.mem (.inc 2)) (fun _ => false) none loaded = .next (v, u)) ∧ (3#4 : Reg) ≠ pcReg ∧
    Ready inSlot False := ⟨loaded_ready _, by decide, ⟨_, _, rfl⟩, by decide, inSlot_ready⟩
theorem witness_NopAndFlagInstructions : Ready inSlot False ∧ Ready calm False := ⟨inSlot_ready, calm_ready _⟩
theorem witness_MovesToSpecialRegisters : PNum.implemented 9#4 = true ∧ Ready loaded True ∧
    (∃ v u, loadSource (PNum.size 9#4) (.imm 0x10000) (fun _ => false) none loaded = .next (v, u)) ∧
    ∃ v u, loadSource (PNum.size 5#4) (.mem (.inc spReg)) (fun _ => false) none loaded = .next (v, u) :=
  ⟨rfl, loaded_ready _, ⟨_, _, rfl⟩, _, _, rfl⟩
theorem witness_MovesFromSpecialRegisters : (14#4 : Reg) ≠ pcReg ∧ Ready inSlot False ∧ PNum.implemented 14#4 = true :=
  ⟨by decide, inSlot_ready, rfl⟩
theorem witness_ZeroRegisters : (3#4 : Reg) ≠ pcReg ∧ Ready inSlot False ∧ Ready loaded True ∧
    (∃ v u, loadSource (PNum.size 4#4) (.imm 0xFFFF) (fun _ => false) none loaded = .next (v, u)) ∧
    ∃ v u, loadSource (PNum.size 8#4) (.mem (.inc spReg)) (fun _ => false) none loaded = .next (v, u) :=
  ⟨by decide, inSlot_ready, loaded_ready _, ⟨_, _, rfl⟩, _, _, rfl⟩
theorem witness_InterruptBaseRegister : Ready loaded True ∧ (3#4 : Reg) ≠ pcReg ∧ Ready inSlot False ∧
    ∃ v u, loadSource .d (.mem (.inc 2)) (fun _ => false) none loaded = .next (v, u) :=
  ⟨loaded_ready _, by decide, inSlot_ready, _, _, rfl⟩
theorem witness_SpecialRegistersToMemory :
    PNum.implemented 11#4 = true ∧ Alone loaded ∧ loaded.mem.wf = true ∧
    (∃ u, resolve (.inc 2) (BitVec.ofNat 32 (PNum.size 11#4).bytes) (fun _ => false) none loaded = .next (0x2000, u) ∧
      u.accessible 4 0x2000 = true) ∧
    (∃ u, resolve (.plain 2) 1 (fun _ => false) none loaded = .next (0x2000, u) ∧ u.accessible 1 0x2000 = true) ∧
    (∃ u, resolve (.inc 2) 2 (fun _ => false) none loaded = .next (0x2000, u) ∧ u.accessible 2 0x2000 = true) ∧
    (∃ u, resolve (.inc 2) 4 (fun _ => false) none loaded = .next (0x2000, u) ∧ u.accessible 4 0x2000 = true) ∧
    Ready loaded True ∧ loaded.accessible (PNum.size 11#4).bytes (loaded.gpr spReg 0 - 4) = true :=
  ⟨rfl, rfl, rfl, ⟨_, rfl, rfl⟩, ⟨_, rfl, rfl⟩, ⟨_, rfl, rfl⟩, ⟨_, rfl, rfl⟩, loaded_ready _, rfl⟩
theorem witness_RegistersToMemory :
    Alone loaded ∧ loaded.mem.wf = true ∧
    (∃ u, resolve (.inc 2) (BitVec.ofNat 32 (sizeBits .d / 8)) (fun r => r == 3#4) none loaded = .next (0x2000, u) ∧
      u.accessible 4 0x2000 = true) ∧
    (3#4 : Reg) ≠ spReg ∧ Ready loaded True ∧ loaded.accessible 4 (loaded.gpr spReg 0 - 4) = true :=
  ⟨rfl, rfl, ⟨_, rfl, rfl⟩, by decide, loaded_ready _, rfl⟩
theorem witness_MultipleMoves :
    (14#4 : Reg) ≠ pcReg ∧ Alone loaded ∧ loaded.mem.wf = true ∧
    (∃ u, resolve (.plain 2) (BitVec.ofNat 32 (4 * (14 + 1))) (fun r => decide (r.toNat ≤ 14)) none loaded =
      .next (0x2000, u) ∧ u.accessible (4 * (14 + 1)) 0x2000 = true) ∧
    ∃ u, resolve (.inc 2) (BitVec.ofNat 32 (4 * (1 + 1))) (fun r => decide (r.toNat ≤ 1)) none loaded =
      .next (0x2000, u) ∧ u.accessible (4 * (1 + 1)) 0x2000 = true :=
  ⟨by decide, rfl, rfl, ⟨_, rfl, rfl⟩, _, rfl, rfl⟩
theorem witness_BranchInstructions : Ready calm True ∧ ¬ isOdd calm.pc ∧
    isOdd (calm.pc + 4 + BitVec.ofInt 32 (1#16).toInt) ∧ ¬ isOdd (calm.pc + 4 + BitVec.ofInt 32 (0x8000#16).toInt) :=
  ⟨calm_ready _, by unfold isOdd; decide, by unfold isOdd; decide, by unfold isOdd; decide⟩
theorem witness_JumpsAndSubroutineCalls :
    Ready loaded True ∧ ¬ isOdd (loaded.gpr 2 0) ∧ isOdd (loaded.gpr 3 0) ∧
    (loaded.slot = .none ∧ (∃ u, loadSource .d (.imm 0x4000) (fun _ => false) none loaded = .next (0x4000, u)) ∧
      (∃ u, loadSource .d (.imm 0x4001) (fun _ => false) none loaded = .next (0x4001, u)) ∧
      ∃ v u, loadSource .d (.mem (.inc 2)) (fun _ => false) none loaded = .next (v, u)) :=
  ⟨loaded_ready _, by unfold isOdd; decide, by unfold isOdd; decide, rfl, ⟨_, rfl⟩, ⟨_, rfl⟩, _, _, rfl⟩
theorem witness_BreakAndReturnInstructions : Ready calm True ∧ ¬ isOdd calm.srp ∧
    isOdd (State.irp { calm with irp := 0x4001 }) ∧ Ready { calm with irp := 0x4001 } True :=
  ⟨calm_ready _, by unfold isOdd; decide, by unfold isOdd; decide, rfl, fun _ => rfl⟩

end Sys2Proof.Tests
end

/-! PROOFS. What the platform fixes: no operation of an instruction changes a parameter or the list of inputs (rules R8,
R303), and a step consumes one input of the list. -/

namespace Sys2Proof.Machine

open Sys2Proof.Config

/-! ## What an outcome yields -/

/-- Whatever value the outcome answers with, if it answers, satisfies `P`. -/
def Yields {α : Type} (P : α → Prop) (o : Result α) : Prop := ∀ a, o = .next a → P a

section Outcomes

variable {α β : Type} {P : α → Prop} {Q : β → Prop}

theorem Yields.of_next {a : α} (h : P a) : Yields P (.next a) := by
  rintro _ ⟨⟩
  exact h

theorem Yields.of_refused {r : Refusal} : Yields P (.refused r) := nofun

theorem Yields.of_andThen {x : Result α} {k : α → Result β} (hx : Yields P x) (hk : ∀ a, P a → Yields Q (k a)) :
    Yields Q (andThen x k) := fun b h =>
  let ⟨a, ha, hb⟩ := andThen_eq_next.mp h
  hk a (hx a ha) b hb

theorem Yields.of_refuseIf {b : Bool} {r : Refusal} {k : Result α} (h : Yields P k) : Yields P (refuseIf b r k) :=
  fun a e => h a (refuseIf_eq_next.mp e).2

theorem Yields.of_refuseOdd {t : Word} {k : Result α} (h : Yields P k) : Yields P (refuseOdd t k) := h.of_refuseIf

theorem Yields.of_slotGuard {p : Bool} {s : State} {k : Result α} (h : Yields P k) : Yields P (slotGuard p s k) :=
  h.of_refuseIf

theorem Yields.of_unprefixed {s : State} {k : Result α} (h : Yields P k) : Yields P (unprefixed s k) := h.of_refuseIf

end Outcomes

section Guards

variable {P : State → Prop}

theorem Yields.of_prefixForm {s : State} {k : Result State} (h : Yields P k) : Yields P (prefixForm s k) :=
  h.of_slotGuard.of_refuseIf

theorem Yields.of_regForm {p : Bool} {s : State} {k : Result State} (h : Yields P k) :
    Yields P (regForm p s k) := h.of_slotGuard.of_unprefixed

theorem Yields.of_noPcDest {rd : Reg} {k : Result State} (h : Yields P k) :
    Yields P (noPcDest rd k) := h.of_refuseIf

theorem Yields.of_noExtend {s : State} {k : Result State} (h : Yields P k) :
    Yields P (noExtend s k) := h.of_refuseIf

theorem Yields.of_withSpecial {p : PNum} {k : Special → Result State} (h : ∀ q, Yields P (k q)) :
    Yields P (withSpecial p k) := by
  unfold withSpecial
  cases specialOf p with
  | none => exact .of_refused
  | some q => exact h q

end Guards

/-! ## What the platform gives -/

/-- What the implementation and the environment fix: the parameters and the inputs still to come (rules R8, R303). -/
def State.setting (s : State) : Params × List Input := (s.params, s.env)

theorem State.setting_eq_iff {s : State} {p : Params} {e : List Input} :
    s.setting = (p, e) ↔ s.params = p ∧ s.env = e := Prod.ext_iff

/-! These updates are defined by cases; every other one leaves the setting by definition. -/

@[simp] theorem State.setGpr_setting (s : State) (r : Reg) (v : Word) : (s.setGpr r v).setting = s.setting := by
  simp [State.setting]
@[simp] theorem State.setPointer_setting (s : State) (p : Pointer) (v : Word) :
    (s.setPointer p v).setting = s.setting := by simp [State.setting]
@[simp] theorem State.writeSpecial_setting (s : State) (p : Special) (v : Word) :
    (s.writeSpecial p v).setting = s.setting := by simp [State.setting]
@[simp] theorem State.watchFetch_setting (s : State) (a : Word) : (s.watchFetch a).setting = s.setting := by
  simp [State.setting]

theorem State.afterInput_setting (s : State) : s.afterInput.setting = (s.params, s.env.tail) := rfl

section Operations

/-! From here on `c` is the setting in which an operation starts, and each lemma says that the operation ends in it. -/

variable {c : Params × List Input} {s : State}

/-! ## Memory and operands -/

theorem touch_setting {n : Nat} {a : Word} (h : s.setting = c) : Yields (·.setting = c) (touch n a s) :=
  fun _ e => (congrArg State.setting (touch_eq_next e)).trans h

theorem memRead_setting {n : Nat} {a : Word} (h : s.setting = c) : Yields (·.2.setting = c) (memRead n a s) :=
  fun ⟨_, _⟩ e => (congrArg State.setting (memRead_eq_next e).2.1).trans h

theorem memWrite_setting {n : Nat} {a v : Word} (h : s.setting = c) : Yields (·.setting = c) (memWrite n a v s) :=
  fun _ e => (congrArg State.setting (memWrite_eq_next e).1).trans h

theorem resolve_setting {a : AddrMode} {w : Word} {busy : Reg → Bool} {dest : Option Reg} (h : s.setting = c) :
    Yields (·.2.setting = c) (resolve a w busy dest s) :=
  fun ⟨_, _⟩ e => (congrArg State.setting (resolve_eq_next e)).trans h

theorem immediate_setting {m : Size} {v : Word} (h : s.setting = c) : Yields (·.2.setting = c) (immediate m v s) :=
  .of_refuseIf (.of_slotGuard (.of_next h))

theorem loadSource_setting {m : Size} {src : SrcMode} {busy : Reg → Bool} {dest : Option Reg} (h : s.setting = c) :
    Yields (·.2.setting = c) (loadSource m src busy dest s) :=
  fun ⟨_, _⟩ e => (congrArg State.setting (loadSource_eq_next e)).trans h

theorem storeTo_setting {m : Size} {dst : AddrMode} {busy : Reg → Bool} {v : Word} (h : s.setting = c) :
    Yields (·.setting = c) (storeTo m dst busy v s) :=
  .of_andThen (resolve_setting h) fun _ ht => memWrite_setting ht

theorem storeList_setting {regs : State} {k : Nat} {a : Word} (h : s.setting = c) :
    Yields (·.setting = c) (storeList regs k a s) := by
  induction k generalizing a s with
  | zero => exact .of_next h
  | succ k ih => exact .of_andThen (memWrite_setting h) fun _ ht => ih ht

theorem loadList_setting {k : Nat} {a : Word} (h : s.setting = c) : Yields (·.setting = c) (loadList k a s) := by
  induction k generalizing a s with
  | zero => exact .of_next h
  | succ k ih => exact .of_andThen (memRead_setting h) fun _ ht => ih ((State.setGpr_setting _ _ _).trans ht)

theorem prefixPointer_setting {m : Size} {a : AddrMode} {busy : Reg → Bool} (h : s.setting = c) :
    Yields (·.2.1.setting = c) (prefixPointer m a busy s) := by
  cases a with
  | plain r => exact .of_refuseIf (.of_next h)
  | inc r => exact .of_refuseIf (.of_refuseIf (.of_next ((State.setGpr_setting _ _ _).trans h)))

/-! ## Transfers of control and traps -/

theorem jumpNow_setting {t : Word} (h : s.setting = c) : Yields (·.setting = c) (jumpNow t s) :=
  .of_refuseOdd (.of_next h)

theorem jumpDelayed_setting {target : Option Word} {next : Word} (h : s.setting = c) :
    Yields (·.setting = c) (jumpDelayed target next s) := by
  cases target with
  | none => exact .of_next h
  | some t => exact .of_refuseOdd (.of_next h)

theorem branchIf_setting {taken : Bool} {next off : Word} (h : s.setting = c) :
    Yields (·.setting = c) (branchIf taken next off s) :=
  .of_unprefixed (.of_slotGuard (jumpDelayed_setting h))

theorem returnThrough_setting {p : Pointer} (h : s.setting = c) : Yields (·.setting = c) (returnThrough p s) :=
  .of_unprefixed (.of_slotGuard (jumpDelayed_setting h))

theorem jumpLink_setting {link : Option Link} {t next : Word} (h : s.setting = c) :
    Yields (·.setting = c) (jumpLink link t next s) := by
  cases link with
  | none => exact jumpNow_setting h
  | some l => exact jumpNow_setting ((State.setPointer_setting _ _ _).trans h)

theorem jumpByReg_setting {link : Option Link} {rs : Reg} (h : s.setting = c) :
    Yields (·.setting = c) (jumpByReg link rs s) :=
  .of_unprefixed (.of_slotGuard (jumpLink_setting h))

theorem jumpByMem_setting {link : Option Link} {src : SrcMode} (h : s.setting = c) :
    Yields (·.setting = c) (jumpByMem link src s) :=
  .of_slotGuard (.of_andThen (loadSource_setting h) fun _ ht => jumpLink_setting ht)

theorem takeException_setting {p : Pointer} {vec : Byte} (h : s.setting = c) :
    Yields (·.setting = c) (takeException p vec s) :=
  .of_andThen (touch_setting h) fun t ht => .of_refuseOdd <| .of_next <| by
    change (State.setPointer _ _ _).setting = c
    rw [State.setPointer_setting]
    split <;> exact ht

theorem takeTrap_setting {k : TrapKind} {inp : Input} (h : s.setting = c) :
    Yields (·.setting = c) (takeTrap k inp s) := by
  cases k <;> exact takeException_setting h

/-! ## Forms of instructions -/

theorem writeResult_setting {m : Size} {rd : Reg} {r next : Word} (h : s.setting = c) :
    Yields (·.setting = c) (writeResult m rd r next s) := by
  unfold writeResult
  split
  · exact jumpNow_setting h
  · exact .of_next ((State.setGpr_setting _ _ _).trans h)

theorem applyAlu_setting {m : Size} {alu : Alu} {rd : Reg} {src next : Word} (h : s.setting = c) :
    Yields (·.setting = c) (applyAlu m alu rd src next s) := writeResult_setting h

theorem applyTest_setting {m : Size} {alu : Alu} {rd : Reg} {src next : Word} (h : s.setting = c) :
    Yields (·.setting = c) (applyTest m alu rd src next s) := .of_next h

theorem regAlu_setting {m : Size} {source : Word → Word} {alu : Alu} {rd rs : Reg} (h : s.setting = c) :
    Yields (·.setting = c) (regAlu m source alu rd rs s) := .of_regForm (applyAlu_setting h)

theorem regTest_setting {m : Size} {source : Word → Word} {alu : Alu} {rd rs : Reg} (h : s.setting = c) :
    Yields (·.setting = c) (regTest m source alu rd rs s) := .of_regForm (applyTest_setting h)

theorem quickAlu_setting {alu : Alu} {rd : Reg} {v : Word} (h : s.setting = c) :
    Yields (·.setting = c) (quickAlu alu rd v s) := .of_regForm (applyAlu_setting h)

theorem quickTest_setting {alu : Alu} {rd : Reg} {v : Word} (h : s.setting = c) :
    Yields (·.setting = c) (quickTest alu rd v s) := .of_regForm (applyTest_setting h)

theorem memAlu_setting {k m : Size} {source : Word → Word} {alu : Alu} {rd : Reg} {src : SrcMode}
    (h : s.setting = c) : Yields (·.setting = c) (memAlu k m source alu rd src s) :=
  .of_slotGuard (.of_andThen (loadSource_setting h) fun _ ht => applyAlu_setting ht)

theorem memTest_setting {k m : Size} {source : Word → Word} {alu : Alu} {rd : Reg} {src : SrcMode}
    (h : s.setting = c) : Yields (·.setting = c) (memTest k m source alu rd src s) :=
  .of_slotGuard (.of_andThen (loadSource_setting h) fun _ ht => applyTest_setting ht)

theorem moveRegTo_setting {m : Size} {rs : Reg} {dst : AddrMode} (h : s.setting = c) :
    Yields (·.setting = c) (moveRegTo m rs dst s) :=
  .of_slotGuard (.of_andThen (storeTo_setting h) fun _ ht => .of_next ht)

theorem moveToSpecialFromReg_setting {p : PNum} {rs : Reg} (h : s.setting = c) :
    Yields (·.setting = c) (moveToSpecialFromReg p rs s) :=
  .of_regForm (.of_withSpecial fun _ => .of_next ((State.writeSpecial_setting _ _ _).trans h))

theorem moveToSpecialFromMem_setting {p : PNum} {src : SrcMode} (h : s.setting = c) :
    Yields (·.setting = c) (moveToSpecialFromMem p src s) :=
  .of_withSpecial fun _ => .of_andThen (loadSource_setting h) fun _ ht =>
    .of_next ((State.writeSpecial_setting _ _ _).trans ht)

theorem moveFromSpecialToReg_setting {q : Special} {rd : Reg} (h : s.setting = c) :
    Yields (·.setting = c) (moveFromSpecialToReg q rd s) :=
  .of_unprefixed (.of_refuseIf (.of_next ((State.setGpr_setting _ _ _).trans h)))

theorem moveFromSpecialToMem_setting {q : Special} {dst : AddrMode} (h : s.setting = c) :
    Yields (·.setting = c) (moveFromSpecialToMem q dst s) :=
  .of_andThen (storeTo_setting h) fun _ ht => .of_next ht

theorem setFlags_setting {list : Byte} (h : s.setting = c) : Yields (·.setting = c) (setFlags list s) :=
  .of_unprefixed (.of_next h)

theorem clearFlags_setting {list : Byte} (h : s.setting = c) : Yields (·.setting = c) (clearFlags list s) :=
  .of_unprefixed (.of_next h)

theorem byteOffsetPrefix_setting {base : Reg} {off : Byte} (h : s.setting = c) :
    Yields (·.setting = c) (byteOffsetPrefix base off s) := .of_prefixForm (.of_next h)

/-! ## Instructions that are a form of their own -/

theorem execAddi_setting {m : Size} {rd rs : Reg} (h : s.setting = c) : Yields (·.setting = c) (execAddi m rd rs s) :=
  .of_unprefixed (.of_noPcDest (.of_noExtend (.of_slotGuard (.of_next ((State.setGpr_setting _ _ _).trans h)))))

theorem execScc_setting {cond : Cond} {rd : Reg} (h : s.setting = c) : Yields (·.setting = c) (execScc cond rd s) :=
  .of_noPcDest (.of_unprefixed (.of_next ((State.setGpr_setting _ _ _).trans h)))

theorem execBrk_setting {n : BitVec 4} (h : s.setting = c) : Yields (·.setting = c) (execBrk n s) :=
  .of_unprefixed (.of_slotGuard (jumpNow_setting h))

theorem execTestMem_setting {m : Size} {src : SrcMode} (h : s.setting = c) :
    Yields (·.setting = c) (execTestMem m src s) :=
  .of_andThen (loadSource_setting h) fun _ ht => .of_next ht

theorem execMovemStore_setting {rs : Reg} {dst : AddrMode} (h : s.setting = c) :
    Yields (·.setting = c) (execMovemStore rs dst s) :=
  .of_refuseIf <| .of_andThen (resolve_setting h) fun _ ht =>
    .of_andThen (storeList_setting ht) fun _ hu => .of_next hu

theorem execMovemLoad_setting {rd : Reg} {src : AddrMode} (h : s.setting = c) :
    Yields (·.setting = c) (execMovemLoad rd src s) :=
  .of_refuseIf <| .of_andThen (resolve_setting h) fun _ ht =>
    .of_andThen (loadList_setting ht) fun _ hu => .of_next hu

theorem execMoveSpecialToReg_setting {ps : PNum} {rd : Reg} (h : s.setting = c) :
    Yields (·.setting = c) (execMoveSpecialToReg ps rd s) :=
  .of_withSpecial fun q => by
    split
    · split
      case h_4 => exact .of_refused
      all_goals exact returnThrough_setting h
    · exact moveFromSpecialToReg_setting h

theorem execBiap_setting {m : Size} {index base : Reg} (h : s.setting = c) :
    Yields (·.setting = c) (execBiap m index base s) := .of_prefixForm (.of_next h)

theorem execBdap_setting {m : Size} {base : Reg} {off : SrcMode} (h : s.setting = c) :
    Yields (·.setting = c) (execBdap m base off s) := .of_prefixForm <| by
  cases off with
  | mem a =>
    exact .of_andThen (prefixPointer_setting h) fun _ ht => .of_andThen (memRead_setting ht) fun _ hu => .of_next hu
  | imm v => exact .of_andThen (immediate_setting h) fun _ ht => .of_next ht

theorem execDip_setting {src : SrcMode} (h : s.setting = c) : Yields (·.setting = c) (execDip src s) :=
  .of_prefixForm <| by
  cases src with
  | mem a =>
    exact .of_andThen (prefixPointer_setting h) fun _ ht => .of_andThen (memRead_setting ht) fun _ hu => .of_next hu
  | imm v => exact .of_andThen (immediate_setting h) fun _ ht => .of_next ht

theorem execPushReg_setting {rn : Reg} (h : s.setting = c) : Yields (·.setting = c) (execPushReg rn s) :=
  .of_andThen (byteOffsetPrefix_setting h) fun _ ht => moveRegTo_setting ht

theorem execPushSpecial_setting {pn : PNum} (h : s.setting = c) : Yields (·.setting = c) (execPushSpecial pn s) :=
  .of_withSpecial fun _ => .of_andThen (byteOffsetPrefix_setting h) fun _ ht => moveFromSpecialToMem_setting ht

/-! ## Every instruction, and the step -/

/-- No instruction changes a parameter or the list of inputs: it is of one of the forms above. -/
theorem exec_setting (i : Instr) (h : s.setting = c) : Yields (·.setting = c) (exec i s) := by
  cases i with
  | reserved => exact .of_refused
  | nop => exact .of_unprefixed (.of_next h)
  | addReg | addsReg | adduReg | subReg | subsReg | subuReg | andReg | orReg | xorReg | asr | lz | moveReg | movsReg
    | movuReg | testReg => exact regAlu_setting h
  | lsl | lsr | neg => exact .of_noPcDest (regAlu_setting h)
  | absReg => exact .of_noExtend (regAlu_setting h)
  | boundReg | mstep | dstep => exact .of_noPcDest (.of_noExtend (regAlu_setting h))
  | cmpReg | btst => exact regTest_setting h
  | addq | subq | andq | orq | moveq | asrq => exact quickAlu_setting h
  | lslq | lsrq | notReg | swap => exact .of_noPcDest (quickAlu_setting h)
  | cmpq | btstq => exact quickTest_setting h
  | addMem | addsMem | adduMem | subMem | subsMem | subuMem | andMem | orMem | moveMemToReg | movsMem | movuMem
    | popReg => exact memAlu_setting h
  | boundMem => exact .of_noPcDest (.of_noExtend (memAlu_setting h))
  | cmpMem | cmpsMem | cmpuMem => exact memTest_setting h
  | testMem => exact execTestMem_setting h
  | addi => exact execAddi_setting h
  | scc => exact execScc_setting h
  | ba8 | bcc8 => exact branchIf_setting h
  | ba16 | bcc16 => exact .of_slotGuard (branchIf_setting h)
  | jumpReg | jsrReg | jirReg | jsrcReg | jircReg | jbrcReg => exact jumpByReg_setting h
  | jumpMem | jumpImm | jsrMem | jirMem | jsrcMem | jircMem | jbrcMem => exact jumpByMem_setting h
  | brk => exact execBrk_setting h
  | ret | reti | retb => exact returnThrough_setting h
  | setf | ax | ei => exact setFlags_setting h
  | clearf | di => exact clearFlags_setting h
  | moveRegToSpecial => exact moveToSpecialFromReg_setting h
  | moveMemToSpecial | popSpecial => exact moveToSpecialFromMem_setting h
  | moveSpecialToReg => exact execMoveSpecialToReg_setting h
  | clearByteReg | clearWordReg | clearDwordReg => exact moveFromSpecialToReg_setting h
  | moveSpecialToMem => exact .of_withSpecial fun _ => moveFromSpecialToMem_setting h
  | clearByteMem | clearWordMem | clearDwordMem => exact moveFromSpecialToMem_setting h
  | moveRegToMem => exact moveRegTo_setting h
  | movemStore => exact execMovemStore_setting h
  | movemLoad => exact execMovemLoad_setting h
  | bdapQuick => exact byteOffsetPrefix_setting h
  | biap => exact execBiap_setting h
  | bdap => exact execBdap_setting h
  | dip => exact execDip_setting h
  | pushReg => exact execPushReg_setting h
  | pushSpecial => exact execPushSpecial_setting h

theorem fetchInstr_setting (h : s.setting = c) : Yields (·.2.setting = c) (fetchInstr s) :=
  .of_refuseOdd <| .of_andThen (touch_setting h) fun _ ht =>
    .of_refuseIf (.of_next ((State.watchFetch_setting _ _).trans ht))

theorem runWord_setting (h : s.setting = c) : Yields (·.setting = c) (runWord exec s) :=
  .of_andThen (fetchInstr_setting h) fun p hp => exec_setting p.1 hp

theorem runInstruction_setting (h : s.setting = c) : Yields (·.setting = c) (runInstruction exec s) :=
  .of_andThen (runWord_setting h) fun t ht => by
    split
    · exact runWord_setting ht
    · exact .of_next ht

end Operations

/-- A step of any kind (reset, trap or instruction) consumes one input and leaves the rest of the setting (rule R300). -/
theorem step_setting (s : State) : Yields (·.setting = (s.params, s.env.tail)) (step s) := by
  have h := s.afterInput_setting
  unfold step oneStep
  split
  case h_1 u _ => exact .of_next h
  case h_2 =>
    split
    case h_1 k _ => exact takeTrap_setting h
    case h_2 => exact runInstruction_setting h

/-- VR reads as the parameter `version` (rule R26). -/
theorem specialNat_vr (s : State) : specialNat s 1#4 = s.params.version.value.toNat := rfl

/-- Settles O15: every operation that a step is made of leaves the parameters and the inputs to come. -/
theorem parametersNeverChange : Obligations.ParametersNeverChange := by
  intro s t h
  obtain ⟨hp, he⟩ := State.setting_eq_iff.mp (step_setting s t h)
  exact ⟨hp, he, by rw [specialNat_vr, specialNat_vr, hp]⟩

end Sys2Proof.Machine

/-! PROOFS. What an instruction does besides its result: memory and the prefetch register, the control registers and the
enable flags, and the end of the instruction. One lemma (`exec_effect`) says it for every instruction, by kind; the
invariant and the whole-machine rules are read off it. -/

namespace Sys2Proof.Machine

open Sys2Proof.Config

/-! ## Even addresses (rule R50) -/

/-- The address is even, as every address that reaches the program counter must be. -/
abbrev isEven (a : Word) : Prop := a.getLsbD 0 = false

theorem isEven_iff {a : Word} : isEven a ↔ a.toNat % 2 = 0 := by
  rw [isEven, BitVec.getLsbD, Nat.testBit_zero, decide_eq_false_iff_not]
  omega

theorem isEven.add {a b : Word} (ha : isEven a) (hb : isEven b) : isEven (a + b) := by
  rw [isEven_iff] at *
  rw [BitVec.toNat_add]
  omega

theorem isEven_nextPc {s : State} (h : isEven s.pc) : isEven s.nextPc := h.add rfl

/-- Immediate data takes whole words (rule R97). -/
theorem isEven_afterSource {m : Size} {src : SrcMode} {s : State} (h : isEven s.pc) : isEven (afterSource m src s) := by
  refine (isEven_nextPc h).add (isEven_iff.mpr ?_)
  have := src.immLength_even m
  rw [BitVec.toNat_ofNat]
  omega

/-! ## What becomes of memory -/

/-- What the prefetch register is compared with: memory, the note of stored locations, the register, the parameters. -/
def State.storage (s : State) : Memory × List Nat × Option Prefetch × Params := (s.mem, s.stored, s.prefetch, s.params)

@[simp] theorem State.setGpr_storage (s : State) (r : Reg) (v : Word) : (s.setGpr r v).storage = s.storage := by
  simp [State.storage]
@[simp] theorem State.setPointer_storage (s : State) (p : Pointer) (v : Word) :
    (s.setPointer p v).storage = s.storage := by simp [State.storage]
@[simp] theorem State.writeSpecial_storage (s : State) (p : Special) (v : Word) :
    (s.writeSpecial p v).storage = s.storage := by simp [State.storage]

/-- From `s` to `t` memory changed by data accesses: its canonical form stays, the prefetch register is as before, and a
byte that the CPU has not noted as stored changes only by another bus master (rules R65, R78). -/
structure MemoryKept (s t : State) : Prop where
  prefetch : t.prefetch = s.prefetch
  params : t.params = s.params
  canonical : s.mem.wf = true → t.mem.wf = true
  noted : ∀ l, l ∈ s.stored → l ∈ t.stored
  unstored : Alone s → ∀ x, location x ∉ t.stored → t.peek x = s.peek x

theorem MemoryKept.of_storage {s t : State} (h : t.storage = s.storage) : MemoryKept s t := by
  obtain ⟨hm, hs, hp, hq⟩ : t.mem = s.mem ∧ t.stored = s.stored ∧ t.prefetch = s.prefetch ∧ t.params = s.params := by
    simpa [State.storage] using h
  exact ⟨hp, hq, fun w => hm ▸ w, fun _ hl => hs ▸ hl, fun _ x _ => State.peek_congr hm x⟩

theorem MemoryKept.trans {s t u : State} (h : MemoryKept s t) (h' : MemoryKept t u) : MemoryKept s u where
  prefetch := h'.prefetch.trans h.prefetch
  params := h'.params.trans h.params
  canonical hw := h'.canonical (h.canonical hw)
  noted l hl := h'.noted l (h.noted l hl)
  unstored ha x hx := by
    have ha' : Alone t := by rw [Alone, h.params]; exact ha
    rw [h'.unstored ha' x hx, h.unstored ha x fun hl => hx (h'.noted _ hl)]

/-! ## The operand phase -/

/-- `u` is reached from `s` by the accesses and register changes of an operand: nothing of the control state differs. -/
structure Worked (s u : State) : Prop where
  same : u = { s with
    regs := u.regs, mem := u.mem, stored := u.stored, others := u.others, hit := u.hit, aliasSeen := u.aliasSeen }
  memory : MemoryKept s u

section Operands

variable {s u : State}

theorem Worked.refl (s : State) : Worked s s := ⟨rfl, .of_storage rfl⟩

theorem Worked.trans {t : State} (h : Worked s t) (h' : Worked t u) : Worked s u where
  same := h'.same.trans (congrArg (fun w : State => { w with
    regs := u.regs, mem := u.mem, stored := u.stored, others := u.others, hit := u.hit, aliasSeen := u.aliasSeen }) h.same)
  memory := h.memory.trans h'.memory

theorem Worked.setGpr (h : Worked s u) (r : Reg) (v : Word) : Worked s (u.setGpr r v) :=
  h.trans ⟨by rw [State.setGpr_eq], .of_storage (by simp)⟩

theorem Worked.watch (h : Worked s u) (n : Nat) (a : Word) : Worked s (u.watch n a) :=
  h.trans ⟨rfl, .of_storage rfl⟩

theorem Worked.watchFetch (h : Worked s u) (a : Word) : Worked s (u.watchFetch a) := by
  unfold State.watchFetch
  split
  · exact h.watch 2 a
  · exact h

/-- Reading over the bus changes memory only by what other bus masters write. -/
theorem Worked.readBus (s : State) (n : Nat) (a : Word) : Worked s (s.withBus (s.bus.advance.read n a).2) where
  same := rfl
  memory :=
    { prefetch := rfl
      params := rfl
      canonical := fun hw => Bus.read_wf (Bus.advance_wf hw) n a
      noted := fun _ hl => hl
      unstored := fun ha x _ => by
        have hs : s.bus.shared = false := ha
        rw [Bus.advance_alone hs, Bus.read_alone hs, State.withBus_bus] }

theorem Worked.yieldBus (s : State) : Worked s s.yieldBus := Worked.readBus s 0 0

theorem touch_worked {n : Nat} {a : Word} : Yields (Worked s) (touch n a s) := fun t h => by
  have e := touch_eq_next h
  exact ⟨by rw [e], .of_storage (by rw [e]; rfl)⟩

theorem memRead_worked {n : Nat} {a : Word} : Yields (fun p => Worked s p.2) (memRead n a s) :=
  .of_andThen touch_worked fun t ht => .of_next ((ht.trans (.readBus t n a)).watch n a)

/-- Storing bytes notes their locations (rule R78). -/
theorem Worked.putBytes (s : State) (n : Nat) (a v : Word) : Worked s (s.putBytes n a v) where
  same := rfl
  memory :=
    { prefetch := rfl
      params := rfl
      canonical := fun hw => Bus.write_wf (Bus.advance_wf hw) n a v
      noted := fun _ hl => mem_noteStored.mpr (.inl hl)
      unstored := fun ha x hx => by
        have hs : s.bus.shared = false := ha
        have ho : outside x n a := fun k hk e => hx (mem_noteStored.mpr (.inr ⟨k, hk, e⟩))
        unfold State.peek
        rw [State.putBytes_mem, Bus.advance_alone hs, Bus.write_alone hs]
        exact Memory.byteAt_store_outside s.mem ho }

theorem memWrite_worked {n : Nat} {a v : Word} : Yields (Worked s) (memWrite n a v s) :=
  .of_andThen touch_worked fun _ ht => .of_next ((ht.watch n a).trans (.putBytes _ n a v))

theorem resolve_worked {a : AddrMode} {w : Word} {busy : Reg → Bool} {dest : Option Reg} :
    Yields (fun p => Worked s p.2) (resolve a w busy dest s) := fun ⟨_, t⟩ h => by
  have e : t = _ := resolve_eq_next h
  exact ⟨by rw [e], .of_storage (by rw [e]; rfl)⟩

theorem immediate_worked {m : Size} {v : Word} : Yields (fun p => Worked s p.2) (immediate m v s) :=
  .of_refuseIf (.of_slotGuard (.of_next ((Worked.refl s).watch _ _)))

theorem loadSource_worked {m : Size} {src : SrcMode} {busy : Reg → Bool} {dest : Option Reg} :
    Yields (fun p => Worked s p.2) (loadSource m src busy dest s) := by
  cases src with
  | mem a => exact .of_andThen resolve_worked fun _ ht => fun p hp => ht.trans (memRead_worked p hp)
  | imm v => exact immediate_worked

theorem storeTo_worked {m : Size} {dst : AddrMode} {busy : Reg → Bool} {v : Word} :
    Yields (Worked s) (storeTo m dst busy v s) :=
  .of_andThen resolve_worked fun _ ht => fun p hp => ht.trans (memWrite_worked p hp)

theorem storeList_worked {regs : State} {k : Nat} {a : Word} (h : Worked s u) :
    Yields (Worked s) (storeList regs k a u) := by
  induction k generalizing a u with
  | zero => exact .of_next h
  | succ k ih => exact .of_andThen memWrite_worked fun _ ht => ih (h.trans ht)

theorem loadList_worked {k : Nat} {a : Word} (h : Worked s u) : Yields (Worked s) (loadList k a u) := by
  induction k generalizing a u with
  | zero => exact .of_next h
  | succ k ih => exact .of_andThen memRead_worked fun _ ht => ih ((h.trans ht).setGpr _ _)

theorem prefixPointer_worked {m : Size} {a : AddrMode} {busy : Reg → Bool} :
    Yields (fun p => Worked s p.2.1) (prefixPointer m a busy s) := by
  cases a with
  | plain r => exact .of_refuseIf (.of_next (.refl s))
  | inc r => exact .of_refuseIf (.of_refuseIf (.of_next ((Worked.refl s).setGpr _ _)))

end Operands

/-! ## Kinds of instructions by what they write -/

/-- The kinds of instructions by what they may write beside general registers, memory and the arithmetic flags. -/
inductive Kind where
  /-- nothing -/
  | ordinary
  /-- nothing, but the window opens: a special register or zero is moved away (rule R305(b)) -/
  | fromSpecial
  /-- the special register with this number (rules R197, R199, R203) -/
  | toSpecial (p : PNum)
  /-- SETF of a list (rule R191) -/
  | setsFlags (list : Byte)
  /-- CLEARF of a list (rule R192) -/
  | clearsFlags (list : Byte)
  /-- a jump that stores its return address (rules R168 to R170, R190) -/
  | calls (p : Pointer)
  /-- a branch or return: a delay slot follows (rules R162, R171) -/
  | delayed
  /-- an address for the word behind it (rule R98) -/
  | prefixWord

/-- The kind of an instruction. -/
def kindOf : Instr → Kind
  | .ba8 _ | .bcc8 _ _ | .ba16 _ | .bcc16 _ _ | .ret | .reti | .retb => .delayed
  | .moveSpecialToReg p rd => if rd = pcReg ∧ p.returnPointer = true then .delayed else .fromSpecial
  | .moveSpecialToMem _ _ | .pushSpecial _ | .clearByteReg _ | .clearWordReg _ | .clearDwordReg _ | .clearByteMem _
    | .clearWordMem _ | .clearDwordMem _ => .fromSpecial
  | .moveRegToSpecial p _ | .moveMemToSpecial p _ | .popSpecial p => .toSpecial p
  | .setf l => .setsFlags l
  | .ax => .setsFlags 0x10#8
  | .ei => .setsFlags 0x20#8
  | .clearf l => .clearsFlags l
  | .di => .clearsFlags 0x20#8
  | .jsrReg _ | .jsrMem _ | .jsrcReg _ | .jsrcMem _ => .calls .srp
  | .jirReg _ | .jirMem _ | .jircReg _ | .jircMem _ => .calls .irp
  | .jbrcReg _ | .jbrcMem _ | .brk _ => .calls .brp
  | .bdapQuick _ _ | .biap _ _ _ | .bdap _ _ _ | .dip _ => .prefixWord
  | _ => .ordinary

/-- The window and the flag X that an instruction of this kind ends with (rules R42, R305); `prefixWord` leaves them. -/
def Kind.finish : Kind → Option (Bool × Bool)
  | .ordinary | .clearsFlags _ | .calls _ => some (false, false)
  | .fromSpecial | .toSpecial _ | .delayed => some (true, false)
  | .setsFlags l => some (l.getLsbD 4, l.getLsbD 4)
  | .prefixWord => none

/-- A kind that leaves X set is SETF with X on its list, which opens the window (rule R305(c)). -/
theorem Kind.finish_extend {k : Kind} {window : Bool} (h : k.finish = some (window, true)) :
    window = true ∧ ∃ l, k = .setsFlags l ∧ l.getLsbD 4 = true := by
  cases k with
  | setsFlags l =>
    obtain ⟨hw, hl⟩ : l.getLsbD 4 = window ∧ l.getLsbD 4 = true := by simpa [Kind.finish] using h
    exact ⟨hw ▸ hl, l, rfl, hl⟩
  | _ => cases h

theorem Kind.finish_eq_none {k : Kind} : k.finish = none ↔ k = .prefixWord := by
  cases k <;> simp [Kind.finish]

/-- What the kind of an instruction says in the vocabulary of the statements. -/
def Kind.Describes (i : Instr) : Kind → Prop
  | .ordinary => True
  | .fromSpecial => transfersSpecial i
  | .toSpecial p => movesTo p i
  | .setsFlags l => ∀ n, n < 8 → l.getLsbD n = true → setsFlag n i
  | .clearsFlags l => ∀ n, n < 8 → l.getLsbD n = true → clearsFlag n i
  | .calls .srp => (∃ a, i = .jsrMem a) ∨ (∃ r, i = .jsrReg r) ∨ (∃ a, i = .jsrcMem a) ∨ ∃ r, i = .jsrcReg r
  | .calls .irp => (∃ a, i = .jirMem a) ∨ (∃ r, i = .jirReg r) ∨ (∃ a, i = .jircMem a) ∨ ∃ r, i = .jircReg r
  | .calls .brp => (∃ a, i = .jbrcMem a) ∨ (∃ r, i = .jbrcReg r) ∨ ∃ n, i = .brk n
  | .delayed => isBranch i ∨ isReturn i
  | .prefixWord => isPrefixWord i

/-- The one flag on the list of AX, EI and DI. -/
theorem oneFlag_iff : ∀ n < 8, ((0x10#8).getLsbD n = true ↔ n = 4) ∧ ((0x20#8).getLsbD n = true ↔ n = 5) := by
  decide

/-- Every instruction is of the kind that `kindOf` gives it. -/
theorem kindOf_describes (i : Instr) : (kindOf i).Describes i := by
  cases i with
  | bdapQuick base off => exact .inl ⟨base, off, rfl⟩
  | biap m index base => exact .inr (.inl ⟨m, index, base, rfl⟩)
  | bdap m base off => exact .inr (.inr (.inl ⟨m, base, off, rfl⟩))
  | dip src => exact .inr (.inr (.inr ⟨src, rfl⟩))
  | bcc8 c off => exact .inl (.inl ⟨c, off, rfl⟩)
  | ba8 off => exact .inl (.inr (.inl ⟨off, rfl⟩))
  | bcc16 c off => exact .inl (.inr (.inr (.inl ⟨c, off, rfl⟩)))
  | ba16 off => exact .inl (.inr (.inr (.inr ⟨off, rfl⟩)))
  | ret => exact .inr (.inl rfl)
  | reti => exact .inr (.inr (.inl rfl))
  | retb => exact .inr (.inr (.inr (.inl rfl)))
  | moveSpecialToReg p rd =>
    by_cases h : rd = pcReg ∧ p.returnPointer = true
    · obtain ⟨rfl, hp⟩ := h
      rw [show kindOf (.moveSpecialToReg p pcReg) = .delayed from if_pos ⟨rfl, hp⟩]
      exact .inr (.inr (.inr (.inr ⟨p, hp, rfl⟩)))
    · rw [show kindOf (.moveSpecialToReg p rd) = .fromSpecial from if_neg h]
      exact .inr (.inl ⟨p, rd, rfl⟩)
  | moveRegToSpecial p r => exact .inl ⟨r, rfl⟩
  | moveMemToSpecial p src => exact .inr (.inl ⟨src, rfl⟩)
  | popSpecial p => exact .inr (.inr rfl)
  | setf l => exact fun n _ h => .inl ⟨l, rfl, h⟩
  | ax => exact fun n hn h => .inr (.inl ⟨rfl, (oneFlag_iff n hn).1.mp h⟩)
  | ei => exact fun n hn h => .inr (.inr ⟨rfl, (oneFlag_iff n hn).2.mp h⟩)
  | clearf l => exact fun n _ h => .inl ⟨l, rfl, h⟩
  | di => exact fun n hn h => .inr ⟨rfl, (oneFlag_iff n hn).2.mp h⟩
  | jsrMem a | jirMem a | jbrcMem a => exact .inl ⟨a, rfl⟩
  | jsrReg r | jirReg r | jbrcReg r => exact .inr (.inl ⟨r, rfl⟩)
  | jsrcMem a | jircMem a => exact .inr (.inr (.inl ⟨a, rfl⟩))
  | jsrcReg r | jircReg r => exact .inr (.inr (.inr ⟨r, rfl⟩))
  | brk n => exact .inr (.inr ⟨n, rfl⟩)
  | moveSpecialToMem | pushSpecial | clearByteReg | clearWordReg | clearDwordReg | clearByteMem | clearWordMem
    | clearDwordMem =>
    change transfersSpecial _
    simp [transfersSpecial]
  | _ => exact trivial

theorem describes_of_kind {i : Instr} {k : Kind} (h : kindOf i = k) : k.Describes i := h ▸ kindOf_describes i

theorem kindOf_of_isPrefixWord {i : Instr} (h : isPrefixWord i) : kindOf i = .prefixWord := by
  obtain ⟨_, _, rfl⟩ | ⟨_, _, _, rfl⟩ | ⟨_, _, _, rfl⟩ | ⟨_, rfl⟩ := h <;> rfl

theorem kindOf_of_setsFlag {i : Instr} {n : Nat} (h : setsFlag n i) :
    ∃ l, kindOf i = .setsFlags l ∧ l.getLsbD n = true := by
  obtain ⟨l, rfl, h⟩ | ⟨rfl, rfl⟩ | ⟨rfl, rfl⟩ := h
  · exact ⟨l, rfl, h⟩
  · exact ⟨_, rfl, rfl⟩
  · exact ⟨_, rfl, rfl⟩

/-! ## Special registers by number (rule R24) -/

/-- The number of a special register (Table 1-1). -/
def Special.number : Special → PNum
  | .p0 => 0#4
  | .vr => 1#4
  | .p4 => 4#4
  | .ccr => 5#4
  | .p8 => 8#4
  | .ibr => 9#4
  | .irp => 10#4
  | .srp => 11#4
  | .bar => 12#4
  | .dccr => 13#4
  | .brp => 14#4

theorem specialOf_number (q : Special) : specialOf q.number = some q := by cases q <;> rfl

/-- The sixteen numbers: each names one special register or is not implemented (rules R24, R34). -/
theorem number_cases : ∀ p : PNum, specialOf p = none ∧ p.implemented = false ∨
    ((specialOf p).map Special.number = some p ∧ p.implemented = true) := by decide

theorem specialOf_eq_some {p : PNum} {q : Special} : specialOf p = some q ↔ p = q.number := by
  refine ⟨fun h => ?_, fun h => h ▸ specialOf_number q⟩
  obtain ⟨e, -⟩ | ⟨e, -⟩ := number_cases p
  · cases e.symm.trans h
  · rw [h] at e
    exact (Option.some.inj e).symm

theorem exists_number_of_implemented {p : PNum} (h : p.implemented = true) : ∃ q : Special, p = q.number := by
  obtain ⟨-, e⟩ | ⟨e, -⟩ := number_cases p
  · cases e.symm.trans h
  · obtain ⟨q, -, hq⟩ := Option.map_eq_some_iff.mp e
    exact ⟨q, hq.symm⟩

theorem specialOf_eq_none {p : PNum} (h : p.implemented = false) : specialOf p = none := by
  obtain ⟨e, -⟩ | ⟨-, e⟩ := number_cases p
  · exact e
  · cases e.symm.trans h

/-! ## The control state and how an instruction ends -/

/-- The registers and flags that only the instructions named for each may change (rules R29 to R33, R40, R41). -/
structure Control where
  irp : Word
  srp : Word
  brp : Word
  bar : Word
  ibrHigh : Half
  m : Bool
  i : Bool
  b : Bool

/-- The control registers and enable flags of a state. -/
def State.control (s : State) : Control := ⟨s.irp, s.srp, s.brp, s.bar, s.ibrHigh, s.flags.m, s.flags.i, s.flags.b⟩

@[simp] theorem State.setGpr_control (s : State) (r : Reg) (v : Word) : (s.setGpr r v).control = s.control := by
  simp [State.control]

/-- An instruction of kind `k` may write flag number `n` of B and I: by a list, or with all of CCR or DCCR. -/
def Kind.mayWriteFlag (k : Kind) (n : Nat) : Prop :=
  (∃ l, (k = .setsFlags l ∨ k = .clearsFlags l) ∧ l.getLsbD n = true) ∨ k = .toSpecial 5#4 ∨ k = .toSpecial 13#4

/-- What an instruction of kind `k` may make of the control state `c`. -/
structure Kind.Writes (k : Kind) (c d : Control) : Prop where
  irp : d.irp ≠ c.irp → k = .toSpecial 10#4 ∨ k = .calls .irp
  srp : d.srp ≠ c.srp → k = .toSpecial 11#4 ∨ k = .calls .srp
  brp : d.brp ≠ c.brp → k = .toSpecial 14#4 ∨ k = .calls .brp
  bar : d.bar ≠ c.bar → k = .toSpecial 12#4
  ibr : d.ibrHigh ≠ c.ibrHigh → k = .toSpecial 9#4
  keepsM : c.m = true → d.m = true
  setsM : c.m = false → d.m = true → ∃ l, k = .setsFlags l ∧ l.getLsbD 7 = true
  i : d.i ≠ c.i → k.mayWriteFlag 5
  b : d.b ≠ c.b → k.mayWriteFlag 6

theorem Kind.Writes.refl (k : Kind) (c : Control) : k.Writes c c where
  irp h := absurd rfl h
  srp h := absurd rfl h
  brp h := absurd rfl h
  bar h := absurd rfl h
  ibr h := absurd rfl h
  keepsM h := h
  setsM h h' := by rw [h] at h'; cases h'
  i h := absurd rfl h
  b h := absurd rfl h

/-- The end of an instruction that is no `prefixWord` (rules R42, R45, R300 part 3, R305). -/
structure Finished (k : Kind) (s t : State) (window extend : Bool) : Prop where
  pc : ∃ next, (isEven s.pc → isEven next) ∧ t.pc = s.slot.goesTo next
  latch : t.latch = none
  window : t.irqWindow = window
  extend : t.flags.x = extend
  /-- only a branch or return leaves a delay slot, and it stands in none itself -/
  slot : t.slot ≠ .none → k = .delayed ∧ s.slot = .none
  target : ∀ a, t.slot = .pending a → isEven a

/-- The end of a `prefixWord` (rules R136, R143, R164). -/
structure Prefixed (s t : State) : Prop where
  noLatch : s.latch = none
  noSlot : s.slot = .none
  pc : isEven s.pc → isEven t.pc
  slot : t.slot = s.slot
  window : t.irqWindow = s.irqWindow
  flags : t.flags = s.flags
  control : t.control = s.control

/-- Everything that an instruction of kind `k` does besides its result. -/
structure Effect (k : Kind) (s t : State) : Prop where
  memory : MemoryKept s t
  control : k.Writes s.control t.control
  finished : ∀ window extend, k.finish = some (window, extend) → Finished k s t window extend
  prefixed : k.finish = none → Prefixed s t

/-- An instruction ends as its kind says, or is a `prefixWord`. -/
theorem Effect.cases {k : Kind} {s t : State} (h : Effect k s t) :
    (∃ window extend, k.finish = some (window, extend) ∧ Finished k s t window extend) ∨
      k = .prefixWord ∧ Prefixed s t := by
  cases hf : k.finish with
  | none => exact .inr ⟨Kind.finish_eq_none.mp hf, h.prefixed hf⟩
  | some e => exact .inl ⟨e.1, e.2, rfl, h.finished _ _ hf⟩

/-- An instruction of kind `k` has come from `s` to `w`, where only its end is missing. -/
structure Computed (k : Kind) (s w : State) : Prop where
  memory : MemoryKept s w
  slot : w.slot = s.slot
  control : k.Writes s.control w.control

section Ends

variable {k : Kind} {s u w : State}

theorem Worked.slot (h : Worked s u) : u.slot = s.slot := by rw [h.same]
theorem Worked.control (h : Worked s u) : u.control = s.control := by rw [h.same]; rfl
theorem Worked.flags (h : Worked s u) : u.flags = s.flags := by rw [h.same]

theorem Worked.computed (h : Worked s u) : Computed k s u where
  memory := h.memory
  slot := h.slot
  control := h.control ▸ .refl _ _

theorem Computed.setGpr (h : Computed k s w) (r : Reg) (v : Word) : Computed k s (w.setGpr r v) where
  memory := h.memory.trans (.of_storage (by simp))
  slot := by rw [State.setGpr_slot, h.slot]
  control := by rw [State.setGpr_control]; exact h.control

/-- The flags are written, the enable flags among them staying as they are. -/
theorem Computed.writeFlags (h : Computed k s w) {f : Flags}
    (hf : f.m = w.flags.m ∧ f.b = w.flags.b ∧ f.i = w.flags.i) : Computed k s { w with flags := f } where
  memory := h.memory.trans (.of_storage rfl)
  slot := h.slot
  control := by
    obtain ⟨hm, hb, hi⟩ := hf
    rw [show State.control { w with flags := f } = w.control by simp [State.control, hm, hb, hi]]
    exact h.control

/-- A return address is stored (rules R168 to R170). -/
theorem Worked.setPointer (h : Worked s u) (p : Pointer) (v : Word) : Computed (.calls p) s (u.setPointer p v) where
  memory := h.memory.trans (.of_storage (by simp))
  slot := by rw [State.setPointer_slot, h.slot]
  control := by
    rw [← h.control]
    have hr := Kind.Writes.refl (.calls p) u.control
    cases p
    · exact { hr with irp := fun _ => .inr rfl }
    · exact { hr with srp := fun _ => .inr rfl }
    · exact { hr with brp := fun _ => .inr rfl }

/-- A special register is written (rules R25 to R33, R40). -/
theorem Worked.writeSpecial (h : Worked s u) {p : PNum} {q : Special} (hq : specialOf p = some q) (v : Word) :
    Computed (.toSpecial p) s (u.writeSpecial q v) where
  memory := h.memory.trans (.of_storage (by simp))
  slot := by rw [State.writeSpecial_slot, h.slot]
  control := by
    rw [← h.control]
    have hr := Kind.Writes.refl (.toSpecial p) u.control
    obtain rfl := specialOf_eq_some.mp hq
    cases q
    case p0 | vr | p4 | p8 => exact hr
    case ibr => exact { hr with ibr := fun _ => rfl }
    case irp => exact { hr with irp := fun _ => .inl rfl }
    case srp => exact { hr with srp := fun _ => .inl rfl }
    case bar => exact { hr with bar := fun _ => rfl }
    case brp => exact { hr with brp := fun _ => .inl rfl }
    case ccr => exact { hr with i := fun _ => .inr (.inl rfl), b := fun _ => .inr (.inl rfl) }
    case dccr => exact { hr with i := fun _ => .inr (.inr rfl), b := fun _ => .inr (.inr rfl) }

/-- The common end: X cleared, no delay slot, the window as the kind says (rule R300 part 3). -/
theorem Computed.retire {window : Bool} {next : Word} (h : Computed k s w) (hk : k.finish = some (window, false))
    (hn : isEven s.pc → isEven next) : Effect k s (w.retire next window) where
  memory := h.memory.trans (.of_storage rfl)
  control := h.control
  finished := by
    intro window' extend' e
    obtain ⟨rfl, rfl⟩ : window = window' ∧ false = extend' := by simpa [hk] using e
    exact
      { pc := ⟨next, hn, by rw [← h.slot]; rfl⟩
        latch := rfl
        window := rfl
        extend := rfl
        slot := fun h => absurd rfl h
        target := nofun }
  prefixed := by rw [hk]; nofun

/-- A delayed branch or return: the next instruction is its slot, and a target is even (rules R50, R162). -/
theorem Worked.jumpDelayed (h : Worked s u) (hs : s.slot = .none) {target : Option Word} {next : Word}
    (hn : isEven s.pc → isEven next) : Yields (Effect .delayed s) (jumpDelayed target next u) := by
  have hr : Effect .delayed s (u.retire next true) := h.computed.retire rfl hn
  have he (slot : Slot) (ht : ∀ a, slot = .pending a → isEven a) :
      Effect .delayed s { u.retire next true with slot } :=
    { memory := hr.memory.trans (.of_storage rfl)
      control := hr.control
      finished := fun window extend e =>
        { hr.finished window extend e with slot := fun _ => ⟨rfl, hs⟩, target := ht }
      prefixed := nofun }
  cases target with
  | none => exact .of_next (he .notTaken nofun)
  | some a =>
    intro t ht
    obtain ⟨ha, ht⟩ := refuseOdd_eq_next.mp ht
    cases ht
    exact he (.pending a) (by rintro _ ⟨⟩; exact ha)

end Ends

/-! ## Forms of instructions -/

section Forms

variable {k : Kind} {s u w : State}

theorem Computed.jumpNow {a : Word} (h : Computed k s w) (hk : k.finish = some (false, false)) :
    Yields (Effect k s) (jumpNow a w) := fun t ht => by
  obtain ⟨ha, ht⟩ := refuseOdd_eq_next.mp ht
  cases ht
  exact h.retire hk fun _ => ha

theorem Computed.writeResult {m : Size} {rd : Reg} {r next : Word} (h : Computed .ordinary s w)
    (hn : isEven s.pc → isEven next) : Yields (Effect .ordinary s) (writeResult m rd r next w) := by
  unfold Machine.writeResult
  split
  · exact h.jumpNow rfl
  · exact .of_next ((h.setGpr _ _).retire rfl hn)

/-- A computation writes no enable flag (rules R36 to R39). -/
def Alu.KeepsEnables (alu : Alu) : Prop :=
  ∀ s d f, (alu s d f).2.m = f.m ∧ (alu s d f).2.b = f.b ∧ (alu s d f).2.i = f.i

theorem Worked.applyAlu {m : Size} {alu : Alu} {rd : Reg} {src next : Word} (h : Worked s u)
    (ha : alu.KeepsEnables) (hn : isEven s.pc → isEven next) :
    Yields (Effect .ordinary s) (applyAlu m alu rd src next u) :=
  (h.computed.writeFlags (ha _ _ _)).writeResult hn

theorem Worked.applyTest {m : Size} {alu : Alu} {rd : Reg} {src next : Word} (h : Worked s u)
    (ha : alu.KeepsEnables) (hn : isEven s.pc → isEven next) :
    Yields (Effect .ordinary s) (applyTest m alu rd src next u) :=
  .of_next ((h.computed.writeFlags (ha _ _ _)).retire rfl hn)

theorem regAlu_effect {m : Size} {source : Word → Word} {alu : Alu} {rd rs : Reg} (ha : alu.KeepsEnables) :
    Yields (Effect .ordinary s) (regAlu m source alu rd rs s) :=
  .of_regForm ((Worked.refl s).applyAlu ha isEven_nextPc)

theorem regTest_effect {m : Size} {source : Word → Word} {alu : Alu} {rd rs : Reg} (ha : alu.KeepsEnables) :
    Yields (Effect .ordinary s) (regTest m source alu rd rs s) :=
  .of_regForm ((Worked.refl s).applyTest ha isEven_nextPc)

theorem quickAlu_effect {alu : Alu} {rd : Reg} {v : Word} (ha : alu.KeepsEnables) :
    Yields (Effect .ordinary s) (quickAlu alu rd v s) :=
  .of_regForm ((Worked.refl s).applyAlu ha isEven_nextPc)

theorem quickTest_effect {alu : Alu} {rd : Reg} {v : Word} (ha : alu.KeepsEnables) :
    Yields (Effect .ordinary s) (quickTest alu rd v s) :=
  .of_regForm ((Worked.refl s).applyTest ha isEven_nextPc)

theorem memAlu_effect {n m : Size} {source : Word → Word} {alu : Alu} {rd : Reg} {src : SrcMode}
    (ha : alu.KeepsEnables) : Yields (Effect .ordinary s) (memAlu n m source alu rd src s) :=
  .of_slotGuard (.of_andThen loadSource_worked fun _ h => h.applyAlu ha isEven_afterSource)

theorem memTest_effect {n m : Size} {source : Word → Word} {alu : Alu} {rd : Reg} {src : SrcMode}
    (ha : alu.KeepsEnables) : Yields (Effect .ordinary s) (memTest n m source alu rd src s) :=
  .of_slotGuard (.of_andThen loadSource_worked fun _ h => h.applyTest ha isEven_afterSource)

theorem moveRegTo_effect {m : Size} {rs : Reg} {dst : AddrMode} :
    Yields (Effect .ordinary s) (moveRegTo m rs dst s) :=
  .of_slotGuard (.of_andThen storeTo_worked fun _ h => .of_next (h.computed.retire rfl isEven_nextPc))

theorem moveFromSpecialToReg_effect {q : Special} {rd : Reg} :
    Yields (Effect .fromSpecial s) (moveFromSpecialToReg q rd s) :=
  .of_unprefixed (.of_refuseIf (.of_next (((Worked.refl s).setGpr _ _).computed.retire rfl isEven_nextPc)))

theorem moveFromSpecialToMem_effect {q : Special} {dst : AddrMode} :
    Yields (Effect .fromSpecial s) (moveFromSpecialToMem q dst s) :=
  .of_andThen storeTo_worked fun _ h => .of_next (h.computed.retire rfl isEven_nextPc)

/-- A guard on the special register answers with a register of that number only (rule R34). -/
theorem Yields.of_withSpecial_some {P : State → Prop} {p : PNum} {f : Special → Result State}
    (h : ∀ q, specialOf p = some q → Yields P (f q)) : Yields P (withSpecial p f) := by
  unfold withSpecial
  cases hp : specialOf p with
  | none => exact .of_refused
  | some q => exact h q hp

theorem moveToSpecialFromReg_effect {p : PNum} {rs : Reg} :
    Yields (Effect (.toSpecial p) s) (moveToSpecialFromReg p rs s) :=
  .of_regForm (.of_withSpecial_some fun _ hq => .of_next (((Worked.refl s).writeSpecial hq _).retire rfl isEven_nextPc))

theorem moveToSpecialFromMem_effect {p : PNum} {src : SrcMode} :
    Yields (Effect (.toSpecial p) s) (moveToSpecialFromMem p src s) :=
  .of_withSpecial_some fun _ hq => .of_andThen loadSource_worked fun _ h =>
    .of_next ((h.writeSpecial hq _).retire rfl isEven_afterSource)

/-- A branch that may run stands in no delay slot (rule R164). -/
theorem Worked.branchIf {taken : Bool} {next off : Word} (h : Worked s u) (hn : isEven s.pc → isEven next) :
    Yields (Effect .delayed s) (branchIf taken next off u) := fun t ht => by
  obtain ⟨-, ht⟩ := unprefixed_eq_next.mp ht
  obtain ⟨hs, ht⟩ := slotGuard_eq_next.mp ht
  exact h.jumpDelayed (h.slot.symm.trans (hs rfl)) hn t ht

theorem returnThrough_effect {p : Pointer} : Yields (Effect .delayed s) (returnThrough p s) := fun t ht => by
  obtain ⟨-, ht⟩ := unprefixed_eq_next.mp ht
  obtain ⟨hs, ht⟩ := slotGuard_eq_next.mp ht
  exact (Worked.refl s).jumpDelayed (hs rfl) isEven_nextPc t ht

/-- The kind of a jump of the jump group: with a link it is a call (rule R105). -/
def linkKind : Option Link → Kind
  | none => .ordinary
  | some l => .calls l.pointer

theorem Worked.jumpLink {link : Option Link} {a next : Word} (h : Worked s u) :
    Yields (Effect (linkKind link) s) (jumpLink link a next u) := by
  cases link with
  | none => exact h.computed.jumpNow rfl
  | some l => exact (h.setPointer _ _).jumpNow rfl

theorem jumpByReg_effect {link : Option Link} {rs : Reg} :
    Yields (Effect (linkKind link) s) (jumpByReg link rs s) :=
  .of_unprefixed (.of_slotGuard (Worked.refl s).jumpLink)

theorem jumpByMem_effect {link : Option Link} {src : SrcMode} :
    Yields (Effect (linkKind link) s) (jumpByMem link src s) :=
  .of_slotGuard (.of_andThen loadSource_worked fun _ h => h.jumpLink)

theorem listed_of_or_ne {a b : Bool} (h : (a || b) ≠ a) : b = true := by
  cases b
  · simp at h
  · rfl

theorem listed_of_and_not_ne {a b : Bool} (h : (a && !b) ≠ a) : b = true := by
  cases b
  · simp at h
  · rfl

/-- SETF sets flags of its list only (rule R191). -/
theorem setFlags_effect {list : Byte} : Yields (Effect (.setsFlags list) s) (setFlags list s) := by
  refine .of_unprefixed (.of_next ?_)
  exact
    { memory := .of_storage rfl
      control :=
        { Kind.Writes.refl (.setsFlags list) s.control with
          keepsM := fun h => Bool.or_eq_true_iff.mpr (.inl h)
          setsM := fun h h' => ⟨list, rfl, (Bool.or_eq_true_iff.mp h').resolve_left
            fun e => Bool.noConfusion (e.symm.trans h)⟩
          i := fun h => .inl ⟨list, .inl rfl, listed_of_or_ne h⟩
          b := fun h => .inl ⟨list, .inl rfl, listed_of_or_ne h⟩ }
      finished := by
        rintro _ _ ⟨⟩
        exact
          { pc := ⟨s.nextPc, isEven_nextPc, rfl⟩
            latch := rfl
            window := rfl
            extend := rfl
            slot := fun h => absurd rfl h
            target := nofun }
      prefixed := nofun }

/-- CLEARF clears flags of its list only, and never M (rule R192). -/
theorem clearFlags_effect {list : Byte} : Yields (Effect (.clearsFlags list) s) (clearFlags list s) := by
  have hc : (Kind.clearsFlags list).Writes s.control (State.control { s with flags := s.flags.clearList list }) :=
    { Kind.Writes.refl (.clearsFlags list) s.control with
      i := fun h => .inl ⟨list, .inr rfl, listed_of_and_not_ne h⟩
      b := fun h => .inl ⟨list, .inr rfl, listed_of_and_not_ne h⟩ }
  exact .of_unprefixed (.of_next (Computed.retire ⟨.of_storage rfl, rfl, hc⟩ rfl isEven_nextPc))

/-! ## Prefix words, and PUSH behind its own (rules R137, R202) -/

theorem prefixForm_eq_next {x : Result State} {t : State} :
    prefixForm s x = .next t ↔ s.latch = none ∧ s.slot = .none ∧ x = .next t := by
  unfold prefixForm
  rw [refuseIf_eq_next, slotGuard_eq_next]
  simp

/-- From `s` to `t` an operand is read and an address handed on to the word at the new pc (rule R136). -/
def HandsOn (s t : State) : Prop :=
  ∃ u l pc, Worked s u ∧ (isEven s.pc → isEven pc) ∧ t = { u with latch := l, pc := pc }

/-- A `prefixWord` that may run stands in no delay slot and behind no other (rules R143, R164). -/
theorem prefixForm_effect {x : Result State} (h : Yields (HandsOn s) x) :
    Yields (Effect .prefixWord s) (prefixForm s x) := fun t ht => by
  obtain ⟨hl, hs, ht⟩ := prefixForm_eq_next.mp ht
  obtain ⟨u, l, pc, hu, hpc, rfl⟩ := h t ht
  exact
    { memory := hu.memory.trans (.of_storage rfl)
      control := hu.computed.control
      finished := nofun
      prefixed := fun _ =>
        { noLatch := hl, noSlot := hs, pc := hpc, slot := hu.slot, flags := hu.flags, control := hu.control
          window := (congrArg State.irqWindow hu.same :) } }

theorem byteOffsetPrefix_effect {base : Reg} {off : Byte} :
    Yields (Effect .prefixWord s) (byteOffsetPrefix base off s) :=
  prefixForm_effect (.of_next ⟨s, _, _, .refl s, isEven_nextPc, rfl⟩)

theorem execBiap_effect {m : Size} {index base : Reg} :
    Yields (Effect .prefixWord s) (execBiap m index base s) :=
  prefixForm_effect (.of_next ⟨s, _, _, .refl s, isEven_nextPc, rfl⟩)

theorem execBdap_effect {m : Size} {base : Reg} {off : SrcMode} :
    Yields (Effect .prefixWord s) (execBdap m base off s) :=
  prefixForm_effect <| by
    cases off with
    | mem a =>
      exact .of_andThen prefixPointer_worked fun _ h => .of_andThen memRead_worked fun p h' =>
        .of_next ⟨p.2, _, _, h.trans h', isEven_nextPc, rfl⟩
    | imm v => exact .of_andThen immediate_worked fun p h => .of_next ⟨p.2, _, _, h, isEven_afterSource, rfl⟩

theorem execDip_effect {src : SrcMode} : Yields (Effect .prefixWord s) (execDip src s) :=
  prefixForm_effect <| by
    cases src with
    | mem a =>
      exact .of_andThen prefixPointer_worked fun _ h => .of_andThen memRead_worked fun p h' =>
        .of_next ⟨p.2, _, _, h.trans h', isEven_nextPc, rfl⟩
    | imm v => exact .of_andThen immediate_worked fun p h => .of_next ⟨p.2, _, _, h, isEven_afterSource, rfl⟩

/-- A `prefixWord` and the instruction behind it do what that instruction does. -/
theorem Effect.behindPrefix {t : State} (hp : Effect .prefixWord s u) (h : Effect k u t) (hk : k.finish ≠ none) :
    Effect k s t := by
  have hu := hp.prefixed rfl
  exact
    { memory := hp.memory.trans h.memory
      control := hu.control ▸ h.control
      finished := fun window extend e => by
        have hf := h.finished window extend e
        obtain ⟨next, hn, hpc⟩ := hf.pc
        exact { hf with
          pc := ⟨next, fun hs => hn (hu.pc hs), hu.slot ▸ hpc⟩
          slot := fun ht => hu.slot ▸ hf.slot ht }
      prefixed := fun e => absurd e hk }

theorem execPushReg_effect {rn : Reg} : Yields (Effect .ordinary s) (execPushReg rn s) :=
  .of_andThen byteOffsetPrefix_effect fun _ hp t ht => hp.behindPrefix (moveRegTo_effect t ht) nofun

theorem execPushSpecial_effect {p : PNum} : Yields (Effect .fromSpecial s) (execPushSpecial p s) :=
  .of_withSpecial fun _ => .of_andThen byteOffsetPrefix_effect fun _ hp t ht =>
    hp.behindPrefix (moveFromSpecialToMem_effect t ht) nofun

/-! ## Instructions that are a form of their own -/

theorem execAddi_effect {m : Size} {rd rs : Reg} : Yields (Effect .ordinary s) (execAddi m rd rs s) :=
  .of_unprefixed (.of_noPcDest (.of_noExtend (.of_slotGuard (.of_next
    (((Worked.refl s).setGpr _ _).computed.retire rfl isEven_nextPc)))))

theorem execScc_effect {c : Cond} {rd : Reg} : Yields (Effect .ordinary s) (execScc c rd s) :=
  .of_noPcDest (.of_unprefixed (.of_next (((Worked.refl s).setGpr _ _).computed.retire rfl isEven_nextPc)))

theorem execTestMem_effect {m : Size} {src : SrcMode} : Yields (Effect .ordinary s) (execTestMem m src s) :=
  .of_andThen loadSource_worked fun _ h =>
    .of_next ((h.computed.writeFlags (f := generalFlags ..) ⟨rfl, rfl, rfl⟩).retire rfl isEven_afterSource)

theorem execMovemStore_effect {rs : Reg} {dst : AddrMode} : Yields (Effect .ordinary s) (execMovemStore rs dst s) :=
  .of_refuseIf (.of_andThen resolve_worked fun _ h => .of_andThen (storeList_worked h) fun _ h' =>
    .of_next (h'.computed.retire rfl isEven_nextPc))

theorem execMovemLoad_effect {rd : Reg} {src : AddrMode} : Yields (Effect .ordinary s) (execMovemLoad rd src s) :=
  .of_refuseIf (.of_andThen resolve_worked fun _ h => .of_andThen (loadList_worked h) fun _ h' =>
    .of_next (h'.computed.retire rfl isEven_nextPc))

theorem execBrk_effect {n : BitVec 4} : Yields (Effect (.calls .brp) s) (execBrk n s) :=
  .of_unprefixed (.of_slotGuard (((Worked.refl s).setPointer .brp s.nextPc).jumpNow rfl))

/-- The Bcc with a 16-bit offset also reads it (rule R66). -/
theorem execBcc16_effect {taken : Bool} {off : Word} :
    Yields (Effect .delayed s) (slotGuard true s (branchIf taken (s.pc + 4) off (s.watch 2 (s.pc + 2)))) :=
  .of_slotGuard (((Worked.refl s).watch _ _).branchIf fun h => h.add rfl)

theorem execMoveSpecialToReg_effect {p : PNum} {rd : Reg} :
    Yields (Effect (kindOf (.moveSpecialToReg p rd)) s) (execMoveSpecialToReg p rd s) := by
  refine .of_withSpecial_some fun q hq => ?_
  obtain rfl := specialOf_eq_some.mp hq
  split
  case isTrue hr =>
    subst hr
    cases q
    case srp | irp | brp => exact returnThrough_effect
    all_goals exact .of_refused
  case isFalse hr =>
    rw [show kindOf (.moveSpecialToReg q.number rd) = .fromSpecial from if_neg fun h => hr h.1]
    exact moveFromSpecialToReg_effect

end Forms

/-! ## Every instruction -/

/-- What every instruction does, by its kind. -/
theorem exec_effect (i : Instr) (s : State) : Yields (Effect (kindOf i) s) (exec i s) := by
  cases i with
  | reserved => exact .of_refused
  | nop => exact .of_unprefixed (.of_next ((Worked.refl s).computed.retire rfl isEven_nextPc))
  | addReg | addsReg | adduReg | subReg | subsReg | subuReg | andReg | orReg | xorReg | asr | lz | moveReg | movsReg
    | movuReg | testReg => exact regAlu_effect fun _ _ _ => ⟨rfl, rfl, rfl⟩
  | lsl | lsr | neg => exact .of_noPcDest (regAlu_effect fun _ _ _ => ⟨rfl, rfl, rfl⟩)
  | absReg => exact .of_noExtend (regAlu_effect fun _ _ _ => ⟨rfl, rfl, rfl⟩)
  | boundReg | mstep | dstep => exact .of_noPcDest (.of_noExtend (regAlu_effect fun _ _ _ => ⟨rfl, rfl, rfl⟩))
  | cmpReg | btst => exact regTest_effect fun _ _ _ => ⟨rfl, rfl, rfl⟩
  | addq | subq | andq | orq | moveq | asrq => exact quickAlu_effect fun _ _ _ => ⟨rfl, rfl, rfl⟩
  | lslq | lsrq | notReg | swap => exact .of_noPcDest (quickAlu_effect fun _ _ _ => ⟨rfl, rfl, rfl⟩)
  | cmpq | btstq => exact quickTest_effect fun _ _ _ => ⟨rfl, rfl, rfl⟩
  | addMem | addsMem | adduMem | subMem | subsMem | subuMem | andMem | orMem | moveMemToReg | movsMem | movuMem
    | popReg => exact memAlu_effect fun _ _ _ => ⟨rfl, rfl, rfl⟩
  | boundMem => exact .of_noPcDest (.of_noExtend (memAlu_effect fun _ _ _ => ⟨rfl, rfl, rfl⟩))
  | cmpMem | cmpsMem | cmpuMem => exact memTest_effect fun _ _ _ => ⟨rfl, rfl, rfl⟩
  | testMem => exact execTestMem_effect
  | addi => exact execAddi_effect
  | scc => exact execScc_effect
  | ba8 | bcc8 => exact (Worked.refl s).branchIf isEven_nextPc
  | ba16 | bcc16 => exact execBcc16_effect
  | jumpReg | jsrReg | jirReg | jsrcReg | jircReg | jbrcReg => exact jumpByReg_effect
  | jumpMem | jumpImm | jsrMem | jirMem | jsrcMem | jircMem | jbrcMem => exact jumpByMem_effect
  | brk => exact execBrk_effect
  | ret | reti | retb => exact returnThrough_effect
  | setf | ax | ei => exact setFlags_effect
  | clearf | di => exact clearFlags_effect
  | moveRegToSpecial => exact moveToSpecialFromReg_effect
  | moveMemToSpecial | popSpecial => exact moveToSpecialFromMem_effect
  | moveSpecialToReg => exact execMoveSpecialToReg_effect
  | clearByteReg | clearWordReg | clearDwordReg => exact moveFromSpecialToReg_effect
  | moveSpecialToMem => exact .of_withSpecial fun _ => moveFromSpecialToMem_effect
  | clearByteMem | clearWordMem | clearDwordMem => exact moveFromSpecialToMem_effect
  | moveRegToMem => exact moveRegTo_effect
  | movemStore => exact execMovemStore_effect
  | movemLoad => exact execMovemLoad_effect
  | bdapQuick => exact byteOffsetPrefix_effect
  | biap => exact execBiap_effect
  | bdap => exact execBdap_effect
  | dip => exact execDip_effect
  | pushReg => exact execPushReg_effect
  | pushSpecial => exact execPushSpecial_effect

/-! ## Whole-machine rules -/

/-- Settles O17: M is in the control state, and only a list may set it. -/
theorem nmiEnableIsSticky : Obligations.NmiEnableIsSticky := by
  intro i s t h
  have hc := (exec_effect i s t h).control
  refine ⟨hc.keepsM, fun hs ht => ?_⟩
  obtain ⟨l, hk, hl⟩ := hc.setsM hs ht
  exact describes_of_kind hk 7 (by decide) hl

/-- Settles O18: an instruction ends with the X of its kind, a `prefixWord` with the flags it began with. -/
theorem extendFlagIsSetOnlyByAx : Obligations.ExtendFlagIsSetOnlyByAx := by
  intro i s t h
  obtain ⟨window, extend, hk, hf⟩ | ⟨hk, hp⟩ := (exec_effect i s t h).cases
  · refine ⟨fun _ => ?_, fun hi => by rw [kindOf_of_isPrefixWord hi] at hk; cases hk⟩
    rw [hf.extend]
    constructor
    · rintro rfl
      obtain ⟨-, l, hl, h4⟩ := Kind.finish_extend hk
      exact describes_of_kind hl 4 (by decide) h4
    · intro hi
      obtain ⟨l, hl, h4⟩ := kindOf_of_setsFlag hi
      rw [hl, Kind.finish, h4] at hk
      cases hk
      rfl
  · exact ⟨fun hi => absurd (describes_of_kind hk) hi, fun _ => hp.flags⟩

/-- Settles O20: an instruction that ends goes to the pending target and leaves a slot only when it is delayed; a
`prefixWord` stands in no slot. -/
theorem delaySlotThenTarget : Obligations.DelaySlotThenTarget := by
  intro i s t h
  obtain ⟨_, _, -, hf⟩ | ⟨-, hp⟩ := (exec_effect i s t h).cases
  · have hslot (hs : s.slot ≠ .none) : t.slot = .none := by_contra fun ht => hs (hf.slot ht).2
    refine ⟨fun a hs => ⟨?_, hslot (by rw [hs]; nofun)⟩, fun hs => hslot (by rw [hs]; nofun), fun ht => ?_⟩
    · obtain ⟨next, -, hpc⟩ := hf.pc
      rw [hpc, hs]
      rfl
    · exact describes_of_kind (hf.slot ht).1
  · have hs := hp.noSlot
    rw [hp.slot, hs]
    exact ⟨nofun, nofun, fun h => absurd rfl h⟩

/-- An instruction that may write flag number `n` of B and I has it on its list or is a move to CCR or DCCR. -/
theorem Kind.mayWriteFlag.describes {i : Instr} {n : Nat} (h : (kindOf i).mayWriteFlag n) (hn : n < 8) :
    setsFlag n i ∨ clearsFlag n i ∨ movesTo 5#4 i ∨ movesTo 13#4 i := by
  obtain ⟨l, hk | hk, hl⟩ | hk | hk := h
  · exact .inl (describes_of_kind hk n hn hl)
  · exact .inr (.inl (describes_of_kind hk n hn hl))
  · exact .inr (.inr (.inl (describes_of_kind hk)))
  · exact .inr (.inr (.inr (describes_of_kind hk)))

/-- Settles O23: the kinds that may write a part of the control state are the instructions named for it. -/
theorem controlStateChangesOnlyByItsWriters : Obligations.ControlStateChangesOnlyByItsWriters := by
  intro i s t h
  have hc := (exec_effect i s t h).control
  refine ⟨fun e => ?_, fun e => ?_, fun e => ?_, fun e => describes_of_kind (hc.bar e),
    fun e => describes_of_kind (hc.ibr fun he => e (congrArg (· ++ (0#16 : BitVec 16)) he)),
    fun e => (hc.i e).describes (by decide), fun e => (hc.b e).describes (by decide)⟩
  · obtain hk | hk := hc.irp e
    exacts [.inl (describes_of_kind hk), .inr (describes_of_kind hk)]
  · obtain hk | hk := hc.srp e
    exacts [.inl (describes_of_kind hk), .inr (describes_of_kind hk)]
  · obtain hk | hk := hc.brp e
    exacts [.inl (describes_of_kind hk), .inr (describes_of_kind hk)]

/-! ## The invariant -/

/-- The part of the invariant about memory and the prefetch register. -/
structure StorageSound (s : State) : Prop where
  memory : s.mem.wf = true
  prefetchUpper : ∀ p, s.prefetch = some p → isEven p.addr ∧ p.addr.getLsbD 1 = true
  prefetchFresh : Alone s → ∀ p, s.prefetch = some p → s.storedAny 2 p.addr = false →
    p.half = (s.mem.load 2 p.addr).setWidth 16

/-- The part of the invariant about the program counter, the delay slot, the window and X. -/
structure ControlSound (s : State) : Prop where
  pcEven : isEven s.pc
  targetEven : ∀ t, s.slot = .pending t → isEven t
  slotHeld : s.slot ≠ .none → s.irqWindow = true
  extendHeld : s.flags.x = true → s.irqWindow = true

/-- A sound state within a step: a `prefixWord` may have run. -/
structure Sound (s : State) : Prop where
  storage : StorageSound s
  control : ControlSound s

theorem inv_iff {s : State} : s.Inv ↔ Sound s ∧ s.latch = none where
  mp h := ⟨⟨⟨h.memory, h.prefetchUpper, h.prefetchFresh⟩, h.pcEven, h.targetEven, h.slotHeld, h.extendHeld⟩, h.noLatch⟩
  mpr := fun ⟨⟨hs, hc⟩, hl⟩ =>
    { memory := hs.memory, pcEven := hc.pcEven, targetEven := hc.targetEven, slotHeld := hc.slotHeld
      extendHeld := hc.extendHeld, noLatch := hl, prefetchUpper := hs.prefetchUpper, prefetchFresh := hs.prefetchFresh }

theorem storedAny_two {s : State} {a : Word} :
    s.storedAny 2 a = false ↔ location a ∉ s.stored ∧ location (a + 1) ∉ s.stored := by
  simp [State.storedAny]

theorem load_two_congr {s t : State} {a : Word} (h : t.peek a = s.peek a) (h' : t.peek (a + 1) = s.peek (a + 1)) :
    t.mem.load 2 a = s.mem.load 2 a := by
  unfold State.peek at h h'
  simp only [Memory.load, h, h']

section Keeping

variable {k : Kind} {s t : State}

/-- Data accesses keep the storage sound: what they store they note. -/
theorem StorageSound.of_kept (hs : StorageSound s) (h : MemoryKept s t) : StorageSound t where
  memory := h.canonical hs.memory
  prefetchUpper p hp := hs.prefetchUpper p (h.prefetch ▸ hp)
  prefetchFresh ha p hp hn := by
    have ha' : Alone s := by rw [Alone, ← h.params]; exact ha
    obtain ⟨h0, h1⟩ := storedAny_two.mp hn
    have hf := hs.prefetchFresh ha' p (h.prefetch ▸ hp)
      (storedAny_two.mpr ⟨fun hl => h0 (h.noted _ hl), fun hl => h1 (h.noted _ hl)⟩)
    rw [hf, load_two_congr (h.unstored ha' _ h0) (h.unstored ha' _ h1)]

theorem ControlSound.of_worked (hs : ControlSound s) (h : Worked s t) : ControlSound t := by
  rw [h.same]
  exact ⟨hs.pcEven, hs.targetEven, hs.slotHeld, hs.extendHeld⟩

theorem Sound.of_worked (hs : Sound s) (h : Worked s t) : Sound t := ⟨hs.storage.of_kept h.memory, hs.control.of_worked h⟩

theorem getLsbD_one_iff {a : Word} : a.getLsbD 1 = true ↔ a.toNat / 2 % 2 = 1 := by
  rw [BitVec.getLsbD, Nat.testBit_eq_decide_div_mod_eq, decide_eq_true_eq]

theorem keepUpper_prefetch {a : Word} {p : Prefetch} (h : (s.keepUpper a).prefetch = some p) :
    a.getLsbD 1 = false ∧ p = ⟨a + 2, (s.mem.load 2 (a + 2)).setWidth 16⟩ := by
  simp only [State.keepUpper] at h
  split at h
  · cases h
  · split at h
    · cases h
    case isFalse ha => exact ⟨by simpa using ha, (Option.some.inj h).symm⟩

/-- A fetch at a dword boundary saves the upper half as it stands in memory (rules R46, R71). -/
theorem Sound.keepUpper (hs : Sound s) {a : Word} (ha : isEven a) : Sound (s.keepUpper a) where
  storage :=
    { memory := hs.storage.memory
      prefetchUpper := fun p hp => by
        obtain ⟨h1, rfl⟩ := keepUpper_prefetch hp
        refine ⟨ha.add rfl, getLsbD_one_iff.mpr ?_⟩
        have h1' : ¬ a.toNat / 2 % 2 = 1 := fun h => by rw [getLsbD_one_iff.mpr h] at h1; cases h1
        rw [BitVec.toNat_add, show (2 : Word).toNat = 2 from rfl]
        omega
      prefetchFresh := fun _ p hp _ => by
        obtain ⟨-, rfl⟩ := keepUpper_prefetch hp
        rfl }
  control := ⟨hs.control.pcEven, hs.control.targetEven, hs.control.slotHeld, hs.control.extendHeld⟩

/-- A pending target is even, and so is the address after an instruction (rules R45, R50). -/
theorem ControlSound.goesTo (hs : ControlSound s) {next : Word} (hn : isEven s.pc → isEven next) :
    isEven (s.slot.goesTo next) := by
  cases hk : s.slot with
  | pending t => exact hs.targetEven t hk
  | none | notTaken => exact hn hs.pcEven

/-- The kinds that leave a delay slot or X set open the window (rules R162, R193, R305). -/
theorem ControlSound.of_finished (hs : ControlSound s) {window extend : Bool} (hk : k.finish = some (window, extend))
    (h : Finished k s t window extend) : ControlSound t where
  pcEven := by
    obtain ⟨next, hn, hpc⟩ := h.pc
    rw [hpc]
    exact hs.goesTo hn
  targetEven := h.target
  slotHeld ht := by
    rw [h.window]
    rw [(h.slot ht).1] at hk
    cases hk
    rfl
  extendHeld hx := by
    rw [h.extend] at hx
    subst hx
    rw [h.window, (Kind.finish_extend hk).1]

theorem ControlSound.of_prefixed (hs : ControlSound s) (h : Prefixed s t) : ControlSound t where
  pcEven := h.pc hs.pcEven
  targetEven := h.slot ▸ hs.targetEven
  slotHeld := by rw [h.slot, h.window]; exact hs.slotHeld
  extendHeld := by rw [h.flags, h.window]; exact hs.extendHeld

/-- Every instruction keeps a sound state sound; it leaves an address pending only when none was (rule R143). -/
theorem exec_sound {i : Instr} (hs : Sound s) :
    Yields (fun t => Sound t ∧ (s.latch.isSome = true → t.latch = none)) (exec i s) := fun t h => by
  have he := exec_effect i s t h
  have hm := hs.storage.of_kept he.memory
  obtain ⟨_, _, hk, hf⟩ | ⟨-, hp⟩ := he.cases
  · exact ⟨⟨hm, hs.control.of_finished hk hf⟩, fun _ => hf.latch⟩
  · exact ⟨⟨hm, hs.control.of_prefixed hp⟩, fun hl => by rw [hp.noLatch] at hl; cases hl⟩

/-- A fetch is a check of the bytes and a change of the prefetch register (rules R62, R70, R71). -/
theorem fetchInstr_sound (hs : Sound s) : Yields (fun p => Sound p.2 ∧ p.2.latch = s.latch) (fetchInstr s) := fun p h => by
  obtain ⟨hpc, h⟩ := refuseOdd_eq_next.mp h
  obtain ⟨u, hu, h⟩ := andThen_eq_next.mp h
  obtain ⟨-, h⟩ := refuseIf_eq_next.mp h
  cases h
  have hw : Worked s (u.watchFetch s.yieldBus.pc) := ((Worked.yieldBus s).trans (touch_worked u hu)).watchFetch _
  exact ⟨(hs.of_worked hw).keepUpper hpc, (congrArg State.latch hw.same :)⟩

theorem runWord_sound (hs : Sound s) :
    Yields (fun t => Sound t ∧ (s.latch.isSome = true → t.latch = none)) (runWord exec s) :=
  .of_andThen (fetchInstr_sound hs) fun _ ⟨hp, hl⟩ => hl ▸ exec_sound hp

/-- The word behind a `prefixWord` ends the instruction (rule R137). -/
theorem runInstruction_inv (hs : Sound s) : Yields State.Inv (runInstruction exec s) :=
  .of_andThen (runWord_sound hs) fun t ⟨ht, _⟩ => by
    split
    case isTrue hl => exact fun u hu => inv_iff.mpr ⟨(runWord_sound ht u hu).1, (runWord_sound ht u hu).2 hl⟩
    case isFalse hl => exact .of_next (inv_iff.mpr ⟨ht, by simpa using hl⟩)

/-- The end of an acknowledge sequence. -/
theorem Worked.acknowledged {u : State} (h : Worked s u) (hs : Sound s) (hl : s.latch = none) {p : Pointer} {v a : Word}
    (ha : isEven a) : State.Inv { u.setPointer p v with pc := a, irqWindow := true } := by
  have hu := hs.of_worked h
  refine inv_iff.mpr ⟨⟨hu.storage.of_kept (.of_storage (u.setPointer_storage p v)), ?_⟩, ?_⟩
  · exact ⟨ha, by simpa using hu.control.targetEven, fun _ => rfl, fun _ => rfl⟩
  · exact (u.setPointer_latch p v).trans ((congrArg State.latch h.same).trans hl)

/-- An acknowledge sequence jumps to an even address with the window open (rules R50, R301, R305). -/
theorem takeException_inv {p : Pointer} {vec : Byte} (hs : s.Inv) : Yields State.Inv (takeException p vec s) := by
  obtain ⟨hs, hl⟩ := inv_iff.mp hs
  refine .of_andThen touch_worked fun u hu t ht => ?_
  obtain ⟨ha, ht⟩ := refuseOdd_eq_next.mp ht
  cases ht
  have hr := hu.trans (Worked.readBus u 4 (s.vectorAddress vec))
  split
  · exact (hr.watch 4 _).acknowledged hs hl ha
  · exact hr.acknowledged hs hl ha

theorem takeTrap_inv {k : TrapKind} {inp : Input} (hs : s.Inv) : Yields State.Inv (takeTrap k inp s) := by
  cases k <;> exact takeException_inv { hs with }

/-- A reset leaves memory as it is and everything else at rest (rules R340, R341). -/
theorem systemReset_inv {u : Unknowns} (hs : s.mem.wf = true) : (s.systemReset u).Inv where
  memory := hs
  pcEven := (by decide : isEven resetVector)
  targetEven := nofun
  slotHeld h := absurd rfl h
  extendHeld := nofun
  noLatch := rfl
  prefetchUpper := nofun
  prefetchFresh _ := nofun

end Keeping

/-- Settles O13: a reset, a trap and an instruction each keep the state sound. -/
theorem everyStepKeepsTheInvariant : Obligations.EveryStepKeepsTheInvariant := by
  intro s t hs h
  have ha : s.afterInput.Inv := { hs with }
  unfold step oneStep at h
  split at h
  case h_1 u _ =>
    cases h
    exact systemReset_inv ha.memory
  case h_2 =>
    split at h
    case h_1 k _ => exact takeTrap_inv ha t h
    case h_2 => exact runInstruction_inv (inv_iff.mp ha).1 t h

/-- Settles O14: a reset of the state after reset is that state, and its memory is canonical. -/
theorem resetStateIsSound : Obligations.ResetStateIsSound := systemReset_inv (u := .zero) reset_mem_wf

/-- Settles O12: the fields of `State.reset` one by one. -/
theorem resetStateHoldsTheGivenValues : Obligations.ResetStateHoldsTheGivenValues :=
  ⟨rfl, rfl, rfl, rfl, .inl rfl, rfl, rfl, rfl⟩

end Sys2Proof.Machine

/-! PROOFS. The flag instructions and the moves to and from special registers: one equation for each, and what the written
register and the frame then are. -/

namespace Sys2Proof.Machine

/-! ## Special registers by number -/

@[simp] theorem withSpecial_number (q : Special) (k : Special → Result State) : withSpecial q.number k = k q := by
  unfold withSpecial
  rw [specialOf_number]

theorem refuses_withSpecial {p : PNum} (h : p.implemented = false) (k : Special → Result State) :
    refuses (withSpecial p k) := by
  unfold withSpecial
  rw [specialOf_eq_none h]
  exact ⟨_, rfl⟩

/-- The width goes by the number (rule R109). -/
theorem Special.size_number (q : Special) : q.number.size = q.size := by cases q <;> rfl

/-- Settles O24: a reserved pattern is refused at once, and a special register without a meaning before it is accessed. -/
theorem reservedAndUnimplementedAreRefused : Obligations.ReservedAndUnimplementedAreRefused := by
  refine ⟨fun _ _ => rfl, fun p s hp => ?_⟩
  have hn : p.implemented = false := by obtain rfl | rfl | rfl | rfl | rfl := hp <;> rfl
  exact ⟨fun r => refuses_unprefixed (.inr (refuses_slotGuard (.inr (refuses_withSpecial hn _)))),
    fun r => refuses_withSpecial hn _, fun a => refuses_withSpecial hn _, fun a => refuses_withSpecial hn _,
    refuses_withSpecial hn _, refuses_withSpecial hn _⟩

/-! ## NOP and the flag instructions -/

/-- The end of an instruction that no `prefixWord` precedes (rule R300 part 3). -/
theorem State.retire_finish {s : State} (hl : s.latch = none) (window : Bool) (f : Flags) :
    { s.retire s.nextPc window with flags := f } = s.finish window f := by
  unfold State.retire State.finish State.nextPc
  rw [hl]
  rfl

theorem or_eq_ite (a b : Bool) : (a || b) = if b = true then true else a := by cases a <;> cases b <;> rfl

theorem and_not_eq_ite (a b : Bool) : (a && !b) = if b = true then false else a := by cases a <;> cases b <;> rfl

theorem setFlags_eq {s : State} (hl : s.latch = none) (list : Byte) :
    setFlags list s = .next (s.finish (list.getLsbD 4) (s.flags.setList list)) :=
  (unprefixed_of hl _).trans (congrArg _ (State.retire_finish hl _ _))

theorem clearFlags_eq {s : State} (hl : s.latch = none) (list : Byte) :
    clearFlags list s = .next (s.finish false (s.flags.clearList list)) :=
  (unprefixed_of hl _).trans (congrArg _ (State.retire_finish hl _ _))

/-- Settles O50: each is the end of an instruction with the flags of its list. -/
theorem nopAndFlagInstructions : Obligations.NopAndFlagInstructions := by
  intro s h
  have hl := h.1
  refine ⟨?_, ?_, ?_, ?_, fun l => ?_, fun l => ?_⟩
  · rw [← State.retire_finish hl]
    exact unprefixed_of hl _
  · refine (setFlags_eq hl 0x10#8).trans ?_
    simp [Flags.setList]
  · refine (setFlags_eq hl 0x20#8).trans ?_
    simp [Flags.setList]
  · refine (clearFlags_eq hl 0x20#8).trans ?_
    simp [Flags.clearList]
  · refine (setFlags_eq hl l).trans ?_
    simp only [Flags.setList, or_eq_ite]
  · refine (clearFlags_eq hl l).trans ?_
    simp only [Flags.clearList, and_not_eq_ite]

/-! ## Moves to a special register -/

theorem State.retire_ends (s : State) (next : Word) (window : Bool) : Ends s (s.retire next window) next window :=
  ⟨rfl, rfl, rfl, rfl, rfl⟩

theorem State.ibr_toNat (s : State) : s.ibr.toNat = s.ibrHigh.toNat * 65536 :=
  (toNat_join s.ibrHigh 0#16).trans (by simp)

/-- The implemented bits of IBR are the upper half of what is written (rule R29). -/
theorem upperHalf_toNat (v : Word) : (v.extractLsb' 16 16).toNat * 65536 = v.toNat / 65536 * 65536 := by
  have := v.isLt
  rw [BitVec.extractLsb'_toNat, Nat.shiftRight_eq_div_pow]
  omega

/-- Writing a special register and ending the instruction (rules R25 to R33, R40). -/
theorem State.writeSpecial_written (u : State) (q : Special) (v next : Word) (window : Bool) :
    SpecialWritten u ((u.writeSpecial q v).retire next window) q.number v where
  ibr := by
    cases q
    case ibr => exact (State.ibr_toNat _).trans (upperHalf_toNat v)
    all_goals rfl
  irp := by cases q <;> rfl
  srp := by cases q <;> rfl
  bar := by cases q <;> rfl
  brp := by cases q <;> rfl
  flags := by cases q <;> rfl
  registers r _ := State.gpr_congr (by simp) r 0
  bytes a := State.peek_congr (by simp) a
  environment := by simp
  hit := by simp

theorem State.writeSpecial_ends (u : State) (q : Special) (v next : Word) (window : Bool) :
    Ends u ((u.writeSpecial q v).retire next window) next window := by
  have h := (u.writeSpecial q v).retire_ends next window
  exact { h with pc := by rw [h.pc, State.writeSpecial_slot] }

theorem exec_moveRegToSpecial {s : State} {rs : Reg} (h : Ready s (rs = pcReg)) (q : Special) :
    exec (.moveRegToSpecial q.number rs) s =
      .next ((s.writeSpecial q (zeroExtended q.number.size (s.gpr rs (s.pc + 2)))).retire (s.pc + 2) true) := by
  refine (regForm_of h (by simp) _).trans ?_
  rw [withSpecial_number, truncTo_eq, Special.size_number]
  rfl

theorem exec_moveMemToSpecial {s u : State} {src : SrcMode} {v : Word} {q : Special}
    (h : loadSource q.number.size src (fun _ => false) none s = .next (v, u)) :
    exec (.moveMemToSpecial q.number src) s =
      .next ((u.writeSpecial q v).retire (s.pc + 2 + BitVec.ofNat 32 (src.immLength q.number.size)) true) := by
  refine (withSpecial_number q _).trans ?_
  rw [Special.size_number] at h ⊢
  rw [h]
  rfl

/-- POP is the autoincrement form on SP (rule R203). -/
theorem exec_popSpecial (p : PNum) : exec (.popSpecial p) = exec (.moveMemToSpecial p (.mem (.inc spReg))) := rfl

/-- Settles O51: each form writes the register and ends with the window open. -/
theorem movesToSpecialRegisters : Obligations.MovesToSpecialRegisters := by
  intro s p hp
  obtain ⟨q, rfl⟩ := exists_number_of_implemented hp
  have hmem (src : SrcMode) (v : Word) (u : State)
      (h : loadSource q.number.size src (fun _ => false) none s = .next (v, u)) :
      ∃ t, exec (.moveMemToSpecial q.number src) s = .next t ∧ SpecialWritten u t q.number v ∧
        Ends u t (s.pc + 2 + BitVec.ofNat 32 (src.immLength q.number.size)) true :=
    ⟨_, exec_moveMemToSpecial h, u.writeSpecial_written q v _ _, u.writeSpecial_ends q v _ _⟩
  refine ⟨fun rs h => ⟨_, exec_moveRegToSpecial h q, s.writeSpecial_written q _ _ _, s.writeSpecial_ends q _ _ _⟩,
    hmem, fun v u h => ?_⟩
  rw [exec_popSpecial]
  simpa [SrcMode.immLength] using hmem (.mem (.inc spReg)) v u h

/-! ## Moves from a special register -/

theorem exec_moveSpecialToReg {s : State} {rd : Reg} (hl : s.latch = none) (hr : rd ≠ pcReg) (q : Special) :
    exec (.moveSpecialToReg q.number rd) s =
      .next ((s.setGpr rd (replaceLow q.size (s.gpr rd 0) (s.readSpecial q))).retire s.nextPc true) := by
  refine (withSpecial_number q _).trans ((if_neg hr).trans ?_)
  unfold moveFromSpecialToReg
  rw [unprefixed_of hl, refuseIf_of (by simpa using hr), mergeLow_eq]

/-- What the general register then holds. -/
theorem exec_moveSpecialToReg_gpr {s : State} {rd : Reg} (hr : rd ≠ pcReg) (h : Ready s False) (q : Special) :
    ∃ t, exec (.moveSpecialToReg q.number rd) s = .next t ∧
      t.gpr rd 0 = replaceLow q.size (s.gpr rd 0) (s.readSpecial q) :=
  ⟨_, exec_moveSpecialToReg h.1 hr q, State.gpr_setGpr_self s hr _ _⟩

theorem replaceLow_dword (old r : Word) : replaceLow .d old r = r := (mergeLow_eq .d old r).symm

theorem zeroExtended_dword (v : Word) : zeroExtended .d v = v := (truncTo_eq .d v).symm

/-! ## The zero registers (rule R25) -/

/-- A write to a zero register leaves everything but X. -/
theorem SpecialWritten.kept_of_zero {u t : State} {p : PNum} {v : Word} (hp : p = 0#4 ∨ p = 4#4 ∨ p = 8#4)
    (h : SpecialWritten u t p v) : t.flags = { u.flags with x := false } ∧ Kept u t noReg := by
  have hn : p ≠ 9#4 ∧ p ≠ 10#4 ∧ p ≠ 11#4 ∧ p ≠ 12#4 ∧ p ≠ 14#4 ∧ ¬ (p = 5#4 ∨ p = 13#4) := by
    obtain rfl | rfl | rfl := hp <;> decide
  obtain ⟨h9, h10, h11, h12, h14, hf⟩ := hn
  have hflags := h.flags.trans (if_neg hf)
  exact ⟨hflags,
    { registers := fun r hr _ => h.registers r hr
      specials := ⟨BitVec.eq_of_toNat_eq (h.ibr.trans (if_neg h9)), h.irp.trans (if_neg h10), h.srp.trans (if_neg h11),
        h.bar.trans (if_neg h12), h.brp.trans (if_neg h14)⟩
      enables := by simp [hflags]
      bytes := h.bytes
      environment := h.environment
      hit := h.hit }⟩

/-- Settles O54: reads by the equation of the move, writes by what moves to special registers leave. -/
theorem zeroRegisters : Obligations.ZeroRegisters := by
  refine ⟨fun s => ⟨rfl, rfl, rfl⟩, fun s rd hr h => ⟨?_, ?_, ?_⟩, fun p hp => ?_, fun s => ⟨fun rd hr => ?_, fun dst => ?_⟩⟩
  · exact exec_moveSpecialToReg_gpr hr h .p0
  · exact exec_moveSpecialToReg_gpr hr h .p4
  · obtain ⟨t, ht, hg⟩ := exec_moveSpecialToReg_gpr hr h .p8
    exact ⟨t, ht, hg.trans (replaceLow_dword _ _)⟩
  · have hi : p.implemented = true := by obtain rfl | rfl | rfl := hp <;> rfl
    refine ⟨fun s rs h => ?_, fun s u src v h => ?_, fun s u v h => ?_⟩
    · obtain ⟨t, ht, hw, -⟩ := (movesToSpecialRegisters s p hi).1 rs h
      exact ⟨t, ht, hw.kept_of_zero hp⟩
    · obtain ⟨t, ht, hw, -⟩ := (movesToSpecialRegisters s p hi).2.1 src v u h
      exact ⟨t, ht, hw.kept_of_zero hp⟩
    · obtain ⟨t, ht, hw, -⟩ := (movesToSpecialRegisters s p hi).2.2 v u h
      exact ⟨t, ht, hw.kept_of_zero hp⟩
  · exact ⟨(if_neg hr).symm, (if_neg hr).symm, (if_neg hr).symm⟩
  · exact ⟨rfl, rfl, rfl⟩

/-! ## The interrupt base register (rule R29) -/

/-- The vectors lie above IBR, below the next 64 KiB: the sum does not wrap (rule R302). -/
theorem State.vectorAddress_toNat (s : State) (vec : Byte) :
    (s.vectorAddress vec).toNat = s.ibr.toNat + 4 * vec.toNat := by
  have h := s.ibrHigh.isLt
  have hv := vec.isLt
  unfold State.vectorAddress
  rw [BitVec.toNat_add, BitVec.toNat_shiftLeft, BitVec.toNat_setWidth, State.ibr_toNat, Nat.shiftLeft_eq]
  omega

theorem State.breakEntry_toNat (s : State) (n : BitVec 4) :
    (s.breakEntry n).toNat = s.ibr.toNat + 8 * n.toNat := by
  have h := s.ibrHigh.isLt
  have hn := n.isLt
  unfold State.breakEntry
  rw [BitVec.toNat_add, BitVec.toNat_shiftLeft, BitVec.toNat_setWidth, State.ibr_toNat, Nat.shiftLeft_eq]
  omega

theorem State.breakEntry_even (s : State) (n : BitVec 4) : ¬ isOdd (s.breakEntry n) := by
  unfold isOdd
  rw [State.breakEntry_toNat, State.ibr_toNat]
  omega

/-- BREAK n goes to its entry point (rule R190). -/
theorem exec_brk {s : State} (h : Ready s True) (n : BitVec 4) :
    exec (.brk n) s = .next ((s.setPointer .brp s.nextPc).retire (s.breakEntry n) false) := by
  refine (unprefixed_of h.1 _).trans ((slotGuard_of (fun _ => h.2 trivial) _).trans ?_)
  exact refuseOdd_even (s.breakEntry_even n) _

/-- Settles O55: writes by what moves to special registers leave, addresses by arithmetic without wrapping. -/
theorem interruptBaseRegister : Obligations.InterruptBaseRegister := by
  refine ⟨fun s rs h => ?_, fun s u src v h => ?_, fun s => ?_, fun s rd hr h => ?_, State.vectorAddress_toNat,
    fun s n h => ?_, rfl⟩
  · obtain ⟨t, ht, hw, -⟩ := (movesToSpecialRegisters s 9#4 rfl).1 rs h
    refine ⟨t, ht, ?_⟩
    rw [hw.ibr, if_pos rfl, show PNum.size 9#4 = .d from rfl, zeroExtended_dword]
  · obtain ⟨t, ht, hw, -⟩ := (movesToSpecialRegisters s 9#4 rfl).2.1 src v u h
    exact ⟨t, ht, hw.ibr⟩
  · rw [State.ibr_toNat]
    omega
  · obtain ⟨t, ht, hg⟩ := exec_moveSpecialToReg_gpr hr h .ibr
    exact ⟨t, ht, hg.trans (replaceLow_dword _ _)⟩
  · refine ⟨_, exec_brk h n, ?_⟩
    rw [State.retire_pc_of_no_slot _ _ _ ((s.setPointer_slot _ _).trans (h.2 trivial)), State.breakEntry_toNat]

end Sys2Proof.Machine

/-! PROOFS. Accesses and fetches that stop; the conditions after a compare; the bit tests and TEST. -/

namespace Sys2Proof.Machine

/-! ## Accesses and fetches that stop (rules R62, R68, R78) -/

section Access

variable {n : Nat} {a : Word} {s : State}

/-- A byte may be accessed as far as the aliases go (rule R68). -/
theorem State.aliasClash_eq_false : s.aliasClash a = false ↔
    s.params.alias31 = .sameLocation ∨ ∀ b, aliasOf s.aliasSeen (location a) = some b → b = a.getLsbD 31 := by
  unfold State.aliasClash
  cases s.params.alias31 with
  | sameLocation => simp
  | unspecified => cases aliasOf s.aliasSeen (location a) <;> simp

/-- An access is admitted byte by byte. -/
theorem State.accessible_iff : s.accessible n a = true ↔ ∀ k, k < n →
    mapped s.params (a + BitVec.ofNat 32 k) = true ∧ s.aliasClash (a + BitVec.ofNat 32 k) = false := by
  induction n generalizing a with
  | zero => simp [State.accessible]
  | succ n ih =>
    simp only [State.accessible, Bool.and_eq_true, Bool.not_eq_true', ih, add_ofNat_succ]
    constructor
    · rintro ⟨h0, hs⟩ k hk
      cases k with
      | zero => simpa using h0
      | succ k => exact hs k (by omega)
    · intro h
      exact ⟨by simpa using h 0 (by omega), fun k hk => h (k + 1) (by omega)⟩

/-- The check that stops does so for one of two reasons; the aliases stop it only while `Alias31` is `unspecified`, the
memory map only at an address that is no memory (decisions D9, D23). -/
theorem touch_stops (hn : n < Memory.size) (h : s.accessible n a = false) :
    (touch n a s = .fault .notMemory ∧ ∃ k, k < n ∧ mapped s.params (a + BitVec.ofNat 32 k) = false) ∨
      (touch n a s = .refused .aliasConflict ∧ s.params.alias31 = .unspecified) := by
  induction n generalizing a s with
  | zero => cases h
  | succ n ih =>
    unfold touch
    split
    case isFalse hm => exact .inl ⟨rfl, 0, by omega, by simpa using hm⟩
    case isTrue hm =>
      split
      case isTrue hc =>
        refine .inr ⟨rfl, ?_⟩
        unfold State.aliasClash at hc
        split at hc
        · cases hc
        · assumption
      case isFalse hc =>
        have hr : (s.noteAlias a).accessible n (a + 1) = false := by
          rw [State.accessible_noteAlias (outside_self a (by omega))]
          simpa [State.accessible, hm, hc] using h
        obtain ⟨ht, k, hk, hu⟩ | ⟨ht, hu⟩ := ih (by omega) hr
        · exact .inl ⟨ht, k + 1, by omega, by rwa [State.noteAlias_params, add_ofNat_succ] at hu⟩
        · exact .inr ⟨ht, by rwa [State.noteAlias_params] at hu⟩

/-- What an inadmissible access stops with, when it begins with the check. -/
theorem andThen_touch_stops {β : Type} (hn : n < Memory.size) (h : s.accessible n a = false) (k : State → Result β) :
    (andThen (touch n a s) k = .fault .notMemory ∨ andThen (touch n a s) k = .refused .aliasConflict) ∧
    (s.params.alias31 = .sameLocation → andThen (touch n a s) k = .fault .notMemory) ∧
    ((∀ k, k < n → mapped s.params (a + BitVec.ofNat 32 k) = true) →
      andThen (touch n a s) k = .refused .aliasConflict) := by
  obtain ⟨ht, j, hj, hu⟩ | ⟨ht, hu⟩ := touch_stops hn h <;> rw [ht]
  · refine ⟨.inl rfl, fun _ => rfl, fun hm => ?_⟩
    rw [hm j hj] at hu
    cases hu
  · refine ⟨.inr rfl, fun he => ?_, fun _ => rfl⟩
    rw [he] at hu
    cases hu

theorem State.fetchLength_lt (s : State) : s.fetchLength < Memory.size := by
  have h := s.instrAt.length_le
  unfold State.fetchLength Memory.size
  split <;> omega

end Access

/-- Settles O30: every access and fetch begins with the check of its bytes. -/
theorem accessesAndFetchesThatStop : Obligations.AccessesAndFetchesThatStop := by
  refine ⟨fun n a s => ?_, fun n a v s _ hn h => ?_, fun s h => refuseOdd_odd h _, ?_⟩
  · simp only [State.accessible_iff, State.aliasClash_eq_false]
  · have hs : n < Memory.size := by unfold Memory.size; omega
    obtain ⟨hr, hr', hr''⟩ := andThen_touch_stops hs h fun t =>
      .next ((t.bus.advance.read n a).1, (t.withBus (t.bus.advance.read n a).2).watch n a)
    obtain ⟨hw, hw', hw''⟩ := andThen_touch_stops hs h fun t => .next ((t.watch n a).putBytes n a v)
    exact ⟨hr, hw, fun e => ⟨hr' e, hw' e⟩, fun e => ⟨hr'' e, hw'' e⟩⟩
  · rintro s _ hpc rfl
    have hf : fetchInstr s = fetchHere s.yieldBus := refuseOdd_even hpc _
    rw [hf]
    refine ⟨fun h => (andThen_touch_stops (State.fetchLength_lt _) h _).1, fun h hst => ?_⟩
    obtain ⟨t, ht⟩ := touch_of_accessible (State.fetchLength_lt _) h
    unfold fetchHere
    rw [ht, andThen_next, hst, refuseIf_true]

/-! ## Conditions after a compare (rules R35, R38, R240) -/

section Compare

variable {m : Size} {s d r : Word} {f g : Flags}

theorem extendCarry_of_clear (hx : f.x = false) : extendCarry f = 0 := by simp [extendCarry, hx]

/-- The low bits of the result are all of it. -/
theorem IsDifference.lowNat_result (h : IsDifference m s d f r g) (hx : f.x = false) :
    (lowNat m r : Int) = ((lowNat m d : Int) - lowNat m s) % 2 ^ sizeBits m ∧ lowNat m r = r.toNat := by
  have hr := h.result
  have hlt := Int.emod_lt_of_pos ((lowNat m d : Int) - lowNat m s - extendCarry f)
    (show (0 : Int) < 2 ^ sizeBits m by positivity)
  have e : lowNat m r = r.toNat := Nat.mod_eq_of_lt (by rw [← hr] at hlt; exact_mod_cast hlt)
  rw [extendCarry_of_clear hx] at hr
  exact ⟨by rw [e, hr]; simp, e⟩

theorem IsDifference.zero_iff (h : IsDifference m s d f r g) (hx : f.x = false) :
    g.z = true ↔ lowNat m d = lowNat m s := by
  obtain ⟨hr, e⟩ := h.lowNat_result hx
  have hz : r = 0 ↔ lowNat m r = 0 := by rw [e, BitVec.toNat_eq]; rfl
  have h1 := lowNat_lt m s
  have h2 := lowNat_lt m d
  rw [h.zero, hz]
  simp only [hx, Bool.false_eq_true, false_implies, and_true]
  cases m <;> simp only [sizeBits, Nat.reducePow, Int.reducePow] at * <;> omega

theorem IsDifference.borrow_iff (h : IsDifference m s d f r g) (hx : f.x = false) :
    g.c = true ↔ lowNat m d < lowNat m s := by
  rw [h.borrow, extendCarry_of_clear hx, Nat.add_zero]

/-- The sign of the difference, corrected for overflow, is the sign of the relation. -/
theorem IsDifference.less_iff (h : IsDifference m s d f r g) (hx : f.x = false) :
    ¬ (g.n = true ↔ g.v = true) ↔ lowInt m d < lowInt m s := by
  obtain ⟨hr, -⟩ := h.lowNat_result hx
  have h1 := lowNat_lt m s
  have h2 := lowNat_lt m d
  rw [h.negative, h.overflow, extendCarry_of_clear hx]
  simp only [lowInt_eq]
  generalize lowNat m r = r, lowNat m s = a, lowNat m d = b at *
  cases m <;> simp only [sizeBits, Nat.reduceSub, Nat.reducePow, Int.reducePow] at * <;> split_ifs <;> omega

theorem lowInt_inj : lowInt m d = lowInt m s ↔ lowNat m d = lowNat m s := by
  have h1 := lowNat_lt m s
  have h2 := lowNat_lt m d
  simp only [lowInt_eq]
  cases m <;> simp only [sizeBits, Nat.reduceSub, Nat.reducePow, Int.reducePow] at * <;> split_ifs <;> omega

/-! The condition codes of Table 1-2 as statements about the flags. -/

theorem Flags.holds_lt : g.holds .lt = true ↔ ¬ (g.n = true ↔ g.v = true) := by
  unfold Flags.holds
  cases g.n <;> cases g.v <;> simp

theorem Flags.holds_ge : g.holds .ge = true ↔ (g.n = true ↔ g.v = true) := by
  unfold Flags.holds
  cases g.n <;> cases g.v <;> simp

theorem Flags.holds_le : g.holds .le = true ↔ g.z = true ∨ ¬ (g.n = true ↔ g.v = true) := by
  unfold Flags.holds
  cases g.n <;> cases g.v <;> simp

theorem Flags.holds_gt : g.holds .gt = true ↔ ¬ g.z = true ∧ (g.n = true ↔ g.v = true) := by
  unfold Flags.holds
  cases g.n <;> cases g.v <;> simp

end Compare

/-- Settles O41: equality, borrow and corrected sign, and the other conditions from them. -/
theorem conditionsAfterCompare : Obligations.ConditionsAfterCompare := by
  intro m s d r f g hx h
  have hz := h.zero_iff hx
  have hc := h.borrow_iff hx
  have hl := h.less_iff hx
  have hg : (g.n = true ↔ g.v = true) ↔ lowInt m s ≤ lowInt m d := by rw [← not_lt, ← hl, not_not]
  have he := lowInt_inj (m := m) (s := s) (d := d)
  refine ⟨hz, ?_, hc, ?_, ?_, ?_, Flags.holds_lt.trans hl, ?_, ?_, ?_, rfl, rfl, rfl, rfl, rfl⟩
  · rw [Ne, ← hz]
    simp [Flags.holds]
  · rw [← Nat.not_lt, ← hc]
    simp [Flags.holds]
  · rw [Nat.le_iff_lt_or_eq, ← hc, ← hz]
    simp [Flags.holds]
  · rw [← Nat.not_le, Nat.le_iff_lt_or_eq, ← hc, ← hz]
    simp [Flags.holds]
  · rw [Flags.holds_ge, hg]
  · rw [Flags.holds_le, hl, hz, ← he]
    omega
  · rw [Flags.holds_gt, hg, hz, ← he]
    omega

/-! ## The bit tests and TEST (rules R39, R264, R284, R285) -/

/-- Shifting left until bit `k` is the top one leaves zero when it and all below it are zero. -/
theorem shiftLeft_eq_zero_iff {k : Nat} (hk : k < 32) (d : Word) : d <<< (31 - k) = 0 ↔ d.toNat % 2 ^ (k + 1) = 0 := by
  rw [BitVec.toNat_eq, BitVec.toNat_shiftLeft, Nat.shiftLeft_eq,
    show 2 ^ 32 = 2 ^ (k + 1) * 2 ^ (31 - k) by rw [← pow_add]; congr 1; omega, Nat.mul_mod_mul_right]
  simp

/-- The flags of a bit test (rule R39). -/
theorem bitFlags_spec {k : Nat} (hk : k < 32) (d : Word) (f : Flags) :
    (bitFlags k d f).n = d.getLsbD k ∧
    ((bitFlags k d f).z = true ↔ d.toNat % 2 ^ (k + 1) = 0 ∧ (f.x = true → f.z = true)) ∧
    (bitFlags k d f).v = false ∧ (bitFlags k d f).c = false := by
  refine ⟨rfl, ?_, rfl, rfl⟩
  rw [← shiftLeft_eq_zero_iff hk]
  unfold bitFlags
  cases f.x <;> cases f.z <;> simp

theorem bitNumber_toNat (v : Word) : (bitNumber v).toNat = v.toNat % 32 := by
  rw [bitNumber, BitVec.toNat_and]
  exact Nat.and_two_pow_sub_one_eq_mod _ 5

/-- The low bits of a value replaced by themselves. -/
theorem replaceLow_self (m : Size) (v : Word) : replaceLow m v (zeroExtended m v) = v := by
  rw [replaceLow, ← truncTo_eq, lowNat_truncTo, lowNat, Nat.div_add_mod', BitVec.ofNat_toNat, BitVec.setWidth_eq]

theorem IsGeneral.congr {m : Size} {f g g' : Flags} {r : Word} (h : IsGeneral m f r g) (e : g'.nzvc = g.nzvc) :
    IsGeneral m f r g' := by
  obtain ⟨hn, hz, hv, hc⟩ : g'.n = g.n ∧ g'.z = g.z ∧ g'.v = g.v ∧ g'.c = g.c := by simpa [Flags.nzvc] using e
  exact ⟨hn ▸ h.negative, hz ▸ h.zero, hv ▸ h.overflow, hc ▸ h.carry⟩

/-- A register write that gives the register the value it has keeps all registers. -/
theorem Kept.of_same {s t : State} {rd : Reg} (h : Kept s t (only rd)) (hr : t.gpr rd 0 = s.gpr rd 0) :
    Kept s t noReg where
  registers r hp _ := by
    by_cases e : r = rd
    · rw [e, hr]
    · exact h.registers r hp e
  specials := h.specials
  enables := h.enables
  bytes := h.bytes
  environment := h.environment
  hit := h.hit

/-- Settles O49: the flags of `bitFlags` and `generalFlags`; TEST of a register rewrites it with itself. -/
theorem bitTestAndTestInstructions : Obligations.BitTestAndTestInstructions := by
  refine ⟨fun s rd => ⟨?_, fun n h => ?_⟩, fun s m src v u h => ?_, fun s m rn hr h => ?_⟩
  · rintro rs _ h rfl
    change Tests (regForm _ s _) _ _ _
    rw [regForm_of h (by simp), ← bitNumber_toNat]
    refine applyTest_tests (bitFlags_spec ?_ _ _) fun _ _ _ => ⟨rfl, rfl, rfl⟩
    rw [bitNumber_toNat]
    omega
  · change Tests (regForm _ s _) _ _ _
    have hn : (n.setWidth 32).toNat = n.toNat := by
      have := n.isLt
      rw [BitVec.toNat_setWidth]
      omega
    rw [regForm_of h (by simp), ← hn]
    exact applyTest_tests (bitFlags_spec (by rw [hn]; exact n.isLt) _ _) fun _ _ _ => ⟨rfl, rfl, rfl⟩
  · change Tests (andThen (loadSource _ _ _ _ _) _) _ _ _
    rw [h, andThen_next, ← (loadSource_worked (v, u) h).flags]
    exact applyTest_tests (m := m) (alu := moveAlu m) (rd := 0) ((generalFlags_spec m v u.flags).congr rfl)
      fun _ _ _ => ⟨rfl, rfl, rfl⟩
  · have hc : Computes (exec (.testReg m rn) s) s m rn (s.pc + 2)
        (fun r g => r = zeroExtended m (s.gpr rn 0) ∧ IsGeneral m s.flags r g) := by
      change Computes (regForm _ s _) _ _ _ _ _
      rw [regForm_of h (by simp [hr]), State.gpr_of_ne_pc s hr _ 0, truncTo_eq]
      exact applyAlu_computes ⟨rfl, generalFlags_spec _ _ _⟩ fun _ _ _ => ⟨rfl, rfl, rfl⟩
    obtain ⟨r, g, ⟨rfl, hg⟩, hw, -⟩ := hc
    obtain ⟨t, ht, hv, hf, he, hk⟩ := hw hr
    exact ⟨t, ht, hg.congr hf, he, hk.of_same (hv.trans (replaceLow_self _ _))⟩

end Sys2Proof.Machine

/-! PROOFS. Data accesses, alone on the bus and beside other bus masters, and source operands. -/

namespace Sys2Proof.Machine

/-! ## Data accesses alone on the bus (rules R62, R63) -/

theorem lt_memorySize {n : Nat} (h : n ≤ 4) : n < Memory.size := lt_of_le_of_lt h (by decide)

/-- Settles O28: a read answers on accessible bytes, and alone on the bus it loads from memory. -/
theorem dataReadYieldsTheBytes : Obligations.DataReadYieldsTheBytes := by
  intro n a s hn ha h
  obtain ⟨v, u, hr⟩ := memRead_of_accessible (lt_memorySize hn) h
  obtain ⟨rfl, hu⟩ := memRead_alone ha hr
  exact ⟨_, u, hr, Memory.load_toNat s hn a, hu⟩

/-- Settles O29: a write answers on accessible bytes, and alone on the bus it stores to memory. -/
theorem dataWriteStoresTheBytes : Obligations.DataWriteStoresTheBytes := by
  intro n a v s hn ha hw h
  have hn' := lt_memorySize hn
  obtain ⟨t, ht⟩ := memWrite_of_accessible v hn' h
  obtain ⟨e, hh⟩ := memWrite_alone ha ht
  have hm : t.mem = s.mem.store n a v := congrArg State.mem e
  refine ⟨t, ht, ?_, fun x hx => ?_, ?_, hh⟩
  · calc bytesNat t n a
        = bytesNat { s with mem := s.mem.store n a v, stored := t.stored } n a :=
          bytesNat_congr n a fun _ _ => State.peek_congr hm _
      _ = v.toNat % 2 ^ (8 * n) := by rw [bytesNat_store s hw hn', Nat.pow_mul]
  · unfold State.peek
    rw [hm, Memory.byteAt_store_outside _ hx]
  · rw [e]

/-! ## Source operands (rules R134, R135) -/

theorem bytes_eq_sizeBits (m : Size) : m.bytes = sizeBits m / 8 := by cases m <;> rfl

theorem bytes_le_four (m : Size) : m.bytes ≤ 4 := by cases m <;> decide

/-- Settles O34: a memory source is a data read at the operand address, an immediate one is data behind the word. -/
theorem sourceOperandIsRead : Obligations.SourceOperandIsRead := by
  refine ⟨fun s u m a busy dest ea ha hr hacc => ?_, fun s m v busy dest h => ?_⟩
  · rw [← bytes_eq_sizeBits] at *
    have hu : Alone u := by rw [resolve_eq_next hr]; exact ha
    obtain ⟨v, w, hv, hb⟩ := dataReadYieldsTheBytes m.bytes ea u (bytes_le_four m) hu hacc
    exact ⟨v, w, by rw [loadSource, hr, andThen_next]; exact hv, hb⟩
  · refine ⟨s.watch m.bytes (s.pc + 2), ?_, s.watch_eq _ _, ?_⟩
    · simp only [loadSource, immediate, h.1, Option.isSome_none, refuseIf_false]
      rw [slotGuard_of fun _ => h.2 trivial, truncTo_eq]
    · rw [State.watch_hit_iff, bytes_eq_sizeBits]

/-! ## Data accesses beside other bus masters (rules R64, R65, R74) -/

section Shared

variable {n : Nat} {a v : Word} {s : State}

/-- The other bus masters write before a data read. -/
theorem memRead_yieldBus (hn : n ≤ 4) (h : s.accessible n a = true) :
    ∃ u, memRead n a s = .next ((s.yieldBus.bus.read n a).1, u) ∧
      u = { s.yieldBus.withBus (s.yieldBus.bus.read n a).2 with hit := u.hit, aliasSeen := u.aliasSeen } := by
  obtain ⟨v, u, hr⟩ := memRead_of_accessible (lt_memorySize hn) h
  obtain ⟨hv, hu, -⟩ := memRead_eq_next hr
  rw [← State.yieldBus_bus] at hv hu
  exact ⟨u, hv ▸ hr, hu⟩

/-- The other bus masters write before a data write. -/
theorem memWrite_yieldBus (hn : n ≤ 4) (h : s.accessible n a = true) :
    ∃ t, memWrite n a v s = .next t ∧
      t.mem = (s.yieldBus.bus.write n a v).mem ∧ t.others = (s.yieldBus.bus.write n a v).others := by
  obtain ⟨t, ht⟩ := memWrite_of_accessible v (lt_memorySize hn) h
  obtain ⟨e, -⟩ := memWrite_eq_next ht
  rw [← State.yieldBus_bus] at e
  exact ⟨t, ht, congrArg State.mem e, congrArg State.others e⟩

/-- The second half of a split access begins a dword. -/
theorem secondHalf_toNat_mod {k : Nat} (hk : a.toNat % 4 + k = 4) : (a + BitVec.ofNat 32 k).toNat % 4 = 0 := by
  rw [BitVec.toNat_add, BitVec.toNat_ofNat]
  omega

/-- Of a read across a dword boundary each half is one bus access, the half below the boundary first. -/
theorem Bus.read_halves {b : Bus} {k m : Nat} (hk : a.toNat % 4 + k = 4) (hm : 0 < m) (hm' : m ≤ 4) :
    b.read (k + m) a =
      (b.mem.load k a ||| (b.advance.mem.load m (a + BitVec.ofNat 32 k)) <<< (8 * k), b.advance) := by
  have h0 := secondHalf_toNat_mod hk
  rw [Bus.read_split (by omega) hm hk, Bus.read_within (by omega)]

/-- Of a write across a dword boundary each half is one bus access, the half below the boundary first. -/
theorem Bus.write_halves {b c : Bus} {k m : Nat} (hk : a.toNat % 4 + k = 4) (hm : 0 < m) (hm' : m ≤ 4)
    (hc : c = Bus.advance { b with mem := b.mem.store k a v }) :
    b.write (k + m) a v = { c with mem := c.mem.store m (a + BitVec.ofNat 32 k) (v >>> (8 * k)) } := by
  have h0 := secondHalf_toNat_mod hk
  rw [Bus.write_split (by omega) hm hk, Bus.write_within _ (by omega), hc]

/-- The number that two halves make. -/
theorem join_halves_toNat {k m : Nat} {x y : Word} (hx : x.toNat < 256 ^ k) (hy : y.toNat < 256 ^ m) (h : k + m ≤ 4) :
    (x ||| y <<< (8 * k)).toNat = x.toNat + 256 ^ k * y.toNat := by
  have hp : 256 ^ k = 2 ^ (8 * k) := (Nat.pow_mul 2 8 k).symm
  have hlt : y.toNat * 2 ^ (8 * k) < 2 ^ 32 :=
    calc y.toNat * 2 ^ (8 * k)
        < 256 ^ m * 2 ^ (8 * k) := Nat.mul_lt_mul_of_pos_right hy (Nat.two_pow_pos _)
      _ = 256 ^ (m + k) := by rw [← hp, Nat.pow_add]
      _ ≤ 256 ^ 4 := Nat.pow_le_pow_right (by decide) (by omega)
  rw [hp] at hx ⊢
  rw [BitVec.toNat_or, BitVec.toNat_shiftLeft, Nat.shiftLeft_eq, Nat.mod_eq_of_lt hlt, Nat.or_comm,
    ← Nat.shiftLeft_eq, ← Nat.shiftLeft_add_eq_or_of_lt hx, Nat.shiftLeft_eq]
  ring

/-- What the other bus masters wrote, byte by byte; the rest of the state is as before. -/
theorem State.yieldBus_cells {cells : List (Word × Byte)} {rest : List (List (Word × Byte))}
    (hw : s.params.externalWriters = true) (ho : s.others = cells :: rest) :
    s.yieldBus = { s with mem := s.mem.putCells cells, others := rest } := by
  simp [State.yieldBus, Bus.advance, State.bus, State.withBus, hw, ho]

end Shared

/-- Settles O31: an access within one dword is one bus access, and one across a boundary is two. -/
theorem otherMastersWriteBetweenBusAccesses : Obligations.OtherMastersWriteBetweenBusAccesses := by
  refine ⟨fun s => State.yieldBus_alone, fun s cells rest hw ho hm => ?_, ?_⟩
  · have e := State.yieldBus_cells hw ho
    rw [e]
    exact ⟨rfl, Memory.byteAt_putCells hm cells⟩
  · rintro n a v s _ hn h rfl
    obtain ⟨u, hr, hu⟩ := memRead_yieldBus hn h
    obtain ⟨t, ht, hm, ho⟩ := memWrite_yieldBus (v := v) hn h
    refine ⟨fun hd => ?_, fun k hk hkn => ?_⟩
    · rw [Bus.read_within hd] at hr hu
      rw [Bus.write_within v hd] at hm ho
      exact ⟨⟨_, u, hr, Memory.load_toNat _ hn a, hu⟩, t, ht, hm, ho⟩
    · obtain ⟨m, rfl⟩ : ∃ m, n = k + m := ⟨n - k, by omega⟩
      have hk4 : a.toNat % 4 + k = 4 := by omega
      have hc : (State.yieldBus { s.yieldBus with mem := s.yieldBus.mem.store k a v }).bus = _ := State.yieldBus_bus _
      rw [Bus.read_halves hk4 (by omega) (by omega), ← State.yieldBus_bus] at hr hu
      rw [Bus.write_halves hk4 (by omega) (by omega) hc] at hm ho
      have hlow := Memory.load_toNat s.yieldBus (n := k) (by omega) a
      have hhigh := Memory.load_toNat s.yieldBus.yieldBus (n := m) (by omega) (a + BitVec.ofNat 32 k)
      rw [Nat.add_sub_cancel_left]
      refine ⟨⟨_, u, hr, ?_, hu⟩, _, t, rfl, ht, hm, ho⟩
      rw [State.bus_mem, State.bus_mem, join_halves_toNat (hlow ▸ bytesNat_lt _ _ _) (hhigh ▸ bytesNat_lt _ _ _) hn,
        hlow, hhigh]

end Sys2Proof.Machine

/-! PROOFS. Fetching an instruction through the prefetch register, and the step that runs it. -/

namespace Sys2Proof.Machine

section Fetch

variable {s t b : State} {i : Instr} {rest : List Half}

/-! ## The word and the data at pc (rules R70, R71) -/

theorem load_two_eq (s : State) (a : Word) : (s.mem.load 2 a).setWidth 16 = BitVec.ofNat 16 (bytesNat s 2 a) := by
  apply BitVec.eq_of_toNat_eq
  rw [BitVec.toNat_setWidth, BitVec.toNat_ofNat, Memory.load_toNat s (by decide)]

theorem load_four_eq (s : State) (a : Word) : s.mem.load 4 a = BitVec.ofNat 32 (bytesNat s 4 a) := by
  rw [← Memory.load_toNat s (by decide), BitVec.ofNat_toNat, BitVec.setWidth_eq]

/-- Two words behind each other hold the number of their four bytes (rule R61). -/
theorem join_words (s : State) (a : Word) :
    BitVec.ofNat 16 (bytesNat s 2 (a + 2)) ++ BitVec.ofNat 16 (bytesNat s 2 a) = BitVec.ofNat 32 (bytesNat s 4 a) := by
  apply BitVec.eq_of_toNat_eq
  have h0 := bytesNat_lt s 2 a
  have h1 := bytesNat_lt s 2 (a + 2)
  have e : bytesNat s 4 a = bytesNat s 2 a + 65536 * bytesNat s 2 (a + 2) := by
    simp only [bytesNat, show a + 1 + 1 = a + 2 by rw [BitVec.add_assoc]; rfl]
    omega
  rw [toNat_join, BitVec.toNat_ofNat, BitVec.toNat_ofNat, BitVec.toNat_ofNat, e]
  omega

theorem State.prefetched_eq_none {a : Word} : s.prefetched a = none ↔ ∀ p, s.prefetch = some p → p.addr ≠ a := by
  unfold State.prefetched
  cases s.prefetch <;> simp

/-- A prefetch register that agrees with memory at `a` cannot be told from memory there (rule R71). -/
theorem State.codeHalf_eq {a : Word}
    (h : ∀ p, s.prefetch = some p → p.addr = a → p.half = BitVec.ofNat 16 (bytesNat s 2 a)) :
    s.codeHalf a = BitVec.ofNat 16 (bytesNat s 2 a) := by
  unfold State.codeHalf State.prefetched
  cases hp : s.prefetch with
  | none => exact load_two_eq s a
  | some p =>
    by_cases ha : p.addr = a
    · simpa [ha] using h p hp ha
    · simpa [ha] using load_two_eq s a

/-- The instruction at pc is the one in memory, when the prefetch register agrees with memory there. -/
theorem State.instrAt_eq
    (h : ∀ p, s.prefetch = some p → p.addr = s.pc → p.half = BitVec.ofNat 16 (bytesNat s 2 s.pc)) :
    s.instrAt = decodeWord (BitVec.ofNat 16 (bytesNat s 2 s.pc)) (BitVec.ofNat 32 (bytesNat s 4 (s.pc + 2))) := by
  rw [State.instrAt, State.codeHalf_eq h, load_four_eq]

theorem State.two_le_fetchLength (s : State) : 2 ≤ s.fetchLength := by
  unfold State.fetchLength
  split
  · exact le_rfl
  · exact s.instrAt.two_le_length

/-- Fewer bytes hold fewer stored ones. -/
theorem State.storedAny_mono {m n : Nat} (hmn : m ≤ n) {a : Word} (h : s.storedAny n a = false) :
    s.storedAny m a = false := by
  induction m generalizing n a with
  | zero => rfl
  | succ m ih =>
    obtain ⟨n, rfl⟩ : ∃ k, n = k + 1 := ⟨n - 1, by omega⟩
    simp only [State.storedAny, Bool.or_eq_false_iff] at h ⊢
    exact ⟨h.1, ih (by omega) h.2⟩

/-- All that an answer of a fetch implies of the instruction and the bytes (rules R62, R70, R78). -/
theorem fetchInstr_eq_next (h : fetchInstr s = .next (i, t)) :
    i = s.yieldBus.instrAt ∧ s.yieldBus.storedAny s.yieldBus.fetchLength s.pc = false := by
  obtain ⟨-, h⟩ := refuseOdd_eq_next.mp h
  obtain ⟨u, -, h⟩ := andThen_eq_next.mp h
  obtain ⟨hs, h⟩ := refuseIf_eq_next.mp h
  cases h
  exact ⟨rfl, hs⟩

/-! ## What a fetch leaves (rules R71, R309) -/

/-- A hit of a fetch is recorded when `HWBP_ON_FETCH` says so, B is set and there is a read cycle that matches BAR. -/
theorem State.watchFetch_hit_iff (s : State) (a : Word) :
    (s.watchFetch a).hit = true ↔ s.hit = true ∨ (s.params.breakOnFetch = true ∧ s.flags.b = true ∧
      (∀ p, s.prefetch = some p → p.addr ≠ a) ∧ hitsBar s.bar 2 a) := by
  rw [← State.prefetched_eq_none]
  unfold State.watchFetch
  split
  case isTrue h =>
    obtain ⟨hp, hn⟩ : s.params.breakOnFetch = true ∧ s.prefetched a = none := by simpa using h
    rw [State.watch_hit_iff]
    simp only [hp, hn, true_and]
  case isFalse h =>
    refine ⟨.inl, fun hh => hh.resolve_right fun ⟨hp, _, hn, _⟩ => h ?_⟩
    simp [hp, hn]

theorem State.watchFetch_eq (s : State) (a : Word) : s.watchFetch a = { s with hit := (s.watchFetch a).hit } := by
  unfold State.watchFetch
  split <;> rfl

/-- What a fetch at the pc of `b` leaves: a hit perhaps, the prefetch register and the note of the aliases used. -/
structure Fetched (b u : State) : Prop where
  same : u = { b with prefetch := u.prefetch, hit := u.hit, aliasSeen := u.aliasSeen }
  hit : u.hit = true ↔ b.hit = true ∨ (b.params.breakOnFetch = true ∧ b.flags.b = true ∧
    (∀ p, b.prefetch = some p → p.addr ≠ b.pc) ∧ hitsBar b.bar 2 b.pc)

/-- A fetch answers when the bytes may be accessed and none was stored to. -/
theorem fetchInstr_of_accessible (hpc : ¬ isOdd s.pc) (hb : b = s.yieldBus)
    (hacc : b.accessible b.fetchLength b.pc = true) (hst : b.storedAny b.fetchLength b.pc = false) :
    ∃ u, Fetched b u ∧ fetchInstr s = .next (b.instrAt, u) := by
  obtain ⟨t, ht⟩ := touch_of_accessible b.fetchLength_lt hacc
  have e := touch_eq_next ht
  refine ⟨(t.watchFetch b.pc).keepUpper b.pc, ⟨?_, ?_⟩, ?_⟩
  · unfold State.keepUpper
    rw [State.watchFetch_eq, e]
  · rw [State.keepUpper_hit, State.watchFetch_hit_iff, e]
  · rw [fetchInstr, refuseOdd_even hpc, ← hb, fetchHere, ht, andThen_next, hst, refuseIf_false]

/-! ## Decoding the words at pc (rules R70, R113) -/

/-- What the three words at pc decode to is the instruction at pc. -/
theorem State.instrAt_of_decode
    (hp : ∀ p, s.prefetch = some p → p.addr = s.pc → p.half = BitVec.ofNat 16 (bytesNat s 2 s.pc))
    (h : decode [BitVec.ofNat 16 (bytesNat s 2 s.pc), BitVec.ofNat 16 (bytesNat s 2 (s.pc + 2)),
      BitVec.ofNat 16 (bytesNat s 2 (s.pc + 4))] = .ok (i, rest)) : s.instrAt = i := by
  rw [decode_cons] at h
  split at h
  · cases h
  · rw [State.instrAt_eq hp, ← join_words, BitVec.add_assoc]
    exact congrArg Prod.fst (Except.ok.inj h)

end Fetch

/-- Settles O6: what is fetched was not stored to, so the prefetch register agrees with memory there. -/
theorem prefetchRegisterIsInvisible : Obligations.PrefetchRegisterIsInvisible := by
  intro s t i hs ha h
  obtain ⟨hi, hst⟩ := fetchInstr_eq_next h
  rw [State.yieldBus_alone ha] at hi hst
  rw [hi]
  refine State.instrAt_eq fun p hp hpc => ?_
  rw [hs.prefetchFresh ha p hp, hpc, load_two_eq]
  rw [hpc]
  exact State.storedAny_mono s.two_le_fetchLength hst

/-- A step with no reset and no trap due runs the instruction at pc (rule R300). -/
theorem step_of_no_trap {s : State} (hr : s.input.reset = none) (hd : dueTrap s.input s.afterInput = none) :
    step s = runInstruction exec s.afterInput := by
  unfold step oneStep
  rw [hr, hd]

/-- Settles O5: the step fetches what the words at pc decode to and runs it, and so does the word behind a
`prefixWord`. -/
theorem stepRunsTheDecodedInstruction : Obligations.StepRunsTheDecodedInstruction := by
  refine ⟨fun s b i rest hr hd hl hpc hb hp hdec hacc hst => ?_, fun t b j rest hl hpc hb hp hdec hacc hst => ?_⟩
  · have hi := State.instrAt_of_decode hp hdec
    have hlen : b.fetchLength = i.length := by simp [State.fetchLength, hb, hl, ← hi]
    obtain ⟨u, hu, hf⟩ := fetchInstr_of_accessible (s := s.afterInput) hpc hb (hlen ▸ hacc) (hlen ▸ hst)
    refine ⟨u, hu.same, by rw [hu.hit, hb]; rfl, ?_⟩
    rw [step_of_no_trap hr hd, runInstruction, runWord, hf, andThen_next, hi]
  · have hi := State.instrAt_of_decode hp hdec
    have hlen : b.fetchLength = 2 := by simp [State.fetchLength, hb, hl]
    obtain ⟨u, hu, hf⟩ := fetchInstr_of_accessible (s := t) hpc hb (hlen ▸ hacc) (hlen ▸ hst)
    refine ⟨u, hu.same, by rw [hu.hit, hb]; rfl, ?_⟩
    rw [runWord, hf, andThen_next, hi]

end Sys2Proof.Machine

/-! PROOFS. Which instructions change memory: alone on the bus, every instruction but those that store leaves the bus,
memory with it, as it was. -/

namespace Sys2Proof.Machine

/-! ## Updates that leave the bus -/

@[simp] theorem State.setGpr_bus (s : State) (r : Reg) (v : Word) : (s.setGpr r v).bus = s.bus := by simp [State.bus]
@[simp] theorem State.setPointer_bus (s : State) (p : Pointer) (v : Word) : (s.setPointer p v).bus = s.bus := by
  simp [State.bus]
@[simp] theorem State.writeSpecial_bus (s : State) (p : Special) (v : Word) : (s.writeSpecial p v).bus = s.bus := by
  simp [State.bus]

section Reading

/-! From here on `b` is the bus an operation starts with, without other bus masters (log entry 10), and each lemma says
that the operation ends with it. -/

variable {b : Bus} {s : State}

/-! ## Operands -/

theorem memRead_bus (hb : b.shared = false) {n : Nat} {a : Word} (h : s.bus = b) :
    Yields (·.2.bus = b) (memRead n a s) := fun ⟨_, _⟩ e => by
  have ha : Alone s := by rw [← h] at hb; exact hb
  exact (congrArg State.bus (memRead_alone ha e).2.same).trans h

theorem resolve_bus {a : AddrMode} {w : Word} {busy : Reg → Bool} {dest : Option Reg} (h : s.bus = b) :
    Yields (·.2.bus = b) (resolve a w busy dest s) :=
  fun ⟨_, _⟩ e => (congrArg State.bus (resolve_eq_next e)).trans h

theorem immediate_bus {m : Size} {v : Word} (h : s.bus = b) : Yields (·.2.bus = b) (immediate m v s) :=
  .of_refuseIf (.of_slotGuard (.of_next h))

theorem loadSource_bus (hb : b.shared = false) {m : Size} {src : SrcMode} {busy : Reg → Bool} {dest : Option Reg}
    (h : s.bus = b) : Yields (·.2.bus = b) (loadSource m src busy dest s) := by
  cases src with
  | mem a => exact .of_andThen (resolve_bus h) fun _ ht => memRead_bus hb ht
  | imm v => exact immediate_bus h

theorem loadList_bus (hb : b.shared = false) {k : Nat} {a : Word} (h : s.bus = b) :
    Yields (·.bus = b) (loadList k a s) := by
  induction k generalizing a s with
  | zero => exact .of_next h
  | succ k ih => exact .of_andThen (memRead_bus hb h) fun _ ht => ih ((State.setGpr_bus _ _ _).trans ht)

theorem prefixPointer_bus {m : Size} {a : AddrMode} {busy : Reg → Bool} (h : s.bus = b) :
    Yields (·.2.1.bus = b) (prefixPointer m a busy s) := by
  cases a with
  | plain r => exact .of_refuseIf (.of_next h)
  | inc r => exact .of_refuseIf (.of_refuseIf (.of_next ((State.setGpr_bus _ _ _).trans h)))

/-! ## Ends of instructions -/

theorem jumpNow_bus {t : Word} (h : s.bus = b) : Yields (·.bus = b) (jumpNow t s) := .of_refuseOdd (.of_next h)

theorem applyAlu_bus {m : Size} {alu : Alu} {rd : Reg} {src next : Word} (h : s.bus = b) :
    Yields (·.bus = b) (applyAlu m alu rd src next s) := by
  unfold applyAlu writeResult
  split
  · exact jumpNow_bus h
  · exact .of_next ((State.setGpr_bus _ _ _).trans h)

theorem jumpDelayed_bus {target : Option Word} {next : Word} (h : s.bus = b) :
    Yields (·.bus = b) (jumpDelayed target next s) := by
  cases target with
  | none => exact .of_next h
  | some t => exact .of_refuseOdd (.of_next h)

theorem branchIf_bus {taken : Bool} {next off : Word} (h : s.bus = b) :
    Yields (·.bus = b) (branchIf taken next off s) := .of_unprefixed (.of_slotGuard (jumpDelayed_bus h))

theorem returnThrough_bus {p : Pointer} (h : s.bus = b) : Yields (·.bus = b) (returnThrough p s) :=
  .of_unprefixed (.of_slotGuard (jumpDelayed_bus h))

theorem jumpLink_bus {link : Option Link} {t next : Word} (h : s.bus = b) :
    Yields (·.bus = b) (jumpLink link t next s) := by
  cases link with
  | none => exact jumpNow_bus h
  | some l => exact jumpNow_bus ((State.setPointer_bus _ _ _).trans h)

/-! ## Forms with cases of their own -/

theorem memAlu_bus (hb : b.shared = false) {k m : Size} {source : Word → Word} {alu : Alu} {rd : Reg} {src : SrcMode}
    (h : s.bus = b) : Yields (·.bus = b) (memAlu k m source alu rd src s) :=
  .of_slotGuard (.of_andThen (loadSource_bus hb h) fun _ ht => applyAlu_bus ht)

theorem moveToSpecialFromMem_bus (hb : b.shared = false) {p : PNum} {src : SrcMode} (h : s.bus = b) :
    Yields (·.bus = b) (moveToSpecialFromMem p src s) :=
  .of_withSpecial fun _ => .of_andThen (loadSource_bus hb h) fun _ ht =>
    .of_next ((State.writeSpecial_bus _ _ _).trans ht)

theorem moveFromSpecialToReg_bus {q : Special} {rd : Reg} (h : s.bus = b) :
    Yields (·.bus = b) (moveFromSpecialToReg q rd s) :=
  .of_unprefixed (.of_refuseIf (.of_next ((State.setGpr_bus _ _ _).trans h)))

theorem execMoveSpecialToReg_bus {ps : PNum} {rd : Reg} (h : s.bus = b) :
    Yields (·.bus = b) (execMoveSpecialToReg ps rd s) :=
  .of_withSpecial fun q => by
    split
    · cases q
      case srp | irp | brp => exact returnThrough_bus h
      all_goals exact .of_refused
    · exact moveFromSpecialToReg_bus h

theorem execBdap_bus (hb : b.shared = false) {m : Size} {base : Reg} {off : SrcMode} (h : s.bus = b) :
    Yields (·.bus = b) (execBdap m base off s) := .of_prefixForm <| by
  cases off with
  | mem a =>
    exact .of_andThen (prefixPointer_bus h) fun _ ht => .of_andThen (memRead_bus hb ht) fun _ hu => .of_next hu
  | imm v => exact .of_andThen (immediate_bus h) fun _ ht => .of_next ht

theorem execDip_bus (hb : b.shared = false) {src : SrcMode} (h : s.bus = b) : Yields (·.bus = b) (execDip src s) :=
  .of_prefixForm <| by
  cases src with
  | mem a =>
    exact .of_andThen (prefixPointer_bus h) fun _ ht => .of_andThen (memRead_bus hb ht) fun _ hu => .of_next hu
  | imm v => exact .of_andThen (immediate_bus h) fun _ ht => .of_next ht

/-! ## Every instruction that does not store -/

/-- An instruction that does not store reads its operand at most, and ends in one of the ways above. -/
theorem exec_bus {i : Instr} (hb : b.shared = false) (h : s.bus = b) (hi : ¬ storesToMemory i) :
    Yields (·.bus = b) (exec i s) := by
  cases i with
  | moveRegToMem | movemStore | moveSpecialToMem | clearByteMem | clearWordMem | clearDwordMem | pushReg
    | pushSpecial => exact absurd (by simp [storesToMemory]) hi
  | reserved => exact .of_refused
  | nop => exact .of_unprefixed (.of_next h)
  | addReg | addsReg | adduReg | subReg | subsReg | subuReg | andReg | orReg | xorReg | asr | lz | moveReg | movsReg
    | movuReg | testReg | addq | subq | andq | orq | moveq | asrq => exact .of_regForm (applyAlu_bus h)
  | lsl | lsr | neg | lslq | lsrq | notReg | swap => exact .of_noPcDest (.of_regForm (applyAlu_bus h))
  | absReg => exact .of_noExtend (.of_regForm (applyAlu_bus h))
  | boundReg | mstep | dstep => exact .of_noPcDest (.of_noExtend (.of_regForm (applyAlu_bus h)))
  | cmpReg | btst | cmpq | btstq => exact .of_regForm (.of_next h)
  | addMem | addsMem | adduMem | subMem | subsMem | subuMem | andMem | orMem | moveMemToReg | movsMem | movuMem
    | popReg => exact memAlu_bus hb h
  | boundMem => exact .of_noPcDest (.of_noExtend (memAlu_bus hb h))
  | cmpMem | cmpsMem | cmpuMem => exact .of_slotGuard (.of_andThen (loadSource_bus hb h) fun _ ht => .of_next ht)
  | testMem => exact .of_andThen (loadSource_bus hb h) fun _ ht => .of_next ht
  | addi =>
    exact .of_unprefixed (.of_noPcDest (.of_noExtend (.of_slotGuard (.of_next ((State.setGpr_bus _ _ _).trans h)))))
  | scc => exact .of_noPcDest (.of_unprefixed (.of_next ((State.setGpr_bus _ _ _).trans h)))
  | ba8 | bcc8 => exact branchIf_bus h
  | ba16 | bcc16 => exact .of_slotGuard (branchIf_bus h)
  | jumpReg | jsrReg | jirReg | jsrcReg | jircReg | jbrcReg => exact .of_unprefixed (.of_slotGuard (jumpLink_bus h))
  | jumpMem | jumpImm | jsrMem | jirMem | jsrcMem | jircMem | jbrcMem =>
    exact .of_slotGuard (.of_andThen (loadSource_bus hb h) fun _ ht => jumpLink_bus ht)
  | brk => exact .of_unprefixed (.of_slotGuard (jumpNow_bus h))
  | ret | reti | retb => exact returnThrough_bus h
  | setf | ax | ei | clearf | di => exact .of_unprefixed (.of_next h)
  | moveRegToSpecial =>
    exact .of_regForm (.of_withSpecial fun _ => .of_next ((State.writeSpecial_bus _ _ _).trans h))
  | moveMemToSpecial | popSpecial => exact moveToSpecialFromMem_bus hb h
  | moveSpecialToReg => exact execMoveSpecialToReg_bus h
  | clearByteReg | clearWordReg | clearDwordReg => exact moveFromSpecialToReg_bus h
  | movemLoad =>
    exact .of_refuseIf (.of_andThen (resolve_bus h) fun _ ht => .of_andThen (loadList_bus hb ht) fun _ hu => .of_next hu)
  | bdapQuick | biap => exact .of_prefixForm (.of_next h)
  | bdap => exact execBdap_bus hb h
  | dip => exact execDip_bus hb h

end Reading

/-- Settles O22: an instruction that does not store leaves the bus, and a byte read depends on memory only. -/
theorem onlyStoresChangeMemory : Obligations.OnlyStoresChangeMemory := by
  intro i s t ha h hi a
  have hb : t.bus = s.bus := exec_bus (b := s.bus) ha rfl hi t h
  exact State.peek_congr (congrArg Bus.mem hb) a

end Sys2Proof.Machine

/-! PROOFS. The decoder: the fields of a word, the reserved patterns, and that what a word decodes to is its row of the
opcode map. -/

namespace Sys2Proof
open Machine (toNat_join)

/-! ## The fields of a word (rules R92, R95, R99) -/

/-- A run of bits as a number. -/
theorem toNat_bits {n : Nat} (start len : Nat) (x : BitVec n) :
    (x.extractLsb' start len).toNat = x.toNat / 2 ^ start % 2 ^ len := by
  rw [BitVec.extractLsb'_toNat, Nat.shiftRight_eq_div_pow]

section Fields

variable (p : BitVec 4) (mode : BitVec 2) (o : BitVec 4) (z : BitVec 2) (r : BitVec 4)

theorem packWord_toNat : (packWord p mode o z r).toNat =
    p.toNat * 4096 + mode.toNat * 1024 + o.toNat * 64 + z.toNat * 16 + r.toNat := by
  unfold packWord
  simp only [toNat_join]
  omega

@[simp] theorem packWord_op2 : (packWord p mode o z r).extractLsb' 12 4 = p :=
  BitVec.eq_of_toNat_eq (by rw [toNat_bits, packWord_toNat]; omega)

@[simp] theorem packWord_mode : (packWord p mode o z r).extractLsb' 10 2 = mode :=
  BitVec.eq_of_toNat_eq (by rw [toNat_bits, packWord_toNat]; omega)

@[simp] theorem packWord_opc : (packWord p mode o z r).extractLsb' 6 4 = o :=
  BitVec.eq_of_toNat_eq (by rw [toNat_bits, packWord_toNat]; omega)

@[simp] theorem packWord_size : (packWord p mode o z r).extractLsb' 4 2 = z :=
  BitVec.eq_of_toNat_eq (by rw [toNat_bits, packWord_toNat]; omega)

@[simp] theorem packWord_op1 : (packWord p mode o z r).extractLsb' 0 4 = r :=
  BitVec.eq_of_toNat_eq (by rw [toNat_bits, packWord_toNat]; omega)

/-- A word is made of its fields. -/
theorem packWord_fields (w : Half) :
    packWord (fieldOp2 w) (fieldMode w) (fieldOpc w) (fieldSize w) (fieldOp1 w) = w := by
  apply BitVec.eq_of_toNat_eq
  rw [packWord_toNat]
  simp only [fieldOp2, fieldMode, fieldOpc, fieldSize, fieldOp1, toNat_bits]
  omega

/-- Decoding goes by the fields (rule R113). -/
@[simp] theorem decodeWord_packWord (nxt : Word) :
    decodeWord (packWord p mode o z r) nxt = decodeFields p mode o z r nxt := by
  simp [decodeWord, fieldOp2, fieldMode, fieldOpc, fieldSize, fieldOp1]

/-! The fields that two or three of these make up, and their parts. -/

@[simp] theorem quickImm_parts (imm : BitVec 6) : quickImm (imm.extractLsb' 4 2) (imm.extractLsb' 0 4) = imm :=
  (BitVec.extractLsb'_append_extractLsb'_eq_extractLsb' rfl).trans BitVec.extractLsb'_eq_self

theorem quickWord_quickImm : quickWord p o (quickImm z r) = packWord p 0#2 o z r :=
  congrArg₂ (packWord p 0#2 o) BitVec.extractLsb'_append_eq_left BitVec.extractLsb'_append_eq_right

@[simp] theorem quickCount_parts (b : BitVec 1) (n : BitVec 5) :
    quickCount (b ++ n.extractLsb' 4 1) (n.extractLsb' 0 4) = n := by
  unfold quickCount
  rw [BitVec.extractLsb'_append_eq_right]
  exact (BitVec.extractLsb'_append_extractLsb'_eq_extractLsb' rfl).trans BitVec.extractLsb'_eq_self

theorem sizeField_bits : ∀ z : BitVec 2, BitVec.ofBool (z.getLsbD 1) ++ z.extractLsb' 0 1 = z := by decide

theorem countWord_quickCount {b : BitVec 1} (h : BitVec.ofBool (z.getLsbD 1) = b) :
    countWord p o b (quickCount z r) = packWord p 0#2 o z r := by
  have hhi : (quickCount z r).extractLsb' 4 1 = z.extractLsb' 0 1 := BitVec.extractLsb'_append_eq_left
  have hlo : (quickCount z r).extractLsb' 0 4 = r := BitVec.extractLsb'_append_eq_right
  rw [countWord, hhi, hlo, ← h, sizeField_bits]

@[simp] theorem lowByte_parts (hi : BitVec 2) (v : Byte) :
    lowByte (hi ++ v.extractLsb' 6 2) (v.extractLsb' 4 2) (v.extractLsb' 0 4) = v := by
  apply BitVec.eq_of_toNat_eq
  simp only [lowByte, toNat_join, toNat_bits]
  omega

theorem byteWord_lowByte {hi : BitVec 2} (h : o.extractLsb' 2 2 = hi) :
    byteWord p hi (lowByte o z r) = packWord p 0#2 o z r := by
  subst h
  apply BitVec.eq_of_toNat_eq
  simp only [byteWord, lowByte, packWord_toNat, toNat_join, toNat_bits]
  omega

@[simp] theorem append_parts (v : Byte) : v.extractLsb' 4 4 ++ v.extractLsb' 0 4 = v :=
  (BitVec.extractLsb'_append_extractLsb'_eq_extractLsb' rfl).trans BitVec.extractLsb'_eq_self

end Fields

/-! ## The codes of sizes and conditions (rules R35, R94, R103) -/

@[simp] theorem sizeOfCode_code (m : Size) : sizeOfCode m.code = m := by cases m <;> rfl

@[simp] theorem Size.code_ne_special (m : Size) : m.code ≠ 3#2 := by cases m <;> decide

@[simp] theorem Size.code_eq_b (m : Size) : m.code = 0#2 ↔ m = .b := by cases m <;> decide

@[simp] theorem Size.code_eq_d (m : Size) : m.code = 2#2 ↔ m = .d := by cases m <;> decide

theorem code_sizeOfCode : ∀ {z : BitVec 2}, z ≠ 3#2 → (sizeOfCode z).code = z := by decide

theorem sizeOfCode_eq_b : ∀ {z : BitVec 2}, sizeOfCode z = .b ↔ z = 0#2 := by decide

theorem sizeOfCode_eq_d : ∀ {z : BitVec 2}, sizeOfCode z = .d ↔ z = 2#2 ∨ z = 3#2 := by decide

@[simp] theorem zsizeOfCode_codeU (z : ZSize) : zsizeOfCode z.codeU = z := by cases z <;> rfl

@[simp] theorem zsizeOfCode_codeS (z : ZSize) : zsizeOfCode z.codeS = z := by cases z <;> rfl

@[simp] theorem ZSize.codeU_bit (z : ZSize) : z.codeU[1] = false := by cases z <;> rfl

@[simp] theorem ZSize.codeS_bit (z : ZSize) : z.codeS[1] = true := by cases z <;> rfl

theorem codeU_zsizeOfCode : ∀ {z : BitVec 2}, ¬ z.getLsbD 1 = true → (zsizeOfCode z).codeU = z := by decide

theorem codeS_zsizeOfCode : ∀ {z : BitVec 2}, z.getLsbD 1 = true → (zsizeOfCode z).codeS = z := by decide

@[simp] theorem condOfCode_code (c : Cond) : condOfCode c.code = some c := by cases c <;> rfl

@[simp] theorem Cond.code_ne_reserved (c : Cond) : c.code ≠ 15#4 := by cases c <;> decide

theorem code_of_condOfCode {p : BitVec 4} {c : Cond} (h : condOfCode p = some c) : c.code = p := by
  revert p; cases c <;> decide

/-- The code 1111 alone names no condition. -/
theorem condOfCode_eq_none : ∀ {p : BitVec 4}, condOfCode p = none ↔ p = 15#4 := by decide

/-! ## Operands and immediate data (rules R93, R97, R106) -/

/-- The mode field of the memory modes; `auto` is word bit 10. -/
def memMode (auto : Bool) : BitVec 2 := if auto then 3#2 else 2#2

/-- Word bit 10 of an address mode. -/
def AddrMode.auto : AddrMode → Bool
  | .plain _ => false
  | .inc _ => true

/-- Word bit 10 of a source. -/
def SrcMode.auto : SrcMode → Bool
  | .mem a => a.auto
  | .imm _ => true

theorem decodeFields_memMode (p : BitVec 4) (auto : Bool) (o : BitVec 4) (z : BitVec 2) (r : BitVec 4) (nxt : Word) :
    decodeFields p (memMode auto) o z r nxt = decodeMem p auto o z r nxt := by cases auto <;> rfl

@[simp] theorem AddrMode.mode_eq_memMode (a : AddrMode) : a.mode = memMode a.auto := by cases a <;> rfl

@[simp] theorem SrcMode.mode_eq_memMode (s : SrcMode) : s.mode = memMode s.auto := by
  cases s with
  | mem a => exact a.mode_eq_memMode
  | imm v => rfl

/-- Masking with ones is taking the low bits. -/
theorem immOfSize_toNat (m : Size) (nxt : Word) : (immOfSize m nxt).toNat = nxt.toNat % 2 ^ (8 * m.bytes) := by
  cases m with
  | b => exact (BitVec.toNat_and _ _).trans (Nat.and_two_pow_sub_one_eq_mod _ 8)
  | w => exact (BitVec.toNat_and _ _).trans (Nat.and_two_pow_sub_one_eq_mod _ 16)
  | d => exact (Nat.mod_eq_of_lt nxt.isLt).symm

section Operands

variable (p o : BitVec 4) (z : BitVec 2) (r : BitVec 4) (m : Size) (auto : Bool) (nxt : Word)

theorem decodeWord_addrWord (a : AddrMode) :
    decodeWord (addrWord p o z a) nxt = decodeMem p a.auto o z a.op1 nxt := by
  rw [addrWord, decodeWord_packWord, a.mode_eq_memMode, decodeFields_memMode]

theorem decodeWord_srcWord (s : SrcMode) :
    decodeWord (srcWord p o z s) nxt = decodeMem p s.auto o z s.op1 nxt := by
  rw [srcWord, decodeWord_packWord, s.mode_eq_memMode, decodeFields_memMode]

@[simp] theorem dstOf_parts (a : AddrMode) : dstOf a.auto a.op1 = a := by cases a <;> rfl

theorem addrWord_dstOf : addrWord p o z (dstOf auto r) = packWord p (memMode auto) o z r := by
  cases auto <;> rfl

theorem srcWord_srcOf : srcWord p o z (srcOf m auto r nxt) = packWord p (memMode auto) o z r := by
  cases auto with
  | false => rfl
  | true =>
    by_cases hr : r = pcReg
    · simp [srcOf, hr]; rfl
    · simp [srcOf, hr]; rfl

theorem srcOf_fits : (srcOf m auto r nxt).fits m = true := by
  cases auto with
  | false => rfl
  | true =>
    by_cases hr : r = pcReg
    · simp [srcOf, hr, SrcMode.fits, immOfSize_toNat, Nat.mod_lt]
    · simp [srcOf, hr, SrcMode.fits]

variable {r auto} in
/-- A decoded source is an autoincrement only when the fields say so. -/
theorem srcOf_ne {q : Reg} (h : ¬ (auto = true ∧ r = q)) : srcOf m auto r nxt ≠ .mem (.inc q) := by
  cases auto with
  | false => nofun
  | true =>
    unfold srcOf
    rw [if_pos rfl]
    split
    · nofun
    · simpa using h

end Operands

/-- The first of the words behind an instruction word is the low one (rule R61). -/
theorem dwordOfWords_setWidth (w : Half) (rest : List Half) : (dwordOfWords (w :: rest)).setWidth 16 = w := by
  apply BitVec.eq_of_toNat_eq
  cases rest with
  | nil => simp [dwordOfWords]
  | cons v rest =>
    simp only [dwordOfWords, BitVec.toNat_setWidth, toNat_join]
    omega

/-- The decoder reads the immediate data that the encoder writes. -/
theorem immOfSize_immWords {m : Size} {v : Word} (h : v.toNat < 2 ^ (8 * m.bytes)) (rest : List Half) :
    immOfSize m (dwordOfWords (immWords m v ++ rest)) = v := by
  have hw := congrArg BitVec.toNat (dwordOfWords_setWidth (v.setWidth 16) rest)
  simp only [BitVec.toNat_setWidth] at hw
  apply BitVec.eq_of_toNat_eq
  rw [immOfSize_toNat]
  cases m with
  | b | w =>
    simp only [Size.bytes, immWords, List.singleton_append] at h ⊢
    omega
  | d =>
    simp only [Size.bytes, immWords, List.cons_append, dwordOfWords, toNat_join, toNat_bits, BitVec.toNat_setWidth]
    omega

/-- The decoder reads the source that the encoder writes. -/
theorem srcOf_words {m : Size} {s : SrcMode} (h : s.fits m = true) (rest : List Half) :
    srcOf m s.auto s.op1 (dwordOfWords (s.words m ++ rest)) = s := by
  cases s with
  | mem a =>
    cases a with
    | plain r => rfl
    | inc r => exact if_neg (by simpa [SrcMode.fits] using h)
  | imm v => exact congrArg SrcMode.imm (immOfSize_immWords (by simpa [SrcMode.fits] using h) rest)


/-! ## Reserved patterns (rule R111) -/

section Reserved

variable (p o : BitVec 4) (z : BitVec 2) (r : BitVec 4)

/-- Bits 9:8 of a mode-00 word are the high half of its opcode field. -/
theorem packWord_high : (packWord p 0#2 o z r).extractLsb' 8 2 = o.extractLsb' 2 2 :=
  BitVec.eq_of_toNat_eq (by rw [toNat_bits, toNat_bits, packWord_toNat]; omega)

/-- An opcode's high half is 00 below 4, and 01 from there to 7. -/
theorem opcode_high : ∀ o : BitVec 4, ((o.extractLsb' 2 2 == 0#2) = decide (o.toNat < 4)) ∧
    (4 ≤ o.toNat → o.toNat < 8 → o.extractLsb' 2 2 = 1#2) := by decide

theorem reservedWord_quick : reservedWord (packWord p 0#2 o z r) = (decide (o.toNat < 4) && p == 15#4) := by
  simp [reservedWord, packWord_high, (opcode_high o).1]

theorem reservedWord_reg : reservedWord (packWord p 1#2 o z r) =
    (z == 3#2 && (o == 5#4 || (o == 4#4 && p == 15#4))) := by
  simp [reservedWord]

/-! In the memory modes the reserved patterns go by the opcode (rules R104 to R106). -/

variable {o} (auto : Bool)

theorem reservedWord_mem_none (ho : o.toNat < 4 ∨ o = 8#4 ∨ o = 9#4 ∨ o = 15#4) :
    reservedWord (packWord p (memMode auto) o z r) = false := by
  have ho' : o = 0#4 ∨ o = 1#4 ∨ o = 2#4 ∨ o = 3#4 ∨ o = 8#4 ∨ o = 9#4 ∨ o = 15#4 := by
    revert o
    decide
  cases auto <;> obtain rfl | rfl | rfl | rfl | rfl | rfl | rfl := ho' <;> simp [reservedWord, memMode]

theorem reservedWord_jumpMem : reservedWord (packWord p (memMode auto) 4#4 z r) =
    (z != 3#2 || !(p == 0#4 || p == 11#4 || p == 10#4 || p == 3#4 || p == 2#4 || p == 6#4 ||
      (p == 14#4 && !auto))) := by
  cases auto <;> simp [reservedWord, memMode]

theorem reservedWord_offset : reservedWord (packWord p (memMode auto) 5#4 z r) = (z == 3#2 && p != 0#4) := by
  cases auto <;> simp [reservedWord, memMode]

theorem reservedWord_jumpReg : reservedWord (packWord p (memMode auto) 6#4 z r) =
    (z != 3#2 || auto || !(p == 0#4 || p == 11#4 || p == 10#4 || p == 3#4 || p == 2#4 || p == 6#4)) := by
  cases auto <;> simp [reservedWord, memMode]

theorem reservedWord_longBranch : reservedWord (packWord p (memMode auto) 7#4 z r) =
    (z == 3#2 && (!auto || r != pcReg || p == 15#4)) := by
  cases auto <;> simp [reservedWord, memMode]

theorem reservedWord_alu (ho : o = 10#4 ∨ o = 11#4 ∨ o = 12#4 ∨ o = 13#4) :
    reservedWord (packWord p (memMode auto) o z r) = (z == 3#2) := by
  cases auto <;> obtain rfl | rfl | rfl | rfl := ho <;> simp [reservedWord, memMode]

theorem reservedWord_test : reservedWord (packWord p (memMode auto) 14#4 z r) = (z != 3#2 && p != 0#4) := by
  cases auto <;> simp [reservedWord, memMode]

variable {p z r auto}

/-- Of the ordinary sizes only the jump groups and TEST have reserved patterns. -/
theorem reservedWord_memSize (hz : z ≠ 3#2) (ho : o ≠ 4#4 ∧ o ≠ 6#4 ∧ o ≠ 14#4) :
    reservedWord (packWord p (memMode auto) o z r) = false := by
  have ho' : (o.toNat < 4 ∨ o = 8#4 ∨ o = 9#4 ∨ o = 15#4) ∨ o = 5#4 ∨ o = 7#4 ∨
      o = 10#4 ∨ o = 11#4 ∨ o = 12#4 ∨ o = 13#4 := by
    revert o
    decide
  obtain ho' | rfl | rfl | ho' := ho'
  · exact reservedWord_mem_none _ _ _ _ ho'
  · simp [reservedWord_offset, hz]
  · simp [reservedWord_longBranch, hz]
  · simp [reservedWord_alu _ _ _ _ ho', hz]

end Reserved

/-! ## Decoded words -/

/-- The instruction `i` is the row of the word `w`: well-formed, with this very word, and RESERVED when `w` is a reserved
pattern (rules R111, R113). -/
structure IsRow (w : Half) (i : Instr) : Prop where
  wellFormed : i.wellFormed = true
  word : i.word = w
  reserved : reservedWord w = true → i = .reserved w

theorem eq_ofNat_of_toNat {o : BitVec 4} {k : Nat} (h : o.toNat = k) : o = BitVec.ofNat 4 k := by
  rw [← h, BitVec.ofNat_toNat, BitVec.setWidth_eq]

section IsRow

variable {w : Half} {i j : Instr}

theorem IsRow.of_reserved (h : reservedWord w = true) : IsRow w (.reserved w) := ⟨h, rfl, fun _ => rfl⟩

theorem IsRow.of_named (hr : reservedWord w = false) (h : i.wellFormed = true) (hw : i.word = w) : IsRow w i :=
  ⟨h, hw, fun e => absurd e (by simp [hr])⟩

/-- The row of a word by a condition on its fields. -/
theorem IsRow.of_ite {c : Prop} [Decidable c] (ht : c → IsRow w i) (hf : ¬ c → IsRow w j) :
    IsRow w (if c then i else j) := by
  split
  next h => exact ht h
  next h => exact hf h

end IsRow

section Rows

variable (p o : BitVec 4) (z : BitVec 2) (r : BitVec 4)

theorem decodeQuick_isRow : IsRow (packWord p 0#2 o z r) (decodeQuick p o z r) := by
  have hres := reservedWord_quick p o z r
  unfold decodeQuick
  split
  case h_1 h | h_2 h | h_3 h | h_4 h | h_5 h | h_6 h =>
    obtain rfl := eq_ofNat_of_toNat h
    exact .of_named hres rfl (quickWord_quickImm ..)
  case h_7 h | h_8 h =>
    obtain rfl := eq_ofNat_of_toNat h
    split
    next hb => exact .of_named hres rfl (countWord_quickCount _ _ _ _ (by rw [hb]; rfl))
    next hb => exact .of_named hres rfl (countWord_quickCount _ _ _ _ (by rw [Bool.eq_false_of_not_eq_true hb]; rfl))
  case h_9 =>
    split
    next hlt =>
      have hhi : o.extractLsb' 2 2 = 0#2 := by simpa [hlt] using (opcode_high o).1
      split
      next hc =>
        obtain rfl := condOfCode_eq_none.mp hc
        exact .of_reserved (by simp [hres, hlt])
      next hc =>
        obtain rfl := code_of_condOfCode hc
        exact .of_named (by simp [hres]) rfl (byteWord_lowByte _ _ _ _ hhi)
      next c hn hc =>
        obtain rfl := code_of_condOfCode hc
        exact .of_named (by simp [hres]) (by simpa [Instr.wellFormed] using hn) (byteWord_lowByte _ _ _ _ hhi)
    next hle =>
      simp only [imp_false] at *
      have hlt : o.toNat < 8 := by omega
      exact .of_named (by simp [hres, hle]) rfl (byteWord_lowByte _ _ _ _ ((opcode_high o).2 (by omega) hlt))

variable {p o z r}

/-- In register mode an instruction of an ordinary size has the word its fields make up, and none is reserved. -/
theorem IsRow.of_regSize (hz : z ≠ 3#2) {i : Instr} (hw : i.word = regWord p o (sizeOfCode z).code r)
    (h : i.wellFormed = true) : IsRow (packWord p 1#2 o z r) i :=
  .of_named (by simp [reservedWord_reg, hz]) h (by rw [hw, code_sizeOfCode hz]; rfl)

/-- So has one of the size 11, but for the two opcodes with reserved patterns. -/
theorem IsRow.of_regSpecial (hz : z = 3#2) (ho : o ≠ 5#4 ∧ (o ≠ 4#4 ∨ p ≠ 15#4)) {i : Instr}
    (hw : i.word = regWord p o 3#2 r) (h : i.wellFormed = true) : IsRow (packWord p 1#2 o z r) i := by
  subst hz
  exact .of_named (by simpa [reservedWord_reg, ho.1, imp_iff_not_or] using ho.2) h hw

/-- A flag list is the operand2 and operand1 fields together (rule R107). -/
theorem IsRow.of_regList (hz : z = 3#2) (ho : o ≠ 5#4 ∧ (o ≠ 4#4 ∨ p ≠ 15#4)) {i : Instr}
    (hw : i.word = regWord ((p ++ r).extractLsb' 4 4) o 3#2 ((p ++ r).extractLsb' 0 4)) (h : i.wellFormed = true) :
    IsRow (packWord p 1#2 o z r) i :=
  .of_regSpecial hz ho (by rw [hw, BitVec.extractLsb'_append_eq_left, BitVec.extractLsb'_append_eq_right]) h

/-- The opcodes 0 to 2 are those of the zero-extending and sign-extending instructions. -/
theorem IsRow.of_regExtend (ho : o ≠ 5#4 ∧ o ≠ 4#4) {i j : Instr}
    (hs : z.getLsbD 1 = true → i.word = regWord p o (zsizeOfCode z).codeS r) (hi : i.wellFormed = true)
    (hu : ¬ z.getLsbD 1 = true → j.word = regWord p o (zsizeOfCode z).codeU r) (hj : j.wellFormed = true) :
    IsRow (packWord p 1#2 o z r) (if z.getLsbD 1 = true then i else j) := by
  have hr : reservedWord (packWord p 1#2 o z r) = false := by simp [reservedWord_reg, ho]
  exact .of_ite (fun hb => .of_named hr hi (by rw [hs hb, codeS_zsizeOfCode hb]; rfl))
    fun hb => .of_named hr hj (by rw [hu hb, codeU_zsizeOfCode hb]; rfl)

variable (p o z r)

theorem decodeReg_isRow : IsRow (packWord p 1#2 o z r) (decodeReg p o z r) := by
  unfold decodeReg
  dsimp only
  split
  case h_1 h | h_2 h | h_3 h =>
    obtain rfl := eq_ofNat_of_toNat h
    exact .of_regExtend (by decide) (fun _ => rfl) rfl (fun _ => rfl) rfl
  case h_4 h | h_9 h | h_11 h | h_12 h | h_13 h | h_15 h =>
    obtain rfl := eq_ofNat_of_toNat h
    exact .of_ite (fun hz => .of_regSpecial hz (by simp) rfl rfl) fun hz => .of_regSize hz rfl rfl
  case h_16 =>
    simp only [imp_false] at *
    obtain rfl : o = 15#4 := by bv_omega
    exact .of_ite (fun hz => .of_regSpecial hz (by simp) rfl rfl) fun hz => .of_regSize hz rfl rfl
  case h_5 h =>
    obtain rfl := eq_ofNat_of_toNat h
    refine .of_ite (fun hz => ?_) fun hz => .of_ite (fun ⟨hz, hp, hr⟩ => ?_) fun hn => .of_regSize hz rfl ?_
    · split
      next hc =>
        obtain rfl := condOfCode_eq_none.mp hc
        exact .of_reserved (by simp [reservedWord_reg, hz])
      next hc =>
        obtain rfl := code_of_condOfCode hc
        exact .of_regSpecial hz (by simp) rfl rfl
    · subst hz hp hr
      exact .of_named rfl rfl rfl
    · simpa [Instr.wellFormed, sizeOfCode_eq_b, imp_iff_not_or, or_assoc, or_comm, or_left_comm] using hn
  case h_6 h =>
    obtain rfl := eq_ofNat_of_toNat h
    exact .of_ite (fun hz => .of_reserved (by simp [reservedWord_reg, hz])) fun hz => .of_regSize hz rfl rfl
  case h_7 h =>
    obtain rfl := eq_ofNat_of_toNat h
    refine .of_ite (fun hz => .of_ite (fun hl => ?_) fun hx => .of_ite (fun hl => ?_) fun hi => ?_)
      fun hz => .of_regSize hz rfl rfl
    · exact .of_regList hz (by simp) (by rw [hl]; rfl) rfl
    · exact .of_regList hz (by simp) (by rw [hl]; rfl) rfl
    · exact .of_regList hz (by simp) rfl (by simp [Instr.wellFormed, hx, hi])
  case h_8 h =>
    obtain rfl := eq_ofNat_of_toNat h
    refine .of_ite (fun hz => .of_ite (fun hl => ?_) fun hi => ?_) fun hz => .of_regSize hz rfl rfl
    · exact .of_regList hz (by simp) (by rw [hl]; rfl) rfl
    · exact .of_regList hz (by simp) rfl (by simp [Instr.wellFormed, hi])
  case h_10 h =>
    obtain rfl := eq_ofNat_of_toNat h
    refine .of_ite (fun hz => ?_) fun hz => .of_regSize hz rfl rfl
    refine .of_ite (fun ⟨hr, hp⟩ => ?_) fun h11 => .of_ite (fun ⟨hr, hp⟩ => ?_) fun h10 =>
      .of_ite (fun ⟨hr, hp⟩ => ?_) fun h14 => .of_ite (fun hp => ?_) fun h0 => .of_ite (fun hp => ?_) fun h4 =>
      .of_ite (fun hp => ?_) fun h8 => ?_
    case refine_1 | refine_2 | refine_3 =>
      subst hr hp
      exact .of_regSpecial hz (by simp) rfl rfl
    case refine_4 | refine_5 | refine_6 =>
      subst hp
      exact .of_regSpecial hz (by simp) rfl rfl
    case refine_7 =>
      have hn : PNum.zeroRegister p = false ∧ (PNum.returnPointer p = true → r ≠ pcReg) :=
        ⟨by simp [PNum.zeroRegister, h0, h4, h8], fun hp hr => by simp_all [PNum.returnPointer]⟩
      exact .of_regSpecial hz (by simp) rfl (by simpa [Instr.wellFormed, imp_iff_not_or] using hn)
  case h_14 h =>
    obtain rfl := eq_ofNat_of_toNat h
    refine .of_ite (fun hz => .of_ite (fun hp => ?_) fun hp => ?_) fun hz => .of_regSize hz rfl rfl
    · subst hp
      exact .of_regSpecial hz (by simp) rfl rfl
    · exact .of_regSpecial hz (by simp) rfl (by simpa [Instr.wellFormed] using hp)

/-! ### The memory modes -/

section Memory

variable {p o z r} {auto : Bool}

/-- A memory-mode instruction of an ordinary size, of an opcode that has no reserved pattern with one. -/
theorem IsRow.of_memSize (hz : z ≠ 3#2) (ho : o ≠ 4#4 ∧ o ≠ 6#4 ∧ o ≠ 14#4) {i : Instr}
    (hw : i.word = packWord p (memMode auto) o (sizeOfCode z).code r) (h : i.wellFormed = true) :
    IsRow (packWord p (memMode auto) o z r) i :=
  .of_named (reservedWord_memSize hz ho) h (by rw [hw, code_sizeOfCode hz])

/-- A memory-mode instruction of the size 11, of an opcode without reserved patterns. -/
theorem IsRow.of_memSpecial (hz : z = 3#2) (ho : o = 8#4 ∨ o = 9#4 ∨ o = 15#4) {i : Instr}
    (hw : i.word = packWord p (memMode auto) o 3#2 r) (h : i.wellFormed = true) :
    IsRow (packWord p (memMode auto) o z r) i := by
  subst hz
  exact .of_named (reservedWord_mem_none _ _ _ _ (.inr ho)) h hw

/-- The opcodes 0 to 3 are those of the zero-extending and sign-extending instructions. -/
theorem IsRow.of_memExtend (ho : o.toNat < 4) {i j : Instr}
    (hs : z.getLsbD 1 = true → i.word = packWord p (memMode auto) o (zsizeOfCode z).codeS r)
    (hi : i.wellFormed = true)
    (hu : ¬ z.getLsbD 1 = true → j.word = packWord p (memMode auto) o (zsizeOfCode z).codeU r)
    (hj : j.wellFormed = true) :
    IsRow (packWord p (memMode auto) o z r) (if z.getLsbD 1 = true then i else j) := by
  have hr : reservedWord (packWord p (memMode auto) o z r) = false := reservedWord_mem_none _ _ _ _ (.inl ho)
  exact .of_ite (fun hb => .of_named hr hi (by rw [hs hb, codeS_zsizeOfCode hb]))
    fun hb => .of_named hr hj (by rw [hu hb, codeU_zsizeOfCode hb])

theorem decodeJumpMem_isRow (nxt : Word) :
    IsRow (packWord p (memMode auto) 4#4 3#2 r) (decodeJumpMem p auto r nxt) := by
  have hres := reservedWord_jumpMem p 3#2 r auto
  unfold decodeJumpMem
  dsimp only
  split
  case h_1 h =>
    obtain rfl := eq_ofNat_of_toNat h
    refine .of_ite (fun ⟨ha, hr⟩ => ?_) fun hn => .of_named hres ?_ (addrWord_dstOf ..)
    · subst ha hr
      exact .of_named rfl rfl rfl
    · cases auto
      · rfl
      · simpa [Instr.wellFormed, dstOf] using hn
  case h_2 h | h_3 h | h_4 h | h_5 h | h_6 h =>
    obtain rfl := eq_ofNat_of_toNat h
    exact .of_named hres (srcOf_fits ..) (srcWord_srcOf ..)
  case h_7 h =>
    obtain rfl := eq_ofNat_of_toNat h
    cases auto
    · exact .of_named hres rfl rfl
    · exact .of_reserved hres
  case h_8 =>
    simp only [imp_false] at *
    exact .of_reserved (hres.trans (by simp [← BitVec.toNat_inj, *]))

theorem decodeJumpReg_isRow : IsRow (packWord p (memMode auto) 6#4 3#2 r) (decodeJumpReg p auto r) := by
  have hres := reservedWord_jumpReg p 3#2 r auto
  refine .of_ite (fun ha => ?_) fun ha => ?_
  · subst ha
    exact .of_reserved hres
  · obtain rfl := Bool.eq_false_of_not_eq_true ha
    split
    case h_1 h | h_2 h | h_3 h | h_4 h | h_5 h | h_6 h =>
      obtain rfl := eq_ofNat_of_toNat h
      exact .of_named hres rfl rfl
    case h_7 =>
      simp only [imp_false] at *
      exact .of_reserved (hres.trans (by simp [← BitVec.toNat_inj, *]))

variable (p o z r auto)

theorem decodeMem_isRow (nxt : Word) :
    IsRow (packWord p (memMode auto) o z r) (decodeMem p auto o z r nxt) := by
  unfold decodeMem
  dsimp only
  split
  case h_1 h | h_2 h | h_3 h | h_4 h =>
    obtain rfl := eq_ofNat_of_toNat h
    exact .of_memExtend (by decide) (fun _ => srcWord_srcOf ..) (srcOf_fits ..) (fun _ => srcWord_srcOf ..)
      (srcOf_fits ..)
  case h_5 h =>
    obtain rfl := eq_ofNat_of_toNat h
    exact .of_ite (fun hz => hz ▸ decodeJumpMem_isRow nxt) fun hz => .of_reserved (by simp [reservedWord_jumpMem, hz])
  case h_6 h =>
    obtain rfl := eq_ofNat_of_toNat h
    refine .of_ite (fun hz => .of_ite (fun hp => ?_) fun hp => .of_reserved (by simp [reservedWord_offset, hz, hp]))
      fun hz => .of_memSize hz (by simp) (srcWord_srcOf ..) (srcOf_fits ..)
    subst hz hp
    exact .of_named (reservedWord_offset ..) (srcOf_fits ..) (srcWord_srcOf ..)
  case h_7 h =>
    obtain rfl := eq_ofNat_of_toNat h
    exact .of_ite (fun hz => hz ▸ decodeJumpReg_isRow) fun hz => .of_reserved (by simp [reservedWord_jumpReg, hz])
  case h_8 h =>
    obtain rfl := eq_ofNat_of_toNat h
    refine .of_ite (fun hz => .of_ite (fun ⟨ha, hr⟩ => ?_) fun hn => ?_)
      fun hz => .of_memSize hz (by simp) (srcWord_srcOf ..) (srcOf_fits ..)
    · subst hz ha hr
      split
      next hc =>
        obtain rfl := condOfCode_eq_none.mp hc
        exact .of_reserved (reservedWord_longBranch ..)
      next hc =>
        obtain rfl := code_of_condOfCode hc
        exact .of_named rfl rfl rfl
      next c hn hc =>
        obtain rfl := code_of_condOfCode hc
        exact .of_named (by simp [reservedWord_longBranch]) (by simpa [Instr.wellFormed] using hn) rfl
    · have hn' : !auto || r != pcReg := by simpa [imp_iff_not_or] using hn
      exact .of_reserved (by rw [reservedWord_longBranch, hz, hn']; rfl)
  case h_9 h =>
    obtain rfl := eq_ofNat_of_toNat h
    refine .of_ite (fun hz => .of_ite (fun ⟨ha, hr⟩ => ?_) fun hn => ?_)
      fun hz => .of_memSize hz (by simp) (srcWord_srcOf ..) (srcOf_fits ..)
    · subst ha hr
      exact .of_memSpecial hz (by simp) rfl rfl
    · exact .of_memSpecial hz (by simp) (srcWord_srcOf ..) (by simp [Instr.wellFormed, srcOf_fits, srcOf_ne _ _ hn])
  case h_10 h =>
    obtain rfl := eq_ofNat_of_toNat h
    refine .of_ite (fun hz => .of_ite (fun hp => ?_) fun h0 => .of_ite (fun hp => ?_) fun h4 => .of_ite (fun hp => ?_)
        fun h8 => ?_)
      fun hz => .of_ite (fun ⟨h2, ha, hr⟩ => ?_) fun hn => ?_
    · exact hp ▸ .of_memSpecial hz (by simp) (addrWord_dstOf ..) rfl
    · exact hp ▸ .of_memSpecial hz (by simp) (addrWord_dstOf ..) rfl
    · exact hp ▸ .of_memSpecial hz (by simp) (addrWord_dstOf ..) rfl
    · exact .of_memSpecial hz (by simp) (addrWord_dstOf ..) (by simp [Instr.wellFormed, PNum.zeroRegister, h0, h4, h8])
    · subst h2 ha hr
      exact .of_memSize hz (by simp) rfl rfl
    · refine .of_memSize hz (by simp) (srcWord_srcOf ..) ?_
      have hd : sizeOfCode z = .d → srcOf (sizeOfCode z) auto r nxt ≠ .mem (.inc spReg) := fun e =>
        srcOf_ne _ _ fun ha => hn ⟨(sizeOfCode_eq_d.mp e).resolve_right hz, ha⟩
      simpa [Instr.wellFormed, srcOf_fits, imp_iff_not_or] using hd
  case h_11 h | h_12 h | h_13 h | h_14 h =>
    obtain rfl := eq_ofNat_of_toNat h
    exact .of_ite (fun hz => .of_reserved (by simp [reservedWord_alu, hz]))
      fun hz => .of_memSize hz (by simp) (srcWord_srcOf ..) (srcOf_fits ..)
  case h_15 h =>
    obtain rfl := eq_ofNat_of_toNat h
    refine .of_ite (fun hz => ?_) fun hz => .of_ite (fun hp => ?_) fun hp =>
      .of_reserved (by simp [reservedWord_test, hz, hp])
    · exact .of_named (by simp [reservedWord_test, hz]) rfl ((addrWord_dstOf ..).trans (by rw [hz]))
    · subst hp
      exact .of_named (by simp [reservedWord_test]) (srcOf_fits ..)
        ((srcWord_srcOf ..).trans (by rw [code_sizeOfCode hz]))
  case h_16 =>
    simp only [imp_false] at *
    obtain rfl : o = 15#4 := by bv_omega
    exact .of_ite (fun hz => .of_memSpecial hz (by simp) (addrWord_dstOf ..) rfl)
      fun hz => .of_memSize hz (by simp) (addrWord_dstOf ..) rfl

end Memory

end Rows

theorem mode_cases : ∀ m : BitVec 2, m = 0#2 ∨ m = 1#2 ∨ m = memMode false ∨ m = memMode true := by decide

/-- What a word decodes to is its row of the opcode map (rules R111, R113). -/
theorem decodeWord_isRow (w : Half) (nxt : Word) : IsRow w (decodeWord w nxt) := by
  obtain ⟨p, mode, o, z, r, rfl⟩ : ∃ p mode o z r, w = packWord p mode o z r :=
    ⟨_, _, _, _, _, (packWord_fields w).symm⟩
  rw [decodeWord_packWord]
  obtain rfl | rfl | rfl | rfl := mode_cases mode
  · exact decodeQuick_isRow p o z r
  · exact decodeReg_isRow p o z r
  · exact decodeMem_isRow p o z r false nxt
  · exact decodeMem_isRow p o z r true nxt

/-- Settles O2: what a word decodes to is its row of the opcode map. -/
theorem everyWordDecodesToItsOwnRow : Obligations.EveryWordDecodesToItsOwnRow := fun w nxt =>
  ⟨(decodeWord_isRow w nxt).wellFormed, (decodeWord_isRow w nxt).word⟩

end Sys2Proof

/-! PROOFS. The encoder: the words of a well-formed instruction decode to it. -/

namespace Sys2Proof

open Machine (toNat_join)

/-! ## The kinds of words (rules R102 to R106) -/

section Encoded

variable (p o : BitVec 4) (nxt : Word)

theorem decodeWord_regWord (z : BitVec 2) (r : BitVec 4) : decodeWord (regWord p o z r) nxt = decodeReg p o z r :=
  decodeWord_packWord ..

theorem decodeWord_quickWord (imm : BitVec 6) :
    decodeWord (quickWord p o imm) nxt = decodeQuick p o (imm.extractLsb' 4 2) (imm.extractLsb' 0 4) :=
  decodeWord_packWord ..

theorem decodeWord_countWord (b : BitVec 1) (n : BitVec 5) :
    decodeWord (countWord p o b n) nxt = decodeQuick p o (b ++ n.extractLsb' 4 1) (n.extractLsb' 0 4) :=
  decodeWord_packWord ..

theorem decodeWord_byteWord (hi : BitVec 2) (v : Byte) : decodeWord (byteWord p hi v) nxt =
    decodeQuick p (hi ++ v.extractLsb' 6 2) (v.extractLsb' 4 2) (v.extractLsb' 0 4) :=
  decodeWord_packWord ..

theorem countBit : ∀ b x : BitVec 1, (b ++ x).getLsbD 1 = b.getLsbD 0 := by decide

variable {o} in
/-- The opcodes 0 to 3 of mode 00 are the branches (rule R106). -/
theorem decodeQuick_branch (ho : o.toNat < 4) (c : Cond) (z : BitVec 2) (r : BitVec 4) :
    decodeQuick c.code o z r = if c = .a then .ba8 (lowByte o z r) else .bcc8 c (lowByte o z r) := by
  have ho' : o = 0#4 ∨ o = 1#4 ∨ o = 2#4 ∨ o = 3#4 := by
    revert o
    decide
  obtain rfl | rfl | rfl | rfl := ho' <;> cases c <;> rfl

variable {o} in
/-- The opcodes 4 to 7 of mode 00 are the byte-offset `prefixWord` (rule R99). -/
theorem decodeQuick_offset (hl : 4 ≤ o.toNat) (hu : o.toNat < 8) (z : BitVec 2) (r : BitVec 4) :
    decodeQuick p o z r = .bdapQuick p (lowByte o z r) := by
  have ho' : o = 4#4 ∨ o = 5#4 ∨ o = 6#4 ∨ o = 7#4 := by
    revert o
    decide
  obtain rfl | rfl | rfl | rfl := ho' <;> rfl

theorem decodeWord_branchWord (c : Cond) (v : Byte) :
    decodeWord (byteWord c.code 0#2 v) nxt = if c = .a then .ba8 v else .bcc8 c v := by
  rw [decodeWord_byteWord, decodeQuick_branch, lowByte_parts]
  simp only [toNat_join, toNat_bits, BitVec.toNat_ofNat]
  omega

theorem decodeWord_offsetWord (v : Byte) : decodeWord (byteWord p 1#2 v) nxt = .bdapQuick p v := by
  rw [decodeWord_byteWord, decodeQuick_offset, lowByte_parts]
  all_goals
    simp only [toNat_join, toNat_bits, BitVec.toNat_ofNat]
    omega

theorem decodeWord_longBranch (c : Cond) : decodeWord (packWord c.code 3#2 7#4 3#2 pcReg) nxt =
    if c = .a then .ba16 (nxt.setWidth 16) else .bcc16 c (nxt.setWidth 16) := by
  rw [decodeWord_packWord]
  cases c <;> rfl

end Encoded

/-- A source is the autoincrement of a register when its fields say so; with PC they say that it is immediate data. -/
theorem SrcMode.eq_inc {s : SrcMode} {q : Reg} (hq : q ≠ pcReg) (ha : s.auto = true) (ho : s.op1 = q) :
    s = .mem (.inc q) := by
  subst ho
  match s, ha, hq with
  | .mem (.inc _), _, _ => rfl
  | .imm _, _, hq => exact absurd rfl hq

/-! ## Encoded instructions -/

/-- The first word of a well-formed instruction, with its immediate data behind it, decodes to it (rule R113). -/
theorem decodeWord_word {i : Instr} (h : i.wellFormed = true) (rest : List Half) :
    decodeWord i.word (dwordOfWords (i.tailWords ++ rest)) = i := by
  cases i with
  | reserved w => exact (decodeWord_isRow w _).reserved h
  | testReg | pushReg | pushSpecial => cases h
  | addq | moveq | subq | cmpq | andq | orq =>
    rw [Instr.word, decodeWord_quickWord]
    exact congrArg _ (quickImm_parts _)
  | btstq | asrq | lslq | lsrq =>
    rw [Instr.word, decodeWord_countWord]
    simp only [decodeQuick, countBit, quickCount_parts]
    rfl
  | ba8 => exact decodeWord_branchWord _ .a _
  | bcc8 c => exact (decodeWord_branchWord _ c _).trans (if_neg (by simpa [Instr.wellFormed] using h))
  | bdapQuick => exact decodeWord_offsetWord ..
  | nop | ax | ei | di | ret | reti | retb => rfl
  | adduReg | addsReg | movuReg | movsReg | subuReg | subsReg | lsl | biap | neg | boundReg | addReg | moveReg | subReg
    | cmpReg | andReg | orReg | asr | lsr | btst | scc | moveRegToSpecial | absReg | dstep | lz | xorReg | mstep
    | clearByteReg | clearWordReg | clearDwordReg | notReg =>
    rw [Instr.word, decodeWord_regWord]
    simp [decodeReg]
  | swap opts rd =>
    rw [Instr.word, decodeWord_regWord]
    have hn : opts ≠ 8#4 := by simpa [Instr.wellFormed] using h
    simp [decodeReg, hn]
  | setf list =>
    rw [Instr.word, decodeWord_regWord]
    obtain ⟨hx, hi⟩ : list ≠ 0x10#8 ∧ list ≠ 0x20#8 := by simpa [Instr.wellFormed] using h
    simp [decodeReg, hx, hi]
  | clearf list =>
    rw [Instr.word, decodeWord_regWord]
    have hi : list ≠ 0x20#8 := by simpa [Instr.wellFormed] using h
    simp [decodeReg, hi]
  | addi m rd rs =>
    rw [Instr.word, decodeWord_regWord]
    have hn : ¬ (m = .b ∧ rs = 0#4 ∧ rd = pcReg) := fun ⟨hm, hs, hd⟩ => by
      subst hm hs hd
      cases h
    simp [decodeReg, hn]
  | moveSpecialToReg ps rd =>
    rw [Instr.word, decodeWord_regWord]
    obtain ⟨⟨h0, h4, h8⟩, hn⟩ : (ps ≠ 0#4 ∧ ps ≠ 4#4 ∧ ps ≠ 8#4) ∧
        (rd = pcReg → ps ≠ 11#4 ∧ ps ≠ 10#4 ∧ ps ≠ 14#4) := by
      simpa [Instr.wellFormed, PNum.zeroRegister, PNum.returnPointer, imp_iff_not_or, or_comm, and_assoc] using h
    simp only [decodeReg, BitVec.toNat_ofNat, if_true, if_neg h0, if_neg h4, if_neg h8]
    rw [if_neg fun ⟨hr, hp⟩ => (hn hr).1 hp, if_neg fun ⟨hr, hp⟩ => (hn hr).2.1 hp,
      if_neg fun ⟨hr, hp⟩ => (hn hr).2.2 hp]
  | adduMem | addsMem | movuMem | movsMem | subuMem | subsMem | cmpuMem | cmpsMem | bdap | boundMem | addMem | subMem
    | cmpMem | andMem | orMem | testMem =>
    rw [Instr.word, decodeWord_srcWord, Instr.tailWords]
    simp [decodeMem, srcOf_words h]
  | jsrMem | jirMem | jsrcMem | jircMem | jbrcMem | dip =>
    rw [Instr.word, decodeWord_srcWord, Instr.tailWords]
    simp [decodeMem, decodeJumpMem, srcOf_words h]
  | jumpReg | jsrReg | jirReg | jsrcReg | jircReg | jbrcReg | brk | popReg | popSpecial =>
    rw [Instr.word, decodeWord_packWord]
    rfl
  | movemLoad | movemStore | moveRegToMem | clearByteMem | clearWordMem | clearDwordMem =>
    rw [Instr.word, decodeWord_addrWord]
    simp [decodeMem]
  | moveSpecialToMem ps dst =>
    rw [Instr.word, decodeWord_addrWord]
    obtain ⟨⟨h0, h4⟩, h8⟩ : (ps ≠ 0#4 ∧ ps ≠ 4#4) ∧ ps ≠ 8#4 := by
      simpa [Instr.wellFormed, PNum.zeroRegister] using h
    simp [decodeMem, h0, h4, h8]
  | jumpImm v =>
    rw [Instr.word, decodeWord_packWord]
    exact congrArg Instr.jumpImm (immOfSize_immWords (m := .d) v.isLt rest)
  | jumpMem a =>
    rw [Instr.word, decodeWord_addrWord]
    have hn : ¬ (a.auto = true ∧ a.op1 = pcReg) := by
      cases a with
      | plain => nofun
      | inc r => exact fun ⟨_, hr⟩ => (by simpa [Instr.wellFormed] using h : r ≠ pcReg) hr
    simp [decodeMem, decodeJumpMem, hn]
  | ba16 off =>
    exact (decodeWord_longBranch _ .a).trans (congrArg Instr.ba16 (dwordOfWords_setWidth off rest))
  | bcc16 c off =>
    have hc : c ≠ .a := by simpa [Instr.wellFormed] using h
    exact ((decodeWord_longBranch _ c).trans (if_neg hc)).trans
      (congrArg (Instr.bcc16 c) (dwordOfWords_setWidth off rest))
  | moveMemToSpecial p src =>
    rw [Instr.word, decodeWord_srcWord, Instr.tailWords]
    obtain ⟨hf, hn⟩ : src.fits p.size = true ∧ src ≠ .mem (.inc spReg) := by simpa [Instr.wellFormed] using h
    have hs : ¬ (src.auto = true ∧ src.op1 = spReg) := fun ⟨ha, ho⟩ => hn (SrcMode.eq_inc (by decide) ha ho)
    simp [decodeMem, hs, srcOf_words hf]
  | moveMemToReg m rd src =>
    rw [Instr.word, decodeWord_srcWord, Instr.tailWords]
    obtain ⟨hf, hn⟩ : src.fits m = true ∧ ¬ (m = .d ∧ src = .mem (.inc spReg)) := by
      simpa [Instr.wellFormed, imp_iff_not_or] using h
    have hs : ¬ (m = .d ∧ src.auto = true ∧ src.op1 = spReg) := fun ⟨hm, ha, ho⟩ =>
      hn ⟨hm, SrcMode.eq_inc (by decide) ha ho⟩
    simp [decodeMem, hs, srcOf_words hf]

/-- A well-formed instruction is no assembler name (rule R113). -/
theorem Instr.not_assemblerName {i : Instr} (h : i.wellFormed = true) : i.assemblerName = false := by
  cases i with
  | testReg | pushReg | pushSpecial => cases h
  | _ => rfl

/-- The words behind the first are those of the immediate data, but for PUSH (rules R97, R100). -/
theorem Instr.tailWords_length {i : Instr} (h : i.assemblerName = false) : 2 * i.tailWords.length = i.immLength := by
  cases i with
  | pushReg | pushSpecial => cases h
  | adduMem | addsMem | movuMem | movsMem | subuMem | subsMem | cmpuMem | cmpsMem | jsrMem | jirMem | jsrcMem | jircMem
    | jbrcMem | dip | bdap | boundMem | moveMemToSpecial | addMem | moveMemToReg | subMem | cmpMem | andMem | orMem
    | testMem => exact Laws.source_words _ _
  | _ => rfl

/-- Settles O1: the first word and the immediate data decode to the instruction, whose length says where the rest
begins. -/
theorem decodeInvertsEncode : Obligations.DecodeInvertsEncode := by
  intro i rest h
  have hl : i.immLength / 2 = i.tailWords.length := by
    have := Instr.tailWords_length (Instr.not_assemblerName h)
    omega
  rw [encode, List.cons_append, decode_cons, decodeWord_word h rest, hl, List.drop_left]
  exact if_neg (by simp)

end Sys2Proof

/-! PROOFS. The assembler names, and the memory operands without a meaning. -/

namespace Sys2Proof.Machine

/-! ## Assembler names (rules R110, R202, R264) -/

/-- The offset byte of PUSH is the negated width of what it pushes (rule R202). -/
theorem ofInt_neg_bytes (m : Size) : BitVec.ofInt 8 (-(m.bytes : Int)) = BitVec.ofNat 8 (256 - m.bytes) := by
  cases m <;> rfl

/-- A MOVE of a zero register to memory is CLEAR in its three sizes (rule R201). -/
theorem exec_clearMem {q : Special} (hq : q.number.zeroRegister = true) (dst : AddrMode) (s : State) :
    (if q.number = 0#4 then exec (.clearByteMem dst) s
      else if q.number = 4#4 then exec (.clearWordMem dst) s else exec (.clearDwordMem dst) s) =
    moveFromSpecialToMem q dst s := by
  cases q with
  | p0 | p4 | p8 => rfl
  | _ => cases hq

theorem exec_moveSpecialToMem (q : Special) (dst : AddrMode) (s : State) :
    exec (.moveSpecialToMem q.number dst) s = moveFromSpecialToMem q dst s := withSpecial_number q _

/-- PUSH of a special register is the byte-offset `prefixWord` and the store behind it (rule R202). -/
theorem exec_pushSpecial (q : Special) (s : State) : exec (.pushSpecial q.number) s =
    andThen (exec (.bdapQuick spReg (BitVec.ofInt 8 (-(q.number.size.bytes : Int)))) s)
      (moveFromSpecialToMem q (.inc spReg)) := by
  rw [ofInt_neg_bytes, Special.size_number]
  exact withSpecial_number q _

/-- Settles O4: each name is the call its expansion makes. -/
theorem assemblerNamesExpand : Obligations.AssemblerNamesExpand := by
  refine ⟨fun _ _ => rfl, fun _ => rfl, fun p s hp => ?_, fun p => ?_, fun _ _ _ => rfl, fun _ _ => rfl⟩
  · obtain ⟨q, rfl⟩ := exists_number_of_implemented hp
    rw [exec_pushSpecial]
    congr 1
    funext t
    split
    next hq => exact (exec_clearMem hq _ t).symm
    next => exact (exec_moveSpecialToMem q _ t).symm
  · rw [ofInt_neg_bytes]
    rfl

/-! ## Memory operands without a meaning (rules R111, R134, R136, R137, R145) -/

/-- An operand without a meaning when no `prefixWord` precedes, for an instruction that uses the registers `busy`. -/
theorem refuses_resolve_unprefixed {a : AddrMode} {step : Word} {busy : Reg → Bool} {dest : Option Reg} {s : State}
    (hl : s.latch = none) (h : a = .plain pcReg ∨ a = .inc pcReg ∨ ∃ r, a = .inc r ∧ busy r = true) :
    refuses (resolve a step busy dest s) := by
  unfold resolve
  rw [hl]
  obtain rfl | rfl | ⟨r, rfl, hr⟩ := h
  · exact refuses_refuseIf (.inl rfl)
  · exact refuses_refuseIf (.inl rfl)
  · exact refuses_refuseIf (.inr (refuses_refuseIf (.inl hr)))

/-- One behind a `prefixWord`, for an instruction with the destination `dest` besides. -/
theorem refuses_resolve_prefixed {a : AddrMode} {step : Word} {busy : Reg → Bool} {dest : Option Reg} {s : State}
    {l : Latch} (hl : s.latch = some l)
    (h : a = .inc pcReg ∨ (l.fromDip = true ∧ ∃ r, a = .inc r) ∨ (∃ r, a = .inc r ∧ busy r = true) ∨
      (∃ r d, a = .plain r ∧ dest = some d ∧ d ≠ r) ∨ ∃ q, l.bumped = some q ∧ busy q = true) :
    refuses (resolve a step busy dest s) := by
  unfold resolve
  rw [hl]
  obtain rfl | ⟨hd, r, rfl⟩ | ⟨r, rfl, hr⟩ | ⟨r, d, rfl, rfl, hn⟩ | ⟨q, hb, hq⟩ := h
  · exact refuses_refuseIf (.inr (refuses_refuseIf (.inr (refuses_refuseIf (.inl rfl)))))
  · exact refuses_refuseIf (.inr (refuses_refuseIf (.inl hd)))
  · exact refuses_refuseIf (.inr (refuses_refuseIf (.inr (refuses_refuseIf (.inr (refuses_refuseIf (.inl hr)))))))
  · exact refuses_refuseIf (.inr (refuses_refuseIf (.inl (by simpa using hn))))
  · exact refuses_refuseIf (.inl (by simpa [hb] using hq))

/-- Whatever the step of the mode, and whichever registers besides those that `i` uses the mode may not change, the
operand has no meaning. -/
def RefusesOperand (i : Instr) (s : State) : SrcMode → Prop
  | .mem a => ∀ (step : Word) (busy : Reg → Bool), (∀ r, usesRegister i r → busy r = true) →
      refuses (resolve a step busy (destination i) s)
  | .imm v => ∀ m, refuses (immediate m v s)

section Operands

variable {i : Instr} {s : State}

theorem refuses_loadSource {m : Size} {src : SrcMode} {busy : Reg → Bool} (h : RefusesOperand i s src)
    (hb : ∀ r, usesRegister i r → busy r = true) : refuses (loadSource m src busy (destination i) s) := by
  cases src with
  | mem a => exact refuses_andThen (h _ _ hb)
  | imm v => exact h m

theorem refuses_storeTo {m : Size} {dst : AddrMode} {busy : Reg → Bool} {v : Word} (h : RefusesOperand i s (.mem dst))
    (hd : destination i = none) (hb : ∀ r, usesRegister i r → busy r = true) : refuses (storeTo m dst busy v s) :=
  refuses_andThen (hd ▸ h _ _ hb)

theorem refuses_memAlu {k m : Size} {source : Word → Word} {alu : Alu} {rd : Reg} {src : SrcMode}
    (h : RefusesOperand i s src) (hd : destination i = some rd) (hb : ∀ r, usesRegister i r → r = rd) :
    refuses (memAlu k m source alu rd src s) :=
  refuses_slotGuard (.inr (refuses_andThen (hd ▸ refuses_loadSource h fun r hr => by simp [hb r hr])))

theorem refuses_memTest {k m : Size} {source : Word → Word} {alu : Alu} {rd : Reg} {src : SrcMode}
    (h : RefusesOperand i s src) (hd : destination i = none) (hb : ∀ r, usesRegister i r → r = rd) :
    refuses (memTest k m source alu rd src s) :=
  refuses_slotGuard (.inr (refuses_andThen (hd ▸ refuses_loadSource h fun r hr => by simp [hb r hr])))

theorem refuses_jumpByMem {link : Option Link} {src : SrcMode} (h : RefusesOperand i s src)
    (hd : destination i = none) (hb : ∀ r, ¬ usesRegister i r) : refuses (jumpByMem link src s) :=
  refuses_slotGuard (.inr (refuses_andThen (hd ▸ refuses_loadSource h fun r hr => absurd hr (hb r))))

/-- A chain through a special register refuses when each of its continuations does, or there is no such register. -/
theorem refuses_withSpecial_of_forall {p : PNum} {k : Special → Result State} (h : ∀ q, refuses (k q)) :
    refuses (withSpecial p k) := by
  unfold withSpecial
  split
  · exact ⟨_, rfl⟩
  · exact h _

theorem refuses_moveToSpecialFromMem {p : PNum} {src : SrcMode} (h : RefusesOperand i s src)
    (hd : destination i = none) (hb : ∀ r, ¬ usesRegister i r) : refuses (moveToSpecialFromMem p src s) :=
  refuses_withSpecial_of_forall fun _ =>
    refuses_andThen (hd ▸ refuses_loadSource h fun r hr => absurd hr (hb r))

theorem refuses_moveFromSpecialToMem {q : Special} {dst : AddrMode} (h : RefusesOperand i s (.mem dst))
    (hd : destination i = none) (hb : ∀ r, ¬ usesRegister i r) : refuses (moveFromSpecialToMem q dst s) :=
  refuses_andThen (refuses_storeTo h hd fun r hr => absurd hr (hb r))

/-- An instruction resolves its operand before it does anything else, with the registers it uses kept from change. -/
theorem refuses_exec_of_operand {src : SrcMode} (ho : operand i = some src) (h : RefusesOperand i s src) :
    refuses (exec i s) := by
  cases i with
  | addMem | addsMem | adduMem | subMem | subsMem | subuMem | andMem | orMem | moveMemToReg | movsMem | movuMem
    | popReg =>
    cases ho
    exact refuses_memAlu h rfl (by simp [usesRegister, destination])
  | boundMem =>
    cases ho
    exact refuses_refuseIf (.inr (refuses_refuseIf (.inr (refuses_memAlu h rfl (by simp [usesRegister, destination])))))
  | cmpMem | cmpsMem | cmpuMem =>
    cases ho
    exact refuses_memTest h rfl (by simp [usesRegister, destination])
  | testMem =>
    cases ho
    exact refuses_andThen (refuses_loadSource h (by simp [usesRegister, destination]))
  | jumpMem | jumpImm | jsrMem | jirMem | jsrcMem | jircMem | jbrcMem =>
    cases ho
    exact refuses_jumpByMem h rfl (by simp [usesRegister, destination])
  | moveMemToSpecial | popSpecial =>
    cases ho
    exact refuses_moveToSpecialFromMem h rfl (by simp [usesRegister, destination])
  | moveSpecialToMem =>
    cases ho
    exact refuses_withSpecial_of_forall fun _ =>
      refuses_moveFromSpecialToMem h rfl (by simp [usesRegister, destination])
  | clearByteMem | clearWordMem | clearDwordMem =>
    cases ho
    exact refuses_moveFromSpecialToMem h rfl (by simp [usesRegister, destination])
  | moveRegToMem =>
    cases ho
    exact refuses_slotGuard (.inr (refuses_andThen (refuses_storeTo h rfl (by simp [usesRegister, destination]))))
  | movemLoad | movemStore =>
    cases ho
    exact refuses_refuseIf (.inr (refuses_andThen (h _ _ (by simp [usesRegister, destination, inList]))))
  | _ => cases ho

end Operands

/-- Settles O26: an operand without a meaning is refused where it is resolved. -/
theorem meaninglessOperandsAreRefused : Obligations.MeaninglessOperandsAreRefused := by
  intro i s
  refine ⟨fun a ho hl h => refuses_exec_of_operand ho fun step busy hb => refuses_resolve_unprefixed hl ?_,
    fun a l ho hl h => refuses_exec_of_operand ho fun step busy hb => refuses_resolve_prefixed hl ?_,
    fun v ho hl => refuses_exec_of_operand ho fun m => refuses_refuseIf (.inl hl)⟩
  · exact h.imp_right (.imp_right fun ⟨r, ha, hr⟩ => ⟨r, ha, hb r hr⟩)
  · exact h.imp_right (.imp_right (.imp (fun ⟨r, ha, hr⟩ => ⟨r, ha, hb r hr⟩)
      (.imp_right fun ⟨q, hq, hu⟩ => ⟨q, hq, hb q hu⟩)))

end Sys2Proof.Machine

/-! PROOFS. The instructions that a `prefixWord` cannot precede, the `prefixWord`s themselves, the operand modes without
and behind one, and the words that the spec writes out. -/

namespace Sys2Proof

/-! ## Words that cannot take a `prefixWord` (rules R143, R147) -/

/-- Word bit 11 is the high bit of the mode. -/
theorem packWord_modeHigh (p : BitVec 4) (mode : BitVec 2) (o : BitVec 4) (z : BitVec 2) (r : BitVec 4) :
    (packWord p mode o z r).extractLsb' 11 1 = mode.extractLsb' 1 1 :=
  BitVec.eq_of_toNat_eq (by rw [toNat_bits, toNat_bits, packWord_toNat]; omega)

theorem memMode_high (auto : Bool) : (memMode auto).extractLsb' 1 1 = 1#1 := by cases auto <;> rfl

theorem srcWord_modeHigh (p o : BitVec 4) (z : BitVec 2) (src : SrcMode) :
    (srcWord p o z src).extractLsb' 11 1 = 1#1 := by
  rw [srcWord, packWord_modeHigh, src.mode_eq_memMode, memMode_high]

theorem addrWord_modeHigh (p o : BitVec 4) (z : BitVec 2) (a : AddrMode) :
    (addrWord p o z a).extractLsb' 11 1 = 1#1 := srcWord_modeHigh p o z (.mem a)

/-- An instruction with a memory or immediate operand is encoded in mode 10 or 11 (rule R104). -/
theorem modeHigh_of_operand {i : Instr} {src : SrcMode} (h : Machine.operand i = some src) :
    i.word.extractLsb' 11 1 = 1#1 := by
  cases i with
  | adduMem | addsMem | movuMem | movsMem | subuMem | subsMem | cmpuMem | cmpsMem | boundMem | addMem | moveMemToReg
    | subMem | cmpMem | andMem | orMem | testMem | moveMemToSpecial | jsrMem | jirMem | jsrcMem | jircMem | jbrcMem =>
    exact srcWord_modeHigh ..
  | jumpMem | moveRegToMem | moveSpecialToMem | clearByteMem | clearWordMem | clearDwordMem | movemLoad
    | movemStore => exact addrWord_modeHigh ..
  | popReg | popSpecial | jumpImm => exact packWord_modeHigh ..
  | _ => cases h

end Sys2Proof

namespace Sys2Proof.Machine

section Unprefixable

variable {i : Instr} {s : State}

theorem refuses_prefixForm {k : Result State} (h : s.latch.isSome = true ∨ refuses k) : refuses (prefixForm s k) :=
  refuses_refuseIf (h.imp_right fun hk => refuses_slotGuard (.inr hk))

theorem refuses_regForm {p : Bool} {k : Result State} (h : s.latch.isSome = true) : refuses (regForm p s k) :=
  refuses_unprefixed (.inl h)

theorem refuses_branchIf {taken : Bool} {next off : Word} (h : s.latch.isSome = true) :
    refuses (branchIf taken next off s) := refuses_unprefixed (.inl h)

theorem refuses_returnThrough {p : Pointer} (h : s.latch.isSome = true) : refuses (returnThrough p s) :=
  refuses_unprefixed (.inl h)

theorem refuses_execMoveSpecialToReg {p : PNum} {rd : Reg} (h : s.latch.isSome = true) :
    refuses (execMoveSpecialToReg p rd s) := by
  refine refuses_withSpecial_of_forall fun q => ?_
  split
  · cases q
    case srp | irp | brp => exact refuses_returnThrough h
    all_goals exact ⟨_, rfl⟩
  · exact refuses_unprefixed (.inl h)

/-- Behind a `prefixWord` only an instruction with a memory or immediate operand goes on: every other one refuses it
before it changes anything (rules R143, R147). -/
theorem refuses_exec_of_no_operand (hl : s.latch.isSome = true) (h : operand i = none) : refuses (exec i s) := by
  cases i with
  | reserved => exact ⟨_, rfl⟩
  | nop | setf | ax | ei | clearf | di | addi | brk | jumpReg | jsrReg | jirReg | jsrcReg | jircReg | jbrcReg
    | clearByteReg | clearWordReg | clearDwordReg => exact refuses_unprefixed (.inl hl)
  | addReg | addsReg | adduReg | subReg | subsReg | subuReg | andReg | orReg | xorReg | asr | lz | moveReg | movsReg
    | movuReg | testReg | addq | subq | andq | orq | moveq | asrq | cmpReg | btst | cmpq | btstq | moveRegToSpecial =>
    exact refuses_regForm hl
  | lsl | lsr | neg | lslq | lsrq | notReg | swap | absReg => exact refuses_refuseIf (.inr (refuses_regForm hl))
  | boundReg | mstep | dstep => exact refuses_refuseIf (.inr (refuses_refuseIf (.inr (refuses_regForm hl))))
  | scc => exact refuses_refuseIf (.inr (refuses_unprefixed (.inl hl)))
  | ba8 | bcc8 => exact refuses_branchIf hl
  | ba16 | bcc16 => exact refuses_slotGuard (.inr (refuses_branchIf hl))
  | ret | reti | retb => exact refuses_returnThrough hl
  | moveSpecialToReg => exact refuses_execMoveSpecialToReg hl
  | bdapQuick | biap | bdap | dip => exact refuses_prefixForm (.inl hl)
  | pushReg => exact refuses_andThen (refuses_prefixForm (.inl hl))
  | pushSpecial => exact refuses_withSpecial_of_forall fun _ => refuses_andThen (refuses_prefixForm (.inl hl))
  | _ => cases h

theorem operand_of_isPrefixWord (h : isPrefixWord i) : operand i = none := by
  obtain ⟨_, _, rfl⟩ | ⟨_, _, _, rfl⟩ | ⟨_, _, _, rfl⟩ | ⟨_, rfl⟩ := h <;> rfl

theorem operand_of_isBranch (h : isBranch i) : operand i = none := by
  obtain ⟨_, _, rfl⟩ | ⟨_, rfl⟩ | ⟨_, _, rfl⟩ | ⟨_, rfl⟩ := h <;> rfl

theorem operand_of_isReturn (h : isReturn i) : operand i = none := by
  obtain rfl | rfl | rfl | ⟨_, _, rfl⟩ := h <;> rfl

theorem operand_of_isRegisterJump (h : isRegisterJump i) : operand i = none := by
  obtain ⟨_, rfl⟩ | ⟨_, rfl⟩ | ⟨_, rfl⟩ | ⟨_, rfl⟩ | ⟨_, rfl⟩ | ⟨_, rfl⟩ := h <;> rfl

/-- An instruction of mode 00 or 01 has no memory operand (rules R102, R103). -/
theorem operand_of_modeHigh (h : i.word.extractLsb' 11 1 = 0#1) : operand i = none := by
  cases ho : operand i with
  | none => rfl
  | some src => cases (modeHigh_of_operand ho).symm.trans h

end Unprefixable

/-- Settles O27: none of these has a memory or immediate operand, and no instruction without one goes on behind a
`prefixWord`. -/
theorem prefixBeforeOtherWordsIsRefused : Obligations.PrefixBeforeOtherWordsIsRefused := by
  intro i s hl h
  refine refuses_exec_of_no_operand hl ?_
  obtain h | h | h | h | ⟨n, rfl⟩ | h := h
  · exact operand_of_isPrefixWord h
  · exact operand_of_isBranch h
  · exact operand_of_isReturn h
  · exact operand_of_isRegisterJump h
  · rfl
  · exact operand_of_modeHigh h

/-! ## The read through a pointer (rules R141, R145) -/

section Pointer

variable {s : State} {m : Size} {r : Reg} {busy : Reg → Bool}

/-- A pointer without a meaning (rules R141, R146, decision D17). -/
theorem refuses_prefixPointer {a : AddrMode} (h : a = .plain pcReg ∨ a = .inc pcReg ∨ ∃ r, a = .inc r ∧ busy r = true) :
    refuses (prefixPointer m a busy s) := by
  obtain rfl | rfl | ⟨r, rfl, hr⟩ := h
  · exact refuses_refuseIf (.inl rfl)
  · exact refuses_refuseIf (.inl rfl)
  · exact refuses_refuseIf (.inr (refuses_refuseIf (.inl hr)))

theorem prefixPointer_plain (hr : r ≠ pcReg) : prefixPointer m (.plain r) busy s = .next (s.gpr r 0, s, none) :=
  refuseIf_of (by simpa using hr) _ _

theorem prefixPointer_inc (hr : r ≠ pcReg) (hb : busy r = false) :
    prefixPointer m (.inc r) busy s =
      .next (s.gpr r 0, s.setGpr r (s.gpr r 0 + BitVec.ofNat 32 m.bytes), some r) :=
  (refuseIf_of (by simpa using hr) _ _).trans (refuseIf_of hb _ _)

theorem Accessed.regs {u : State} {n : Nat} {a : Word} (h : Accessed s u n a) : u.regs = s.regs :=
  (congrArg State.regs h.same :)

theorem State.setGpr_regs_congr {u : State} (h : u.regs = s.regs) (r : Reg) (v : Word) :
    (u.setGpr r v).regs = (s.setGpr r v).regs := by
  unfold State.setGpr
  split
  · exact congrArg (fun g => Vector.set g r.toNat v) h
  · exact h

/-- A data read does not depend on the general registers and leaves them. -/
theorem memRead_withRegs {n : Nat} {a : Word} (regs : Vector Word 15) (hn : n ≤ 4) (ha : Alone s)
    (h : s.accessible n a = true) :
    ∃ u, Accessed s u n a ∧
      memRead n a { s with regs := regs } = .next (BitVec.ofNat 32 (bytesNat s n a), { u with regs := regs }) := by
  have hacc : State.accessible { s with regs := regs } n a = true := by
    rwa [State.accessible_congr (t := { s with regs := regs }) (s := s) rfl rfl]
  obtain ⟨v, u, hr, hv, hu⟩ := dataReadYieldsTheBytes n a { s with regs := regs } hn ha hacc
  refine ⟨{ u with regs := s.regs }, ⟨?_, hu.hit⟩, ?_⟩
  · rw [hu.same]
  · obtain rfl : u.regs = regs := hu.regs
    have hb : v.toNat = bytesNat s n a := hv.trans (bytesNat_congr n a fun _ _ => rfl)
    rw [hr, ← hb, BitVec.ofNat_toNat, BitVec.setWidth_eq]

/-- A `prefixWord`'s read through the pointer `a`: it yields `v`, leaves the state `u`, and increments `bumped`. -/
def ReadsPointer (m : Size) (a : AddrMode) (busy : Reg → Bool) (s : State) (v : Word) (u : State)
    (bumped : Option Reg) : Prop :=
  ∃ p t, prefixPointer m a busy s = .next (p, t, bumped) ∧ memRead m.bytes p t = .next (v, u)

theorem readsPointer_plain (busy : Reg → Bool) (ha : Alone s) (hr : r ≠ pcReg)
    (h : s.accessible m.bytes (s.gpr r 0) = true) :
    ∃ u, Accessed s u m.bytes (s.gpr r 0) ∧
      ReadsPointer m (.plain r) busy s (BitVec.ofNat 32 (bytesNat s m.bytes (s.gpr r 0))) u none := by
  obtain ⟨v, u, hv, hb, hu⟩ := dataReadYieldsTheBytes m.bytes _ s (bytes_le_four m) ha h
  refine ⟨u, hu, _, s, prefixPointer_plain hr, ?_⟩
  rw [hv, ← hb, BitVec.ofNat_toNat, BitVec.setWidth_eq]

theorem readsPointer_inc (ha : Alone s) (hr : r ≠ pcReg) (hb : busy r = false)
    (h : s.accessible m.bytes (s.gpr r 0) = true) :
    ∃ u, Accessed s u m.bytes (s.gpr r 0) ∧
      ReadsPointer m (.inc r) busy s (BitVec.ofNat 32 (bytesNat s m.bytes (s.gpr r 0)))
        { u with regs := (u.setGpr r (s.gpr r 0 + BitVec.ofNat 32 m.bytes)).regs } (some r) := by
  obtain ⟨u, hu, hv⟩ :=
    memRead_withRegs (s.setGpr r (s.gpr r 0 + BitVec.ofNat 32 m.bytes)).regs (bytes_le_four m) ha h
  refine ⟨u, hu, _, _, prefixPointer_inc hr hb, ?_⟩
  rw [State.setGpr_eq, hv, State.setGpr_regs_congr hu.regs]

end Pointer

/-! ## The `prefixWord`s (rules R138 to R146) -/

section PrefixWords

variable {s : State}

theorem prefixForm_of (h : Ready s True) (k : Result State) : prefixForm s k = k := by
  unfold prefixForm
  rw [h.1, slotGuard_of fun _ => h.2 trivial]
  rfl

/-- Scaling an index is multiplying it by the width of the size. -/
theorem scaleBy_eq (m : Size) (v : Word) : scaleBy m v = v * BitVec.ofNat 32 m.bytes := by
  cases m <;> simp only [scaleBy, Size.bytes] <;> bv_omega

/-- Settles O35: each hands on the sum it computes. -/
theorem indexedAndByteOffsetPrefixes : Obligations.IndexedAndByteOffsetPrefixes := by
  refine fun s h => ⟨fun m index base => ?_, fun base off => prefixForm_of h _⟩
  refine (prefixForm_of h _).trans ?_
  rw [scaleBy_eq]
  cases m <;> rfl

theorem exec_bdap_mem (h : Ready s True) {m : Size} {base : Reg} {a : AddrMode} {v : Word} {u : State}
    {bumped : Option Reg} (hr : ReadsPointer m a (fun r => r == base) s v u bumped) :
    exec (.bdap m base (.mem a)) s = .next { u with
      pc := s.pc + 2, latch := some ⟨s.gpr base (s.pc + 2) + signExtended m v, bumped, false⟩ } := by
  obtain ⟨p, t, hp, hv⟩ := hr
  refine (prefixForm_of h _).trans ?_
  dsimp only
  rw [hp, andThen_next, hv, andThen_next, signExtendFrom_eq]
  rfl

theorem exec_dip_mem (h : Ready s True) {a : AddrMode} {v : Word} {u : State} {bumped : Option Reg}
    (hr : ReadsPointer .d a (fun _ => false) s v u bumped) :
    exec (.dip (.mem a)) s = .next { u with pc := s.pc + 2, latch := some ⟨v, bumped, true⟩ } := by
  obtain ⟨p, t, hp, hv⟩ := hr
  refine (prefixForm_of h _).trans ?_
  dsimp only
  rw [hp, andThen_next, show memRead 4 p t = _ from hv]
  rfl

theorem signExtended_zeroExtended (m : Size) (v : Word) : signExtended m (zeroExtended m v) = signExtended m v := by
  unfold signExtended
  rw [← truncTo_eq, lowInt_truncTo]

theorem immediate_eq (h : Ready s True) (m : Size) (v : Word) :
    immediate m v s = .next (zeroExtended m v, s.watch m.bytes (s.pc + 2)) := by
  unfold immediate
  rw [h.1, slotGuard_of fun _ => h.2 trivial, truncTo_eq]
  rfl

theorem exec_bdap_imm (h : Ready s True) (m : Size) (base : Reg) (v : Word) :
    exec (.bdap m base (.imm v)) s = .next { s.watch m.bytes (s.pc + 2) with
      pc := s.pc + 2 + BitVec.ofNat 32 m.immBytes
      latch := some ⟨s.gpr base (s.pc + 2 + BitVec.ofNat 32 m.immBytes) + signExtended m v, none, false⟩ } := by
  refine (prefixForm_of h _).trans ?_
  dsimp only
  rw [immediate_eq h, andThen_next, signExtendFrom_eq, signExtended_zeroExtended]
  rfl

theorem exec_dip_imm (h : Ready s True) (v : Word) :
    exec (.dip (.imm v)) s =
      .next { s.watch 4 (s.pc + 2) with pc := s.pc + 6, latch := some ⟨v, none, true⟩ } := by
  refine (prefixForm_of h _).trans ?_
  dsimp only
  rw [immediate_eq h, andThen_next, zeroExtended_dword,
    show s.pc + 6 = afterSource .d (.imm v) s from (BitVec.add_assoc s.pc 2 4).symm]
  rfl

end PrefixWords

/-- Settles O36: the offset is what the pointer's read or the immediate data yields. -/
theorem memoryOffsetPrefix : Obligations.MemoryOffsetPrefix := by
  refine ⟨fun s m base => ?_, fun s m base h ha => ?_⟩
  · have hrefuse {a : AddrMode} (hp : a = .plain pcReg ∨ a = .inc pcReg ∨ ∃ r, a = .inc r ∧ (r == base) = true) :
        refuses (exec (.bdap m base (.mem a)) s) :=
      refuses_prefixForm (.inr (refuses_andThen (refuses_prefixPointer hp)))
    exact ⟨hrefuse (.inr (.inr ⟨base, rfl, by simp⟩)), hrefuse (.inl rfl), hrefuse (.inr (.inl rfl))⟩
  · simp only [← bytes_eq_sizeBits]
    refine ⟨fun r hr hacc => ?_, fun r hr hb hacc => ?_, fun v => ?_⟩
    · obtain ⟨u, hu, hv⟩ := readsPointer_plain (fun r => r == base) ha hr hacc
      exact ⟨u, hu, exec_bdap_mem h hv⟩
    · obtain ⟨u, hu, hv⟩ := readsPointer_inc (busy := fun r => r == base) ha hr (by simpa using hb) hacc
      exact ⟨u, hu, exec_bdap_mem h hv⟩
    · exact ⟨_, s.watch_eq _ _, s.watch_hit_iff _ _, exec_bdap_imm h m base v⟩

/-- Settles O37: the address is what the pointer's read or the immediate data yields. -/
theorem doubleIndirectAndAbsolutePrefix : Obligations.DoubleIndirectAndAbsolutePrefix := by
  refine ⟨fun s => ?_, fun s h ha => ⟨fun r hr hacc => ?_, fun r hr hacc => ?_, fun v => ?_⟩⟩
  · have hrefuse {a : AddrMode} (hp : a = .plain pcReg ∨ a = .inc pcReg) : refuses (exec (.dip (.mem a)) s) :=
      refuses_prefixForm (.inr (refuses_andThen (refuses_prefixPointer (hp.imp_right .inl))))
    exact ⟨hrefuse (.inl rfl), hrefuse (.inr rfl)⟩
  · obtain ⟨u, hu, hv⟩ := readsPointer_plain (m := .d) (fun _ => false) ha hr hacc
    exact ⟨u, hu, exec_dip_mem h hv⟩
  · obtain ⟨u, hu, hv⟩ := readsPointer_inc (m := .d) (busy := fun _ => false) ha hr rfl hacc
    exact ⟨u, hu, exec_dip_mem h hv⟩
  · exact ⟨_, s.watch_eq _ _, s.watch_hit_iff _ _, exec_dip_imm h v⟩

/-! ## Operands without and behind a `prefixWord` (rules R133 to R137) -/

/-- What writing one general register leaves. -/
theorem State.setGpr_only (s : State) {r : Reg} (hr : r ≠ pcReg) (v : Word) :
    (s.setGpr r v).gpr r 0 = v ∧ (∀ q, q ≠ r → (s.setGpr r v).gpr q 0 = s.gpr q 0) ∧
      s.setGpr r v = { s with regs := (s.setGpr r v).regs } :=
  ⟨s.gpr_setGpr_self hr v 0, fun _ hq => s.gpr_setGpr_ne hq v 0, s.setGpr_eq r v⟩

section Resolve

variable {s : State} {r : Reg} {busy : Reg → Bool} (w : Word) (dest : Option Reg)

theorem resolve_plain_unprefixed (busy : Reg → Bool) (hl : s.latch = none) (hr : r ≠ pcReg) :
    resolve (.plain r) w busy dest s = .next (s.gpr r 0, s) := by
  unfold resolve
  rw [hl]
  exact refuseIf_of (by simpa using hr) _ _

theorem resolve_inc_unprefixed (hl : s.latch = none) (hr : r ≠ pcReg) (hb : busy r = false) :
    resolve (.inc r) w busy dest s = .next (s.gpr r 0, s.setGpr r (s.gpr r 0 + w)) := by
  unfold resolve
  rw [hl]
  exact (refuseIf_of (by simpa using hr) _ _).trans (refuseIf_of hb _ _)

variable {l : Latch}

/-- Behind a `prefixWord` the mode goes on when the register that word incremented is not used (decision D17). -/
theorem bumped_free (h : ∀ q, l.bumped = some q → busy q = false) :
    (match l.bumped with | some q => busy q | none => false) = false := by
  cases hb : l.bumped with
  | none => rfl
  | some q => exact h q hb

theorem resolve_plain_prefixed (hl : s.latch = some l) (hq : ∀ q, l.bumped = some q → busy q = false)
    (hd : ∀ d, dest = some d → d = r) : resolve (.plain r) w busy dest s = .next (l.ea, s) := by
  unfold resolve
  rw [hl]
  refine (refuseIf_of (bumped_free hq) _ _).trans (refuseIf_of ?_ _ _)
  cases dest with
  | none => rfl
  | some d => simp [hd d rfl]

theorem resolve_inc_prefixed (hl : s.latch = some l) (hq : ∀ q, l.bumped = some q → busy q = false)
    (hr : r ≠ pcReg) (hd : l.fromDip = false) (hb : busy r = false) :
    resolve (.inc r) w busy dest s = .next (l.ea, s.setGpr r l.ea) := by
  unfold resolve
  rw [hl]
  exact (refuseIf_of (bumped_free hq) _ _).trans <| (refuseIf_of hd _ _).trans <|
    (refuseIf_of (by simpa using hr) _ _).trans (refuseIf_of hb _ _)

end Resolve

/-- Settles O32: the equation of each mode, and what its register write leaves. -/
theorem indirectAndAutoincrementModes : Obligations.IndirectAndAutoincrementModes := fun s _ w busy dest hl hr =>
  ⟨resolve_plain_unprefixed w dest busy hl hr, fun hb =>
    ⟨_, resolve_inc_unprefixed w dest hl hr hb, s.setGpr_only hr _⟩⟩

/-- Settles O33: the equation of each mode, and what its register write leaves. -/
theorem prefixedOperandModes : Obligations.PrefixedOperandModes := fun s _ _ w _ dest hl hq =>
  ⟨fun hd => resolve_plain_prefixed w dest hl hq hd, fun hr hd hb =>
    ⟨_, resolve_inc_prefixed w dest hl hq hr hd hb, s.setGpr_only hr _⟩⟩

end Sys2Proof.Machine

namespace Sys2Proof

/-! ## Words written out in the spec -/

/-- The word of a well-formed instruction, with its immediate data behind it, decodes to it (rule R113). -/
theorem decodeWord_of_word {i : Instr} {w : Half} {nxt : Word} (h : i.wellFormed = true) (hw : i.word = w)
    (hn : dwordOfWords i.tailWords = nxt) : decodeWord w nxt = i := by
  have := decodeWord_word h []
  rwa [List.append_nil, hw, hn] at this

/-- Settles O3: each word is that of the well-formed instruction. -/
theorem specWordsDecodeAsWritten : Obligations.SpecWordsDecodeAsWritten :=
  ⟨decodeWord_of_word rfl rfl rfl, decodeWord_of_word rfl rfl rfl, decodeWord_of_word rfl rfl rfl,
    decodeWord_of_word rfl rfl rfl, decodeWord_of_word rfl rfl rfl, decodeWord_of_word rfl rfl rfl,
    decodeWord_of_word rfl rfl rfl, decodeWord_of_word rfl rfl rfl, decodeWord_of_word rfl rfl rfl,
    decodeWord_of_word rfl rfl rfl⟩

end Sys2Proof

/-! PROOFS. Operands that an instruction does not support, the kinds of instructions that may not stand in a delay slot,
branches, jumps and subroutine calls. -/

namespace Sys2Proof.Machine

/-! ## Restricted operands (rules R167, R174, R247, R265, R266) -/

section Restricted

variable {s : State}

theorem refuses_noPcDest {rd : Reg} {k : Result State} (h : rd = pcReg ∨ refuses k) : refuses (noPcDest rd k) :=
  refuses_refuseIf (h.imp_left beq_iff_eq.mpr)

theorem refuses_noExtend {k : Result State} (h : s.flags.x = true ∨ refuses k) : refuses (noExtend s k) :=
  refuses_refuseIf h

/-- CLEAR of PC, and every move from a special register to PC that is not a return (rule R174). -/
theorem refuses_moveFromSpecialToReg_pc (q : Special) : refuses (moveFromSpecialToReg q pcReg s) :=
  refuses_unprefixed (.inr (refuses_refuseIf (.inl rfl)))

/-- A move to PC from a special register that is no return pointer (rules R174, R198). -/
theorem refuses_moveSpecialToPc {p : PNum} (h : p.returnPointer = false) :
    refuses (exec (.moveSpecialToReg p pcReg) s) := by
  cases hi : p.implemented with
  | false => exact refuses_withSpecial hi _
  | true =>
    obtain ⟨q, rfl⟩ := exists_number_of_implemented hi
    change refuses (withSpecial q.number _)
    rw [withSpecial_number]
    cases q with
    | irp | srp | brp => cases h
    | _ => exact ⟨_, rfl⟩

end Restricted

/-- Settles O25: the guard on PC or on X stands before anything the instruction does; with PC written out the guard computes
to its refusal. -/
theorem restrictedOperandsAreRefused : Obligations.RestrictedOperandsAreRefused := by
  intro s
  have noPc : refuses (.refused .pcDestinationUnsupported : Result State) := ⟨_, rfl⟩
  have noList : refuses (.refused .movemOfPc : Result State) := ⟨_, rfl⟩
  refine ⟨fun m q => ⟨refuses_unprefixed (.inr noPc), noPc, noPc, noPc, noPc⟩, fun q => ⟨noPc, noPc⟩, fun m src => noPc,
    fun n => ⟨noPc, noPc⟩, fun c => noPc, fun o => noPc, noPc, fun p hp => refuses_moveSpecialToPc hp,
    refuses_moveFromSpecialToReg_pc .p0, refuses_moveFromSpecialToReg_pc .p4, refuses_moveFromSpecialToReg_pc .p8,
    fun a => ⟨noList, noList⟩, fun hx => ?_⟩
  have extend (k : Result State) : refuses (noExtend s k) := refuses_noExtend (.inl hx)
  have extend' (rd : Reg) (k : Result State) : refuses (noPcDest rd (noExtend s k)) := refuses_noPcDest (.inr (extend k))
  exact ⟨fun rd rs => ⟨extend _, extend' rd _, extend' rd _⟩,
    fun m rd rs => ⟨refuses_unprefixed (.inr (extend' rd _)), extend' rd _⟩, fun m rd src => extend' rd _⟩

/-! ## Delay slots (rule R164) -/

section DelaySlot

variable {i : Instr} {s : State}

theorem refuses_slotGuard_inSlot {p : Bool} (hs : s.slot ≠ .none) (hp : p = true) (k : Result State) :
    refuses (slotGuard p s k) := refuses_slotGuard (.inl ⟨hp, hs⟩)

theorem refuses_regForm_inSlot {p : Bool} (hs : s.slot ≠ .none) (hp : p = true) (k : Result State) :
    refuses (regForm p s k) := refuses_unprefixed (.inr (refuses_slotGuard_inSlot hs hp k))

theorem refuses_prefixForm_inSlot (hs : s.slot ≠ .none) (k : Result State) : refuses (prefixForm s k) :=
  refuses_refuseIf (.inr (refuses_slotGuard_inSlot hs rfl k))

theorem refuses_returnThrough_inSlot (hs : s.slot ≠ .none) (p : Pointer) : refuses (returnThrough p s) :=
  refuses_unprefixed (.inr (refuses_slotGuard_inSlot hs rfl _))

theorem refuses_moveSpecialToPc_inSlot (hs : s.slot ≠ .none) (p : PNum) :
    refuses (exec (.moveSpecialToReg p pcReg) s) := by
  refine refuses_withSpecial_of_forall fun q => ?_
  cases q with
  | irp | srp | brp => exact refuses_returnThrough_inSlot hs _
  | _ => exact ⟨_, rfl⟩

theorem refuses_inSlot_of_isBranch (hs : s.slot ≠ .none) (h : isBranch i) : refuses (exec i s) := by
  obtain ⟨c, off, rfl⟩ | ⟨off, rfl⟩ | ⟨c, off, rfl⟩ | ⟨off, rfl⟩ := h
  · exact refuses_unprefixed (.inr (refuses_slotGuard_inSlot hs rfl _))
  · exact refuses_unprefixed (.inr (refuses_slotGuard_inSlot hs rfl _))
  · exact refuses_slotGuard_inSlot hs rfl _
  · exact refuses_slotGuard_inSlot hs rfl _

theorem refuses_inSlot_of_isJump (hs : s.slot ≠ .none) (h : isJump i) : refuses (exec i s) := by
  cases i with
  | jumpMem | jumpImm | jsrMem | jirMem | jsrcMem | jircMem | jbrcMem => exact refuses_slotGuard_inSlot hs rfl _
  | jumpReg | jsrReg | jirReg | jsrcReg | jircReg | jbrcReg | brk =>
    exact refuses_unprefixed (.inr (refuses_slotGuard_inSlot hs rfl _))
  | _ => simp [isJump] at h

theorem refuses_inSlot_of_isReturn (hs : s.slot ≠ .none) (h : isReturn i) : refuses (exec i s) := by
  obtain rfl | rfl | rfl | ⟨p, -, rfl⟩ := h
  · exact refuses_returnThrough_inSlot hs .srp
  · exact refuses_returnThrough_inSlot hs .irp
  · exact refuses_returnThrough_inSlot hs .brp
  · exact refuses_moveSpecialToPc_inSlot hs p

theorem refuses_inSlot_of_isPrefixWord (hs : s.slot ≠ .none) (h : isPrefixWord i) : refuses (exec i s) := by
  obtain ⟨_, _, rfl⟩ | ⟨_, _, _, rfl⟩ | ⟨_, _, _, rfl⟩ | ⟨_, rfl⟩ := h <;> exact refuses_prefixForm_inSlot hs _

/-- The immediate data behind a word is its operand, the offset of a branch or that of a `prefixWord` (rules R97, R100). -/
theorem immediate_of_immLength (h : i.immLength ≠ 0) :
    (∃ v, operand i = some (.imm v)) ∨ isBranch i ∨ isPrefixWord i := by
  cases i with
  | adduMem _ _ src | addsMem _ _ src | movuMem _ _ src | movsMem _ _ src | subuMem _ _ src | subsMem _ _ src
    | cmpuMem _ _ src | cmpsMem _ _ src | boundMem _ _ src | addMem _ _ src | moveMemToReg _ _ src | subMem _ _ src
    | cmpMem _ _ src | andMem _ _ src | orMem _ _ src | testMem _ src | moveMemToSpecial _ src | jsrMem src
    | jirMem src | jsrcMem src | jircMem src | jbrcMem src =>
    cases src with
    | mem a => exact absurd rfl h
    | imm v => exact .inl ⟨v, rfl⟩
  | jumpImm v => exact .inl ⟨v, rfl⟩
  | bcc16 c off => exact .inr (.inl (.inr (.inr (.inl ⟨c, off, rfl⟩))))
  | ba16 off => exact .inr (.inl (.inr (.inr (.inr ⟨off, rfl⟩))))
  | bdap m base off => exact .inr (.inr (.inr (.inr (.inl ⟨m, base, off, rfl⟩))))
  | dip src => exact .inr (.inr (.inr (.inr (.inr ⟨src, rfl⟩))))
  | _ => exact absurd rfl h

theorem refuses_inSlot_of_immLength (hs : s.slot ≠ .none) (h : i.immLength ≠ 0) : refuses (exec i s) := by
  obtain ⟨v, ho⟩ | h | h := immediate_of_immLength h
  · exact refuses_exec_of_operand ho fun m => refuses_refuseIf (.inr (refuses_slotGuard (.inl ⟨rfl, hs⟩)))
  · exact refuses_inSlot_of_isBranch hs h
  · exact refuses_inSlot_of_isPrefixWord hs h

/-- An instruction that names PC is guarded by the slot, or does not support PC at all. -/
theorem refuses_inSlot_of_namesPc (hs : s.slot ≠ .none) (h : namesPc i) : refuses (exec i s) := by
  cases i with
  | addReg | addsReg | adduReg | subReg | subsReg | subuReg | andReg | orReg | xorReg | asr | lz | moveReg | movsReg
    | movuReg | testReg | addq | subq | andq | orq | moveq | asrq | cmpReg | btst | cmpq | btstq | moveRegToSpecial =>
    exact refuses_regForm_inSlot hs (by simpa [namesPc] using h) _
  | lsl | lsr | neg | lslq | lsrq | notReg | swap | absReg =>
    exact refuses_refuseIf (.inr (refuses_regForm_inSlot hs (by simpa [namesPc] using h) _))
  | boundReg | mstep | dstep =>
    exact refuses_noPcDest (.inr (refuses_noExtend (.inr (refuses_regForm_inSlot hs (by simpa [namesPc] using h) _))))
  | scc | boundMem => exact refuses_noPcDest (.inl h)
  | addi =>
    exact refuses_unprefixed (.inr (refuses_noPcDest (h.imp_right fun hq =>
      refuses_noExtend (.inr (refuses_slotGuard_inSlot hs (beq_iff_eq.mpr hq) _)))))
  | clearByteReg | clearWordReg | clearDwordReg =>
    cases h
    exact refuses_moveFromSpecialToReg_pc _
  | moveSpecialToReg p =>
    cases h
    exact refuses_moveSpecialToPc_inSlot hs p
  | addMem | addsMem | adduMem | subMem | subsMem | subuMem | andMem | orMem | moveMemToReg | movsMem | movuMem
    | popReg | cmpMem | cmpsMem | cmpuMem | moveRegToMem =>
    exact refuses_slotGuard_inSlot hs (beq_iff_eq.mpr h) _
  | movemLoad | movemStore => exact refuses_refuseIf (.inl (beq_iff_eq.mpr h))
  | pushReg => exact refuses_andThen (refuses_prefixForm_inSlot hs _)
  | _ => cases h

end DelaySlot

/-- Settles O21: each kind is guarded by the slot, or refused everywhere. -/
theorem delaySlotRefusesForbiddenKinds : Obligations.DelaySlotRefusesForbiddenKinds := by
  intro i s hs h
  obtain h | h | h | h | ⟨r, rfl⟩ | ⟨p, rfl⟩ | h | h := h
  · exact refuses_inSlot_of_isBranch hs h
  · exact refuses_inSlot_of_isJump hs h
  · exact refuses_inSlot_of_isReturn hs h
  · exact refuses_inSlot_of_isPrefixWord hs h
  · exact refuses_andThen (refuses_prefixForm_inSlot hs _)
  · exact refuses_withSpecial_of_forall fun _ => refuses_andThen (refuses_prefixForm_inSlot hs _)
  · exact refuses_inSlot_of_immLength hs h
  · exact refuses_inSlot_of_namesPc hs h

end Sys2Proof.Machine

/-! PROOFS. Branches, jumps and subroutine calls: how a delayed and an immediate transfer of control end. -/

namespace Sys2Proof.Machine

/-! ## Branches (rules R106, R160, R162) -/

section Branches

variable {s : State}

/-- A branch that is taken to an odd address (rule R50). -/
theorem branchIf_odd (h : Ready s True) {next off : Word} (ho : isOdd (next + off)) :
    branchIf true next off s = .refused .oddProgramCounter :=
  (regForm_of h (fun _ => trivial) _).trans (refuseOdd_odd ho _)

/-- A branch that is not taken to an odd address. -/
theorem branchIf_of (h : Ready s True) {taken : Bool} {next off : Word} (ho : ¬ isOdd (next + off) ∨ taken = false) :
    branchIf taken next off s = .next (State.branched { s with pc := next } (next + off) taken) := by
  have hend (k : Slot) : { s.retire next true with slot := k } =
      { s with pc := next, slot := k, irqWindow := true, flags := { s.flags with x := false } } := by
    unfold State.retire
    rw [h.1, h.2 trivial]
  refine (regForm_of h (fun _ => trivial) _).trans ?_
  cases taken with
  | false => exact congrArg _ (hend .notTaken)
  | true => exact (refuseOdd_even (ho.resolve_right nofun) _).trans (congrArg _ (hend (.pending (next + off))))

/-- The offset field of the 8-bit form holds the sign in bit 0, and the offset is even (rule R106). -/
theorem branchOffset_eq (off : Byte) : branchOffset off =
    BitVec.ofInt 32 (if off.toNat % 2 = 1 then (off.toNat : Int) - 1 - 256 else off.toNat) := by
  have hlt := off.isLt
  rw [branchOffset, BitVec.signExtend, BitVec.toInt_eq_toNat_cond]
  congr 1
  simp only [toNat_join, BitVec.extractLsb'_toNat, Nat.shiftRight_eq_div_pow, BitVec.toNat_ofNat]
  split_ifs <;> omega

theorem branchOffset_even (off : Byte) : isEven (branchOffset off) := by
  have hlt := off.isLt
  rw [isEven_iff, branchOffset_eq, BitVec.toNat_ofInt]
  split_ifs <;> omega

theorem not_isOdd_iff {a : Word} : ¬ isOdd a ↔ isEven a := by
  rw [isEven_iff, isOdd]
  omega

/-- The 16-bit form is a branch behind the read of its offset (rules R106, R160). -/
theorem exec_bcc16 (h : Ready s True) (c : Cond) (off : Half) : exec (.bcc16 c off) s =
    branchIf (s.flags.holds c) (s.pc + 4) (BitVec.ofInt 32 off.toInt) (s.watch 2 (s.pc + 2)) :=
  slotGuard_of (fun _ => h.2 trivial) _

/-- BA is the branch whose condition always holds (rule R160). -/
theorem exec_ba16 (off : Half) : exec (.ba16 off) s = exec (.bcc16 .a off) s := rfl

end Branches

/-- Settles O58: both forms are `branchIf` with the offset of the field; that of the 8-bit form is even. -/
theorem branchInstructions : Obligations.BranchInstructions := by
  intro s h
  constructor
  · rintro off _ _ rfl rfl hpc
    have heven : ¬ isOdd (s.nextPc + branchOffset off) :=
      not_isOdd_iff.mpr ((isEven_nextPc (not_isOdd_iff.mp hpc)).add (branchOffset_even off))
    rw [← branchOffset_eq]
    exact ⟨fun c => branchIf_of h (.inl heven), branchIf_of h (.inl heven)⟩
  · rintro off _ rfl
    have hw : Ready (s.watch 2 (s.pc + 2)) True := h
    have hodd (c : Cond) (ho : isOdd (s.pc + 4 + BitVec.ofInt 32 off.toInt)) (hc : s.flags.holds c = true) :
        exec (.bcc16 c off) s = .refused .oddProgramCounter := by
      rw [exec_bcc16 h, hc, branchIf_odd hw ho]
    have hgo (c : Cond) (ho : ¬ isOdd (s.pc + 4 + BitVec.ofInt 32 off.toInt) ∨ s.flags.holds c = false) :=
      (exec_bcc16 h c off).trans (branchIf_of hw ho)
    simp only [exec_ba16]
    exact ⟨{ s.watch 2 (s.pc + 2) with pc := s.pc + 4 }, rfl, s.watch_hit_iff _ _,
      fun c => ⟨hodd c, hgo c⟩, fun ho => hodd .a ho rfl, fun ho => hgo .a (.inl ho)⟩

/-! ## Jumps (rules R165, R168 to R170) -/

section Jumps

variable {s : State}

/-- The state in which a jump of the jump group has stored its return address, `next` being the address after it. -/
def State.linked (s : State) (link : Option Link) (next : Word) : State :=
  match link with
  | none => s
  | some l => s.setPointer l.pointer (next + l.skip)

theorem jumpLink_eq (link : Option Link) (t next : Word) (s : State) :
    jumpLink link t next s = jumpNow t (s.linked link next) := by cases link <;> rfl

theorem State.linked_slot (s : State) (link : Option Link) (next : Word) : (s.linked link next).slot = s.slot := by
  cases link with
  | none => rfl
  | some l => exact s.setPointer_slot _ _

theorem State.linked_srp (s : State) (next : Word) : s.linked (some ⟨.srp, 0⟩) next = { s with srp := next } := by
  simp [State.linked, State.setPointer]

theorem State.linked_irp (s : State) (next : Word) : s.linked (some ⟨.irp, 0⟩) next = { s with irp := next } := by
  simp [State.linked, State.setPointer]

/-- In no delay slot an immediate jump arrives at its target. -/
theorem State.retire_arrived (hs : s.slot = .none) (t : Word) : s.retire t false = s.arrived t := by
  unfold State.retire State.arrived
  rw [hs]

theorem jumpLink_odd {t : Word} (ho : isOdd t) (link : Option Link) (next : Word) :
    jumpLink link t next s = .refused .oddProgramCounter := by
  rw [jumpLink_eq]
  exact refuseOdd_odd ho _

theorem jumpLink_even (hs : s.slot = .none) {t : Word} (ho : ¬ isOdd t) (link : Option Link) (next : Word) :
    jumpLink link t next s = .next ((s.linked link next).arrived t) := by
  rw [jumpLink_eq, ← State.retire_arrived ((s.linked_slot link next).trans hs)]
  exact refuseOdd_even ho _

theorem jumpByReg_eq (h : Ready s True) (link : Option Link) (rs : Reg) :
    jumpByReg link rs s = jumpLink link (s.gpr rs (s.pc + 2)) (s.pc + 2) s := regForm_of h (fun _ => trivial) _

theorem jumpByMem_eq {u : State} {src : SrcMode} {target : Word} (hs : s.slot = .none)
    (h : loadSource .d src (fun _ => false) none s = .next (target, u)) (link : Option Link) :
    jumpByMem link src s = jumpLink link target (s.pc + 2 + BitVec.ofNat 32 (src.immLength .d)) u := by
  unfold jumpByMem
  rw [slotGuard_of fun _ => hs, h]
  rfl

end Jumps

/-- Settles O59: each form is `jumpLink` with its operand as the target. -/
theorem jumpsAndSubroutineCalls : Obligations.JumpsAndSubroutineCalls := by
  constructor
  · rintro s rs _ _ h rfl rfl
    constructor
    · intro ho
      have hodd (link : Option Link) := (jumpByReg_eq h link rs).trans (jumpLink_odd ho link _)
      simp only [List.forall_mem_cons, List.not_mem_nil, false_implies, implies_true, and_true]
      exact ⟨hodd _, hodd _, hodd _, hodd _, hodd _, hodd _⟩
    · intro ho
      have hgo (link : Option Link) := (jumpByReg_eq h link rs).trans (jumpLink_even (h.2 trivial) ho link _)
      rw [← State.linked_srp, ← State.linked_irp]
      exact ⟨hgo _, hgo _, hgo _, hgo _, hgo _, hgo _⟩
  · rintro s u src _ target hs h rfl
    have hu : u.slot = .none := (loadSource_worked _ h).slot.trans hs
    have hodd (ho : isOdd target) (link : Option Link) := (jumpByMem_eq hs h link).trans (jumpLink_odd ho link _)
    have hgo (ho : ¬ isOdd target) (link : Option Link) := (jumpByMem_eq hs h link).trans (jumpLink_even hu ho link _)
    have hjump : if target.toNat % 2 = 1 then jumpByMem none src s = .refused .oddProgramCounter
        else jumpByMem none src s = .next (State.arrived u target) := by
      split
      next ho => exact hodd ho none
      next ho => exact hgo ho none
    refine ⟨fun ho => ?_, fun ho => ?_, ?_, ?_⟩
    · simp only [List.forall_mem_cons, List.not_mem_nil, false_implies, implies_true, and_true]
      exact ⟨hodd ho _, hodd ho _, hodd ho _, hodd ho _, hodd ho _⟩
    · rw [← State.linked_srp, ← State.linked_irp]
      exact ⟨hgo ho _, hgo ho _, hgo ho _, hgo ho _, hgo ho _⟩
    · rintro a rfl
      exact hjump
    · rintro v rfl
      exact hjump

end Sys2Proof.Machine

/-! PROOFS. BREAK and the returns; what a move from a special register leaves, in a register and in memory. -/

namespace Sys2Proof.Machine

/-! ## BREAK (rules R190, R307) -/

theorem State.breakEntry_eq (s : State) (n : BitVec 4) :
    s.breakEntry n = BitVec.ofNat 32 (s.ibr.toNat + 8 * n.toNat) := by
  rw [← State.breakEntry_toNat, BitVec.ofNat_toNat, BitVec.setWidth_eq]

/-- BREAK n is an immediate jump to its entry point (rule R190). -/
theorem exec_brk_arrived {s : State} (h : Ready s True) (n : BitVec 4) :
    exec (.brk n) s = .next (State.arrived { s with brp := s.pc + 2 } (s.breakEntry n)) :=
  (exec_brk h n).trans (congrArg _ (State.retire_arrived (s := { s with brp := s.pc + 2 }) (h.2 trivial) _))

theorem State.arrived_of_unprefixed {s : State} (hl : s.latch = none) (t : Word) :
    s.arrived t = { s with pc := t, irqWindow := false, flags := { s.flags with x := false } } := by
  unfold State.arrived
  rw [← hl]

/-! ## Returns (rules R171 to R173, R312) -/

section Returns

variable {s : State}

/-- A return is a branch that is taken to the pointer. -/
theorem returnThrough_eq_branchIf (p : Pointer) (s : State) :
    returnThrough p s = branchIf true (s.pc + 2) (s.pointer p - (s.pc + 2)) s := by
  unfold branchIf
  rw [if_pos rfl, add_sub_cancel]
  rfl

theorem returnThrough_odd (h : Ready s True) {p : Pointer} (ho : isOdd (s.pointer p)) :
    returnThrough p s = .refused .oddProgramCounter := by
  rw [returnThrough_eq_branchIf]
  exact branchIf_odd h (by rwa [add_sub_cancel])

theorem returnThrough_even (h : Ready s True) {p : Pointer} (ho : ¬ isOdd (s.pointer p)) :
    returnThrough p s = .next (State.branched { s with pc := s.pc + 2 } (s.pointer p) true) := by
  rw [returnThrough_eq_branchIf, branchIf_of h (.inl (by rwa [add_sub_cancel])), add_sub_cancel]

/-- Each return under its own name and as a MOVE to PC (rules R171 to R173). -/
theorem exec_return {i : Instr} {pointer : Word}
    (h : ((i = .ret ∨ i = .moveSpecialToReg 11#4 pcReg) ∧ pointer = s.srp) ∨
      ((i = .reti ∨ i = .moveSpecialToReg 10#4 pcReg) ∧ pointer = s.irp) ∨
      ((i = .retb ∨ i = .moveSpecialToReg 14#4 pcReg) ∧ pointer = s.brp)) :
    ∃ p, exec i s = returnThrough p s ∧ pointer = s.pointer p := by
  obtain ⟨rfl | rfl, rfl⟩ | ⟨rfl | rfl, rfl⟩ | ⟨rfl | rfl, rfl⟩ := h
  · exact ⟨.srp, rfl, rfl⟩
  · exact ⟨.srp, rfl, rfl⟩
  · exact ⟨.irp, rfl, rfl⟩
  · exact ⟨.irp, rfl, rfl⟩
  · exact ⟨.brp, rfl, rfl⟩
  · exact ⟨.brp, rfl, rfl⟩

end Returns

/-- Settles O60: BREAK is an immediate jump, each return a taken branch to its pointer. -/
theorem breakAndReturnInstructions : Obligations.BreakAndReturnInstructions := by
  refine fun s h => ⟨fun n => ?_, fun i pointer hi => ?_⟩
  · rw [exec_brk_arrived h, State.arrived_of_unprefixed (s := { s with brp := s.pc + 2 }) h.1, State.breakEntry_eq]
  · obtain ⟨p, hp, rfl⟩ := exec_return hi
    exact ⟨fun ho => hp.trans (returnThrough_odd h ho), fun ho => hp.trans (returnThrough_even h ho)⟩

/-! ## What a special register reads as (rules R25 to R33) -/

theorem Flags.toByte_toNat (f : Flags) : f.toByte.toNat = flagByte f := by
  simp only [Flags.toByte, toNat_join, BitVec.toNat_ofBool, flagByte]
  omega

theorem State.readSpecial_toNat (s : State) (q : Special) : (s.readSpecial q).toNat = specialNat s q.number := by
  cases q with
  | p0 | p4 | p8 => rfl
  | irp | srp | bar | brp => rfl
  | vr => exact BitVec.toNat_setWidth_of_le (by decide)
  | ccr | dccr => exact (BitVec.toNat_setWidth_of_le (by decide)).trans s.flags.toByte_toNat
  | ibr => exact s.ibr_toNat

/-- What a special register reads as fits its width (rule R109). -/
theorem State.readSpecial_lt (s : State) (q : Special) : (s.readSpecial q).toNat < 2 ^ (8 * q.size.bytes) := by
  have hbyte (b : Byte) : (b.setWidth 32).toNat < 2 ^ 8 := by
    rw [BitVec.toNat_setWidth_of_le (by decide)]
    exact b.isLt
  cases q with
  | p0 | p4 => simp [State.readSpecial]
  | vr => exact hbyte _
  | ccr => exact (hbyte _).trans (by decide)
  | p8 | ibr | irp | srp | bar | dccr | brp => exact BitVec.isLt _

/-! ## Special registers to general registers (rules R198, R201) -/

/-- Writing one general register and ending the instruction. -/
theorem State.setGpr_sets (s : State) {rd : Reg} (hr : rd ≠ pcReg) (v next : Word) (window : Bool) :
    Sets (.next ((s.setGpr rd v).retire next window)) s rd v next window := by
  have he := (s.setGpr rd v).retire_ends next window
  exact ⟨_, rfl, s.gpr_setGpr_self hr v 0, by simp [Flags.nzvc], { he with pc := by rw [he.pc, State.setGpr_slot] },
    { registers := fun r _ hn => s.gpr_setGpr_ne hn v 0
      specials := by simp [State.ibr]
      enables := by simp
      bytes := State.peek_congr (by simp)
      environment := by simp
      hit := by simp }⟩

theorem exec_moveSpecialToReg_sets {s : State} {rd : Reg} (hr : rd ≠ pcReg) (h : Ready s False) (q : Special) :
    Sets (exec (.moveSpecialToReg q.number rd) s) s rd (replaceLow q.size (s.gpr rd 0) (s.readSpecial q))
      (s.pc + 2) true := by
  rw [exec_moveSpecialToReg h.1 hr]
  exact s.setGpr_sets hr _ _ _

/-- Settles O52: CLEAR is the move from a zero register. -/
theorem movesFromSpecialRegisters : Obligations.MovesFromSpecialRegisters := by
  intro s rd hr h
  obtain ⟨hb, hw, hd⟩ := (zeroRegisters.2.2.2 s).1 rd hr
  refine ⟨fun p hp => ?_, ?_, ?_, ?_⟩
  · obtain ⟨q, rfl⟩ := exists_number_of_implemented hp
    rw [← State.readSpecial_toNat, BitVec.ofNat_toNat, BitVec.setWidth_eq, Special.size_number]
    exact exec_moveSpecialToReg_sets hr h q
  · exact hb ▸ exec_moveSpecialToReg_sets hr h .p0
  · exact hw ▸ exec_moveSpecialToReg_sets hr h .p4
  · rw [hd, ← replaceLow_dword (s.gpr rd 0) 0]
    exact exec_moveSpecialToReg_sets hr h .p8

/-! ## Special registers to memory (rules R200 to R202) -/

/-- Alone on the bus, storing to memory and ending the instruction. -/
theorem memWrite_retire_stores {u : State} {n : Nat} {ea : Word} (hn : n ≤ 4) (ha : Alone u) (hw : u.mem.wf = true)
    (hacc : u.accessible n ea = true) (v next : Word) (window : Bool) :
    ∃ t, andThen (memWrite n ea v u) (fun w => .next (w.retire next window)) = .next t ∧
      bytesNat t n ea = v.toNat % 2 ^ (8 * n) ∧ Stored u t n ea ∧ Ends u t next window := by
  obtain ⟨w, hwr, hb, ho, e, hh⟩ := dataWriteStoresTheBytes n ea v u hn ha hw hacc
  have he := w.retire_ends next window
  refine ⟨w.retire next window, by rw [hwr, andThen_next], ?_, ?_, { he with pc := by rw [he.pc, e] }⟩
  · rw [← hb]
    exact bytesNat_congr n ea fun _ _ => rfl
  · exact
      { registers := fun r _ => State.gpr_congr (by rw [State.retire_regs, e]) r 0
        specials := by rw [e]; exact ⟨rfl, rfl, rfl, rfl, rfl⟩
        flags := by rw [State.retire_flags, e]
        others := ho
        environment := by rw [e]; exact ⟨rfl, rfl, rfl⟩
        hit := hh }

/-- A special register or zero to memory (rules R200, R201). -/
theorem moveFromSpecialToMem_stores {s u : State} {q : Special} {dst : AddrMode} {ea : Word}
    (hr : resolve dst (BitVec.ofNat 32 q.size.bytes) (fun _ => false) none s = .next (ea, u)) (ha : Alone s)
    (hw : s.mem.wf = true) (hacc : u.accessible q.size.bytes ea = true) :
    ∃ t, moveFromSpecialToMem q dst s = .next t ∧ bytesNat t q.size.bytes ea = specialNat s q.number ∧
      Stored u t q.size.bytes ea ∧ Ends u t (s.pc + 2) true := by
  have e := resolve_eq_next hr
  have hau : Alone u := by rw [e]; exact ha
  have hwu : u.mem.wf = true := by rw [e]; exact hw
  unfold moveFromSpecialToMem storeTo
  rw [hr, andThen_next, ← State.readSpecial_toNat, ← Nat.mod_eq_of_lt (s.readSpecial_lt q)]
  exact memWrite_retire_stores (bytes_le_four q.size) hau hwu hacc (s.readSpecial q) (s.pc + 2) true

/-- The state behind the byte-offset `prefixWord` of a PUSH whose address is `sp` (rules R136, R202). -/
def State.pushing (s : State) (sp : Word) : State :=
  { s with pc := s.pc + 2, latch := some ⟨sp, none, false⟩ }

theorem State.pushing_setGpr (s : State) (sp : Word) (r : Reg) (v : Word) :
    (s.pushing sp).setGpr r v = (s.setGpr r v).pushing sp := by
  unfold State.setGpr
  split <;> rfl

/-- The frame of a store looks at neither pc nor the latch. -/
theorem Stored.of_pushing {u t : State} {sp ea : Word} {n : Nat} (h : Stored (u.pushing sp) t n ea) :
    Stored u t n ea :=
  ⟨h.registers, h.specials, h.flags, h.others, h.environment, h.hit⟩

/-- The offset byte of PUSH takes the width of what it pushes off SP (rule R202). -/
theorem add_pushOffset (v : Word) (m : Size) :
    v + BitVec.ofInt 32 (BitVec.ofInt 8 (-(m.bytes : Int))).toInt = v - BitVec.ofNat 32 m.bytes := by
  rw [BitVec.sub_eq_add_neg]
  cases m <;> rfl

/-- PUSH of a special register is the store behind its own `prefixWord` (rule R202). -/
theorem exec_pushSpecial_pushing {s : State} (h : Ready s True) (q : Special) :
    exec (.pushSpecial q.number) s =
      moveFromSpecialToMem q (.inc spReg) (s.pushing (s.gpr spReg 0 - BitVec.ofNat 32 q.size.bytes)) := by
  have hp := (indexedAndByteOffsetPrefixes s h).2 spReg (BitVec.ofInt 8 (-(q.size.bytes : Int)))
  rw [add_pushOffset, State.gpr_of_ne_pc s (by decide) _ 0] at hp
  rw [exec_pushSpecial, Special.size_number, hp, andThen_next]
  rfl

/-- The assign mode of the store leaves the address in SP (rule R137). -/
theorem resolve_pushing (s : State) (sp step : Word) :
    resolve (.inc spReg) step (fun _ => false) none (s.pushing sp) = .next (sp, (s.setGpr spReg sp).pushing sp) := by
  rw [← State.pushing_setGpr]
  have hr : spReg ≠ pcReg := by decide
  have hq (q : Reg) (_ : none = some q) : false = false := rfl
  exact resolve_inc_prefixed step none (s := s.pushing sp) (l := ⟨sp, none, false⟩) rfl hq hr rfl rfl

/-- PUSH of a special register stores below SP, and SP is then that address (rule R202). -/
theorem exec_pushSpecial_stores {s : State} {q : Special} {sp : Word} (ha : Alone s) (hw : s.mem.wf = true)
    (h : Ready s True) (hsp : sp = s.gpr spReg 0 - BitVec.ofNat 32 q.size.bytes)
    (hacc : s.accessible q.size.bytes sp = true) :
    ∃ t, exec (.pushSpecial q.number) s = .next t ∧ bytesNat t q.size.bytes sp = specialNat s q.number ∧
      t.gpr spReg 0 = sp ∧ Stored (s.setGpr spReg sp) t q.size.bytes sp ∧ Ends s t (s.pc + 4) true := by
  have hacc' : ((s.setGpr spReg sp).pushing sp).accessible q.size.bytes sp = true := by
    rwa [State.accessible_congr (t := (s.setGpr spReg sp).pushing sp) (s.setGpr_params _ _) (s.setGpr_aliasSeen _ _)]
  obtain ⟨t, ht, hb, hs, he⟩ := moveFromSpecialToMem_stores (resolve_pushing s sp _) ha hw hacc'
  rw [exec_pushSpecial_pushing h, ← hsp]
  refine ⟨t, ht, hb, ?_, hs.of_pushing, { he with pc := ?_ }⟩
  · rw [hs.of_pushing.registers spReg (by decide), State.gpr_setGpr_self _ (by decide)]
  · have hpc : s.pc + 4 = s.pc + 2 + 2 := (BitVec.add_assoc s.pc 2 2).symm
    rw [he.pc, ← State.pushing_setGpr, State.setGpr_slot, hpc]
    rfl

/-- Settles O53: each form stores what the register reads as; CLEAR stores a zero register. -/
theorem specialRegistersToMemory : Obligations.SpecialRegistersToMemory := by
  refine ⟨fun s u p dst ea hp ha hw hr hacc => ?_,
    fun s u dst ea ha hw => ⟨fun hr hacc => ?_, fun hr hacc => ?_, fun hr hacc => ?_⟩,
    fun s p sp hp ha hw h hsp hacc => ?_⟩
  · obtain ⟨q, rfl⟩ := exists_number_of_implemented hp
    rw [Special.size_number] at hr hacc ⊢
    rw [exec_moveSpecialToMem]
    exact moveFromSpecialToMem_stores hr ha hw hacc
  · exact moveFromSpecialToMem_stores (q := .p0) hr ha hw hacc
  · exact moveFromSpecialToMem_stores (q := .p4) hr ha hw hacc
  · exact moveFromSpecialToMem_stores (q := .p8) hr ha hw hacc
  · obtain ⟨q, rfl⟩ := exists_number_of_implemented hp
    rw [Special.size_number] at hsp hacc ⊢
    exact exec_pushSpecial_stores ha hw h hsp hacc

end Sys2Proof.Machine

/-! PROOFS. The multiply and divide steps, and multiplication by sixteen multiply steps. -/

namespace Sys2Proof.Machine

/-! ## One step (rules R220, R221) -/

theorem shiftLeft_one_toNat (d : Word) : (d <<< 1).toNat = 2 * d.toNat % 2 ^ 32 := by
  rw [BitVec.toNat_shiftLeft, Nat.shiftLeft_eq, pow_one, mul_comm]

/-- The value a multiply step leaves: the shift and the sum wrap together (rule R220). -/
theorem mstepAlu_toNat (v d : Word) (f : Flags) :
    (mstepAlu v d f).1.toNat = (2 * d.toNat + if f.n = true then v.toNat else 0) % 2 ^ 32 := by
  change (d <<< 1 + if f.n = true then v else 0).toNat = _
  rw [BitVec.toNat_add, shiftLeft_one_toNat, Nat.mod_add_mod]
  split <;> rfl

/-- The value a divide step leaves: what is subtracted is not above the shifted value, so nothing is borrowed
(rule R221). -/
theorem dstepAlu_toNat (v d : Word) (f : Flags) {k : Nat} (hk : k = 2 * d.toNat % 2 ^ 32) :
    (dstepAlu v d f).1.toNat = if v.toNat ≤ k then k - v.toNat else k := by
  rw [← shiftLeft_one_toNat] at hk
  subst hk
  change (if v ≤ d <<< 1 then d <<< 1 - v else d <<< 1).toNat = _
  by_cases h : v ≤ d <<< 1
  · rw [if_pos h, if_pos (BitVec.le_def.mp h), BitVec.toNat_sub_of_le h]
  · rw [if_neg h, if_neg (fun h' => h (BitVec.le_def.mpr h'))]

/-- A register computation on whole registers that supports neither PC as its destination nor X (rules R167, R247). -/
theorem restrictedAlu_computes {s : State} {rd rs : Reg} {alu : Alu} {result : Word → Flags → Prop}
    (hr : rd ≠ pcReg) (hx : s.flags.x = false) (h : Ready s (rs = pcReg))
    (hv : result (alu (s.gpr rs (s.pc + 2)) (s.gpr rd 0) s.flags).1 (alu (s.gpr rs (s.pc + 2)) (s.gpr rd 0) s.flags).2)
    (hk : ∀ v d f, (alu v d f).2.m = f.m ∧ (alu v d f).2.b = f.b ∧ (alu v d f).2.i = f.i) :
    Computes (noPcDest rd <| noExtend s <| regAlu .d id alu rd rs s) s .d rd (s.pc + 2) result := by
  unfold noPcDest noExtend regAlu
  rw [State.gpr_of_ne_pc s hr 0 s.nextPc] at hv
  rw [refuseIf_of (by simpa using hr), refuseIf_of hx, regForm_of h (by simp [hr])]
  exact applyAlu_computes hv hk

/-- Settles O43: the values of `mstepAlu` and `dstepAlu`, with the general flags. -/
theorem multiplyAndDivideSteps : Obligations.MultiplyAndDivideSteps := by
  intro s rd rs hr hx h
  constructor
  · exact restrictedAlu_computes (alu := mstepAlu) hr hx h ⟨mstepAlu_toNat _ _ _, generalFlags_spec _ _ _⟩
      fun _ _ _ => ⟨rfl, rfl, rfl⟩
  · exact restrictedAlu_computes (alu := dstepAlu) hr hx h
      ⟨⟨_, rfl, dstepAlu_toNat _ _ _ rfl⟩, generalFlags_spec _ _ _⟩ fun _ _ _ => ⟨rfl, rfl, rfl⟩

/-! ## Sixteen steps (rule R222) -/

section SixteenSteps

variable {s t u : State} {rd rs : Reg} {a b n : Nat}

theorem Kept.refl (s : State) (but : Reg → Prop) : Kept s s but :=
  ⟨fun _ _ _ => rfl, ⟨rfl, rfl, rfl, rfl, rfl⟩, ⟨rfl, rfl, rfl⟩, fun _ => rfl, ⟨rfl, rfl, rfl⟩, rfl⟩

theorem Kept.trans {but : Reg → Prop} (h : Kept s t but) (h' : Kept t u but) : Kept s u but := by
  obtain ⟨ibr, irp, srp, bar, brp⟩ := h.specials
  obtain ⟨m, b, i⟩ := h.enables
  obtain ⟨env, others, params⟩ := h.environment
  exact
    { registers := fun r hp hn => (h'.registers r hp hn).trans (h.registers r hp hn)
      specials := by rw [← ibr, ← irp, ← srp, ← bar, ← brp]; exact h'.specials
      enables := by rw [← m, ← b, ← i]; exact h'.enables
      bytes := fun x => (h'.bytes x).trans (h.bytes x)
      environment := by rw [← env, ← others, ← params]; exact h'.environment
      hit := h'.hit.trans h.hit }

/-- A dword is negative when its top bit is set. -/
theorem lowInt_dword_neg_iff (v : Word) : lowInt .d v < 0 ↔ 2 ^ 31 ≤ v.toNat := by
  have h : lowNat .d v = v.toNat := Nat.mod_eq_of_lt v.isLt
  rw [← msbOf_iff, msbOf_iff_nat, h]
  rfl

/-- The value of Rd with `n` bits of the multiplier `b` still to be used: the product of `a` with the bits used so far,
plus the bits left, the top one of them at bit 31. -/
def partialProduct (a b n : Nat) : Nat := a * (b / 2 ^ n) + b % 2 ^ n * 2 ^ (32 - n)

theorem partialProduct_zero (a b : Nat) : partialProduct a b 0 = a * b := by
  simp [partialProduct, Nat.mod_one]

theorem partialProduct_sixteen (a : Nat) (hb : b < 2 ^ 16) : partialProduct a b 16 = b * 2 ^ 16 := by
  rw [partialProduct, Nat.div_eq_of_lt hb, Nat.mod_eq_of_lt hb, mul_zero, zero_add]

/-- The product so far and the bits left behind the top one stay below the top bit of Rd, with room for another `a`. -/
theorem partialProduct_room {h c : Nat} (ha : a < 2 ^ 16) (hn : n < 16) (hh : h < 2 ^ (15 - n)) (hc : c < 2 ^ n) :
    a * h + c * 2 ^ (31 - n) + 2 ^ 16 ≤ 2 ^ 31 := by
  have product : a * h + 2 ^ 16 ≤ 2 ^ (31 - n) := calc
    a * h + 2 ^ 16 ≤ 2 ^ 16 * h + 2 ^ 16 := Nat.add_le_add_right (Nat.mul_le_mul_right h ha.le) _
    _ = 2 ^ 16 * (h + 1) := (Nat.mul_succ _ _).symm
    _ ≤ 2 ^ 16 * 2 ^ (15 - n) := Nat.mul_le_mul_left _ hh
    _ = 2 ^ (31 - n) := by rw [← pow_add]; congr 1; omega
  have rest : c * 2 ^ (31 - n) + 2 ^ (31 - n) ≤ 2 ^ 31 := calc
    c * 2 ^ (31 - n) + 2 ^ (31 - n) = (c + 1) * 2 ^ (31 - n) := (Nat.succ_mul _ _).symm
    _ ≤ 2 ^ n * 2 ^ (31 - n) := Nat.mul_le_mul_right _ hc
    _ = 2 ^ 31 := by rw [← pow_add]; congr 1; omega
  omega

/-- A multiply step uses one more bit of the multiplier, the top bit of Rd. -/
theorem partialProduct_step (ha : a < 2 ^ 16) (hb : b < 2 ^ 16) (hn : n < 16) :
    partialProduct a b n = (2 * partialProduct a b (n + 1) +
      if 2 ^ 31 ≤ partialProduct a b (n + 1) then a else 0) % 2 ^ 32 := by
  have hq : 2 ^ (32 - n) = 2 * 2 ^ (31 - n) := by rw [← pow_succ']; congr 1; omega
  have htop : 2 ^ n * 2 ^ (31 - n) = 2 ^ 31 := by rw [← pow_add]; congr 1; omega
  have hh : b / 2 ^ (n + 1) < 2 ^ (15 - n) := Nat.div_lt_of_lt_mul <| by
    rwa [← pow_add, show n + 1 + (15 - n) = 16 by omega]
  have room := partialProduct_room ha hn hh (Nat.mod_lt b (Nat.two_pow_pos n))
  have hdiv : b / 2 ^ n = 2 * (b / 2 ^ (n + 1)) + b / 2 ^ n % 2 := by
    rw [pow_succ, ← Nat.div_div_eq_div_mul]
    omega
  have hbefore : partialProduct a b (n + 1) =
      a * (b / 2 ^ (n + 1)) + b % 2 ^ n * 2 ^ (31 - n) + b / 2 ^ n % 2 * 2 ^ 31 := by
    rw [partialProduct, Nat.mod_pow_succ, ← htop, show 32 - (n + 1) = 31 - n by omega]
    ring
  have hafter : partialProduct a b n =
      2 * (a * (b / 2 ^ (n + 1)) + b % 2 ^ n * 2 ^ (31 - n)) + b / 2 ^ n % 2 * a := by
    conv_lhs => rw [partialProduct, hdiv, hq]
    ring
  rw [hbefore, hafter]
  obtain bit | bit : b / 2 ^ n % 2 = 0 ∨ b / 2 ^ n % 2 = 1 := Nat.mod_two_eq_zero_or_one _
  · rw [bit, if_neg (by omega)]
    omega
  · rw [bit, if_pos (by omega)]
    omega

/-- A state in the middle of the multiplication: `n` bits of the multiplier `b` are left, and N is the next one. -/
structure Multiplying (s : State) (rd rs : Reg) (a b n : Nat) : Prop where
  latch : s.latch = none
  extend : s.flags.x = false
  multiplicand : (s.gpr rs 0).toNat = a
  product : (s.gpr rd 0).toNat = partialProduct a b n
  negative : s.flags.n = true ↔ 2 ^ 31 ≤ (s.gpr rd 0).toNat

/-- One multiply step uses one bit of the multiplier. -/
theorem Multiplying.step (h : Multiplying s rd rs a b (n + 1)) (hd : rd ≠ pcReg) (hs : rs ≠ pcReg) (hds : rd ≠ rs)
    (ha : a < 2 ^ 16) (hb : b < 2 ^ 16) (hn : n < 16) :
    ∃ t, exec (.mstep rd rs) s = .next t ∧ Multiplying t rd rs a b n ∧ Kept s t (only rd) := by
  obtain ⟨r, g, ⟨hr, hg⟩, hw, -⟩ := (multiplyAndDivideSteps s rd rs hd h.extend ⟨h.latch, fun e => absurd e hs⟩).1
  obtain ⟨t, ht, hv, hf, he, hk⟩ := hw hd
  rw [replaceLow_dword] at hv
  refine ⟨t, ht, ⟨he.latch, he.extend, ?_, ?_, ?_⟩, hk⟩
  · rw [hk.registers rs hs hds.symm, h.multiplicand]
  · rw [hv, hr, State.gpr_of_ne_pc s hs _ 0, h.multiplicand, partialProduct_step ha hb hn, ← h.product]
    simp only [h.negative]
  · rw [hv, ← lowInt_dword_neg_iff]
    exact (hg.congr hf).negative

/-- As many multiply steps as bits are left finish the multiplication. -/
theorem Multiplying.run (hd : rd ≠ pcReg) (hs : rs ≠ pcReg) (hds : rd ≠ rs) (ha : a < 2 ^ 16) (hb : b < 2 ^ 16)
    (hn : n ≤ 16) (h : Multiplying s rd rs a b n) :
    ∃ t, (List.replicate n (Instr.mstep rd rs)).foldl (fun o i => andThen o (exec i)) (.next s) = .next t ∧
      Multiplying t rd rs a b 0 ∧ Kept s t (only rd) := by
  induction n generalizing s with
  | zero => exact ⟨s, rfl, h, .refl s _⟩
  | succ n ih =>
    obtain ⟨t, ht, hm, hk⟩ := h.step hd hs hds ha hb hn
    obtain ⟨u, hu, hm', hk'⟩ := ih (Nat.le_of_succ_le hn) hm
    refine ⟨u, ?_, hm', hk.trans hk'⟩
    rw [List.replicate_succ, List.foldl_cons, andThen_next, ht]
    exact hu

end SixteenSteps

/-- Settles O44, by induction on the bits of the multiplier that are left. -/
theorem sixteenMultiplyStepsMultiply : Obligations.SixteenMultiplyStepsMultiply := by
  intro s rd rs a b hd hs hds ha hb hl hx hrs hrd hneg
  have hproduct : (s.gpr rd 0).toNat = b * 2 ^ 16 := by
    rw [hrd, BitVec.toNat_ofNat]
    omega
  have start : Multiplying s rd rs a b 16 :=
    { latch := hl
      extend := hx
      multiplicand := by rw [hrs, BitVec.toNat_ofNat]; omega
      product := by rw [hproduct, partialProduct_sixteen a hb]
      negative := by rw [hneg, hproduct]; omega }
  obtain ⟨t, ht, hm, hk⟩ := start.run hd hs hds ha hb le_rfl
  refine ⟨t, ht, ?_, hk⟩
  rw [← partialProduct_zero, ← hm.product, BitVec.ofNat_toNat, BitVec.setWidth_eq]

end Sys2Proof.Machine

/-! PROOFS. The computations of the register, quick and memory forms, and the add, subtract, compare, BOUND, ABS, ADDI
and Scc instructions. -/

namespace Sys2Proof.Machine

/-! ## Computations behind their operand forms (rules R131 to R136, R230) -/

/-- What a computation is to do: a relation of the source and destination operands as the registers or memory hold them,
the old flags, the result and the new flags. -/
abbrev AluSpec := Word → Word → Flags → Word → Flags → Prop

/-- The relation says nothing of the new X, which the end of the instruction clears (rule R42). -/
def AluSpec.IgnoresExtend (spec : AluSpec) : Prop :=
  ∀ v d f r g, spec v d f r g → spec v d f r { g with x := false }

/-- Behind the extension `source` of its source operand, `alu` computes at size `m` what `spec` says. -/
structure Alu.Implements (alu : Alu) (source : Word → Word) (m : Size) (spec : AluSpec) : Prop where
  result : ∀ v d f, spec v d f (alu (source v) (truncTo m d) f).1 (alu (source v) (truncTo m d) f).2
  enables : alu.KeepsEnables

section Forms

variable {alu : Alu} {source : Word → Word} {m k : Size} {spec : AluSpec}
variable {s u : State} {rd rs : Reg} {src : SrcMode} {v next : Word}

theorem noPcDest_of (h : rd ≠ pcReg) (o : Result State) : noPcDest rd o = o := refuseIf_of (by simpa using h) _ _

theorem noExtend_of (h : s.flags.x = false) (o : Result State) : noExtend s o = o := refuseIf_of h _ _

/-- An instruction that cannot write PC uses it as its source only. -/
theorem Ready.of_ne_pc (h : Ready s (rs = pcReg)) (hr : rd ≠ pcReg) : Ready s (rd = pcReg ∨ rs = pcReg) :=
  ⟨h.1, fun e => h.2 (e.resolve_left hr)⟩

theorem Alu.Implements.regAlu_computes (ha : alu.Implements source m spec) (h : Ready s (rd = pcReg ∨ rs = pcReg)) :
    Computes (regAlu m source alu rd rs s) s m rd (s.pc + 2)
      (spec (s.gpr rs (s.pc + 2)) (s.gpr rd (s.pc + 2)) s.flags) := by
  unfold regAlu
  rw [regForm_of h (by simp)]
  exact applyAlu_computes (ha.result _ _ _) ha.enables

theorem Alu.Implements.quickAlu_computes (ha : alu.Implements id .d spec) (h : Ready s (rd = pcReg)) :
    Computes (quickAlu alu rd v s) s .d rd (s.pc + 2) (spec v (s.gpr rd (s.pc + 2)) s.flags) := by
  unfold quickAlu
  rw [regForm_of h (by simp)]
  exact applyAlu_computes (ha.result v _ _) ha.enables

theorem Alu.Implements.memAlu_computes (ha : alu.Implements source m spec) (hs : rd = pcReg → s.slot = .none)
    (h : loadSource k src (fun r => r == rd) (some rd) s = .next (v, u))
    (hn : next = s.pc + 2 + BitVec.ofNat 32 (src.immLength k)) :
    Computes (memAlu k m source alu rd src s) u m rd next (spec v (u.gpr rd next) s.flags) := by
  unfold memAlu
  rw [slotGuard_of (by simpa using hs), h, andThen_next, hn, ← (loadSource_worked (v, u) h).flags]
  exact applyAlu_computes (ha.result _ _ _) ha.enables

theorem Alu.Implements.applyTest_tests (ha : alu.Implements source m spec) (hx : spec.IgnoresExtend) :
    Tests (applyTest m alu rd (source v) next u) u next fun g => ∃ r, spec v (u.gpr rd next) u.flags r g :=
  Machine.applyTest_tests ⟨_, hx _ _ _ _ _ (ha.result v _ _)⟩ ha.enables

theorem Alu.Implements.regTest_tests (ha : alu.Implements source m spec) (hx : spec.IgnoresExtend)
    (h : Ready s (rd = pcReg ∨ rs = pcReg)) :
    Tests (regTest m source alu rd rs s) s (s.pc + 2) fun g =>
      ∃ r, spec (s.gpr rs (s.pc + 2)) (s.gpr rd (s.pc + 2)) s.flags r g := by
  unfold regTest
  rw [regForm_of h (by simp)]
  exact ha.applyTest_tests hx

theorem Alu.Implements.quickTest_tests (ha : alu.Implements id .d spec) (hx : spec.IgnoresExtend)
    (h : Ready s (rd = pcReg)) :
    Tests (quickTest alu rd v s) s (s.pc + 2) fun g => ∃ r, spec v (s.gpr rd (s.pc + 2)) s.flags r g := by
  unfold quickTest
  rw [regForm_of h (by simp)]
  exact ha.applyTest_tests hx

theorem Alu.Implements.memTest_tests (ha : alu.Implements source m spec) (hx : spec.IgnoresExtend)
    (hs : rd = pcReg → s.slot = .none)
    (h : loadSource k src (fun r => r == rd) none s = .next (v, u))
    (hn : next = s.pc + 2 + BitVec.ofNat 32 (src.immLength k)) :
    Tests (memTest k m source alu rd src s) u next fun g => ∃ r, spec v (u.gpr rd next) s.flags r g := by
  unfold memTest
  rw [slotGuard_of (by simpa using hs), h, andThen_next, hn, ← (loadSource_worked (v, u) h).flags]
  exact ha.applyTest_tests hx

end Forms

/-! ## Sums and differences (rules R37, R38, R231, R236, R243, R247) -/

section Arithmetic

variable {m : Size} {s s' d d' r : Word} {f g : Flags} {source : Word → Word}

theorem lowNat_add_carry (m : Size) (d s : Word) (f : Flags) :
    lowNat m (d + s + carryIn f) = (lowNat m d + lowNat m s + extendCarry f) % 2 ^ sizeBits m := by
  unfold lowNat
  rw [BitVec.toNat_add, BitVec.toNat_add, carryIn_toNat]
  cases m <;> simp only [sizeBits, Nat.reducePow] <;> omega

theorem lowNat_signExtendFrom (k : Size) (v : Word) : lowNat m (signExtendFrom k v) = lowNat m (signExtended k v) := by
  rw [signExtendFrom_eq]

theorem lowNat_truncTo_extended (k : Size) (v : Word) : lowNat m (truncTo k v) = lowNat m (zeroExtended k v) := by
  rw [truncTo_eq]

/-- A sum depends on the low bits of its operands only. -/
theorem IsSum.congr_operands (h : IsSum m s d f r g) (hs : lowNat m s = lowNat m s') (hd : lowNat m d = lowNat m d') :
    IsSum m s' d' f r g where
  result := by rw [← hs, ← hd]; exact h.result
  negative := h.negative
  zero := h.zero
  overflow := by rw [← lowInt_inj.mpr hs, ← lowInt_inj.mpr hd]; exact h.overflow
  carry := by rw [← hs, ← hd]; exact h.carry

/-- A difference depends on the low bits of its operands only. -/
theorem IsDifference.congr_operands (h : IsDifference m s d f r g) (hs : lowNat m s = lowNat m s')
    (hd : lowNat m d = lowNat m d') : IsDifference m s' d' f r g where
  result := by rw [← hs, ← hd]; exact h.result
  negative := h.negative
  zero := h.zero
  overflow := by rw [← lowInt_inj.mpr hs, ← lowInt_inj.mpr hd]; exact h.overflow
  borrow := by rw [← hs, ← hd]; exact h.borrow

theorem IsDifference.ignoresExtend {value : Word → Word} : AluSpec.IgnoresExtend fun v => IsDifference m (value v) :=
  fun _ _ _ _ _ h => ⟨h.result, h.negative, h.zero, h.overflow, h.borrow⟩

theorem addAlu_implements (value : Word → Word) (hs : ∀ v, lowNat m (source v) = lowNat m (value v)) :
    (addAlu m).Implements source m fun v => IsSum m (value v) where
  result v d f :=
    (addFlags_spec m _ _ _ f ((truncTo_toNat m _).trans (lowNat_add_carry m _ _ f))).congr_operands (hs v)
      (lowNat_truncTo m d)
  enables _ _ _ := ⟨rfl, rfl, rfl⟩

/-- The difference as the model computes it, with its flags (rules R38, R247). -/
theorem subFlags_difference (m : Size) (s d : Word) (f : Flags) :
    IsDifference m s d f (truncTo m (d - s - carryIn f)) (subFlags m s d (truncTo m (d - s - carryIn f)) f) :=
  subFlags_spec m s d _ f (by rw [truncTo_toNat, lowNat_sub_carry])

theorem subAlu_implements (value : Word → Word) (hs : ∀ v, lowNat m (source v) = lowNat m (value v)) :
    (subAlu m).Implements source m fun v => IsDifference m (value v) where
  result v d f := (subFlags_difference m _ _ f).congr_operands (hs v) (lowNat_truncTo m d)
  enables _ _ _ := ⟨rfl, rfl, rfl⟩

theorem negAlu_implements : (negAlu m).Implements (truncTo m) m fun v _ => IsDifference m v 0 where
  result v _ f := (subFlags_difference m _ 0 f).congr_operands (lowNat_truncTo m v) rfl
  enables _ _ _ := ⟨rfl, rfl, rfl⟩

end Arithmetic

/-- Settles O38: each form computes with `addAlu` behind its extension of the source. -/
theorem additionInstructions : Obligations.AdditionInstructions := by
  refine fun s rd => ⟨fun imm h => ?_, fun m rs h => ?_, fun z rs h => ?_, fun z rs h => ?_,
    fun hs => ⟨fun m src v u next h hn => ?_, fun z src v u next h hn => ?_, fun z src v u next h hn => ?_⟩⟩
  · rw [BitVec.ofNat_toNat]
    exact (addAlu_implements id fun _ => rfl).quickAlu_computes h
  · exact (addAlu_implements id (lowNat_truncTo m)).regAlu_computes h
  · exact (addAlu_implements _ (lowNat_signExtendFrom z.toSize)).regAlu_computes h
  · exact (addAlu_implements _ (lowNat_truncTo_extended z.toSize)).regAlu_computes h
  · exact (addAlu_implements id fun _ => rfl).memAlu_computes hs h hn
  · exact (addAlu_implements _ (lowNat_signExtendFrom z.toSize)).memAlu_computes hs h hn
  · exact (addAlu_implements id fun _ => rfl).memAlu_computes hs h hn

/-- Settles O39: each form computes with `subAlu` behind its extension of the source, NEG with `negAlu`. -/
theorem subtractionInstructions : Obligations.SubtractionInstructions := by
  refine fun s rd => ⟨fun imm h => ?_, fun m rs h => ?_, fun z rs h => ?_, fun z rs h => ?_,
    fun hs => ⟨fun m src v u next h hn => ?_, fun z src v u next h hn => ?_, fun z src v u next h hn => ?_⟩,
    fun m rs hr h => ?_⟩
  · rw [BitVec.ofNat_toNat]
    exact (subAlu_implements id fun _ => rfl).quickAlu_computes h
  · exact (subAlu_implements id (lowNat_truncTo m)).regAlu_computes h
  · exact (subAlu_implements _ (lowNat_signExtendFrom z.toSize)).regAlu_computes h
  · exact (subAlu_implements _ (lowNat_truncTo_extended z.toSize)).regAlu_computes h
  · exact (subAlu_implements id fun _ => rfl).memAlu_computes hs h hn
  · exact (subAlu_implements _ (lowNat_signExtendFrom z.toSize)).memAlu_computes hs h hn
  · exact (subAlu_implements id fun _ => rfl).memAlu_computes hs h hn
  · change Computes (noPcDest rd _) _ _ _ _ _
    rw [noPcDest_of hr]
    exact negAlu_implements.regAlu_computes (h.of_ne_pc hr)

/-- Settles O40: each form tests with `subAlu` behind its extension of the source. -/
theorem comparisonInstructions : Obligations.ComparisonInstructions := by
  refine fun s rd => ⟨fun imm h => ?_, fun m rs h => ?_,
    fun hs => ⟨fun m src v u next h hn => ?_, fun z src v u next h hn => ?_, fun z src v u next h hn => ?_⟩⟩
  · exact (subAlu_implements id fun _ => rfl).quickTest_tests IsDifference.ignoresExtend h
  · exact (subAlu_implements id (lowNat_truncTo m)).regTest_tests IsDifference.ignoresExtend h
  · exact (subAlu_implements id fun _ => rfl).memTest_tests IsDifference.ignoresExtend hs h hn
  · exact (subAlu_implements _ (lowNat_signExtendFrom z.toSize)).memTest_tests IsDifference.ignoresExtend hs h hn
  · exact (subAlu_implements id fun _ => rfl).memTest_tests IsDifference.ignoresExtend hs h hn

/-! ## BOUND, ABS, ADDI and Scc (rules R235, R245, R246, R283) -/

/-- A value of the operands with the general flags (rules R36, R43). -/
theorem plainAlu_implements {op : Word → Word → Word} {source : Word → Word} {m : Size}
    {value : Word → Word → Word → Prop} (h : ∀ v d, value v d (op (source v) (truncTo m d))) :
    (plainAlu m op).Implements source m fun v d f r g => value v d r ∧ IsGeneral m f r g where
  result v d f := ⟨h v d, generalFlags_spec m _ f⟩
  enables _ _ _ := ⟨rfl, rfl, rfl⟩

theorem boundAlu_implements {source : Word → Word} {value : Word → Nat} (h : ∀ v, (source v).toNat = value v) :
    boundAlu.Implements source .d fun v d f r g => r.toNat = min d.toNat (value v) ∧ IsGeneral .d f r g :=
  plainAlu_implements fun v d => by
    change (if d < source v then d else source v).toNat = _
    rw [← h v]
    by_cases hd : d < source v
    · rw [if_pos hd, min_eq_left (BitVec.le_def.mp (BitVec.le_of_lt hd))]
    · rw [if_neg hd, min_eq_right (BitVec.le_def.mp (BitVec.not_lt.mp hd))]

/-- The absolute value as the model computes it; that of the least number is itself (rule R245). -/
theorem abs_toNat (v : Word) : (if v.getLsbD 31 then 0 - v else v).toNat = v.toInt.natAbs := by
  have hm : v.getLsbD 31 = true ↔ 2 ^ 31 ≤ v.toNat := (msbOf_iff .d v).trans (lowInt_dword_neg_iff v)
  rw [BitVec.toInt_eq_toNat_cond]
  by_cases h : v.getLsbD 31 = true
  · have htop := hm.mp h
    rw [if_pos h, if_neg (by omega), show 0 - v = -v from BitVec.zero_sub v, BitVec.toNat_neg]
    omega
  · have hlow := mt hm.mpr h
    rw [if_neg h, if_pos (by omega)]
    rfl

theorem absAlu_implements :
    absAlu.Implements id .d fun v _ f r g => r.toNat = v.toInt.natAbs ∧ IsGeneral .d f r g :=
  plainAlu_implements fun v _ => abs_toNat v

/-- Settles O42: BOUND and ABS by the values of `boundAlu` and `absAlu`, ADDI and Scc by the register write. -/
theorem boundAbsAddiAndSetOnCondition : Obligations.BoundAbsAddiAndSetOnCondition := by
  refine fun s rd => ⟨fun m hr hx => ⟨fun rs h => ?_, fun src v u next h hn => ?_⟩, fun rs hx h => ?_,
    fun m rs hr hx h => ?_, fun c hr h => ?_⟩
  · change Computes (noPcDest rd (noExtend s _)) _ _ _ _ _
    rw [noPcDest_of hr, noExtend_of hx, State.gpr_of_ne_pc s hr 0 (s.pc + 2)]
    exact (boundAlu_implements (truncTo_toNat m)).regAlu_computes (h.of_ne_pc hr)
  · change Computes (noPcDest rd (noExtend s _)) _ _ _ _ _
    rw [noPcDest_of hr, noExtend_of hx, State.gpr_of_ne_pc u hr 0 next]
    exact (boundAlu_implements fun _ => rfl).memAlu_computes (fun e => absurd e hr) h hn
  · change Computes (noExtend s _) _ _ _ _ _
    rw [noExtend_of hx]
    exact absAlu_implements.regAlu_computes h
  · change Sets (unprefixed s (noPcDest rd (noExtend s (slotGuard _ s _)))) _ _ _ _ _
    rw [unprefixed_of h.1, noPcDest_of hr, noExtend_of hx, slotGuard_of fun e => h.2 (by simpa using e), scaleBy_eq]
    cases m <;> exact s.setGpr_sets hr _ _ _
  · change Sets (noPcDest rd (unprefixed s _)) _ _ _ _ _
    rw [noPcDest_of hr, unprefixed_of h.1]
    exact s.setGpr_sets hr _ _ _

end Sys2Proof.Machine

/-! PROOFS. Moves to general registers, the logic and shift instructions, SWAP and LZ. -/

namespace Sys2Proof.Machine

/-! ## Moves to general registers (rules R260 to R262, R267, R268, R203) -/

theorem moveAlu_implements {m : Size} {source value : Word → Word} (h : ∀ v, source v = value v) :
    (moveAlu m).Implements source m fun v _ f r g => r = value v ∧ IsGeneral m f r g :=
  plainAlu_implements fun v _ => h v

/-- POP SP would increment the register it loads (rule R203, decision D17). -/
theorem refuses_popSp (s : State) : refuses (exec (.popReg spReg) s) := by
  obtain ⟨alone, behind, -⟩ := meaninglessOperandsAreRefused (.popReg spReg) s
  have used : ∃ r, AddrMode.inc spReg = .inc r ∧ usesRegister (.popReg spReg) r := ⟨spReg, rfl, .inl rfl⟩
  cases hl : s.latch with
  | none => exact alone (.inc spReg) rfl hl (.inr (.inr used))
  | some l => exact behind (.inc spReg) l rfl hl (.inr (.inr (.inl used)))

/-- Settles O45: each form is `moveAlu` behind its extension of the source. -/
theorem movesToGeneralRegisters : Obligations.MovesToGeneralRegisters := by
  refine fun s rd => ⟨refuses_popSp s, fun imm h => ?_, fun m rs h => ?_, fun z rs h => ?_, fun z rs h => ?_,
    fun hs => ⟨fun m src v u next h hn => ?_, fun z src v u next h hn => ?_, fun z src v u next h hn => ?_,
      fun v u h => ?_⟩⟩
  · exact (moveAlu_implements fun _ => rfl).quickAlu_computes h
  · exact (moveAlu_implements (truncTo_eq m)).regAlu_computes h
  · exact (moveAlu_implements (signExtendFrom_eq z.toSize)).regAlu_computes h
  · exact (moveAlu_implements (truncTo_eq z.toSize)).regAlu_computes h
  · exact (moveAlu_implements fun _ => rfl).memAlu_computes hs h hn
  · exact (moveAlu_implements (signExtendFrom_eq z.toSize)).memAlu_computes hs h hn
  · exact (moveAlu_implements fun _ => rfl).memAlu_computes hs h hn
  · exact (moveAlu_implements fun _ => rfl).memAlu_computes hs h (BitVec.add_zero _).symm

/-! ## Values of a size -/

theorem truncTo_and (m : Size) (v w : Word) : truncTo m v &&& truncTo m w = truncTo m (v &&& w) := by
  cases m <;> simp [truncTo, BitVec.setWidth_and]

theorem truncTo_or (m : Size) (v w : Word) : truncTo m v ||| truncTo m w = truncTo m (v ||| w) := by
  cases m <;> simp [truncTo, BitVec.setWidth_or]

/-- A value of size `m` is what truncation leaves. -/
theorem truncTo_eq_self {m : Size} {v : Word} (h : v.toNat < 2 ^ sizeBits m) : truncTo m v = v :=
  BitVec.eq_of_toNat_eq (by rw [truncTo_toNat, lowNat, Nat.mod_eq_of_lt h])

/-- What `n` bytes read over the bus hold fits them (rule R62). -/
theorem Bus.read_lt (b : Bus) (n : Nat) (a : Word) : (b.read n a).1.toNat < 2 ^ (8 * n) := by
  induction n generalizing b a with
  | zero => simp [Bus.read]
  | succ n ih =>
    have upper : ((Bus.read (b.goTo n (a + 1)) n (a + 1)).1 <<< 8).toNat < 2 ^ (8 * (n + 1)) := calc
      _ ≤ (Bus.read (b.goTo n (a + 1)) n (a + 1)).1.toNat * 2 ^ 8 := by
        rw [BitVec.toNat_shiftLeft, Nat.shiftLeft_eq]
        exact Nat.mod_le _ _
      _ < 2 ^ (8 * n) * 2 ^ 8 := Nat.mul_lt_mul_of_pos_right (ih _ _) (by decide)
      _ = 2 ^ (8 * (n + 1)) := (pow_add 2 (8 * n) 8).symm
    have lower : ((b.mem.byteAt (location a)).setWidth 32).toNat < 2 ^ (8 * (n + 1)) := by
      rw [BitVec.toNat_setWidth_of_le (by decide)]
      exact (b.mem.byteAt (location a)).isLt.trans_le (Nat.pow_le_pow_right (by decide) (by omega))
    rw [Bus.read, BitVec.toNat_or]
    exact Nat.or_lt_two_pow upper lower

/-- A source of size `m` has zeros above its size (rules R62, R135). -/
theorem loadSource_lt {m : Size} {src : SrcMode} {busy : Reg → Bool} {dest : Option Reg} {s u : State} {v : Word}
    (h : loadSource m src busy dest s = .next (v, u)) : v.toNat < 2 ^ sizeBits m := by
  cases src with
  | mem a =>
    obtain ⟨⟨ea, t⟩, -, hr⟩ := andThen_eq_next.mp h
    have fits := t.bus.advance.read_lt m.bytes ea
    rw [← (memRead_eq_next hr).1] at fits
    cases m <;> exact fits
  | imm w =>
    simp only [loadSource, immediate, refuseIf_eq_next, slotGuard_eq_next] at h
    obtain ⟨-, -, h⟩ := h
    cases h
    exact truncTo_toNat m w ▸ lowNat_lt m w

/-- A source in memory is its own truncation. -/
theorem memAlu_id (m : Size) (alu : Alu) (rd : Reg) (src : SrcMode) (s : State) :
    memAlu m m id alu rd src s = memAlu m m (truncTo m) alu rd src s := by
  unfold memAlu
  cases h : loadSource m src (fun r => r == rd) (some rd) s with
  | next p =>
    obtain ⟨v, t⟩ := p
    have hv : truncTo m v = v := truncTo_eq_self (loadSource_lt h)
    exact congrArg (fun w => slotGuard _ s (applyAlu m alu rd w _ t)) hv.symm
  | fault f => rfl
  | refused r => rfl

/-! ## Logic (rules R269 to R274) -/

/-- An operation on each bit may be done before or after truncation (rules R269, R271). -/
theorem bitwiseAlu_implements {m : Size} {op : Word → Word → Word}
    (h : ∀ d v, op (truncTo m d) (truncTo m v) = truncTo m (op d v)) :
    (plainAlu m fun v d => op d v).Implements (truncTo m) m fun v d f r g =>
      r = zeroExtended m (op d v) ∧ IsGeneral m f r g :=
  plainAlu_implements fun v d => (h d v).trans (truncTo_eq m _)

/-- A dword operation takes its operands as they are. -/
theorem dwordAlu_implements (op : Word → Word → Word) :
    (plainAlu .d fun v d => op d v).Implements id .d fun v d f r g => r = op d v ∧ IsGeneral .d f r g :=
  plainAlu_implements fun _ _ => rfl

section NoPc

variable {alu : Alu} {source : Word → Word} {m : Size} {spec : AluSpec} {s : State} {rd rs : Reg} {v : Word}

/-- A register computation that does not support PC as its destination (rule R167). -/
theorem Alu.Implements.regAlu_computes_noPc (ha : alu.Implements source m spec) (hr : rd ≠ pcReg)
    (h : Ready s (rs = pcReg)) :
    Computes (noPcDest rd (regAlu m source alu rd rs s)) s m rd (s.pc + 2)
      (spec (s.gpr rs (s.pc + 2)) (s.gpr rd 0) s.flags) := by
  rw [noPcDest_of hr, State.gpr_of_ne_pc s hr 0 (s.pc + 2)]
  exact ha.regAlu_computes (h.of_ne_pc hr)

/-- A quick computation that does not support PC as its destination (rule R167). -/
theorem Alu.Implements.quickAlu_computes_noPc (ha : alu.Implements id .d spec) (hr : rd ≠ pcReg)
    (h : Ready s False) :
    Computes (noPcDest rd (quickAlu alu rd v s)) s .d rd (s.pc + 2) (spec v (s.gpr rd 0) s.flags) := by
  rw [noPcDest_of hr, State.gpr_of_ne_pc s hr 0 (s.pc + 2)]
  exact ha.quickAlu_computes ⟨h.1, fun e => absurd e hr⟩

end NoPc

theorem notAlu_implements :
    (swapAlu 8#4).Implements id .d fun _ d f r g => r.toNat = 2 ^ 32 - 1 - d.toNat ∧ IsGeneral .d f r g :=
  plainAlu_implements fun _ _ => BitVec.toNat_not

/-- Settles O46: AND, OR and XOR work bit by bit, NOT is SWAP with option N. -/
theorem logicInstructions : Obligations.LogicInstructions := by
  refine fun s rd => ⟨fun imm h => ⟨?_, ?_⟩, fun m rs h => ⟨?_, ?_⟩, fun rs h => ?_, fun hr h => ?_,
    fun hs m src v u next h hn => ⟨?_, ?_⟩⟩
  · exact (dwordAlu_implements (· &&& ·)).quickAlu_computes h
  · exact (dwordAlu_implements (· ||| ·)).quickAlu_computes h
  · exact (bitwiseAlu_implements (truncTo_and m)).regAlu_computes h
  · exact (bitwiseAlu_implements (truncTo_or m)).regAlu_computes h
  · exact (dwordAlu_implements (· ^^^ ·)).regAlu_computes h
  · exact notAlu_implements.quickAlu_computes_noPc hr h
  · change Computes (memAlu m m id (andAlu m) rd src s) _ _ _ _ _
    rw [memAlu_id]
    exact (bitwiseAlu_implements (truncTo_and m)).memAlu_computes hs h hn
  · change Computes (memAlu m m id (orAlu m) rd src s) _ _ _ _ _
    rw [memAlu_id]
    exact (bitwiseAlu_implements (truncTo_or m)).memAlu_computes hs h hn

/-! ## Shifts (rules R275 to R280) -/

theorem shiftCount_toNat (v : Word) : (shiftCount v).toNat = v.toNat % 64 := by
  rw [shiftCount, BitVec.toNat_and]
  exact Nat.and_two_pow_sub_one_eq_mod _ 6

theorem lowNat_dword (v : Word) : lowNat .d v = v.toNat := Nat.mod_eq_of_lt v.isLt

theorem lowInt_dword (v : Word) : lowInt .d v = v.toInt := v.toInt_eq_toNat_bmod.symm

/-- A sign-extended value is the number in its low bits (rule R10). -/
theorem signExtended_toInt (m : Size) (v : Word) : (signExtended m v).toInt = lowInt m v := by
  have h := lowNat_lt m v
  have range : -2 ^ 31 ≤ lowInt m v ∧ lowInt m v < 2 ^ 31 := by
    rw [lowInt_eq]
    cases m <;> simp only [sizeBits] at * <;> split_ifs <;> omega
  exact BitVec.toInt_ofInt_eq_self (by decide) range.1 range.2

section Shifts

variable {m : Size} {source : Word → Word} {count : Word → Nat}

theorem lslAlu_implements (h : ∀ v, (source v).toNat = count v) :
    (lslAlu m).Implements source m fun v d f r g =>
      r.toNat = lowNat m d * 2 ^ count v % 2 ^ sizeBits m ∧ IsGeneral m f r g :=
  plainAlu_implements fun v d => by
    have fits : 2 ^ sizeBits m ∣ 2 ^ 32 := pow_dvd_pow 2 (by cases m <;> decide)
    rw [truncTo_toNat, lowNat, BitVec.toNat_shiftLeft, Nat.mod_mod_of_dvd _ fits, truncTo_toNat, Nat.shiftLeft_eq, h]

theorem lsrAlu_implements (h : ∀ v, (source v).toNat = count v) :
    (lsrAlu m).Implements source m fun v d f r g =>
      r.toNat = lowNat m d / 2 ^ count v ∧ IsGeneral m f r g :=
  plainAlu_implements fun v d => by
    rw [BitVec.toNat_ushiftRight, truncTo_toNat, Nat.shiftRight_eq_div_pow, h]

/-- Shifting copies of the sign in is division rounding down. -/
theorem asrAlu_implements (h : ∀ v, (source v).toNat = count v) :
    (asrAlu m).Implements source m fun v d f r g =>
      r = zeroExtended m (BitVec.ofInt 32 (lowInt m d / 2 ^ count v)) ∧ IsGeneral m f r g :=
  plainAlu_implements fun v d => by
    rw [truncTo_eq m, signExtendFrom_eq, BitVec.sshiftRight_eq, signExtended_toInt, lowInt_truncTo,
      Int.shiftRight_eq_div_pow, h, Nat.cast_pow, Nat.cast_ofNat]

end Shifts

/-- Settles O47: the shifts by register take their count from Rs, the quick ones from the field. -/
theorem shiftInstructions : Obligations.ShiftInstructions := by
  refine fun s rd => ⟨?_, fun n => ⟨fun hr h => ⟨?_, ?_⟩, fun h => ?_⟩⟩
  · rintro m rs k rfl
    exact ⟨fun hr h => ⟨(lslAlu_implements shiftCount_toNat).regAlu_computes_noPc hr h,
      (lsrAlu_implements shiftCount_toNat).regAlu_computes_noPc hr h⟩,
      (asrAlu_implements shiftCount_toNat).regAlu_computes⟩
  all_goals have hn : (n.setWidth 32).toNat = n.toNat := BitVec.toNat_setWidth_of_le (by decide)
  · rw [← hn, ← lowNat_dword]
    exact (lslAlu_implements fun _ => rfl).quickAlu_computes_noPc hr h
  · rw [← hn, ← lowNat_dword]
    exact (lsrAlu_implements fun _ => rfl).quickAlu_computes_noPc hr h
  · rw [← hn, ← lowInt_dword, ← zeroExtended_dword (BitVec.ofInt _ _)]
    exact (asrAlu_implements fun _ => rfl).quickAlu_computes h

/-! ## SWAP (rule R282) -/

/-- Bit `i` of what `f` yields is bit `i ^ k` of its argument. -/
def PermutesBits (f : Word → Word) (k : Nat) : Prop := ∀ v i, i < 32 → (f v).getLsbD i = v.getLsbD (i ^^^ k)

theorem xor_lt_32 {i k : Nat} (hi : i < 32) (hk : k < 32) : i ^^^ k < 32 :=
  Nat.xor_lt_two_pow (n := 5) hi hk

theorem PermutesBits.comp {f g : Word → Word} {j k : Nat} (hg : PermutesBits g k) (hf : PermutesBits f j)
    (hk : k < 32) : PermutesBits (fun v => g (f v)) (k ^^^ j) := fun v i hi => by
  rw [hg (f v) i hi, hf v _ (xor_lt_32 hi hk), Nat.xor_assoc]

/-- A permutation done or not. -/
theorem PermutesBits.ite {f : Word → Word} {k : Nat} (h : PermutesBits f k) (b : Bool) :
    PermutesBits (fun v => if b then f v else v) (if b then k else 0) := by
  cases b
  · exact fun v i _ => by simp
  · exact h

/-- Exchanging neighbouring groups of `k` bits, of which the mask selects the lower ones. -/
def exchangeGroups (k : Nat) (mask v : Word) : Word := ((v &&& mask) <<< k) ||| ((v >>> k) &&& mask)

/-- The mask selects the bits whose partner, `k` bits away, is above them; every other bit has its partner below. -/
abbrev MasksLowerGroups (k : Nat) (mask : Word) : Prop := ∀ i, i < 32 →
  if mask.getLsbD i then i ^^^ k = k + i ∧ (k ≤ i → mask.getLsbD (i - k) = false)
  else i ^^^ k = i - k ∧ k ≤ i ∧ mask.getLsbD (i - k) = true

theorem exchangeGroups_permutes {k : Nat} {mask : Word} (h : MasksLowerGroups k mask) :
    PermutesBits (exchangeGroups k mask) k := fun v i hi => by
  have hm := h i hi
  unfold exchangeGroups
  rw [BitVec.getLsbD_or, BitVec.getLsbD_shiftLeft, BitVec.getLsbD_and, BitVec.getLsbD_and, BitVec.getLsbD_ushiftRight]
  cases hb : mask.getLsbD i with
  | true =>
    simp only [hb, if_true] at hm
    obtain ⟨partner, below⟩ := hm
    rw [partner]
    by_cases hk : i < k
    · simp [hk]
    · simp [below (Nat.le_of_not_lt hk)]
  | false =>
    simp only [hb, Bool.false_eq_true, if_false] at hm
    obtain ⟨partner, above, below⟩ := hm
    rw [partner, below]
    simp [hi, above]

theorem reverseInBytes_permutes : PermutesBits reverseInBytes 7 := by
  have bits : PermutesBits (exchangeGroups 1 0x55555555#32) 1 := exchangeGroups_permutes (by decide)
  have pairs : PermutesBits (exchangeGroups 2 0x33333333#32) 2 := exchangeGroups_permutes (by decide)
  have nibbles : PermutesBits (exchangeGroups 4 0x0F0F0F0F#32) 4 := exchangeGroups_permutes (by decide)
  exact nibbles.comp (pairs.comp bits (by decide)) (by decide)

theorem swapBytes_permutes : PermutesBits swapBytes 8 :=
  exchangeGroups_permutes (k := 8) (mask := 0x00FF00FF#32) (by decide)

theorem swapHalves_permutes : PermutesBits swapHalves 16 := fun v i hi => by
  have partner : ∀ i, i < 32 → i ^^^ 16 = if i < 16 then 16 + i else i - 16 := by decide
  rw [swapHalves, BitVec.getLsbD_rotateLeft, partner i hi]
  by_cases h : i < 16 <;> simp [h, hi]

/-- The distance over which the options W, B and R exchange bits (rule R282). -/
def swapDistance (opts : BitVec 4) : Nat :=
  (if opts.getLsbD 2 then 16 else 0) ||| (if opts.getLsbD 1 then 8 else 0) ||| (if opts.getLsbD 0 then 7 else 0)

/-- The exchanges move bits over distances that have no bit in common. -/
theorem swapDistance_eq_xor (opts : BitVec 4) : swapDistance opts =
    (if opts.getLsbD 0 then 7 else 0) ^^^
      ((if opts.getLsbD 1 then 8 else 0) ^^^ (if opts.getLsbD 2 then 16 else 0)) := by
  unfold swapDistance
  cases opts.getLsbD 0 <;> cases opts.getLsbD 1 <;> cases opts.getLsbD 2 <;> rfl

theorem swapDistance_lt (opts : BitVec 4) : swapDistance opts < 32 := by
  unfold swapDistance
  cases opts.getLsbD 0 <;> cases opts.getLsbD 1 <;> cases opts.getLsbD 2 <;> decide

/-- The bits of SWAP: the inversion comes first, then the exchanges of W, B and R. -/
theorem swapValue_getLsbD (opts : BitVec 4) (v : Word) {i : Nat} (hi : i < 32) :
    (swapValue opts v).getLsbD i = Bool.xor (opts.getLsbD 3) (v.getLsbD (i ^^^ swapDistance opts)) := by
  have distance (b : Bool) {k : Nat} (hk : k < 32) : (if b then k else 0) < 32 := by cases b <;> simp [hk]
  have moved := (reverseInBytes_permutes.ite (opts.getLsbD 0)).comp
    ((swapBytes_permutes.ite (opts.getLsbD 1)).comp (swapHalves_permutes.ite (opts.getLsbD 2))
      (distance _ (by decide))) (distance _ (by decide))
  refine (moved (if opts.getLsbD 3 then ~~~v else v) i hi).trans ?_
  have hx : i ^^^ swapDistance opts < 32 := xor_lt_32 hi (swapDistance_lt opts)
  rw [← swapDistance_eq_xor]
  cases opts.getLsbD 3
  · simp
  · simp [hx]

/-! ## LZ (rule R281) -/

/-- The zeros at the top of the low `n` bits bound their value from above and from below. -/
theorem leadingZeros_bounds (v : Word) (n : Nat) : leadingZeros v n ≤ n ∧
    v.toNat % 2 ^ n < 2 ^ (n - leadingZeros v n) ∧
    (leadingZeros v n < n → 2 ^ (n - 1 - leadingZeros v n) ≤ v.toNat % 2 ^ n) := by
  induction n with
  | zero => simp [leadingZeros, Nat.mod_one]
  | succ n ih =>
    have top : v.getLsbD n = decide (v.toNat / 2 ^ n % 2 = 1) := Nat.testBit_eq_decide_div_mod_eq
    have bits : v.toNat % 2 ^ (n + 1) = v.toNat % 2 ^ n + 2 ^ n * (v.toNat / 2 ^ n % 2) := Nat.mod_pow_succ
    obtain ⟨hle, hlt, hge⟩ := ih
    unfold leadingZeros
    by_cases h : v.toNat / 2 ^ n % 2 = 1
    · rw [if_pos (by simpa [top] using h)]
      refine ⟨Nat.zero_le _, Nat.mod_lt _ (Nat.two_pow_pos _), fun _ => ?_⟩
      rw [bits, h, mul_one]
      exact Nat.le_add_left _ _
    · have clear : v.toNat / 2 ^ n % 2 = 0 := by omega
      rw [if_neg (by simpa [top] using h), bits, clear, mul_zero, add_zero, Nat.add_sub_add_right,
        show n + 1 - 1 - (leadingZeros v n + 1) = n - 1 - leadingZeros v n by omega]
      exact ⟨Nat.succ_le_succ hle, hlt, fun h => hge (Nat.lt_of_succ_lt_succ h)⟩

theorem lzAlu_implements : lzAlu.Implements id .d fun v _ f r g =>
    r.toNat ≤ 32 ∧ v.toNat < 2 ^ (32 - r.toNat) ∧ (r.toNat < 32 → 2 ^ (31 - r.toNat) ≤ v.toNat) ∧
      IsGeneral .d f r g where
  result v d f := by
    obtain ⟨hle, hlt, hge⟩ := leadingZeros_bounds v 32
    have hr : (lzAlu v d f).1.toNat = leadingZeros v 32 := Nat.mod_eq_of_lt (hle.trans_lt (by decide))
    rw [Nat.mod_eq_of_lt v.isLt] at hlt hge
    have hg := generalFlags_spec .d (lzAlu v d f).1 f
    rw [← hr] at hle hlt hge
    exact ⟨hle, hlt, hge, hg⟩
  enables _ _ _ := ⟨rfl, rfl, rfl⟩

theorem swapAlu_implements (opts : BitVec 4) : (swapAlu opts).Implements id .d fun _ d f r g =>
    (∀ i, i < 32 → r.getLsbD i = Bool.xor (opts.getLsbD 3) (d.getLsbD (i ^^^ swapDistance opts))) ∧
      IsGeneral .d f r g :=
  plainAlu_implements fun _ d _ hi => swapValue_getLsbD opts d hi

/-- Settles O48: SWAP by the bits of `swapValue`, LZ by the bounds on `leadingZeros`. -/
theorem swapAndLeadingZeros : Obligations.SwapAndLeadingZeros :=
  fun _ _ => ⟨fun opts hr h => (swapAlu_implements opts).quickAlu_computes_noPc hr h,
    fun _ h => lzAlu_implements.regAlu_computes h⟩

end Sys2Proof.Machine

/-! PROOFS. Registers to memory, and the register lists of MOVEM. -/

namespace Sys2Proof.Machine

/-! ## MOVE to memory and PUSH (rules R202, R263) -/

/-- A register to memory (rule R263). -/
theorem moveRegTo_stores {s u : State} {m : Size} {rs : Reg} {dst : AddrMode} {ea : Word}
    (hs : rs = pcReg → s.slot = .none) (ha : Alone s) (hw : s.mem.wf = true)
    (hr : resolve dst (BitVec.ofNat 32 m.bytes) (fun r => r == rs) none s = .next (ea, u))
    (hacc : u.accessible m.bytes ea = true) :
    ∃ t, moveRegTo m rs dst s = .next t ∧ bytesNat t m.bytes ea = lowNat m (s.gpr rs (s.pc + 2)) ∧
      Stored u t m.bytes ea ∧ Ends u t (s.pc + 2) false := by
  have e := resolve_eq_next hr
  have hau : Alone u := by rw [e]; exact ha
  have hwu : u.mem.wf = true := by rw [e]; exact hw
  have hbits : 2 ^ sizeBits m = 2 ^ (8 * m.bytes) := by cases m <;> rfl
  unfold moveRegTo storeTo lowNat
  rw [slotGuard_of (by simpa using hs), hr, andThen_next, hbits]
  exact memWrite_retire_stores (bytes_le_four m) hau hwu hacc (s.gpr rs (s.pc + 2)) (s.pc + 2) false

/-- PUSH of a register is the store behind its own `prefixWord` (rule R202). -/
theorem exec_pushReg_pushing {s : State} (h : Ready s True) (rs : Reg) :
    exec (.pushReg rs) s = moveRegTo .d rs (.inc spReg) (s.pushing (s.gpr spReg 0 - 4)) := by
  have hp := (indexedAndByteOffsetPrefixes s h).2 spReg (BitVec.ofInt 8 (-((Size.d).bytes : Int)))
  rw [add_pushOffset, State.gpr_of_ne_pc s (by decide) _ 0] at hp
  change andThen (exec (.bdapQuick spReg (BitVec.ofInt 8 (-((Size.d).bytes : Int)))) s)
    (moveRegTo .d rs (.inc spReg)) = _
  rw [hp, andThen_next]
  rfl

/-- PUSH SP would change the register it stores, wherever it stands (rule R202, decision D17). -/
theorem refuses_pushSp (s : State) : refuses (exec (.pushReg spReg) s) := by
  cases hl : s.latch with
  | some l => exact refuses_andThen (refuses_prefixForm (.inl (by rw [hl]; rfl)))
  | none =>
    by_cases hs : s.slot = .none
    · rw [exec_pushReg_pushing ⟨hl, fun _ => hs⟩]
      have used : usesRegister (.moveRegToMem .d spReg (.inc spReg)) spReg :=
        .inr (.inr (.inr (.inr (.inl ⟨_, _, rfl⟩))))
      exact (meaninglessOperandsAreRefused _ (s.pushing (s.gpr spReg 0 - 4))).2.1 _ _ rfl rfl
        (.inr (.inr (.inl ⟨spReg, rfl, used⟩)))
    · exact refuses_andThen (refuses_prefixForm_inSlot hs _)

/-- PUSH stores below SP, and SP is then that address (rule R202). -/
theorem exec_pushReg_stores {s : State} {rs : Reg} {sp : Word} (hr : rs ≠ spReg) (ha : Alone s) (hw : s.mem.wf = true)
    (h : Ready s True) (hsp : sp = s.gpr spReg 0 - 4) (hacc : s.accessible 4 sp = true) :
    ∃ t, exec (.pushReg rs) s = .next t ∧ bytesNat t 4 sp = (s.gpr rs (s.pc + 4)).toNat ∧
      t.gpr spReg 0 = sp ∧ Stored (s.setGpr spReg sp) t 4 sp ∧ Ends s t (s.pc + 4) false := by
  have hpc : s.pc + 4 = s.pc + 2 + 2 := (BitVec.add_assoc s.pc 2 2).symm
  have hres : resolve (.inc spReg) 4 (fun r => r == rs) none (s.pushing sp) =
      .next (sp, (s.pushing sp).setGpr spReg sp) :=
    resolve_inc_prefixed 4 none (l := ⟨sp, none, false⟩) rfl (fun _ hq => nomatch hq) (by decide) rfl
      (by simpa using hr.symm)
  rw [State.pushing_setGpr] at hres
  have hacc' : ((s.setGpr spReg sp).pushing sp).accessible 4 sp = true := by
    rwa [State.accessible_congr (t := (s.setGpr spReg sp).pushing sp) (s.setGpr_params _ _) (s.setGpr_aliasSeen _ _)]
  obtain ⟨t, ht, hb, hs, he⟩ := moveRegTo_stores (s := s.pushing sp) (m := .d) (fun _ => h.2 trivial) ha hw hres hacc'
  rw [exec_pushReg_pushing h, ← hsp, hpc]
  refine ⟨t, ht, hb.trans (lowNat_dword _), ?_, hs.of_pushing, { he with pc := ?_ }⟩
  · rw [hs.of_pushing.registers spReg (by decide), State.gpr_setGpr_self _ (by decide)]
  · rw [he.pc, ← State.pushing_setGpr, State.setGpr_slot]
    rfl

/-- Settles O56: MOVE stores at its resolved operand, PUSH behind the `prefixWord` it begins with. -/
theorem registersToMemory : Obligations.RegistersToMemory := by
  refine ⟨fun s u m rs dst ea hs ha hw hr hacc => ?_, fun s rs sp hr ha hw h hsp hacc => ?_, refuses_pushSp⟩
  · rw [← bytes_eq_sizeBits] at *
    exact moveRegTo_stores hs ha hw hr hacc
  · exact exec_pushReg_stores hr ha hw h hsp hacc

/-! ## Adjacent ranges of bytes -/

theorem add_ofNat_add (a : Word) (n k : Nat) :
    a + BitVec.ofNat 32 n + BitVec.ofNat 32 k = a + BitVec.ofNat 32 (n + k) := by
  rw [BitVec.add_assoc, BitVec.ofNat_add]

/-- A range of bytes is two adjacent ones. -/
theorem forall_byte_add {P : Word → Prop} {n m : Nat} {a : Word} :
    (∀ k, k < n + m → P (a + BitVec.ofNat 32 k)) ↔
      (∀ k, k < n → P (a + BitVec.ofNat 32 k)) ∧ ∀ k, k < m → P (a + BitVec.ofNat 32 n + BitVec.ofNat 32 k) := by
  simp only [add_ofNat_add]
  refine ⟨fun h => ⟨fun k hk => h k (by omega), fun k hk => h (n + k) (by omega)⟩, fun ⟨h, h'⟩ k hk => ?_⟩
  by_cases hn : k < n
  · exact h k hn
  · have := h' (k - n) (by omega)
    rwa [Nat.add_sub_cancel' (Nat.le_of_not_lt hn)] at this

section Ranges

variable {s t u : State} {n m j : Nat} {a x : Word}

theorem outside_add : outside x (n + m) a ↔ outside x n a ∧ outside x m (a + BitVec.ofNat 32 n) :=
  forall_byte_add (P := fun y => location x ≠ location y)

theorem hitsBar_add {bar : Word} :
    hitsBar bar (n + m) a ↔ hitsBar bar n a ∨ hitsBar bar m (a + BitVec.ofNat 32 n) := by
  rw [← not_iff_not, not_or]
  simp only [hitsBar, not_exists, not_and]
  exact forall_byte_add (P := fun y => ¬ y.toNat / 4 % 2 ^ 29 = bar.toNat / 4 % 2 ^ 29)

theorem State.accessible_add :
    s.accessible (n + m) a = true ↔ s.accessible n a = true ∧ s.accessible m (a + BitVec.ofNat 32 n) = true := by
  simp only [State.accessible_iff]
  exact forall_byte_add (P := fun y => mapped s.params y = true ∧ s.aliasClash y = false)

/-- The bytes of a range are not those of the next one, within the 2^31 locations there are. -/
theorem outside_next (a : Word) (hj : j < n) (h : n + m ≤ Memory.size) :
    outside (a + BitVec.ofNat 32 j) m (a + BitVec.ofNat 32 n) := by
  have behind := (outside_add.mp (outside_self (n := n - j - 1 + m) (a + BitVec.ofNat 32 j) (by omega))).2
  rwa [add_ofNat_succ, add_ofNat_add, show j + (n - j - 1 + 1) = n by omega] at behind

/-- Checking a range leaves the next one as accessible as it was. -/
theorem touch_accessible_next (h : touch n a s = .next t) (hn : n + m ≤ Memory.size) :
    t.accessible m (a + BitVec.ofNat 32 n) = s.accessible m (a + BitVec.ofNat 32 n) := by
  induction n generalizing a s with
  | zero => cases h; rfl
  | succ n ih =>
    unfold touch at h
    split at h
    · split at h
      · cases h
      · have behind := outside_next (m := m) a n.succ_pos hn
        rw [BitVec.add_zero] at behind
        have := ih h (by omega)
        rwa [add_ofNat_succ, State.accessible_noteAlias behind] at this
    · cases h

theorem memRead_accessible_next {v : Word} (h : memRead n a s = .next (v, t)) (hn : n + m ≤ Memory.size) :
    t.accessible m (a + BitVec.ofNat 32 n) = s.accessible m (a + BitVec.ofNat 32 n) := by
  obtain ⟨w, hw, h⟩ := andThen_eq_next.mp h
  cases h
  rw [← touch_accessible_next hw hn]
  exact State.accessible_congr (by rfl) (by rfl) _ _

theorem memWrite_accessible_next {v : Word} (h : memWrite n a v s = .next t) (hn : n + m ≤ Memory.size) :
    t.accessible m (a + BitVec.ofNat 32 n) = s.accessible m (a + BitVec.ofNat 32 n) := by
  obtain ⟨w, hw, h⟩ := andThen_eq_next.mp h
  cases h
  rw [← touch_accessible_next hw hn]
  exact State.accessible_congr (by rfl) (by rfl) _ _

end Ranges

/-! ## Stores of a list (rule R265) -/

/-- What data writes to the `n` bytes from `a` leave: every other byte, and all but memory, the hit and the model's own
notes. -/
structure Wrote (s t : State) (n : Nat) (a : Word) : Prop where
  same : t = { s with mem := t.mem, stored := t.stored, hit := t.hit, aliasSeen := t.aliasSeen }
  canonical : t.mem.wf = true
  others : ∀ x, outside x n a → t.peek x = s.peek x
  hit : t.hit = true ↔ s.hit = true ∨ (s.flags.b = true ∧ hitsBar s.bar n a)

section Stores

variable {s t u regs : State} {n m k : Nat} {a v : Word}

theorem memWrite_wrote (hn : n ≤ 4) (ha : Alone s) (hw : s.mem.wf = true) (hacc : s.accessible n a = true) (v : Word) :
    ∃ t, memWrite n a v s = .next t ∧ bytesNat t n a = v.toNat % 2 ^ (8 * n) ∧ Wrote s t n a := by
  obtain ⟨t, ht, hb, ho, e, hh⟩ := dataWriteStoresTheBytes n a v s hn ha hw hacc
  have hm : t.mem = s.mem.store n a v := congrArg State.mem (memWrite_alone ha ht).1
  exact ⟨t, ht, hb, e, hm ▸ Memory.store_wf hw n a v, ho, hh⟩

/-- Writing nothing. -/
theorem Wrote.refl (hw : s.mem.wf = true) (a : Word) : Wrote s s 0 a :=
  ⟨rfl, hw, fun _ _ => rfl, by simp [hitsBar]⟩

/-- Writes to adjacent ranges. -/
theorem Wrote.append (h : Wrote s t n a) (h' : Wrote t u m (a + BitVec.ofNat 32 n)) : Wrote s u (n + m) a where
  same := h'.same.trans (congrArg (fun w : State =>
    { w with mem := u.mem, stored := u.stored, hit := u.hit, aliasSeen := u.aliasSeen }) h.same)
  canonical := h'.canonical
  others x hx := by
    obtain ⟨first, second⟩ := outside_add.mp hx
    rw [h'.others x second, h.others x first]
  hit := by
    have hf : t.flags = s.flags := by rw [h.same]
    have hb : t.bar = s.bar := by rw [h.same]
    rw [h'.hit, h.hit, hf, hb, hitsBar_add]
    tauto

/-- The end of an instruction that wrote. -/
theorem Wrote.retire (h : Wrote s t n a) (next : Word) (window : Bool) :
    Stored s (t.retire next window) n a ∧ Ends s (t.retire next window) next window := by
  have he := t.retire_ends next window
  refine ⟨?_, { he with pc := by rw [he.pc, h.same] }⟩
  exact
    { registers := fun r _ => State.gpr_congr (by rw [State.retire_regs, h.same]) r 0
      specials := by rw [h.same]; exact ⟨rfl, rfl, rfl, rfl, rfl⟩
      flags := by rw [State.retire_flags, h.same]
      others := h.others
      environment := by rw [h.same]; exact ⟨rfl, rfl, rfl⟩
      hit := h.hit }

/-- A list of registers in memory: the highest number at the lowest address (rule R265). -/
theorem storeList_wrote (hk : k ≤ 16) (ha : Alone s) (hw : s.mem.wf = true) (hacc : s.accessible (4 * k) a = true) :
    ∃ t, storeList regs k a s = .next t ∧ Wrote s t (4 * k) a ∧
      ∀ r : Reg, r.toNat < k → bytesNat t 4 (a + BitVec.ofNat 32 (4 * (k - 1 - r.toNat))) = (regs.gpr r 0).toNat := by
  induction k generalizing s a with
  | zero => exact ⟨s, rfl, .refl hw a, fun r hr => absurd hr (Nat.not_lt_zero _)⟩
  | succ k ih =>
    have room : 4 + 4 * k ≤ Memory.size := by unfold Memory.size; omega
    rw [Nat.mul_succ, Nat.add_comm, State.accessible_add] at hacc
    obtain ⟨u, hu, hb, first⟩ := memWrite_wrote le_rfl ha hw hacc.1 (regs.gpr (BitVec.ofNat 4 k) 0)
    have hau : Alone u := by rw [first.same]; exact ha
    obtain ⟨t, ht, rest, hregs⟩ := ih (s := u) (a := a + BitVec.ofNat 32 4) (by omega) hau first.canonical
      ((memWrite_accessible_next hu room).trans hacc.2)
    refine ⟨t, ?_, ?_, fun r hr => ?_⟩
    · rw [storeList, hu, andThen_next]
      exact ht
    · rw [Nat.mul_succ, Nat.add_comm]
      exact first.append rest
    · by_cases hrk : r.toNat = k
      · have kept : bytesNat t 4 a = bytesNat u 4 a :=
          bytesNat_congr 4 a fun j hj => rest.others _ (outside_next a hj room)
        subst hrk
        rw [show 4 * (r.toNat + 1 - 1 - r.toNat) = 0 by omega, BitVec.add_zero, kept, hb, BitVec.ofNat_toNat,
          BitVec.setWidth_eq]
        exact Nat.mod_eq_of_lt (BitVec.isLt _)
      · have := hregs r (by omega)
        rwa [add_ofNat_add, show 4 + 4 * (k - 1 - r.toNat) = 4 * (k + 1 - 1 - r.toNat) by omega] at this

end Stores

/-- A register list by the place of each register in memory, the highest number first (rules R265, R266). -/
theorem list_by_place {P : Reg → Word → Prop} {n : Reg} {ea : Word}
    (h : ∀ r : Reg, r.toNat < n.toNat + 1 → P r (ea + BitVec.ofNat 32 (4 * (n.toNat + 1 - 1 - r.toNat)))) {k : Nat}
    (hk : k ≤ n.toNat) : P (BitVec.ofNat 4 (n.toNat - k)) (ea + BitVec.ofNat 32 (4 * k)) := by
  have hnum : (BitVec.ofNat 4 (n.toNat - k)).toNat = n.toNat - k := Nat.mod_eq_of_lt (by omega)
  have hat := h (BitVec.ofNat 4 (n.toNat - k)) (by omega)
  rwa [hnum, show n.toNat + 1 - 1 - (n.toNat - k) = k by omega] at hat

/-- MOVEM to memory writes its list at the resolved address (rule R265). -/
theorem exec_movemStore {s u : State} {rs : Reg} {dst : AddrMode} {ea : Word} (hr : rs ≠ pcReg) (ha : Alone s)
    (hw : s.mem.wf = true) (h : resolve dst (listStep rs) (inList rs) none s = .next (ea, u))
    (hacc : u.accessible (4 * (rs.toNat + 1)) ea = true) :
    ∃ t, exec (.movemStore rs dst) s = .next (t.retire (s.pc + 2) false) ∧ Wrote u t (4 * (rs.toNat + 1)) ea ∧
      ∀ r : Reg, r.toNat < rs.toNat + 1 →
        bytesNat t 4 (ea + BitVec.ofNat 32 (4 * (rs.toNat + 1 - 1 - r.toNat))) = (s.gpr r 0).toNat := by
  have e := resolve_eq_next h
  have hau : Alone u := by rw [e]; exact ha
  have hwu : u.mem.wf = true := by rw [e]; exact hw
  obtain ⟨t, ht, wrote, hregs⟩ := storeList_wrote (regs := s) (k := rs.toNat + 1) rs.isLt hau hwu hacc
  refine ⟨t, ?_, wrote, hregs⟩
  change refuseIf (rs == pcReg) _ (andThen (resolve dst (listStep rs) (inList rs) none s) _) = _
  rw [refuseIf_of (by simpa using hr), h, andThen_next]
  exact congrArg (andThen · fun u => .next (u.retire s.nextPc false)) ht

/-! ## Loads of a list (rule R266) -/

/-- What loading the registers below `k` from address `a` upward leaves: the highest number from the lowest address. -/
structure ListLoaded (s t : State) (k : Nat) (a : Word) : Prop where
  same : t = { s with regs := t.regs, hit := t.hit, aliasSeen := t.aliasSeen }
  hit : t.hit = true ↔ s.hit = true ∨ (s.flags.b = true ∧ hitsBar s.bar (4 * k) a)
  loaded : ∀ r : Reg, r.toNat < k → (t.gpr r 0).toNat = bytesNat s 4 (a + BitVec.ofNat 32 (4 * (k - 1 - r.toNat)))
  kept : ∀ r : Reg, k ≤ r.toNat → t.gpr r 0 = s.gpr r 0

section Loads

variable {s t u : State} {k : Nat} {a v : Word}

/-- Loading nothing. -/
theorem ListLoaded.refl (s : State) (a : Word) : ListLoaded s s 0 a :=
  ⟨rfl, by simp [hitsBar], fun r hr => absurd hr (Nat.not_lt_zero r.toNat), fun _ _ => rfl⟩

/-- Loading one register, then those below it from the addresses above. -/
theorem ListLoaded.cons (hk : k < 15) (hv : v.toNat = bytesNat s 4 a) (first : Accessed s u 4 a)
    (rest : ListLoaded (u.setGpr (BitVec.ofNat 4 k) v) t k (a + BitVec.ofNat 32 4)) : ListLoaded s t (k + 1) a := by
  have hnum : (BitVec.ofNat 4 k).toNat = k := Nat.mod_eq_of_lt (by omega)
  have hpc : BitVec.ofNat 4 k ≠ pcReg := fun e => hk.ne (hnum.symm.trans (congrArg BitVec.toNat e))
  have hflags : u.flags = s.flags := by rw [first.same]
  have hbar : u.bar = s.bar := by rw [first.same]
  have hmem : u.mem = s.mem := by rw [first.same]
  have hregs : u.regs = s.regs := by rw [first.same]
  refine ⟨?_, ?_, fun r hr => ?_, fun r hr => ?_⟩
  · have same := rest.same
    rw [State.setGpr_eq, first.same] at same
    exact same
  · rw [rest.hit, State.setGpr_flags, State.setGpr_bar, State.setGpr_hit, hflags, hbar, first.hit, Nat.mul_succ,
      Nat.add_comm (4 * k), hitsBar_add]
    tauto
  · by_cases hrk : r.toNat = k
    · have hr : r = BitVec.ofNat 4 k := BitVec.eq_of_toNat_eq (hrk.trans hnum.symm)
      rw [rest.kept r hrk.ge, hr, State.gpr_setGpr_self _ hpc, hnum, hv, show 4 * (k + 1 - 1 - k) = 0 by omega,
        BitVec.add_zero]
    · rw [rest.loaded r (by omega), add_ofNat_add, show 4 + 4 * (k - 1 - r.toNat) = 4 * (k + 1 - 1 - r.toNat) by omega]
      exact bytesNat_congr 4 _ fun _ _ => State.peek_congr ((State.setGpr_mem u _ _).trans hmem) _
  · have hne : r ≠ BitVec.ofNat 4 k := fun e => by rw [e, hnum] at hr; omega
    rw [rest.kept r (by omega), State.gpr_setGpr_ne _ hne]
    exact State.gpr_congr hregs r 0

theorem loadList_loaded (hk : k ≤ 15) (ha : Alone s) (hacc : s.accessible (4 * k) a = true) :
    ∃ t, loadList k a s = .next t ∧ ListLoaded s t k a := by
  induction k generalizing s a with
  | zero => exact ⟨s, rfl, .refl s a⟩
  | succ k ih =>
    have room : 4 + 4 * k ≤ Memory.size := by unfold Memory.size; omega
    rw [Nat.mul_succ, Nat.add_comm, State.accessible_add] at hacc
    obtain ⟨v, u, hu, hv, first⟩ := dataReadYieldsTheBytes 4 a s le_rfl ha hacc.1
    have hau : Alone (u.setGpr (BitVec.ofNat 4 k) v) := by
      rw [Alone, State.setGpr_params, first.same]
      exact ha
    have hnext : (u.setGpr (BitVec.ofNat 4 k) v).accessible (4 * k) (a + BitVec.ofNat 32 4) = true := by
      rw [State.accessible_congr (State.setGpr_params u _ _) (State.setGpr_aliasSeen u _ _),
        memRead_accessible_next hu room]
      exact hacc.2
    obtain ⟨t, ht, rest⟩ := ih (by omega) hau hnext
    refine ⟨t, ?_, .cons hk hv first rest⟩
    rw [loadList, hu]
    exact ht

/-- MOVEM from memory loads its list from the resolved address (rule R266). -/
theorem exec_movemLoad {rd : Reg} {src : AddrMode} {ea : Word} (hr : rd ≠ pcReg) (ha : Alone s)
    (h : resolve src (listStep rd) (inList rd) none s = .next (ea, u))
    (hacc : u.accessible (4 * (rd.toNat + 1)) ea = true) :
    ∃ t, exec (.movemLoad rd src) s = .next (t.retire (s.pc + 2) false) ∧ ListLoaded u t (rd.toNat + 1) ea := by
  have e := resolve_eq_next h
  have hau : Alone u := by rw [e]; exact ha
  obtain ⟨t, ht, loaded⟩ := loadList_loaded (Reg.lt_of_ne_pc hr) hau hacc
  refine ⟨t, ?_, loaded⟩
  change refuseIf (rd == pcReg) _ (andThen (resolve src (listStep rd) (inList rd) none s) _) = _
  rw [refuseIf_of (by simpa using hr), h, andThen_next]
  exact congrArg (andThen · fun u => .next (u.retire s.nextPc false)) ht

/-- The end of an instruction that loaded a list: the accesses, then the registers. -/
theorem ListLoaded.retire {n : Reg} (h : ListLoaded s t (n.toNat + 1) a) (next : Word) (window : Bool) :
    Accessed s { s with hit := t.hit, aliasSeen := t.aliasSeen } (4 * (n.toNat + 1)) a ∧
      Kept { s with hit := t.hit, aliasSeen := t.aliasSeen } (t.retire next window) (fun r => r.toNat ≤ n.toNat) ∧
      Ends s (t.retire next window) next window := by
  have he := t.retire_ends next window
  refine ⟨⟨rfl, h.hit⟩, ?_, { he with pc := by rw [he.pc, h.same] }⟩
  exact
    { registers := fun r _ hn => h.kept r (by omega)
      specials := by rw [h.same]; exact ⟨rfl, rfl, rfl, rfl, rfl⟩
      enables := by rw [h.same]; exact ⟨rfl, rfl, rfl⟩
      bytes := State.peek_congr (by rw [h.same]; rfl)
      environment := by rw [h.same]; exact ⟨rfl, rfl, rfl⟩
      hit := rfl }

end Loads

/-- Settles O57: both directions go through the list one register at a time, from the highest number down. -/
theorem multipleMoves : Obligations.MultipleMoves := by
  refine ⟨fun s u rs dst ea hr ha hw h hacc => ?_, fun s u rd src ea hr ha h hacc => ?_⟩
  · obtain ⟨t, ht, wrote, hregs⟩ := exec_movemStore hr ha hw h hacc
    exact ⟨_, ht, fun k hk => (bytesNat_congr 4 _ fun _ _ => rfl).trans
      (list_by_place (P := fun r b => bytesNat t 4 b = (s.gpr r 0).toNat) hregs hk), wrote.retire _ _⟩
  · obtain ⟨t, ht, loaded⟩ := exec_movemLoad hr ha h hacc
    obtain ⟨accessed, kept, ends⟩ := loaded.retire (s.pc + 2) false
    have hflags : t.flags = s.flags := by rw [loaded.same, resolve_eq_next h]
    exact ⟨_, _, ht, fun k hk => list_by_place (P := fun r b => (t.gpr r 0).toNat = bytesNat u 4 b) loaded.loaded hk,
      accessed, kept, by rw [State.retire_flags, hflags], ends⟩

end Sys2Proof.Machine

/-! PROOFS. Which trap a step takes, the acknowledge sequences of the interrupt, the NMI and the hardware breakpoint, the
instructions that open the interrupt-disable window, and the end of a run. -/

namespace Sys2Proof.Machine

/-! ## The trap that a step takes (rules R300 part 1, R305, R311) -/

section Due

variable {s : State} {inp : Input} {k : TrapKind}

/-- A step with no reset takes the trap that is due (rule R300). -/
theorem step_of_trap (hr : s.input.reset = none) (hd : dueTrap s.input s.afterInput = some k) :
    step s = takeTrap k s.input s.afterInput := by
  unfold step oneStep
  rw [hr, hd]

/-- Every order considers all three traps. -/
theorem TrapOrder.mem_kinds (o : TrapOrder) (k : TrapKind) : k ∈ o.kinds := by
  cases o <;> cases k <;> decide

/-- An order that considers the given trap first. -/
def TrapOrder.first : TrapKind → TrapOrder
  | .breakpoint => .hni
  | .nmi => .nhi
  | .interrupt => .ihn

theorem TrapOrder.kinds_first (k : TrapKind) : ∃ rest, (TrapOrder.first k).kinds = k :: rest := by
  cases k <;> exact ⟨_, rfl⟩

theorem dueTrap_of_window (h : s.irqWindow = true) : dueTrap inp s = none := if_pos h

theorem dueTrap_of_no_window (h : s.irqWindow = false) : dueTrap inp s = inp.order.kinds.find? (eligible inp s) :=
  if_neg (by rw [h]; decide)

theorem dueTrap_of_not_eligible (h : ∀ k, eligible inp s k = false) : dueTrap inp s = none := by
  unfold dueTrap
  split
  · rfl
  · exact List.find?_eq_none.mpr fun k _ => by simp [h k]

/-- Outside the window an eligible trap means that one is due, and the due one is eligible. -/
theorem exists_dueTrap (hw : s.irqWindow = false) (h : eligible inp s k = true) :
    ∃ j, dueTrap inp s = some j ∧ eligible inp s j = true := by
  rw [dueTrap_of_no_window hw]
  obtain ⟨j, hj⟩ := Option.isSome_iff_exists.mp (List.find?_isSome.mpr ⟨k, inp.order.mem_kinds k, h⟩)
  exact ⟨j, hj, List.find?_some hj⟩

/-- The trap considered first is due when it is eligible. -/
theorem dueTrap_first (hw : s.irqWindow = false) (ho : inp.order = .first k) (h : eligible inp s k = true) :
    dueTrap inp s = some k := by
  obtain ⟨rest, hk⟩ := TrapOrder.kinds_first k
  rw [dueTrap_of_no_window hw, ho, hk, List.find?_cons_of_pos h]

/-! Neither which traps are eligible nor what taking one does depends on the order. -/

theorem eligible_withOrder (s : State) (o : TrapOrder) (k : TrapKind) :
    eligible (s.withOrder o).input (s.withOrder o).afterInput k = eligible s.input s k := by cases k <;> rfl

theorem takeTrap_withOrder (s : State) (o : TrapOrder) (k : TrapKind) :
    takeTrap k (s.withOrder o).input (s.withOrder o).afterInput = takeTrap k s.input s.afterInput := by cases k <;> rfl

theorem eligible_afterInput (s : State) (k : TrapKind) : eligible inp s.afterInput k = eligible inp s k := by
  cases k <;> rfl

theorem eligible_breakpoint : eligible inp s .breakpoint = true ↔ s.hit = true := Iff.rfl

theorem eligible_nmi : eligible inp s .nmi = true ↔ inp.nmi ≠ none ∧ s.flags.m = true := by
  simp [eligible, Option.isSome_iff_ne_none]

theorem eligible_interrupt : eligible inp s .interrupt = true ↔ inp.irq ≠ none ∧ s.flags.i = true := by
  simp [eligible, Option.isSome_iff_ne_none]

/-- Nothing that is enabled is pending. -/
theorem not_eligible (hh : s.hit = false) (hn : inp.nmi = none ∨ s.flags.m = false)
    (hi : inp.irq = none ∨ s.flags.i = false) (k : TrapKind) : eligible inp s k = false := by
  rw [← Bool.not_eq_true]
  cases k with
  | breakpoint => simp [eligible_breakpoint, hh]
  | nmi => obtain h | h := hn <;> simp [eligible_nmi, h]
  | interrupt => obtain h | h := hi <;> simp [eligible_interrupt, h]

end Due

/-- Settles O10: with no trap due the step runs an instruction; an eligible trap is due under an order that considers it
first, and under any order some eligible trap is. -/
theorem anyEligibleTrapMayBeTaken : Obligations.AnyEligibleTrapMayBeTaken := by
  refine fun s hr => ⟨fun h => step_of_no_trap hr ?_, fun hw => ⟨fun k hk => ?_, fun k hk => ?_, eligible_breakpoint,
    eligible_nmi, eligible_interrupt⟩⟩
  · obtain hw | ⟨hh, hn, hi⟩ := h
    · exact dueTrap_of_window hw
    · exact dueTrap_of_not_eligible (not_eligible hh hn hi)
  · have hd : dueTrap (s.withOrder (.first k)).input (s.withOrder (.first k)).afterInput = some k :=
      dueTrap_first hw rfl ((eligible_withOrder s _ k).trans hk)
    exact ⟨.first k, rfl, rfl, hd, (step_of_trap (s := s.withOrder (.first k)) hr hd).trans (takeTrap_withOrder s _ k)⟩
  · obtain ⟨j, hd, hj⟩ := exists_dueTrap (s := s.afterInput) hw ((eligible_afterInput s k).trans hk)
    exact ⟨j, (eligible_afterInput s j).symm.trans hj, hd, step_of_trap hr hd⟩

/-! ## The acknowledge sequences (rules R301, R302, R306, R309, R310) -/

section Acknowledge

variable {s : State} {p : Pointer} {vec : Byte} {a target : Word}

theorem State.vectorAddress_eq (s : State) (vec : Byte) :
    s.vectorAddress vec = BitVec.ofNat 32 (s.ibr.toNat + 4 * vec.toNat) := by
  rw [← State.vectorAddress_toNat, BitVec.ofNat_toNat, BitVec.setWidth_eq]

/-- A vector is an aligned dword: reading it is one bus access (rules R29, R64). -/
theorem State.vectorAddress_aligned (s : State) (vec : Byte) : (s.vectorAddress vec).toNat % 4 = 0 := by
  rw [State.vectorAddress_toNat, State.ibr_toNat]
  omega

/-- The state after the vector read, as `takeException` has it: the comparison with BAR is made only when
`HWBP_ON_VECTOR_READ` says so. -/
def State.watchVector (s : State) (a : Word) : State := if s.params.breakOnVectorRead then s.watch 4 a else s

theorem State.watchVector_eq (s : State) (a : Word) : s.watchVector a = { s with hit := (s.watchVector a).hit } := by
  unfold State.watchVector
  split <;> rfl

/-- A hit of the vector read is recorded when `HWBP_ON_VECTOR_READ` holds, B is set and BAR matches (rule R309). -/
theorem State.watchVector_hit_iff (s : State) (a : Word) : (s.watchVector a).hit = true ↔
    s.hit = true ∨ (s.params.breakOnVectorRead = true ∧ s.flags.b = true ∧ hitsBar s.bar 4 a) := by
  unfold State.watchVector
  split
  case isTrue h => simp only [h, State.watch_hit_iff, true_and]
  case isFalse h => simp only [h, Bool.false_eq_true, false_and, or_false]

/-- From `s` to `w` the vector at `a` is read: the other bus masters wrote before, and the read leaves a hit perhaps and the
note of the aliases used (rules R65, R309). -/
structure VectorRead (s w : State) (a : Word) : Prop where
  same : w = { s.yieldBus with hit := w.hit, aliasSeen := w.aliasSeen }
  hit : w.hit = true ↔ s.hit = true ∨ (s.params.breakOnVectorRead = true ∧ s.flags.b = true ∧ hitsBar s.bar 4 a)

/-- The end of an acknowledge sequence: the pointer receives `v`, pc the target, and the window opens (rule R301). -/
def State.acknowledged (s : State) (p : Pointer) (v target : Word) : State :=
  { s.setPointer p v with pc := target, irqWindow := true }

theorem VectorRead.acknowledged {w : State} (h : VectorRead s w a) (p : Pointer) (v target : Word) :
    w.acknowledged p v target =
      { s.yieldBus.acknowledged p v target with hit := w.hit, aliasSeen := w.aliasSeen } := by
  rw [h.same]
  cases p <;> rfl

theorem State.acknowledged_hit (s : State) (p : Pointer) (v target : Word) : (s.acknowledged p v target).hit = s.hit :=
  s.setPointer_hit p v

theorem State.acknowledged_aliasSeen (s : State) (p : Pointer) (v target : Word) :
    (s.acknowledged p v target).aliasSeen = s.aliasSeen := s.setPointer_aliasSeen p v

/-- An acknowledge sequence reads its vector in one bus access and jumps to what it reads (rules R62, R64, R301). -/
theorem takeException_of_accessible (p : Pointer) (h : s.accessible 4 (s.vectorAddress vec) = true) :
    ∃ w, VectorRead s w (s.vectorAddress vec) ∧ takeException p vec s =
      refuseOdd (s.yieldBus.mem.load 4 (s.vectorAddress vec))
        (.next (w.acknowledged p s.pc (s.yieldBus.mem.load 4 (s.vectorAddress vec)))) := by
  have ha : (s.vectorAddress vec).toNat % 4 + 4 ≤ 4 := by rw [State.vectorAddress_aligned]
  obtain ⟨t, ht⟩ := touch_of_accessible (by decide) h
  obtain ⟨aliasSeen, rfl⟩ : ∃ aliasSeen, t = { s with aliasSeen } := ⟨_, touch_eq_next ht⟩
  refine ⟨State.watchVector { s.yieldBus with aliasSeen } (s.vectorAddress vec), ⟨?_, ?_⟩, ?_⟩
  · rw [State.watchVector_eq]
  · exact State.watchVector_hit_iff _ _
  · simp only [takeException, ht, andThen_next, Bus.read_within ha]
    rfl

/-- Whatever trap is acknowledged, the pointer, pc and the window are written, and the vector read leaves its traces; an odd
vector is refused (rules R50, R301, R309). -/
theorem takeException_acknowledges (p : Pointer) (ha : a = BitVec.ofNat 32 (s.ibr.toNat + 4 * vec.toNat))
    (h : s.accessible 4 a = true) (ht : target = BitVec.ofNat 32 (bytesNat s.yieldBus 4 a)) :
    (isOdd target → takeException p vec s = .refused .oddProgramCounter) ∧
    (¬ isOdd target → ∃ t, takeException p vec s = .next t ∧
      t = { s.yieldBus.acknowledged p s.pc target with hit := t.hit, aliasSeen := t.aliasSeen } ∧
      (t.hit = true ↔ s.hit = true ∨ (s.params.breakOnVectorRead = true ∧ s.flags.b = true ∧ hitsBar s.bar 4 a))) := by
  rw [← State.vectorAddress_eq] at ha
  subst ha
  rw [← load_four_eq] at ht
  subst ht
  obtain ⟨w, hw, he⟩ := takeException_of_accessible p h
  rw [he]
  refine ⟨fun ho => refuseOdd_odd ho _, fun ho => ⟨_, refuseOdd_even ho _, ?_, ?_⟩⟩
  · rw [State.acknowledged_hit, State.acknowledged_aliasSeen]
    exact hw.acknowledged p _ _
  · rw [State.acknowledged_hit, hw.hit]

end Acknowledge

/-- Settles O7: the sequence of `takeException` with IRP, started in the state whose input is consumed. -/
theorem interruptAcknowledgeSequence : Obligations.InterruptAcknowledgeSequence := by
  intro s vec a target hr hv hd ha hacc ht
  rw [step_of_trap hr hd, takeTrap, hv]
  exact takeException_acknowledges (s := s.afterInput) .irp ha hacc ht

/-- Settles O8: the sequence of `takeException` with BRP, started with M cleared. -/
theorem nmiAcknowledgeSequence : Obligations.NmiAcknowledgeSequence := by
  intro s vec a target hr hv hd ha hacc ht
  rw [step_of_trap hr hd, takeTrap, hv]
  exact takeException_acknowledges (s := { s.afterInput with flags := { s.flags with m := false } }) .brp ha hacc ht

/-- Settles O9: the sequence of `takeException` with BRP for vector 0x20, started with no hit pending. -/
theorem hardwareBreakpointSequence : Obligations.HardwareBreakpointSequence := by
  intro s a target hr hd ha hacc ht
  rw [step_of_trap hr hd]
  obtain ⟨hodd, heven⟩ := takeException_acknowledges (vec := 0x20#8) (s := { s.afterInput with
    hit := false, flags := { s.flags with m := Config.maskAfterHit s.draws }, draws := s.draws + 1 }) .brp ha hacc ht
  refine ⟨hodd, fun ho => ?_⟩
  obtain ⟨t, he, hs, hh⟩ := heven ho
  refine ⟨t, he, hs.trans ?_, hh.trans (by simp)⟩
  rw [hs]
  rfl

/-! ## The instructions that open the window (rule R305) -/

/-- The kinds that end with the window open. -/
theorem Kind.finish_window {k : Kind} {window extend : Bool} (h : k.finish = some (window, extend)) :
    window = true ↔ k = .fromSpecial ∨ (∃ p, k = .toSpecial p) ∨ k = .delayed ∨
      ∃ l, k = .setsFlags l ∧ l.getLsbD 4 = true := by
  cases k <;> cases h <;> simp

/-- A move to a special register is a transfer (rule R305(b)). -/
theorem transfersSpecial_of_movesTo {p : PNum} {i : Instr} (h : movesTo p i) : transfersSpecial i := by
  obtain ⟨rs, rfl⟩ | ⟨src, rfl⟩ | rfl := h <;> simp [transfersSpecial]

theorem kindOf_of_isBranch {i : Instr} (h : isBranch i) : kindOf i = .delayed := by
  obtain ⟨_, _, rfl⟩ | ⟨_, rfl⟩ | ⟨_, _, rfl⟩ | ⟨_, rfl⟩ := h <;> rfl

theorem kindOf_of_isReturn {i : Instr} (h : isReturn i) : kindOf i = .delayed := by
  obtain rfl | rfl | rfl | ⟨p, hp, rfl⟩ := h
  case inr.inr.inr => exact if_pos ⟨rfl, hp⟩
  all_goals rfl

/-- A transfer to or from a special register is of one of three kinds. -/
theorem kindOf_of_transfersSpecial {i : Instr} (h : transfersSpecial i) :
    kindOf i = .fromSpecial ∨ (∃ p, kindOf i = .toSpecial p) ∨ kindOf i = .delayed := by
  obtain ⟨p, _, rfl⟩ | ⟨p, rd, rfl⟩ | ⟨p, _, rfl⟩ | ⟨_, _, rfl⟩ | ⟨p, rfl⟩ | ⟨_, rfl⟩ | ⟨_, rfl⟩ | ⟨_, rfl⟩ | ⟨_, rfl⟩ |
    ⟨_, rfl⟩ | ⟨_, rfl⟩ | ⟨_, rfl⟩ | h := h
  · exact .inr (.inl ⟨p, rfl⟩)
  · by_cases h : rd = pcReg ∧ p.returnPointer = true
    · exact .inr (.inr (if_pos h))
    · exact .inl (if_neg h)
  · exact .inr (.inl ⟨p, rfl⟩)
  · exact .inl rfl
  · exact .inr (.inl ⟨p, rfl⟩)
  iterate 7 exact .inl rfl
  · exact .inr (.inr (kindOf_of_isReturn h))

/-- An instruction is on the list exactly when its kind ends with the window open. -/
theorem opensWindow_iff {i : Instr} : opensWindow i ↔ kindOf i = .fromSpecial ∨ (∃ p, kindOf i = .toSpecial p) ∨
    kindOf i = .delayed ∨ ∃ l, kindOf i = .setsFlags l ∧ l.getLsbD 4 = true := by
  constructor
  · rintro (h | h | h)
    · obtain hk | hk | hk := kindOf_of_transfersSpecial h
      exacts [.inl hk, .inr (.inl hk), .inr (.inr (.inl hk))]
    · exact .inr (.inr (.inr (kindOf_of_setsFlag h)))
    · exact .inr (.inr (.inl (kindOf_of_isBranch h)))
  · rintro (hk | ⟨p, hk⟩ | hk | ⟨l, hk, hl⟩)
    · exact .inl (describes_of_kind hk)
    · exact .inl (transfersSpecial_of_movesTo (describes_of_kind hk))
    · obtain h | h := describes_of_kind hk
      · exact .inr (.inr h)
      · exact .inl (by simp [transfersSpecial, h])
    · exact .inr (.inl (describes_of_kind hk 4 (by decide) hl))

/-- Settles O19: an instruction ends with the window of its kind, a `prefixWord` with the window it began with. -/
theorem windowIsOpenedExactlyByTheList : Obligations.WindowIsOpenedExactlyByTheList := by
  intro i s t h
  obtain ⟨window, extend, hk, hf⟩ | ⟨hk, hp⟩ := (exec_effect i s t h).cases
  · refine ⟨fun _ => ?_, fun hi => by rw [kindOf_of_isPrefixWord hi] at hk; cases hk⟩
    rw [hf.window, Kind.finish_window hk, opensWindow_iff]
  · exact ⟨fun hi => absurd (describes_of_kind hk) hi, fun _ => hp.window⟩

/-! ## The end of a run (rule R323) -/

section Run

variable {s t : State}

theorem State.ended_iff : s.ended = true ↔ s.params.endOfRun = some s.pc := beq_iff_eq

/-- At its end a run goes no further. -/
theorem runToEnd_of_ended (h : s.ended = true) (k : Nat) : runToEnd k s = .next s := by
  cases k with
  | zero => rfl
  | succ k => exact if_pos h

/-- Before its end a run goes on with a step. -/
theorem runToEnd_succ (h : s.ended = false) (k : Nat) : runToEnd (k + 1) s = andThen (step s) (runToEnd k) :=
  if_neg (by rw [h]; decide)

/-- A run of at most one step is that step. -/
theorem runToEnd_one (h : s.ended = false) : runToEnd 1 s = step s := by
  rw [runToEnd_succ h]
  cases step s <;> rfl

/-- All that an answer of a run says: it ended at once, or a step was taken. -/
theorem runToEnd_succ_eq_next {k : Nat} (h : runToEnd (k + 1) s = .next t) :
    (s.ended = true ∧ t = s) ∨ s.ended = false ∧ ∃ u, step s = .next u ∧ runToEnd k u = .next t := by
  cases he : s.ended with
  | true =>
    rw [runToEnd_of_ended he] at h
    cases h
    exact .inl ⟨rfl, rfl⟩
  | false =>
    rw [runToEnd_succ he] at h
    exact .inr ⟨rfl, andThen_eq_next.mp h⟩

/-- Steps allowed beyond the end are not taken. -/
theorem runToEnd_add_of_ended {k : Nat} (j : Nat) (h : runToEnd k s = .next t) (ht : t.ended = true) :
    runToEnd (k + j) s = .next t := by
  induction k generalizing s with
  | zero =>
    cases h
    exact runToEnd_of_ended ht _
  | succ k ih =>
    obtain ⟨hs, rfl⟩ | ⟨hs, u, hu, h⟩ := runToEnd_succ_eq_next h
    · exact runToEnd_of_ended hs _
    · rw [Nat.succ_add, runToEnd_succ hs, hu, andThen_next, ih h]

/-- A run that has not ended takes the next step allowed. -/
theorem runToEnd_succ_of_not_ended {k : Nat} (h : runToEnd k s = .next t) (ht : t.ended = false) :
    runToEnd (k + 1) s = step t := by
  induction k generalizing s with
  | zero =>
    cases h
    exact runToEnd_one ht
  | succ k ih =>
    obtain ⟨hs, rfl⟩ | ⟨hs, u, hu, h⟩ := runToEnd_succ_eq_next h
    · rw [hs] at ht
      cases ht
    · rw [runToEnd_succ hs, hu, andThen_next, ih h]

/-- No run changes a parameter, as no step does. -/
theorem runToEnd_params {k : Nat} (h : runToEnd k s = .next t) : t.params = s.params := by
  induction k generalizing s with
  | zero =>
    cases h
    rfl
  | succ k ih =>
    obtain ⟨-, rfl⟩ | ⟨-, u, hu, h⟩ := runToEnd_succ_eq_next h
    · rfl
    · rw [ih h, (parametersNeverChange s u hu).1]

end Run

/-- Settles O16: each clause by induction on the steps allowed. -/
theorem runsEndAtTheStatedAddress : Obligations.RunsEndAtTheStatedAddress :=
  ⟨fun _ => State.ended_iff, fun _ _ j _ => runToEnd_add_of_ended j, fun _ _ _ => runToEnd_succ_of_not_ended,
    fun _ _ _ => runToEnd_params⟩

end Sys2Proof.Machine

/-! PROOFS. A reset presented at an instruction boundary. -/

namespace Sys2Proof.Machine

/-- A reset that is presented comes before every trap and every instruction (rules R300, R340). -/
theorem step_of_reset {s : State} {u : Unknowns} (h : s.input.reset = some u) :
    step s = .next (s.afterInput.systemReset u) := by
  unfold step oneStep
  rw [h]

/-! What a reset initialises whatever the state was (rules R340, R341, decision D16). -/

@[simp] theorem State.systemReset_pc (u : Unknowns) (s : State) : (s.systemReset u).pc = resetVector := rfl
@[simp] theorem State.systemReset_flags (u : Unknowns) (s : State) : (s.systemReset u).flags = Flags.clear := rfl
@[simp] theorem State.systemReset_ibrHigh (u : Unknowns) (s : State) : (s.systemReset u).ibrHigh = 0 := rfl
@[simp] theorem State.systemReset_ibr (u : Unknowns) (s : State) : (s.systemReset u).ibr = 0 :=
  BitVec.eq_of_toNat_eq (by simp [State.ibr_toNat])
@[simp] theorem State.systemReset_irqWindow (u : Unknowns) (s : State) : (s.systemReset u).irqWindow = false := rfl
@[simp] theorem State.systemReset_slot (u : Unknowns) (s : State) : (s.systemReset u).slot = .none := rfl
@[simp] theorem State.systemReset_hit (u : Unknowns) (s : State) : (s.systemReset u).hit = false := rfl

/-! The registers it leaves unknown (rule R48). -/

@[simp] theorem State.systemReset_regs (u : Unknowns) (s : State) : (s.systemReset u).regs = u.regs := rfl
@[simp] theorem State.systemReset_irp (u : Unknowns) (s : State) : (s.systemReset u).irp = u.irp := rfl
@[simp] theorem State.systemReset_srp (u : Unknowns) (s : State) : (s.systemReset u).srp = u.srp := rfl
@[simp] theorem State.systemReset_bar (u : Unknowns) (s : State) : (s.systemReset u).bar = u.bar := rfl
@[simp] theorem State.systemReset_brp (u : Unknowns) (s : State) : (s.systemReset u).brp = u.brp := rfl

theorem flagByte_clear : flagByte Flags.clear = 0 := rfl

/-- Settles O11: the step is the reset of the state whose input is consumed, and neither of the two touches memory or the
parameters. -/
theorem resetFromAnyState : Obligations.ResetFromAnyState := by
  intro s u h
  have hmem : (s.afterInput.systemReset u).mem = s.mem := by simp
  have hparams : (s.afterInput.systemReset u).params = s.params := by simp
  have hvr : specialNat (s.afterInput.systemReset u) 1#4 = s.params.version.value.toNat := by
    rw [specialNat_vr, hparams]
  refine ⟨_, step_of_reset h, State.systemReset_pc u _, ?flags, State.systemReset_ibr u _, hvr, ?hidden⟩
  case flags => rw [State.systemReset_flags, flagByte_clear]
  case hidden => simp [State.peek_congr hmem]

end Sys2Proof.Machine
